-- ==== Sys2Proof/Word.lean ====
section
/-! DEFINITION. The word types of the Axmar model and the finite-index helpers over them.
A `BitVec` stands for what the manual treats as bits (register contents, packed records, raw encodings);
addresses of cells, counts and indices are plain `Nat`. -/
namespace Sys2Proof

/-- One byte. -/
abbrev Byte := BitVec 8
/-- A 16-bit value. -/
abbrev W16 := BitVec 16
/-- A v register lane, a queue entry, an immediate (R14, R77). -/
abbrev W32 := BitVec 32
/-- An s register, a lane mask, an address register (R14, R26). -/
abbrev W64 := BitVec 64
/-- An accumulator element in XF48 (R107). -/
abbrev W48 := BitVec 48
/-- An instruction word (R77). -/
abbrev W96 := BitVec 96
/-- The widest operand, `.b128`, and a twin accumulator (R80, R48). -/
abbrev W128 := BitVec 128
/-- A set of lanes of one group, bit `i` for lane `i` (R26). -/
abbrev Mask := BitVec 64

/-- The member of `Fin (n + 1)` with the low value of `x`. -/
def finOf (n : Nat) (x : Nat) : Fin (n + 1) := Fin.ofNat (n + 1) x

theorem finOf_val (n : Nat) (i : Fin (n + 1)) : finOf n i.val = i := by
  simp [finOf, Fin.ofNat, Nat.mod_eq_of_lt i.isLt]

/-- A truth value as a number. -/
def bnat (b : Bool) : Nat := if b then 1 else 0

end Sys2Proof
end

