-- ==== Sys2Proof/Config.lean ====
section
/-! DEFINITION. What an implementation fixes or the spec leaves open.
The opaque constants have no body: no proof can see a value of them, so a statement about them holds for every value.
Every one of them is named in the assumption log. -/
namespace Sys2Proof.Config

/-- R150: which of the values within the bound `VACT` returns. The number selects among the admissible results of
`VACT.fn.ft` on these input bits: it depends on the function code, the format code and the input bits alone (log 11). -/
opaque vactChoice : (fn ft : Nat) → (bits : Nat) → Nat

/-- R150: the same for `VDACT.softplus`, of the saved output and the incoming gradient (log 11). -/
opaque vdactChoice : (ft : Nat) → (y g : Nat) → Nat

/-- R425: whether a 1,280-byte Falcon-1024 signature verifies under the vendor's public key over a 32-byte digest.
The spec gives no key and no algorithm text (log 12). -/
opaque vendorVerifies : (digest signature : List Byte) → Bool

/-- R427: the device identity key's signature over a digest (log 12). -/
opaque identitySign : (digest : List Byte) → Vector Byte 1280

/-- R427: the identity public key of 1,793 bytes (log 12). -/
opaque identityKey : Vector Byte 1793

/-- R427: the vendor's certificate of the identity key (log 12). -/
opaque identityCert : Vector Byte 1280

/-- R30, R428: by how many nanoseconds, modulo 5, die `d` would lag the global timestamp at arithmetic clock `c`
(the dies agree within 4 ns; log 4). -/
opaque timeSkew : (die clock : Nat) → Nat

/-- R61, R97: what a latch holds where the spec names no value: in a lane outside `EXEC`, in a lane that popped no entry, and
above the bytes that it holds. The value is free for each team, group, clock of the group's word and lane (log 24). -/
opaque openLatch : (launch team group tick lane : Nat) → BitVec 128

/-- R410, R430: bits 127:4 of the device's own fabric endpoint address; the straps give the low four bits (log 12). -/
opaque endpointHigh : BitVec 124

/-- R428: the clocks per microsecond of the arithmetic clock (3.0 GHz). -/
def clocksPerMicrosecond : Nat := 3000

/-- R39: bytes of a near tier of one die (48 GiB). -/
def nearTierBytes : Nat := 48 * 2 ^ 30
/-- R39: bytes of a far tier of one die (256 GiB). -/
def farTierBytes : Nat := 256 * 2 ^ 30

end Sys2Proof.Config
end

