-- ==== Sys2Proof/Syntax.lean ====
section
/-! DEFINITION. The instructions, events and host commands of the Axmar, one constructor of `Instr` for each row of
spec/opcode_table.json. Register numbers, types, modes and packed subfields are decoded here into types of their own;
a raw encoding appears only in `Sys2Proof.Decode`. Uniform integer forms (`OP` + 0x20, R85) are the same constructor as
the vector form with `uni` set. -/
namespace Sys2Proof

/-! ### Operands and word header -/

/-- An operand named by a 9-bit field (R79). -/
inductive Opnd where
  | v (n : Fin 256)
  | s (n : Fin 64)
  | l (n : Fin 3)
  | p (n : Fin 8)
  | zero
  | q (n : Fin 16)
  | imm
deriving DecidableEq, Repr

/-- The `HOLD` field: which source operand is copied into its latch (R77, R97). -/
inductive Hold where
  | none | a | b | c
deriving DecidableEq, Repr

/-- The fields every instruction uses alike (R77): lookahead count, guard predicate and its negation, hold. -/
structure Hdr where
  la : Fin 16
  gp : Fin 8
  gn : Bool
  hold : Hold
deriving DecidableEq, Repr

/-- The integer types of R83. -/
inductive ITy where
  | b8 | b16 | b32 | b64 | b128 | i8 | i16 | i32 | i64 | n8 | n16 | n32 | n64
deriving DecidableEq, Repr

/-- The floating and narrow types of R84. -/
inductive FTy where
  | f32 | f16 | bf16 | f16x2 | bf16x2 | e4m3 | ct8
deriving DecidableEq, Repr

/-- The rounding modes of R84. -/
inductive RMode where
  | rne | rtz | rup | rdn | rs | rto
deriving DecidableEq, Repr

/-- A condition of ICMP (R140). -/
inductive ICond where
  | eq | ne | lt | le | gt | ge
deriving DecidableEq, Repr

/-- A condition of FCMP (R144). -/
inductive FCond where
  | eq | lt | le | gt | ge | ne | num | nan
deriving DecidableEq, Repr

/-- The function of VACT and VDACT (R150). -/
inductive ActFn where
  | sig | tanh | exp | relu | softplus | gelu
deriving DecidableEq, Repr

/-- The source of CVT (R146): a floating format, an integer type, or FP32 converted to `.i32`. -/
inductive CvtSrc where
  | fp (t : FTy)
  | int (t : ITy)
  | toI32
deriving DecidableEq, Repr

/-- The mode of SHFL (R154). -/
inductive ShflMode where
  | idx | up | down | xor
deriving DecidableEq, Repr

/-- The mode of VOTE (R155). -/
inductive VoteMode where
  | all | any | uni | ballot
deriving DecidableEq, Repr

/-- The operation of GRED with its type or rounding (R156). -/
inductive GredOp where
  | add (t : ITy) | min (t : ITy) | max (t : ITy)
  | and (t : ITy) | or (t : ITy) | xor (t : ITy)
  | fadd (rm : RMode) | fmin | fmax
deriving DecidableEq, Repr

/-- The operation of ATOM and ATOMS (R202). -/
inductive AtomOp where
  | add | fadd | minI | minN | maxI | maxN | and | or | xor | exch | cas | maxkey
deriving DecidableEq, Repr

/-- The condition of WAITF (R159). -/
inductive WCond where
  | eq | ne | ge | lt
deriving DecidableEq, Repr

/-- The condition of WSTATE (R215). -/
inductive WinCond where
  | bound | full | idle | absent
deriving DecidableEq, Repr

/-- The element format of TACC (R216). -/
inductive TwFmt where
  | f32 | f16 | bf16
deriving DecidableEq, Repr

/-- `AFT`: the value format of ALD and AST (R244). -/
inductive AFmt where
  | f32 | f16 | bf16 | x48
deriving DecidableEq, Repr

/-- The format of mesh weights and rows, `WF` and `AF` (R227). -/
inductive MFmt where
  | e4m3 | bf16
deriving DecidableEq, Repr

/-- `SP`: sparsity of a latch source (R227). -/
inductive Sparsity where
  | dense | sp16 | sp8
deriving DecidableEq, Repr

/-- The scale factor of a memory operand's index (R82). -/
inductive Scale where
  | x1 | x2 | x4 | x8 | x16
deriving DecidableEq, Repr

/-- A memory operand: base, index, scale and signed byte offset (R82). -/
structure MemOp where
  base : Opnd
  index : Opnd
  scale : Scale
  off : W32
deriving DecidableEq, Repr

/-- A sequencer operand (R81, format STR). -/
inductive SOp where
  | m (n : Fin 16)
  | zero
  | imm
deriving DecidableEq, Repr

/-! ### Payloads of the instruction words -/

/-- One-source integer word (R138). -/
structure Int1 where
  h : Hdr
  uni : Bool
  ty : ITy
  sat : Bool
  d : Opnd
  a : Opnd
  imm : W32
deriving DecidableEq, Repr

/-- Two-source integer word (R138). -/
structure Int2 where
  h : Hdr
  uni : Bool
  ty : ITy
  sat : Bool
  d : Opnd
  a : Opnd
  b : Opnd
  imm : W32
deriving DecidableEq, Repr

/-- Three-source integer word: IMAD, BFI, SEL (R138). -/
structure Int3 where
  h : Hdr
  uni : Bool
  ty : ITy
  sat : Bool
  d : Opnd
  a : Opnd
  b : Opnd
  c : Opnd
  imm : W32
deriving DecidableEq, Repr

/-- ICMP (R140). -/
structure IcmpW where
  h : Hdr
  uni : Bool
  cc : ICond
  ty : ITy
  d : Opnd
  a : Opnd
  b : Opnd
  imm : W32
deriving DecidableEq, Repr

/-- MOVI (R141). -/
structure MoviW where
  h : Hdr
  uni : Bool
  ty : ITy
  d : Opnd
  imm : W32
deriving DecidableEq, Repr

/-- MOVI.hi: the uniform `.b64` form alone (R141). -/
structure MoviHiW where
  h : Hdr
  d : Opnd
  imm : W32
deriving DecidableEq, Repr

/-- One-source floating word (R143). -/
structure Fp1 where
  h : Hdr
  rm : RMode
  ft : FTy
  d : Opnd
  a : Opnd
  imm : W32
deriving DecidableEq, Repr

/-- Two-source floating, narrow or table word (R143, R149, R152, R153). -/
structure Fp2 where
  h : Hdr
  rm : RMode
  ft : FTy
  d : Opnd
  a : Opnd
  b : Opnd
  imm : W32
deriving DecidableEq, Repr

/-- FFMA (R143). -/
structure Fp3 where
  h : Hdr
  rm : RMode
  ft : FTy
  d : Opnd
  a : Opnd
  b : Opnd
  c : Opnd
  imm : W32
deriving DecidableEq, Repr

/-- FCMP (R144). -/
structure FcmpW where
  h : Hdr
  cc : FCond
  ft : FTy
  d : Opnd
  a : Opnd
  b : Opnd
  imm : W32
deriving DecidableEq, Repr

/-- CVT (R146). `b` is present exactly in the packing forms from `.f32`. -/
structure CvtW where
  h : Hdr
  src : CvtSrc
  rm : RMode
  ft : FTy
  d : Opnd
  a : Opnd
  b : Option Opnd
  imm : W32
deriving DecidableEq, Repr

/-- QNTT (R149). -/
structure QnttW where
  h : Hdr
  col : Bool
  rm : RMode
  d : Opnd
  a : Opnd
  b : Opnd
  c : Opnd
  imm : W32
deriving DecidableEq, Repr

/-- VACT (R150). -/
structure VactW where
  h : Hdr
  fn : ActFn
  rm : RMode
  ft : FTy
  d : Opnd
  a : Opnd
  imm : W32
deriving DecidableEq, Repr

/-- VDACT (R150). -/
structure VdactW where
  h : Hdr
  fn : ActFn
  rm : RMode
  ft : FTy
  d : Opnd
  a : Opnd
  b : Opnd
  imm : W32
deriving DecidableEq, Repr

/-- SRSEED (R148). -/
structure SrseedW where
  h : Hdr
  a : Opnd
  b : Opnd
  imm : W32
deriving DecidableEq, Repr

/-- SHFL (R154); `wide` selects `.b64`. -/
structure ShflW where
  h : Hdr
  mode : ShflMode
  wide : Bool
  d : Opnd
  a : Opnd
  b : Opnd
  c : Opnd
  imm : W32
deriving DecidableEq, Repr

/-- VOTE (R155). -/
structure VoteW where
  h : Hdr
  mode : VoteMode
  d : Opnd
  a : Opnd
deriving DecidableEq, Repr

/-- GRED (R156). -/
structure GredW where
  h : Hdr
  op : GredOp
  d : Opnd
  a : Opnd
deriving DecidableEq, Repr

/-- PRMT (R157). -/
structure PrmtW where
  h : Hdr
  d : Opnd
  a : Opnd
  b : Opnd
  c : Opnd
  imm : W32
deriving DecidableEq, Repr

/-- A control word without operands (R159). -/
structure Ctl0 where
  h : Hdr
deriving DecidableEq, Repr

/-- A control word with a displacement: BRA (R159). -/
structure CtlDisp where
  h : Hdr
  disp : W32
deriving DecidableEq, Repr

/-- A control word with a token: JOIN, BREAK, REJOIN (R159). -/
structure CtlTok where
  h : Hdr
  k : Fin 8
deriving DecidableEq, Repr

/-- A control word with a token and a displacement: BR.D, JOPEN (R159). -/
structure CtlTokDisp where
  h : Hdr
  k : Fin 8
  disp : W32
deriving DecidableEq, Repr

/-- A control word with one address operand: BRX, RET, TSPAWN (R159). -/
structure CtlA where
  h : Hdr
  a : Opnd
deriving DecidableEq, Repr

/-- CALL (R159). -/
structure CallW where
  h : Hdr
  d : Opnd
  disp : W32
deriving DecidableEq, Repr

/-- EJECT: `c` chunks, written as `c1` = c − 1 (R159). -/
structure EjectW where
  h : Hdr
  k : Fin 8
  c1 : Fin 4
  disp : W32
deriving DecidableEq, Repr

/-- A word with a 16-bit code or marker: TRAP, MARK, HALT (R159, R253). -/
structure CodeW where
  h : Hdr
  code : W16
deriving DecidableEq, Repr

/-- NBAR.ARR and NBAR.SYNC (R159). -/
structure NbarW where
  h : Hdr
  k : Fin 16
  d : Opnd
deriving DecidableEq, Repr

/-- NBAR.WAIT (R159). -/
structure NbarWaitW where
  h : Hdr
  k : Fin 16
deriving DecidableEq, Repr

/-- CTAKE, CGIVE, CWAIT (R159). -/
structure CtrW where
  h : Hdr
  k : Fin 32
  a : Opnd
  imm : W32
deriving DecidableEq, Repr

/-- WAITF (R159). -/
structure WaitfW where
  h : Hdr
  cc : WCond
  d : Opnd
  mem : MemOp
deriving DecidableEq, Repr

/-- A word with one number operand: RGIVE, RCLAIM, CANCEL (R159). -/
structure NumW where
  h : Hdr
  a : Opnd
  imm : W32
deriving DecidableEq, Repr

/-- RSWITCH (R159). -/
structure RswitchW where
  h : Hdr
  a : Opnd
  b : Opnd
  disp : W32
deriving DecidableEq, Repr

/-- TNEXT (R159). -/
structure TnextW where
  h : Hdr
  d : Opnd
deriving DecidableEq, Repr

/-- TSCOPE (R159). -/
structure TscopeW where
  h : Hdr
  d : Opnd
  a : Opnd
  b : Opnd
  imm : W32
deriving DecidableEq, Repr

/-- LD (R195). -/
structure LdW where
  h : Hdr
  ty : ITy
  acq : Bool
  u : Bool
  d : Opnd
  mem : MemOp
deriving DecidableEq, Repr

/-- ST (R195). -/
structure StW where
  h : Hdr
  ty : ITy
  rel : Bool
  d : Opnd
  mem : MemOp
deriving DecidableEq, Repr

/-- LDS and STS (R199). -/
structure SpW where
  h : Hdr
  ty : ITy
  col : Bool
  d : Opnd
  mem : MemOp
deriving DecidableEq, Repr

/-- ATOM (R202). -/
structure AtomW where
  h : Hdr
  op : AtomOp
  wide : Bool
  acq : Bool
  rel : Bool
  d : Opnd
  c : Opnd
  mem : MemOp
deriving DecidableEq, Repr

/-- ATOMS (R202). -/
structure AtomsW where
  h : Hdr
  op : AtomOp
  wide : Bool
  d : Opnd
  c : Opnd
  mem : MemOp
deriving DecidableEq, Repr

/-- A word with a memory operand alone: FENCE, CFLUSH, CINV, CTLD (R204, R151). -/
structure MemW where
  h : Hdr
  mem : MemOp
deriving DecidableEq, Repr

/-- PREF; `llc` selects `.llc` (R204). -/
structure PrefW where
  h : Hdr
  llc : Bool
  mem : MemOp
deriving DecidableEq, Repr

/-- A word with a register and a memory operand: SPEMPTY, SPSTATE, TCNT, TRESET (R208, R216). -/
structure RegMemW where
  h : Hdr
  d : Opnd
  mem : MemOp
deriving DecidableEq, Repr

/-- WBIND and WARM (R215). -/
structure WinW where
  h : Hdr
  k : Fin 32
  go : Bool
  a : Opnd
  off : W32
deriving DecidableEq, Repr

/-- WPUT (R215). -/
structure WputW where
  h : Hdr
  k : Fin 32
deriving DecidableEq, Repr

/-- WSTATE (R215). -/
structure WstateW where
  h : Hdr
  k : Fin 32
  cc : WinCond
  d : Opnd
deriving DecidableEq, Repr

/-- TACC (R216). -/
structure TaccW where
  h : Hdr
  ft : TwFmt
  d : Opnd
  mem : MemOp
deriving DecidableEq, Repr

/-- TCONS (R216). -/
structure TconsW where
  h : Hdr
  nb : Bool
  d : Opnd
  mem : MemOp
deriving DecidableEq, Repr

/-- ATAKE (R244). -/
structure AtakeW where
  h : Hdr
  t : Fin 8
deriving DecidableEq, Repr

/-- AGIVE (R244). -/
structure AgiveW where
  h : Hdr
  t : Fin 8
  a : Opnd
  imm : W32
deriving DecidableEq, Repr

/-- ALD (R244). -/
structure AldW where
  h : Hdr
  rm : RMode
  ft : AFmt
  t : Fin 8
  d : Opnd
  a : Opnd
  off : W32
deriving DecidableEq, Repr

/-- AST (R244). -/
structure AstW where
  h : Hdr
  ft : AFmt
  t : Fin 8
  d : Opnd
  a : Opnd
  off : W32
deriving DecidableEq, Repr

/-- AWIN (R244): window `k`, tile, rows `a` to `b`, drain group `g`. -/
structure AwinW where
  h : Hdr
  k : Fin 2
  t : Fin 8
  a : Opnd
  b : Opnd
  g : Fin 64
deriving DecidableEq, Repr

/-- AWIN.unp (R244). -/
structure AwinUnpW where
  h : Hdr
  k : Fin 2
deriving DecidableEq, Repr

/-- COLL.ARM (R253). -/
structure CollArmW where
  h : Hdr
  d : Opnd
  a : Opnd
  off : W32
deriving DecidableEq, Repr

/-- A system word with a base and an offset: COLL.PUT, TLBI.va (R253). -/
structure BaseOffW where
  h : Hdr
  a : Opnd
  off : W32
deriving DecidableEq, Repr

/-- SRD (R253). -/
structure SrdW where
  h : Hdr
  d : Opnd
  idx : BitVec 12
deriving DecidableEq, Repr

/-- SWR (R253). -/
structure SwrW where
  h : Hdr
  a : Opnd
  idx : BitVec 12
deriving DecidableEq, Repr

/-- SVC (R253). -/
structure SvcW where
  h : Hdr
  code : Byte
deriving DecidableEq, Repr

/-- EVT (R253). -/
structure EvtW where
  h : Hdr
  a : Opnd
  code : W16
deriving DecidableEq, Repr

/-- MLATCH (R227); `second` names the second mesh (`TILE` 4). -/
structure MlatchW where
  wf : MFmt
  sp : Sparsity
  exp : Bool
  col : Bool
  l : Fin 2
  second : Bool
  win : Fin 32
  d : SOp
  a : SOp
  b : SOp
  imm : W32
deriving DecidableEq, Repr

/-- MSTREAM.F and MSTREAM.B (R227). -/
structure MstreamW where
  af : MFmt
  col : Bool
  both : Bool
  za : Bool
  l : Fin 2
  t : Fin 8
  win : Fin 32
  d : SOp
  a : SOp
  b : SOp
  imm : W32
deriving DecidableEq, Repr

/-- MZERO (R227). -/
structure MzeroW where
  t : Fin 8
  d : SOp
  b : SOp
  imm : W32
deriving DecidableEq, Repr

/-- MSCALE (R227). -/
structure MscaleW where
  t : Fin 8
  d : SOp
  a : SOp
  b : SOp
  imm : W32
deriving DecidableEq, Repr

/-- MDRAIN (R227). -/
structure MdrainW where
  rm : RMode
  ft : FTy
  t : Fin 8
  win : Fin 32
  d : SOp
  a : SOp
  b : SOp
  imm : W32
deriving DecidableEq, Repr

/-- MDRAIN.T (R227). -/
structure MdrainTW where
  t : Fin 8
  win : Fin 32
  d : SOp
  a : SOp
  b : SOp
  imm : W32
deriving DecidableEq, Repr

/-- MTAKE (R227). -/
structure MtakeW where
  t : Fin 8
deriving DecidableEq, Repr

/-- MGIVE (R227). -/
structure MgiveW where
  t : Fin 8
  a : SOp
  imm : W32
deriving DecidableEq, Repr

/-- MWIN (R227). -/
structure MwinW where
  a : SOp
  imm : W32
deriving DecidableEq, Repr

/-- MBAR.arr and MBAR.sync (R227). -/
structure MbarW where
  rd : Bool
  k : Fin 16
deriving DecidableEq, Repr

/-- MBAR.wait (R227). -/
structure MbarWaitW where
  k : Fin 16
deriving DecidableEq, Repr

/-- MSET (R227). -/
structure MsetW where
  d : SOp
  a : SOp
  imm : W32
deriving DecidableEq, Repr

/-- MADD (R227). -/
structure MaddW where
  d : SOp
  a : SOp
  b : SOp
  imm : W32
deriving DecidableEq, Repr

/-- MLOOP (R227). -/
structure MloopW where
  d : SOp
  disp : W32
deriving DecidableEq, Repr

/-- MJMP (R227). -/
structure MjmpW where
  disp : W32
deriving DecidableEq, Repr

/-! ### References and messages of events -/

/-- A team of a launch by its logical index; `shadow` names the second copy of R354. -/
structure TeamRef where
  launch : Nat
  idx : Nat
  shadow : Bool
deriving DecidableEq, Repr

/-- A party that runs group words: a group by index, or a continuation of the helper core by its number (R169). -/
inductive Who where
  | grp (i : Nat)
  | cont (n : Nat)
deriving DecidableEq, Repr

/-- A group or continuation of a team. -/
structure GRef where
  t : TeamRef
  who : Who
deriving DecidableEq, Repr

/-- The operation of a collective (R263). -/
inductive CollOp where
  | sumF32 | sumBf16 | maxF32 | maxabsF32
deriving DecidableEq, Repr

/-- One block of a formed put (R266): the scale of a compressed block and the elements' bits. -/
structure PutBlock where
  scale : W32
  elems : List W32
deriving DecidableEq, Repr

/-- A formed put on its way to its hub (R266, R416). -/
structure PutPkt where
  die : Fin 4
  slot : Fin 256
  tag : W32
  rank : Nat
  op : CollOp
  n : Nat
  bf16 : Bool
  comp : Bool
  blocks : List PutBlock
deriving DecidableEq, Repr

/-- What a peer request asks for (R413). Offsets are bytes within one 128-byte line. -/
inductive PeerKind where
  | store (bytes : List (Nat × Byte))
  | load (off len : Nat) (counted : Bool) (c : Nat)
  | atomic (op : AtomOp) (wide : Bool) (off : Nat) (arg new : W64)
  | tacc (fmt : TwFmt) (elems : List (Nat × W32))
  /-- `fault`, `tmo` and `size` are the sender page's `TWPOL`, wait in clocks and element size (R375). -/
  | tcons (offs : List Nat) (nb fault : Bool) (tmo size : Nat)
  | tcnt
  | put (p : PutPkt)
deriving DecidableEq, Repr

/-- A peer request (R413): the sender's endpoint and job, the transport's sequence number, the line's virtual address. -/
structure PeerReq where
  src : W128
  job : W32
  seq : Nat
  va : Nat
  kind : PeerKind
deriving DecidableEq, Repr

/-- A reply to a peer request (R413): 0 or the cause code of a refusal (R379), and the data as numbers. -/
structure PeerRep where
  src : W128
  seq : Nat
  status : Nat
  data : List Nat
deriving DecidableEq, Repr

/-- A message of the Krail command channel (R417): the sender's endpoint, the header's fields, the body.
`rsvd` says that some reserved header bit was set. -/
structure HostMsg where
  src : W128
  tag : W32
  die : Fin 4
  len : Nat
  stat : W32
  dev : Bool
  rpl : Bool
  rsvd : Bool
  body : List Byte
deriving DecidableEq, Repr

/-- The straps sampled at the release of reset (R430). -/
structure Straps where
  id : Fin 16
  tmode : Bool
deriving DecidableEq, Repr

/-- Where an error of a memory was found: a physical line, or a line of the spans of a core, numbered from span 0 on (R273, R295). -/
inductive EccLoc where
  | line (pa : Nat)
  | span (core : Fin 128) (n : Fin 20480)
deriving DecidableEq, Repr

/-! ### The instructions -/

/-- The steps of the Axmar, one constructor per row of spec/opcode_table.json: instruction words first,
then the events that happen inside the device, then the commands and inputs of the host and the peers. -/
inductive Instr where
  | iadd (x : Int2) | isub (x : Int2) | imul (x : Int2) | imulh (x : Int2) | imad (x : Int3)
  | imin (x : Int2) | imax (x : Int2) | iabs (x : Int1)
  | and (x : Int2) | or (x : Int2) | xor (x : Int2) | shl (x : Int2) | shr (x : Int2) | sar (x : Int2)
  | bfx (x : Int2) | bfi (x : Int3) | popc (x : Int1) | clz (x : Int1)
  | icmp (x : IcmpW) | sel (x : Int3) | mov (x : Int1) | movi (x : MoviW) | moviHi (x : MoviHiW)
  | fadd (x : Fp2) | fmul (x : Fp2) | ffma (x : Fp3) | fmin (x : Fp2) | fmax (x : Fp2) | fcmp (x : FcmpW)
  | frcp (x : Fp1) | frsq (x : Fp1) | fsqrt (x : Fp1) | fexp2 (x : Fp1) | flog2 (x : Fp1) | cvt (x : CvtW)
  | qnt (x : Fp2) | qntt (x : QnttW) | dqnt (x : Fp2) | vact (x : VactW) | vdact (x : VdactW)
  | ctld (x : MemW) | ctdec (x : Fp2) | ctenc (x : Fp2) | maxkey (x : Fp2) | srseed (x : SrseedW)
  | shfl (x : ShflW) | vote (x : VoteW) | gred (x : GredW) | prmt (x : PrmtW)
  | bra (x : CtlDisp) | brD (x : CtlTokDisp) | brx (x : CtlA) | call (x : CallW) | ret (x : CtlA)
  | jopen (x : CtlTokDisp) | join (x : CtlTok) | brk (x : CtlTok) | exit (x : Ctl0)
  | eject (x : EjectW) | rejoin (x : CtlTok) | yield (x : Ctl0) | nop (x : Ctl0) | trap (x : CodeW)
  | nbarArr (x : NbarW) | nbarWait (x : NbarWaitW) | nbarSync (x : NbarW)
  | barrierRelease (t : TeamRef) (k : Fin 16)
  | ctake (x : CtrW) | cgive (x : CtrW) | cwait (x : CtrW) | takeQueueServe (t : TeamRef) (k : Fin 32)
  | waitf (x : WaitfW) | waitTimeout (g : GRef)
  | rgive (x : NumW) | chunkReturn (t : TeamRef) | rclaim (x : NumW) | claimQueueServe (t : TeamRef) (odd : Bool)
  | teamStall (t : TeamRef) | rswitch (x : RswitchW) | rpoint (x : Ctl0) | governorArm (t : TeamRef)
  | mark (x : CodeW) | scheduleMissTimeout (g : GRef) | markTimeout (g : GRef)
  | tnext (x : TnextW) | tdone (x : Ctl0) | tspawn (x : CtlA) | tscope (x : TscopeW)
  | cancel (x : NumW) | groupKill (g : GRef) | cancelAck (launch : Nat) (scope : Nat)
  | ld (x : LdW) | st (x : StW) | lds (x : SpW) | sts (x : SpW) | atom (x : AtomW) | atoms (x : AtomsW)
  | longLatencyDelivery (g : GRef) (i : Nat) | lateFailure (g : GRef) (i : Nat)
  | fence (x : MemW) | pref (x : PrefW) | cflush (x : MemW) | cinv (x : MemW)
  | spempty (x : RegMemW) | spstate (x : RegMemW)
  | wbind (x : WinW) | warm (x : WinW) | wput (x : WputW) | wstate (x : WstateW)
  | copyLine (t : TeamRef) (w : Fin 32) | copyFault (t : TeamRef) (w : Fin 32)
  | tacc (x : TaccW) | tcons (x : TconsW) | twinEarlyTimeout (g : GRef) (i : Nat)
  | tcnt (x : RegMemW) | treset (x : RegMemW)
  | atake (x : AtakeW) | agive (x : AgiveW) | ald (x : AldW) | ast (x : AstW)
  | awin (x : AwinW) | awinUnp (x : AwinUnpW)
  | mlatch (x : MlatchW) | mstreamF (x : MstreamW) | mstreamB (x : MstreamW) | mzero (x : MzeroW)
  | mscale (x : MscaleW) | mdrain (x : MdrainW) | mdrainT (x : MdrainTW) | meshWordFinish (t : TeamRef)
  | mtake (x : MtakeW) | mgive (x : MgiveW) | mwin (x : MwinW)
  | mbarArr (x : MbarW) | mbarSync (x : MbarW) | mbarWait (x : MbarWaitW)
  | mset (x : MsetW) | madd (x : MaddW) | mloop (x : MloopW) | mjmp (x : MjmpW) | mend
  | collArm (x : CollArmW) | collPut (x : BaseOffW) | putArrival (n : Nat)
  | collDeadline (die : Fin 4) (slot : Fin 256) | hubCombine (die : Fin 4) (slot : Fin 256)
  | slotWriteFault (die : Fin 4) (slot : Fin 256)
  | srd (x : SrdW) | swr (x : SwrW) | svc (x : SvcW) | rfe (x : Ctl0)
  | tlbiVa (x : BaseOffW) | tlbiCtx (x : CtlA) | tlbiAll (x : Ctl0) | evt (x : EvtW) | halt (x : CodeW)
  | versionFull (g : GRef) | segmentResolve (t : TeamRef)
  | launchEligible (n : Nat) | teamPlace (die : Fin 4) | launchCompletion (n : Nat)
  | pageMove (die : Fin 4) | victimRetry (die : Fin 4)
  | preemptDeadline (t : TeamRef) | teamSave (t : TeamRef) | owedReply (g : GRef) (i : Nat)
  | peerRequest (m : PeerReq) | peerReply (m : PeerRep) | retransmit (seq : Nat) | packetDiscard (src : W128)
  | flitReplay (boundary : Fin 4) | eccCorrected (loc : EccLoc) | eccUncorrectable (loc : EccLoc)
  | eventRingTake (die : Fin 4)
  | provision (m : HostMsg) | attest (m : HostMsg) | policy (m : HostMsg) | peers (m : HostMsg)
  | write (m : HostMsg) | read (m : HostMsg) | map (m : HostMsg) | unmap (m : HostMsg) | frames (m : HostMsg)
  | launch (m : HostMsg) | timetable (m : HostMsg) | preempt (m : HostMsg) | resume (m : HostMsg)
  | discard (m : HostMsg) | events (m : HostMsg)
  | reset (straps : Straps) | affinityWaitExpiry (launch : Nat) | storeAcknowledged (g : GRef) (i : Nat)
deriving DecidableEq, Repr

end Sys2Proof
end

