-- ==== Sys2Proof/Machine/Legality.lean ====
section
/-! DEFINITION. Which instruction words are legal as far as the word alone decides (R79 to R86, R98, R102 and the entry
of each instruction), and the operand view of a word: which operands it names in which field, how many registers each
spans, which classes the entry lists. Legality that depends on the team (queues held, a tile of a second mesh, the kind
of value in a latch, the group width) is checked when the word is executed. -/
namespace Sys2Proof

/-! ### Codes -/

/-- Width in bits of an integer type (R134). -/
def ITy.bits : ITy → Nat
  | .b8 | .i8 | .n8 => 8
  | .b16 | .i16 | .n16 => 16
  | .b32 | .i32 | .n32 => 32
  | .b64 | .i64 | .n64 => 64
  | .b128 => 128

/-- The `.i` types: signed (R134). -/
def ITy.signed : ITy → Bool
  | .i8 | .i16 | .i32 | .i64 => true
  | _ => false

/-- The `.n` types (R83). -/
def ITy.nat : ITy → Bool
  | .n8 | .n16 | .n32 | .n64 => true
  | _ => false

/-- The `.b` types (R83). -/
def ITy.bin : ITy → Bool
  | .b8 | .b16 | .b32 | .b64 | .b128 => true
  | _ => false

/-- Registers per lane of an operand of `bits` bits (R80, R134). -/
def regsOf (bits : Nat) : Nat := if bits ≤ 32 then 1 else bits / 32

/-- The five unpacked and packed formats of FADD (R143). -/
def FTy.arith : FTy → Bool
  | .f32 | .f16 | .bf16 | .f16x2 | .bf16x2 => true
  | .e4m3 | .ct8 => false

/-- Formats of 32 bits per register, with which a queue may be named (R133). -/
def FTy.is32 : FTy → Bool
  | .f32 | .f16x2 | .bf16x2 => true
  | _ => false

/-- Formats of 16 bits, packed or not. -/
def FTy.is16 : FTy → Bool
  | .f16 | .bf16 | .f16x2 | .bf16x2 => true
  | _ => false

/-! ### The operand view -/

/-- The classes of R79. -/
inductive OCls where
  | v | s | l | p | zero | q | imm
deriving DecidableEq, Repr

/-- The class of an operand. -/
def Opnd.cls : Opnd → OCls
  | .v _ => .v
  | .s _ => .s
  | .l _ => .l
  | .p _ => .p
  | .zero => .zero
  | .q _ => .q
  | .imm => .imm

/-- What a field asks of a latch it names (R133, R154, R156). -/
inductive LatReq where
  | any | uniform | perLane
deriving DecidableEq, Repr

/-- One operand field of a word: the operand, the registers it spans, the alignment of a v register, the classes the
entry lists, what it asks of a latch, and whether the field is written. -/
structure Ref where
  o : Opnd
  n : Nat
  al : Nat
  ok : List OCls
  lat : LatReq
  write : Bool
deriving DecidableEq, Repr

/-- The kind of a word (R85). -/
inductive Kind where
  | vector | uniform
deriving DecidableEq, Repr

/-- A group word seen through its operands. `imm` is the IMM field where it is used only by an operand 511, and `none`
where the format or the entry gives it another purpose (R80). -/
structure View where
  kind : Kind
  long : Bool
  h : Hdr
  d : Option Ref
  a : Option Ref
  b : Option Ref
  c : Option Ref
  imm : Option W32
deriving DecidableEq, Repr

/-- A source of one register. -/
def src (o : Opnd) (ok : List OCls) : Option Ref := some ⟨o, 1, 1, ok, .any, false⟩
/-- A source that must be uniform where it is a latch. -/
def usrc (o : Opnd) (ok : List OCls) : Option Ref := some ⟨o, 1, 1, ok, .uniform, false⟩
/-- A source of `n` aligned registers. -/
def srcN (o : Opnd) (n : Nat) (ok : List OCls) : Option Ref := some ⟨o, n, n, ok, .any, false⟩
/-- A destination of `n` aligned registers. -/
def dst (o : Opnd) (n : Nat) (ok : List OCls) : Option Ref := some ⟨o, n, n, ok, .any, true⟩

/-- Source classes of a vector form (R133); queues only with a 32-bit type. -/
def vSrc (q : Bool) : List OCls := [.v, .s, .l, .zero, .imm] ++ if q then [.q] else []
/-- Source classes of a uniform form (R133). -/
def uSrc : List OCls := [.s, .l, .zero, .imm]
/-- Destination classes of a vector form (R133). -/
def vDst (q : Bool) : List OCls := [.v, .zero] ++ if q then [.q] else []
/-- Destination classes of a uniform form (R133). -/
def uDst : List OCls := [.s, .zero]
/-- "n" of R159. -/
def nCls : List OCls := [.s, .l, .zero, .imm]
/-- "addr" of R159 and "n" of R253. -/
def addrCls : List OCls := [.s, .l, .zero]
/-- A base register (R82, R253). -/
def baseCls : List OCls := [.s, .zero]

/-- An integer source (R134): no s register in a `.b128` word. -/
def intSrc (uni : Bool) (t : ITy) (o : Opnd) : Option Ref :=
  if uni then usrc o uSrc
  else srcN o (regsOf t.bits) ((vSrc (t.bits == 32)).filter fun c => !(t.bits == 128 && c == .s))

/-- An integer destination (R134). -/
def intDst (uni : Bool) (t : ITy) (o : Opnd) : Option Ref :=
  if uni then dst o 1 uDst else dst o (regsOf t.bits) (vDst (t.bits == 32))

/-- The kind of an integer word (R85). -/
def uniKind (uni : Bool) : Kind := if uni then .uniform else .vector

/-- The view of a one-, two- or three-source integer word. -/
def intView (h : Hdr) (uni : Bool) (t : ITy) (d a : Opnd) (b c : Option Ref) (imm : W32) : View :=
  ⟨uniKind uni, false, h, intDst uni t d, intSrc uni t a, b, c, some imm⟩

/-- The view of a floating word whose source and destination formats are `fs` and `fd` (R142). -/
def fpView (h : Hdr) (long : Bool) (d : Option Ref) (a b c : Option Ref) (imm : W32) : View :=
  ⟨.vector, long, h, d, a, b, c, some imm⟩

/-- The classes of a base and an index field, with the index limited to uniform operands in uniform words (R82, R204). -/
def memA (m : MemOp) : Option Ref := src m.base baseCls
/-- See `memA`. -/
def memB (uni : Bool) (m : MemOp) : Option Ref := src m.index (if uni then [.s, .zero] else [.v, .s, .zero])

/-- The view of a MEM word. -/
def memView (k : Kind) (long : Bool) (h : Hdr) (d : Option Ref) (m : MemOp) (c : Option Ref) : View :=
  ⟨k, long, h, d, memA m, memB (k == .uniform) m, c, none⟩

/-- The view of a control or system word: all uniform but those listed in R85; `own` says that IMM has its own use. -/
def ctlView (k : Kind) (h : Hdr) (d a b : Option Ref) (imm : Option W32) : View :=
  ⟨k, false, h, d, a, b, none, imm⟩

/-- The special registers of 64 bits (R29, R256). -/
def srWide (idx : BitVec 12) : Bool := idx == 0x007 || idx == 0x008 || idx == 0x100 || idx == 0x102

/-- The register operand of a load or store of integer type `t` (R191, R195): no s register with `.b128`, and for a load
none with a per-lane index. -/
def ldCls (t : ITy) (m : MemOp) : List OCls :=
  [.v, .zero] ++ (if t.bits == 32 then [.q] else []) ++
    (if t.bits ≤ 64 && m.index.cls != .v then [.s] else [])
/-- See `ldCls`. -/
def stCls (t : ITy) : List OCls := [.v, .zero] ++ if t.bits ≤ 64 then [.s] else []

/-- Width of a GRED operand (R156). -/
def GredOp.bits : GredOp → Nat
  | .add t | .min t | .max t | .and t | .or t | .xor t => t.bits
  | .fadd _ | .fmin | .fmax => 32

/-- Registers of a QNT operand (R149): 128 / W sources, and the code registers with the scale register after them. -/
def qntSrcRegs (w : Nat) : Nat := 128 / w
/-- See `qntSrcRegs`. -/
def qntDstRegs (w : Nat) : Nat := if w = 16 then 3 else 2

/-- Whether a source of CVT is 32 bits wide, for the queue rule of R133. -/
def CvtSrc.is32 : CvtSrc → Bool
  | .fp t => t.is32
  | .int t => t.bits == 32
  | .toI32 => true

/-- The operand view of a group word in a group of width `w`; `none` for stream words and events. The operand written va of DQNT
and CTDEC takes every source class of R133, and that of QNT and CTENC, which spans registers, a v register alone; sa and sb of QNTT are
s registers alone, and its sd an s register or zero. The spec does not say which classes these five admit (R149, R152): the readings
are the model's (log 35). -/
def Instr.view (w : Nat) : Instr → Option View
  | .iadd x | .isub x | .imul x | .imulh x | .imin x | .imax x | .and x | .or x | .xor x
  | .shl x | .shr x | .sar x | .bfx x =>
      some (intView x.h x.uni x.ty x.d x.a (intSrc x.uni x.ty x.b) none x.imm)
  | .imad x | .bfi x =>
      some (intView x.h x.uni x.ty x.d x.a (intSrc x.uni x.ty x.b) (intSrc x.uni x.ty x.c) x.imm)
  | .sel x => some (intView x.h x.uni x.ty x.d x.a (intSrc x.uni x.ty x.b) (src x.c [.p]) x.imm)
  | .iabs x | .popc x | .clz x | .mov x => some (intView x.h x.uni x.ty x.d x.a none none x.imm)
  | .icmp x =>
      some ⟨uniKind x.uni, false, x.h, dst x.d 1 [.p], intSrc x.uni x.ty x.a, intSrc x.uni x.ty x.b, none, some x.imm⟩
  | .movi x => some ⟨uniKind x.uni, false, x.h, intDst x.uni x.ty x.d, none, none, none, none⟩
  | .moviHi x => some ⟨.uniform, false, x.h, dst x.d 1 uDst, none, none, none, none⟩
  | .fadd x | .fmul x | .fmin x | .fmax x | .maxkey x =>
      some (fpView x.h false (dst x.d 1 (vDst x.ft.is32)) (src x.a (vSrc x.ft.is32)) (src x.b (vSrc x.ft.is32)) none x.imm)
  | .ffma x =>
      some (fpView x.h false (dst x.d 1 (vDst x.ft.is32)) (src x.a (vSrc x.ft.is32)) (src x.b (vSrc x.ft.is32))
        (src x.c (vSrc x.ft.is32)) x.imm)
  | .fcmp x => some (fpView x.h false (dst x.d 1 [.p]) (src x.a (vSrc x.ft.is32)) (src x.b (vSrc x.ft.is32)) none x.imm)
  | .frcp x | .frsq x | .fsqrt x | .fexp2 x | .flog2 x =>
      some (fpView x.h true (dst x.d 1 (vDst x.ft.is32)) (src x.a (vSrc x.ft.is32)) none none x.imm)
  | .cvt x =>
      some (fpView x.h false (dst x.d 1 (vDst (x.ft.is32))) (src x.a (vSrc x.src.is32))
        (x.b.bind fun b => src b (vSrc x.src.is32)) none x.imm)
  | .qnt x =>
      some (fpView x.h false (some ⟨x.d, qntDstRegs w, 4, [.v, .zero], .any, true⟩)
        (srcN x.a (qntSrcRegs w) [.v]) (usrc x.b [.s, .l, .imm]) none x.imm)
  | .qntt x =>
      some (fpView x.h false (dst x.d 1 [.s, .zero]) (src x.a [.s]) (src x.b [.s]) (usrc x.c [.s, .l, .imm]) x.imm)
  | .dqnt x =>
      some (fpView x.h false (dst x.d (if x.ft = .f32 then 4 else 2) [.v, .zero]) (src x.a (vSrc true))
        (src x.b (vSrc true)) none x.imm)
  | .vact x => some (fpView x.h true (dst x.d 1 (vDst x.ft.is32)) (src x.a (vSrc x.ft.is32)) none none x.imm)
  | .vdact x =>
      some (fpView x.h true (dst x.d 1 (vDst x.ft.is32)) (src x.a (vSrc x.ft.is32)) (src x.b (vSrc x.ft.is32)) none x.imm)
  | .ctld x => some (memView .uniform false x.h none x.mem none)
  | .ctdec x => some (fpView x.h false (dst x.d 4 [.v, .zero]) (src x.a (vSrc true)) (src x.b (vSrc true)) none x.imm)
  | .ctenc x => some (fpView x.h false (dst x.d 1 [.v, .zero]) (srcN x.a 4 [.v]) (src x.b (vSrc true)) none x.imm)
  | .srseed x => some (ctlView .uniform x.h none (usrc x.a uSrc) (usrc x.b uSrc) (some x.imm))
  | .shfl x =>
      some (fpView x.h false (dst x.d (if x.wide then 2 else 1) [.v])
        (some ⟨x.a, if x.wide then 2 else 1, if x.wide then 2 else 1, [.v, .l], .perLane, false⟩)
        (srcN x.b (if x.wide then 2 else 1) (vSrc false)) (usrc x.c uSrc) x.imm)
  | .vote x =>
      some (fpView x.h false (dst x.d 1 (if x.mode = .ballot then [.s] else [.p])) (src x.a [.p]) none none 0)
  | .gred x =>
      some (fpView x.h false (dst x.d (regsOf x.op.bits) [.v, .s])
        (some ⟨x.a, regsOf x.op.bits, regsOf x.op.bits, [.v, .l], .perLane, false⟩) none none 0)
  | .prmt x =>
      some (fpView x.h false (dst x.d 1 (vDst true)) (src x.a (vSrc true)) (src x.b (vSrc true)) (src x.c (vSrc true)) x.imm)
  | .bra x => some (ctlView .uniform x.h none none none none)
  | .brD x => some (ctlView .vector x.h none none none none)
  | .brx x => some (ctlView .uniform x.h none (usrc x.a addrCls) none (some 0))
  | .call x => some (ctlView .uniform x.h (dst x.d 1 [.s]) none none none)
  | .ret x => some (ctlView .uniform x.h none (usrc x.a addrCls) none (some 0))
  | .jopen x => some (ctlView .uniform x.h none none none none)
  | .join x | .brk x | .rejoin x => some (ctlView .vector x.h none none none (some 0))
  | .exit x => some (ctlView .vector x.h none none none (some 0))
  | .eject x => some (ctlView .vector x.h none none none none)
  | .yield x | .nop x => some (ctlView .uniform x.h none none none (some 0))
  | .trap x => some (ctlView .uniform x.h none none none none)
  | .nbarArr x | .nbarSync x => some (ctlView .uniform x.h (dst x.d 1 [.p, .zero]) none none (some 0))
  | .nbarWait x => some (ctlView .uniform x.h none none none (some 0))
  | .ctake x | .cgive x | .cwait x => some (ctlView .uniform x.h none (usrc x.a nCls) none (some x.imm))
  | .waitf x => some (memView .uniform false x.h (src x.d [.s]) x.mem none)
  | .rgive x | .rclaim x | .cancel x => some (ctlView .uniform x.h none (usrc x.a nCls) none (some x.imm))
  | .rswitch x => some (ctlView .uniform x.h none (usrc x.a addrCls) (usrc x.b addrCls) none)
  | .rpoint x => some (ctlView .uniform x.h none none none (some 0))
  | .mark x => some (ctlView .uniform x.h none none none none)
  | .tnext x => some ⟨.uniform, true, x.h, dst x.d 1 [.s], none, none, none, some 0⟩
  | .tdone x => some (ctlView .uniform x.h none none none (some 0))
  | .tspawn x => some (ctlView .uniform x.h none (usrc x.a addrCls) none (some 0))
  | .tscope x => some (ctlView .uniform x.h (dst x.d 1 [.s]) (usrc x.a nCls) (usrc x.b nCls) (some x.imm))
  | .ld x => some (memView .vector true x.h (dst x.d (if x.d.cls = .v then regsOf x.ty.bits else 1) (ldCls x.ty x.mem)) x.mem none)
  | .st x => some (memView .vector false x.h (srcN x.d (if x.d.cls = .v then regsOf x.ty.bits else 1) (stCls x.ty)) x.mem none)
  | .lds x => some (memView .vector true x.h (dst x.d (if x.d.cls = .v then regsOf x.ty.bits else 1) (ldCls x.ty x.mem)) x.mem none)
  | .sts x => some (memView .vector false x.h (srcN x.d (if x.d.cls = .v then regsOf x.ty.bits else 1) (stCls x.ty)) x.mem none)
  | .atom x =>
      let n := if x.wide then 2 else 1
      some (memView .vector true x.h (dst x.d n [.v, .zero]) x.mem
        (if x.op = .cas then srcN x.c (2 * n) [.v] else srcN x.c n [.v, .s, .l, .zero]))
  | .atoms x =>
      let n := if x.wide then 2 else 1
      some (memView .vector true x.h (dst x.d n [.v, .zero]) x.mem
        (if x.op = .cas then srcN x.c (2 * n) [.v] else srcN x.c n [.v, .s, .l, .zero]))
  | .fence x | .cflush x | .cinv x => some (memView .uniform false x.h none x.mem none)
  | .pref x => some (memView .vector false x.h none x.mem none)
  | .spempty x => some (memView .uniform false x.h (src x.d [.s, .zero]) x.mem none)
  | .spstate x => some (memView .vector false x.h (dst x.d 1 [.p]) x.mem none)
  | .wbind x | .warm x => some (ctlView .uniform x.h none (src x.a baseCls) none none)
  | .wput x => some (ctlView .uniform x.h none none none (some 0))
  | .wstate x => some (ctlView .uniform x.h (dst x.d 1 [.p]) none none (some 0))
  | .tacc x => some (memView .vector false x.h (src x.d [.v]) x.mem none)
  | .tcons x => some (memView .vector true x.h (dst x.d 1 [.v]) x.mem none)
  | .tcnt x => some (memView .vector true x.h (dst x.d 1 [.v]) x.mem none)
  | .treset x => some (memView .uniform false x.h (src x.d [.s]) x.mem none)
  | .atake x => some (ctlView .uniform x.h none none none (some 0))
  | .agive x => some (ctlView .uniform x.h none (usrc x.a nCls) none (some x.imm))
  | .ald x => some ⟨.vector, true, x.h, dst x.d (if x.ft = .x48 then 2 else 1) [.v], src x.a [.v, .s, .l, .zero], none, none, none⟩
  | .ast x => some ⟨.vector, false, x.h, srcN x.d (if x.ft = .x48 then 2 else 1) [.v], src x.a [.v, .s, .l, .zero], none, none, none⟩
  | .awin x => some (ctlView .uniform x.h none (usrc x.a addrCls) (usrc x.b addrCls) none)
  | .awinUnp x => some (ctlView .uniform x.h none none none none)
  | .collArm x => some (ctlView .uniform x.h (dst x.d 1 [.s]) (src x.a baseCls) none none)
  | .collPut x => some (ctlView .uniform x.h none (src x.a baseCls) none none)
  | .srd x => some (ctlView .vector x.h (dst x.d (if x.d.cls = .v ∧ srWide x.idx then 2 else 1) [.v, .s]) none none none)
  | .swr x => some (ctlView .uniform x.h none (usrc x.a addrCls) none none)
  | .svc x => some (ctlView .uniform x.h none none none none)
  | .rfe x => some (ctlView .uniform x.h none none none (some 0))
  | .tlbiVa x => some (ctlView .uniform x.h none (src x.a baseCls) none none)
  | .tlbiCtx x => some (ctlView .uniform x.h none (usrc x.a addrCls) none (some 0))
  | .tlbiAll x => some (ctlView .uniform x.h none none none (some 0))
  | .evt x => some (ctlView .uniform x.h none (usrc x.a addrCls) none none)
  | .halt x => some (ctlView .uniform x.h none none none none)
  | .mlatch _ | .mstreamF _ | .mstreamB _ | .mzero _ | .mscale _ | .mdrain _ | .mdrainT _ | .mtake _ | .mgive _
  | .mwin _ | .mbarArr _ | .mbarSync _ | .mbarWait _ | .mset _ | .madd _ | .mloop _ | .mjmp _ | .mend => none
  | .barrierRelease _ _ | .takeQueueServe _ _ | .waitTimeout _ | .chunkReturn _ | .claimQueueServe _ _
  | .teamStall _ | .governorArm _ | .scheduleMissTimeout _ | .markTimeout _ | .groupKill _ | .cancelAck _ _
  | .longLatencyDelivery _ _ | .lateFailure _ _ | .copyLine _ _ | .copyFault _ _ | .twinEarlyTimeout _ _
  | .meshWordFinish _ | .putArrival _ | .collDeadline _ _ | .hubCombine _ _ | .slotWriteFault _ _
  | .versionFull _ | .segmentResolve _ | .launchEligible _ | .teamPlace _ | .launchCompletion _
  | .pageMove _ | .victimRetry _ | .preemptDeadline _ | .teamSave _ | .owedReply _ _
  | .peerRequest _ | .peerReply _ | .retransmit _ | .packetDiscard _ | .flitReplay _
  | .eccCorrected _ | .eccUncorrectable _ | .eventRingTake _
  | .provision _ | .attest _ | .policy _ | .peers _ | .write _ | .read _ | .map _ | .unmap _ | .frames _
  | .launch _ | .timetable _ | .preempt _ | .resume _ | .discard _ | .events _
  | .reset _ | .affinityWaitExpiry _ | .storeAcknowledged _ _ => none

/-- The matrix stream words (R85, kind stream). -/
def Instr.isStream : Instr → Bool
  | .mlatch _ | .mstreamF _ | .mstreamB _ | .mzero _ | .mscale _ | .mdrain _ | .mdrainT _ | .mtake _ | .mgive _
  | .mwin _ | .mbarArr _ | .mbarSync _ | .mbarWait _ | .mset _ | .madd _ | .mloop _ | .mjmp _ | .mend => true
  | _ => false

/-- The instructions that a 96-bit word encodes. -/
def Instr.isWord (i : Instr) : Bool := i.isStream || (i.view 64).isSome

/-! ### Legality of the word alone -/

/-- Why a word is illegal by itself (R80, R86, R98, R102); each is raised as the cause ILLEGAL. -/
inductive WfErr where
  /-- An operand of a class the entry does not list (R80). -/
  | operandClass
  /-- A multi-register operand that is not aligned (R80). -/
  | misaligned
  /-- `LA` ≠ 0 on a word that is not long-latency (R86). -/
  | lookahead
  /-- A hold of a field that is no source, or of a latch, `zero` or 511 (R98). -/
  | hold
  /-- One queue named by two source fields (R18). -/
  | queueTwice
  /-- `IMM` not zero though no operand is 511 (R80). -/
  | unusedImm
  /-- A type the entry does not list (R133, R138). -/
  | typ
  /-- A rounding mode the entry does not list (R84). -/
  | rounding
  /-- `.sat` where it is not legal (R137). -/
  | saturate
  /-- JOIN or REJOIN with a guard (R160). -/
  | guard
  /-- A stream modifier combination that is always illegal (R227, R231, R232). -/
  | streamMode
deriving DecidableEq, Repr

/-- `none` if the condition holds, else the error. -/
def need (b : Bool) (e : WfErr) : Option WfErr := if b then none else some e

/-- The operand fields that a word names, destination first. -/
def View.refs (v : View) : List Ref := v.d.toList ++ v.a.toList ++ v.b.toList ++ v.c.toList

/-- The source operands of a word. -/
def View.sources (v : View) : List Ref := v.refs.filter fun r => !r.write

/-- The queues a word pops. -/
def View.pops (v : View) : List (Fin 16) :=
  v.sources.filterMap fun r => match r.o with | .q n => some n | _ => none

/-- Long-latency words: those of R85 and any word that names a queue as a source. -/
def View.isLong (v : View) : Bool := v.long || !v.pops.isEmpty

/-- The class is one the entry lists, and a v register is aligned (R80). -/
def Ref.err (r : Ref) : Option WfErr :=
  (need (r.ok.contains r.o.cls) .operandClass).or
    (match r.o with
     | .v n => need (n.val % r.al == 0) .misaligned
     | _ => none)

/-- A field may be held if it is a source register, predicate or queue (R98). -/
def holdOk : Option Ref → Bool
  | none => false
  | some r => !r.write && (match r.o.cls with | .v | .s | .p | .q => true | _ => false)

/-- The field that a hold names. -/
def View.held (v : View) : Option Ref :=
  match v.h.hold with
  | .none => none
  | .a => v.a
  | .b => v.b
  | .c => v.c

/-- The checks every group word shares. -/
def View.err (v : View) : Option WfErr :=
  (v.refs.findSome? Ref.err).or <|
  (need (v.h.la.val == 0 || v.isLong) .lookahead).or <|
  (need (v.h.hold == .none || holdOk v.held) .hold).or <|
  (need (v.pops.eraseDups.length == v.pops.length) .queueTwice).or <|
  (match v.imm with
   | none => none
   | some x => need (x == 0 || v.refs.any fun r => r.o.cls == .imm) .unusedImm)

/-- `.i`, `.n` and `.b` types up to 64 bits. -/
def ITy.std (t : ITy) : Bool := t != .b128

/-- RNE, RTZ, RUP, RDN and RTO, and RS for a 16-bit format (R143, R114). -/
def arithRm (t : FTy) (r : RMode) : Bool := r != .rs || t.is16

/-- RNE, RTZ, RUP or RDN. -/
def RMode.basic : RMode → Bool
  | .rne | .rtz | .rup | .rdn => true
  | _ => false

/-- The accepted combinations of CVT (R146). -/
def cvtOk (s : CvtSrc) (t : FTy) (two : Bool) : Bool :=
  match s with
  | .toI32 => t == .f32 && !two
  | .int i =>
    (match i with | .b8 | .b16 | .b32 | .i8 | .i16 | .i32 => true | _ => false) &&
      (match t with | .f32 | .f16 | .bf16 | .e4m3 => true | _ => false) && !two
  | .fp f =>
    match f with
    | .f32 => if two then t == .bf16x2 || t == .f16x2
              else (match t with | .f32 | .f16 | .bf16 | .e4m3 => true | _ => false)
    | .f16 | .bf16 | .e4m3 => (match t with | .f32 | .f16 | .bf16 | .e4m3 => true | _ => false) && !two
    | .f16x2 | .bf16x2 => (t == .bf16x2 || t == .f16x2) && !two
    | .ct8 => false

/-- The rounding modes of CVT (R146). -/
def cvtRm (s : CvtSrc) (t : FTy) (r : RMode) : Bool :=
  match s with
  | .toI32 => r.basic
  | _ => r != .rs || t.is16 || t == .e4m3

/-- The listed types and modes of the entry of each word. -/
def Instr.modeErr : Instr → Option WfErr
  | .iadd x | .isub x =>
      (need x.ty.std .typ).or (need (!x.sat || !x.ty.bin) .saturate)
  | .imad x => (need x.ty.std .typ).or (need (!x.sat || !x.ty.bin) .saturate)
  | .imul x => (need x.ty.std .typ).or (need (!x.sat) .saturate)
  | .imulh x | .imin x | .imax x => (need (!x.ty.bin) .typ).or (need (!x.sat) .saturate)
  | .iabs x => need x.ty.signed .typ
  | .and x | .or x | .xor x => (need (x.ty.bin && !(x.uni && x.ty == .b128)) .typ).or (need (!x.sat) .saturate)
  | .shl x | .shr x | .sar x => (need (x.ty.bin && x.ty.std) .typ).or (need (!x.sat) .saturate)
  | .bfx x => (need x.ty.std .typ).or (need (!x.sat) .saturate)
  | .bfi x => (need (x.ty.bin && x.ty.std) .typ).or (need (!x.sat) .saturate)
  | .popc x | .clz x => (need (x.ty.bin && x.ty.std) .typ).or (need (!x.sat) .saturate)
  | .icmp x => need x.ty.std .typ
  | .sel x => (need (x.ty.bin && x.ty.std) .typ).or (need (!x.sat) .saturate)
  | .mov x => (need (x.ty.bin && !(x.uni && x.ty == .b128)) .typ).or (need (!x.sat) .saturate)
  | .movi x => need x.ty.std .typ
  | .fadd x | .fmul x => (need x.ft.arith .typ).or (need (arithRm x.ft x.rm) .rounding)
  | .ffma x => (need x.ft.arith .typ).or (need (arithRm x.ft x.rm) .rounding)
  | .fmin x | .fmax x => (need x.ft.arith .typ).or (need (x.rm == .rne) .rounding)
  | .fcmp x => need (x.ft == .f32 || x.ft == .f16 || x.ft == .bf16) .typ
  | .frcp x | .frsq x | .fexp2 x | .flog2 x => (need (x.ft == .f32) .typ).or (need (x.rm == .rne) .rounding)
  | .fsqrt x => (need (x.ft == .f32) .typ).or (need x.rm.basic .rounding)
  | .cvt x => (need (cvtOk x.src x.ft x.b.isSome) .typ).or (need (cvtRm x.src x.ft x.rm) .rounding)
  | .qnt x => need (x.ft == .e4m3) .typ
  | .dqnt x => (need (x.ft == .f32 || x.ft == .bf16x2) .typ).or (need x.rm.basic .rounding)
  | .vact x => (need x.ft.arith .typ).or (need (x.rm == .rne) .rounding)
  | .vdact x =>
      (need (x.ft.arith && x.fn != .gelu) .typ).or
        (need (if x.fn = .softplus then x.rm == .rne else x.rm.basic) .rounding)
  | .ctdec x => (need (x.ft == .f32) .typ).or (need x.rm.basic .rounding)
  | .ctenc x => (need (x.ft == .ct8) .typ).or (need (x.rm == .rne) .rounding)
  | .maxkey x => (need (x.ft == .f16 || x.ft == .bf16) .typ).or (need (x.rm == .rne) .rounding)
  | .gred x =>
    match x.op with
    | .add t => need (t.bits == 32 || t.bits == 64) .typ
    | .min t | .max t => need ((t.bits == 32 || t.bits == 64) && !t.bin) .typ
    | .and t | .or t | .xor t => need (t == .b32 || t == .b64) .typ
    | .fadd r => need (r != .rs) .rounding
    | .fmin | .fmax => none
  | .join x | .rejoin x => need (x.h.gp == 7) .guard
  | .ld x => need (match x.ty with
      | .b8 | .b16 | .b32 | .b64 | .b128 | .i8 | .i16 | .n8 | .n16 => true | _ => false) .typ
  | .lds x => need (match x.ty with
      | .b8 | .b16 | .b32 | .b64 | .b128 | .i8 | .i16 | .n8 | .n16 => true | _ => false) .typ
  | .st x => need x.ty.bin .typ
  | .sts x => need x.ty.bin .typ
  | .atom x => need (!x.wide || (x.op != .fadd && x.op != .maxkey)) .typ
  | .atoms x => need (!x.wide || (x.op != .fadd && x.op != .maxkey)) .typ
  | .ald x => need (if x.ft = .x48 then x.rm == .rne else x.rm != .rs) .rounding
  | .mlatch x =>
      (need (!(x.exp && x.sp == .dense)) .streamMode).or
        ((need (!(x.col && x.sp != .dense)) .streamMode).or
          (need (x.imm == 0 || x.d == .imm || x.a == .imm || x.b == .imm) .unusedImm))
  | .mstreamF x | .mstreamB x =>
      (need (!(x.both && 4 ≤ x.t.val)) .streamMode).or
        (need (x.imm == 0 || x.d == .imm || x.a == .imm || x.b == .imm) .unusedImm)
  | .mzero x => need (x.imm == 0 || x.d == .imm || x.b == .imm) .unusedImm
  | .mscale x => need (x.imm == 0 || x.d == .imm || x.a == .imm || x.b == .imm) .unusedImm
  | .mdrain x =>
      (need (x.ft == .f32 || x.ft == .f16 || x.ft == .bf16 || x.ft == .e4m3) .typ).or
        ((need (x.rm != .rs) .rounding).or
          (need (x.imm == 0 || x.d == .imm || x.a == .imm || x.b == .imm) .unusedImm))
  | .mdrainT x => need (x.imm == 0 || x.d == .imm || x.a == .imm || x.b == .imm) .unusedImm
  | .mgive x => need (x.imm == 0 || x.a == .imm) .unusedImm
  | .mwin x => need (x.imm == 0 || x.a == .imm) .unusedImm
  | .mset x => (need (x.d != .imm) .operandClass).or (need (x.imm == 0 || x.a == .imm) .unusedImm)
  | .madd x => (need (x.d != .imm) .operandClass).or (need (x.imm == 0 || x.a == .imm || x.b == .imm) .unusedImm)
  | .mloop x => need (match x.d with | .m _ => true | _ => false) .operandClass
  | _ => none

/-- Why the word alone is illegal, if it is. Events have no word and are never ill-formed. -/
def Instr.legalErr (i : Instr) : Option WfErr :=
  match i.view 64 with
  | none => i.modeErr
  | some v => i.modeErr.or v.err

end Sys2Proof
end

