-- ==== Sys2Proof/WellFormed.lean ====
section
/-! DEFINITION. Well-formed instructions: those whose word the spec does not call illegal by itself.
The checks themselves stand in `Sys2Proof.Machine.Legality`, where a later repair can mend them. -/
namespace Sys2Proof

/-- `i` is well-formed: its own fields break no rule of R79 to R86, R98 or its entry. -/
abbrev Instr.WellFormed (i : Instr) : Prop := i.legalErr = none

end Sys2Proof
end

