-- ==== Sys2Proof/Decode.lean ====
section
/-! DEFINITION. The encodings of the instruction words (R77 to R86 and the encoding table of each chapter) and of the
messages of the command channel (R417, R419): a total decoder that rejects by name, and the encoder.
The decoder reads the fields of R77, names the instruction, checks that every field the instruction does not use is
zero by encoding it again, and checks its legality. -/
namespace Sys2Proof

/-- The fields of an instruction word (R77). -/
structure Fields where
  op : BitVec 8
  sub : BitVec 4
  la : BitVec 4
  gp : BitVec 3
  gn : BitVec 1
  hold : BitVec 2
  d : BitVec 9
  a : BitVec 9
  b : BitVec 9
  c : BitVec 9
  md : BitVec 6
  imm : BitVec 32
deriving DecidableEq, Repr

/-- The fields at their places in the word (R77). -/
def Fields.pack (f : Fields) : W96 :=
  (f.imm ++ f.md ++ f.c ++ f.b ++ f.a ++ f.d ++ f.hold ++ f.gn ++ f.gp ++ f.la ++ f.sub ++ f.op).cast (by decide)

/-- The fields of a word (R77). -/
def Fields.unpack (w : W96) : Fields where
  op := w.extractLsb' 0 8
  sub := w.extractLsb' 8 4
  la := w.extractLsb' 12 4
  gp := w.extractLsb' 16 3
  gn := w.extractLsb' 19 1
  hold := w.extractLsb' 20 2
  d := w.extractLsb' 22 9
  a := w.extractLsb' 31 9
  b := w.extractLsb' 40 9
  c := w.extractLsb' 49 9
  md := w.extractLsb' 58 6
  imm := w.extractLsb' 64 32

/-- Why a word does not decode. Every one of these is the cause ILLEGAL (R102). -/
inductive DecErr where
  /-- A reserved `OP` (R86). -/
  | reservedOp
  /-- A `SUB`, `MOD`, operand or packed value that the entry does not list (R79, R81, R86, R102). -/
  | reservedField
  /-- A field the format does not use is not zero (R80). -/
  | unusedField
  /-- The instruction the fields name is illegal. -/
  | illegal (e : WfErr)
deriving DecidableEq, Repr

/-! ### Codes of the single fields -/

/-- R79. -/
def Opnd.code : Opnd → BitVec 9
  | .v n => BitVec.ofNat 9 n.val
  | .s n => BitVec.ofNat 9 (256 + n.val)
  | .l n => BitVec.ofNat 9 (320 + n.val)
  | .p n => BitVec.ofNat 9 (323 + n.val)
  | .zero => 331
  | .q n => BitVec.ofNat 9 (332 + n.val)
  | .imm => 511

/-- R79; `none` for a reserved value. -/
def Opnd.ofCode (c : BitVec 9) : Option Opnd :=
  let n := c.toNat
  if n < 256 then some (.v (finOf 255 n))
  else if n < 320 then some (.s (finOf 63 (n - 256)))
  else if n < 323 then some (.l (finOf 2 (n - 320)))
  else if n < 331 then some (.p (finOf 7 (n - 323)))
  else if n = 331 then some .zero
  else if n < 348 then some (.q (finOf 15 (n - 332)))
  else if n = 511 then some .imm
  else none

/-- R81, format STR. -/
def SOp.code : SOp → BitVec 9
  | .m n => BitVec.ofNat 9 n.val
  | .zero => 331
  | .imm => 511

/-- R81, format STR. -/
def SOp.ofCode (c : BitVec 9) : Option SOp :=
  let n := c.toNat
  if n < 16 then some (.m (finOf 15 n))
  else if n = 331 then some .zero
  else if n = 511 then some .imm
  else none

/-- R77. -/
def Hold.code : Hold → BitVec 2
  | .none => 0
  | .a => 1
  | .b => 2
  | .c => 3

/-- R77. -/
def Hold.ofCode (c : BitVec 2) : Hold :=
  if c = 0 then .none else if c = 1 then .a else if c = 2 then .b else .c

/-- R83. -/
def ITy.code : ITy → BitVec 4
  | .b8 => 0 | .b16 => 1 | .b32 => 2 | .b64 => 3 | .b128 => 4
  | .i8 => 5 | .i16 => 6 | .i32 => 7 | .i64 => 8
  | .n8 => 9 | .n16 => 10 | .n32 => 11 | .n64 => 12

/-- R83; `none` for a reserved code. -/
def ITy.ofCode (c : BitVec 4) : Option ITy :=
  match c.toNat with
  | 0 => some .b8 | 1 => some .b16 | 2 => some .b32 | 3 => some .b64 | 4 => some .b128
  | 5 => some .i8 | 6 => some .i16 | 7 => some .i32 | 8 => some .i64
  | 9 => some .n8 | 10 => some .n16 | 11 => some .n32 | 12 => some .n64
  | _ => none

/-- R84. -/
def FTy.code : FTy → BitVec 3
  | .f32 => 0 | .f16 => 1 | .bf16 => 2 | .f16x2 => 3 | .bf16x2 => 4 | .e4m3 => 5 | .ct8 => 6

/-- R84; `none` for a reserved code. -/
def FTy.ofCode (c : BitVec 3) : Option FTy :=
  match c.toNat with
  | 0 => some .f32 | 1 => some .f16 | 2 => some .bf16 | 3 => some .f16x2 | 4 => some .bf16x2
  | 5 => some .e4m3 | 6 => some .ct8
  | _ => none

/-- R84. -/
def RMode.code : RMode → BitVec 3
  | .rne => 0 | .rtz => 1 | .rup => 2 | .rdn => 3 | .rs => 4 | .rto => 5

/-- R84; `none` for a reserved code. -/
def RMode.ofCode (c : BitVec 3) : Option RMode :=
  match c.toNat with
  | 0 => some .rne | 1 => some .rtz | 2 => some .rup | 3 => some .rdn | 4 => some .rs | 5 => some .rto
  | _ => none

/-- R140. -/
def ICond.code : ICond → BitVec 4
  | .eq => 0 | .ne => 1 | .lt => 2 | .le => 3 | .gt => 4 | .ge => 5

/-- R140. -/
def ICond.ofCode (c : BitVec 4) : Option ICond :=
  match c.toNat with
  | 0 => some .eq | 1 => some .ne | 2 => some .lt | 3 => some .le | 4 => some .gt | 5 => some .ge
  | _ => none

/-- R144. -/
def FCond.code : FCond → BitVec 4
  | .eq => 0 | .lt => 1 | .le => 2 | .gt => 3 | .ge => 4 | .ne => 5 | .num => 6 | .nan => 7

/-- R144. -/
def FCond.ofCode (c : BitVec 4) : Option FCond :=
  match c.toNat with
  | 0 => some .eq | 1 => some .lt | 2 => some .le | 3 => some .gt | 4 => some .ge | 5 => some .ne
  | 6 => some .num | 7 => some .nan
  | _ => none

/-- R150. -/
def ActFn.code : ActFn → BitVec 4
  | .sig => 0 | .tanh => 1 | .exp => 2 | .relu => 3 | .softplus => 4 | .gelu => 5

/-- R150. -/
def ActFn.ofCode (c : BitVec 4) : Option ActFn :=
  match c.toNat with
  | 0 => some .sig | 1 => some .tanh | 2 => some .exp | 3 => some .relu | 4 => some .softplus | 5 => some .gelu
  | _ => none

/-- `SUB` of CVT (R84, R146). -/
def CvtSrc.code : CvtSrc → BitVec 4
  | .fp t => (0#1 ++ t.code)
  | .toI32 => 7
  | .int t => 8 + t.code

/-- `SUB` of CVT (R84, R146). -/
def CvtSrc.ofCode (c : BitVec 4) : Option CvtSrc :=
  if c.toNat < 7 then (FTy.ofCode (c.extractLsb' 0 3)).map .fp
  else if c.toNat = 7 then some .toI32
  else (ITy.ofCode (c - 8)).map .int

/-- R154. -/
def ShflMode.code : ShflMode → BitVec 4
  | .idx => 0 | .up => 1 | .down => 2 | .xor => 3

/-- R154. -/
def ShflMode.ofCode (c : BitVec 4) : Option ShflMode :=
  match c.toNat with
  | 0 => some .idx | 1 => some .up | 2 => some .down | 3 => some .xor
  | _ => none

/-- R155. -/
def VoteMode.code : VoteMode → BitVec 4
  | .all => 0 | .any => 1 | .uni => 2 | .ballot => 3

/-- R155. -/
def VoteMode.ofCode (c : BitVec 4) : Option VoteMode :=
  match c.toNat with
  | 0 => some .all | 1 => some .any | 2 => some .uni | 3 => some .ballot
  | _ => none

/-- `MOD` of an integer word (R83). -/
def iMod (sat : Bool) (t : ITy) : BitVec 6 := 0#1 ++ BitVec.ofBool sat ++ t.code

/-- `MOD` of a floating word (R84). -/
def fMod (r : RMode) (t : FTy) : BitVec 6 := r.code ++ t.code

/-- `SUB` and `MOD` of GRED (R156). -/
def GredOp.codes : GredOp → BitVec 4 × BitVec 6
  | .add t => (0, iMod false t)
  | .min t => (1, iMod false t)
  | .max t => (2, iMod false t)
  | .and t => (3, iMod false t)
  | .or t => (4, iMod false t)
  | .xor t => (5, iMod false t)
  | .fadd r => (6, fMod r .f32)
  | .fmin => (7, 0)
  | .fmax => (8, 0)

/-- `SUB` and `MOD` of GRED (R156). -/
def GredOp.ofCodes (sub : BitVec 4) (md : BitVec 6) : Option GredOp :=
  let t := ITy.ofCode (md.extractLsb' 0 4)
  match sub.toNat with
  | 0 => t.map .add
  | 1 => t.map .min
  | 2 => t.map .max
  | 3 => t.map .and
  | 4 => t.map .or
  | 5 => t.map .xor
  | 6 => (RMode.ofCode (md.extractLsb' 3 3)).map .fadd
  | 7 => some .fmin
  | 8 => some .fmax
  | _ => none

/-- R202. -/
def AtomOp.code : AtomOp → BitVec 4
  | .add => 0 | .fadd => 1 | .minI => 2 | .minN => 3 | .maxI => 4 | .maxN => 5
  | .and => 6 | .or => 7 | .xor => 8 | .exch => 9 | .cas => 10 | .maxkey => 11

/-- R202. -/
def AtomOp.ofCode (c : BitVec 4) : Option AtomOp :=
  match c.toNat with
  | 0 => some .add | 1 => some .fadd | 2 => some .minI | 3 => some .minN | 4 => some .maxI | 5 => some .maxN
  | 6 => some .and | 7 => some .or | 8 => some .xor | 9 => some .exch | 10 => some .cas | 11 => some .maxkey
  | _ => none

/-- R159. -/
def WCond.code : WCond → BitVec 4
  | .eq => 0 | .ne => 1 | .ge => 2 | .lt => 3

/-- R159. -/
def WCond.ofCode (c : BitVec 4) : Option WCond :=
  match c.toNat with
  | 0 => some .eq | 1 => some .ne | 2 => some .ge | 3 => some .lt
  | _ => none

/-- R215. -/
def WinCond.code : WinCond → BitVec 4
  | .bound => 0 | .full => 1 | .idle => 2 | .absent => 3

/-- R215. -/
def WinCond.ofCode (c : BitVec 4) : Option WinCond :=
  match c.toNat with
  | 0 => some .bound | 1 => some .full | 2 => some .idle | 3 => some .absent
  | _ => none

/-- R216. -/
def TwFmt.code : TwFmt → BitVec 4
  | .f32 => 0 | .f16 => 1 | .bf16 => 2

/-- R216. -/
def TwFmt.ofCode (c : BitVec 4) : Option TwFmt :=
  match c.toNat with
  | 0 => some .f32 | 1 => some .f16 | 2 => some .bf16
  | _ => none

/-- R244. -/
def AFmt.code : AFmt → BitVec 3
  | .f32 => 0 | .f16 => 1 | .bf16 => 2 | .x48 => 6

/-- R244. -/
def AFmt.ofCode (c : BitVec 3) : Option AFmt :=
  match c.toNat with
  | 0 => some .f32 | 1 => some .f16 | 2 => some .bf16 | 6 => some .x48
  | _ => none

/-- R227. -/
def MFmt.code : MFmt → BitVec 2
  | .e4m3 => 0 | .bf16 => 1

/-- R227. -/
def MFmt.ofCode (c : BitVec 2) : Option MFmt :=
  match c.toNat with
  | 0 => some .e4m3 | 1 => some .bf16
  | _ => none

/-- R227. -/
def Sparsity.code : Sparsity → BitVec 2
  | .dense => 0 | .sp16 => 1 | .sp8 => 2

/-- R227. -/
def Sparsity.ofCode (c : BitVec 2) : Option Sparsity :=
  match c.toNat with
  | 0 => some .dense | 1 => some .sp16 | 2 => some .sp8
  | _ => none

/-- R82. -/
def Scale.code : Scale → BitVec 3
  | .x1 => 0 | .x2 => 1 | .x4 => 2 | .x8 => 3 | .x16 => 4

/-- R82. -/
def Scale.ofCode (c : BitVec 3) : Option Scale :=
  match c.toNat with
  | 0 => some .x1 | 1 => some .x2 | 2 => some .x4 | 3 => some .x8 | 4 => some .x16
  | _ => none

/-! ### Building the fields of a word -/

/-- The header fields over a major opcode; every other field zero. -/
def Hdr.fields (h : Hdr) (op : BitVec 8) : Fields :=
  ⟨op, 0, BitVec.ofNat 4 h.la.val, BitVec.ofNat 3 h.gp.val, BitVec.ofBool h.gn, h.hold.code, 0, 0, 0, 0, 0, 0⟩

/-- The header fields of a stream word (R81): `GP` = 7 and the rest zero. -/
def strFields (op : BitVec 8) : Fields := ⟨op, 0, 0, 7, 0, 0, 0, 0, 0, 0, 0, 0⟩

/-- Major opcode of an integer form (R85): the uniform form has `OP` + 0x20. -/
def uniOp (op : BitVec 8) (uni : Bool) : BitVec 8 := if uni then op + 0x20 else op

def Int1.fields (x : Int1) (op : BitVec 8) : Fields :=
  { x.h.fields (uniOp op x.uni) with d := x.d.code, a := x.a.code, md := iMod x.sat x.ty, imm := x.imm }
def Int2.fields (x : Int2) (op : BitVec 8) : Fields :=
  { x.h.fields (uniOp op x.uni) with
    d := x.d.code, a := x.a.code, b := x.b.code, md := iMod x.sat x.ty, imm := x.imm }
def Int3.fields (x : Int3) (op : BitVec 8) : Fields :=
  { x.h.fields (uniOp op x.uni) with
    d := x.d.code, a := x.a.code, b := x.b.code, c := x.c.code, md := iMod x.sat x.ty, imm := x.imm }
def Fp1.fields (x : Fp1) (op : BitVec 8) : Fields :=
  { x.h.fields op with d := x.d.code, a := x.a.code, md := fMod x.rm x.ft, imm := x.imm }
def Fp2.fields (x : Fp2) (op : BitVec 8) : Fields :=
  { x.h.fields op with d := x.d.code, a := x.a.code, b := x.b.code, md := fMod x.rm x.ft, imm := x.imm }
def CtlTok.fields (x : CtlTok) (op : BitVec 8) : Fields :=
  { x.h.fields op with c := BitVec.ofNat 9 x.k.val }
def CtlTokDisp.fields (x : CtlTokDisp) (op : BitVec 8) : Fields :=
  { x.h.fields op with c := BitVec.ofNat 9 x.k.val, imm := x.disp }
def CtlA.fields (x : CtlA) (op : BitVec 8) : Fields := { x.h.fields op with a := x.a.code }
def CodeW.fields (x : CodeW) (op : BitVec 8) : Fields := { x.h.fields op with imm := x.code.zeroExtend 32 }
def NbarW.fields (x : NbarW) (op : BitVec 8) : Fields :=
  { x.h.fields op with d := x.d.code, c := BitVec.ofNat 9 x.k.val }
def CtrW.fields (x : CtrW) (op : BitVec 8) : Fields :=
  { x.h.fields op with a := x.a.code, c := BitVec.ofNat 9 x.k.val, imm := x.imm }
def NumW.fields (x : NumW) (op : BitVec 8) : Fields := { x.h.fields op with a := x.a.code, imm := x.imm }

/-- The memory operand's fields, with `X`, `REL` and `ACQ` (R82). -/
def MemOp.fields (m : MemOp) (f : Fields) (x rel acq : Bool) : Fields :=
  { f with
    a := m.base.code, b := m.index.code, imm := m.off
    md := m.scale.code ++ BitVec.ofBool x ++ BitVec.ofBool rel ++ BitVec.ofBool acq }

/-- `C` of format STR (R81). -/
def strC (win : Fin 32) (l : Fin 2) (t : Fin 8) : BitVec 9 :=
  BitVec.ofNat 5 win.val ++ BitVec.ofNat 1 l.val ++ BitVec.ofNat 3 t.val

def MstreamW.fields (x : MstreamW) (op : BitVec 8) : Fields :=
  { strFields op with
    d := x.d.code, a := x.a.code, b := x.b.code, c := strC x.win x.l x.t, imm := x.imm
    md := 0#1 ++ BitVec.ofBool x.za ++ BitVec.ofBool x.both ++ BitVec.ofBool x.col ++ x.af.code }

/-- The fields of an instruction's word; `none` for an event. -/
def Instr.toFields : Instr → Option Fields
  | .iadd x => some (x.fields 0x01)
  | .isub x => some (x.fields 0x02)
  | .imul x => some (x.fields 0x03)
  | .imulh x => some (x.fields 0x04)
  | .imad x => some (x.fields 0x05)
  | .imin x => some (x.fields 0x06)
  | .imax x => some (x.fields 0x07)
  | .iabs x => some (x.fields 0x08)
  | .and x => some (x.fields 0x09)
  | .or x => some (x.fields 0x0A)
  | .xor x => some (x.fields 0x0B)
  | .shl x => some (x.fields 0x0C)
  | .shr x => some (x.fields 0x0D)
  | .sar x => some (x.fields 0x0E)
  | .bfx x => some (x.fields 0x0F)
  | .bfi x => some (x.fields 0x10)
  | .popc x => some (x.fields 0x11)
  | .clz x => some (x.fields 0x12)
  | .icmp x => some { x.h.fields (uniOp 0x13 x.uni) with
      sub := x.cc.code, d := x.d.code, a := x.a.code, b := x.b.code, md := iMod false x.ty, imm := x.imm }
  | .sel x => some (x.fields 0x14)
  | .mov x => some (x.fields 0x15)
  | .movi x => some { x.h.fields (uniOp 0x16 x.uni) with d := x.d.code, md := iMod false x.ty, imm := x.imm }
  | .moviHi x => some { x.h.fields 0x36 with sub := 1, d := x.d.code, md := iMod false .b64, imm := x.imm }
  | .fadd x => some (x.fields 0x41)
  | .fmul x => some (x.fields 0x42)
  | .ffma x => some { x.h.fields 0x43 with
      d := x.d.code, a := x.a.code, b := x.b.code, c := x.c.code, md := fMod x.rm x.ft, imm := x.imm }
  | .fmin x => some (x.fields 0x44)
  | .fmax x => some (x.fields 0x45)
  | .fcmp x => some { x.h.fields 0x46 with
      sub := x.cc.code, d := x.d.code, a := x.a.code, b := x.b.code, md := fMod .rne x.ft, imm := x.imm }
  | .frcp x => some (x.fields 0x47)
  | .frsq x => some (x.fields 0x48)
  | .fsqrt x => some (x.fields 0x49)
  | .fexp2 x => some (x.fields 0x4A)
  | .flog2 x => some (x.fields 0x4B)
  | .cvt x => some { x.h.fields 0x4C with
      sub := x.src.code, d := x.d.code, a := x.a.code
      b := (match x.b with | none => 0 | some b => b.code), md := fMod x.rm x.ft, imm := x.imm }
  | .qnt x => some (x.fields 0x51)
  | .qntt x => some { x.h.fields 0x52 with
      sub := BitVec.ofNat 4 (bnat x.col), d := x.d.code, a := x.a.code, b := x.b.code, c := x.c.code
      md := fMod x.rm .e4m3, imm := x.imm }
  | .dqnt x => some (x.fields 0x53)
  | .vact x => some { x.h.fields 0x54 with
      sub := x.fn.code, d := x.d.code, a := x.a.code, md := fMod x.rm x.ft, imm := x.imm }
  | .vdact x => some { x.h.fields 0x55 with
      sub := x.fn.code, d := x.d.code, a := x.a.code, b := x.b.code, md := fMod x.rm x.ft, imm := x.imm }
  | .ctld x => some { x.mem.fields (x.h.fields 0x56) false false false with d := Opnd.zero.code }
  | .ctdec x => some (x.fields 0x57)
  | .ctenc x => some (x.fields 0x58)
  | .maxkey x => some (x.fields 0x59)
  | .srseed x => some { x.h.fields 0x5A with d := Opnd.zero.code, a := x.a.code, b := x.b.code, imm := x.imm }
  | .shfl x => some { x.h.fields 0x61 with
      sub := x.mode.code, d := x.d.code, a := x.a.code, b := x.b.code, c := x.c.code
      md := iMod false (if x.wide then .b64 else .b32), imm := x.imm }
  | .vote x => some { x.h.fields 0x62 with sub := x.mode.code, d := x.d.code, a := x.a.code }
  | .gred x => some { x.h.fields 0x63 with
      sub := x.op.codes.1, d := x.d.code, a := x.a.code, md := x.op.codes.2 }
  | .prmt x => some { x.h.fields 0x64 with
      d := x.d.code, a := x.a.code, b := x.b.code, c := x.c.code, md := iMod false .b32, imm := x.imm }
  | .bra x => some { x.h.fields 0x71 with imm := x.disp }
  | .brD x => some (x.fields 0x72)
  | .brx x => some (x.fields 0x73)
  | .call x => some { x.h.fields 0x74 with d := x.d.code, imm := x.disp }
  | .ret x => some (x.fields 0x75)
  | .jopen x => some (x.fields 0x76)
  | .join x => some (x.fields 0x77)
  | .brk x => some (x.fields 0x78)
  | .eject x => some { x.h.fields 0x79 with
      c := BitVec.ofNat 9 x.k.val, md := BitVec.ofNat 6 x.c1.val, imm := x.disp }
  | .rejoin x => some (x.fields 0x7A)
  | .yield x => some (x.h.fields 0x7B)
  | .exit x => some (x.h.fields 0x7C)
  | .nop x => some (x.h.fields 0x7D)
  | .trap x => some (x.fields 0x7E)
  | .nbarArr x => some (x.fields 0x81)
  | .nbarWait x => some { x.h.fields 0x82 with c := BitVec.ofNat 9 x.k.val }
  | .nbarSync x => some (x.fields 0x83)
  | .ctake x => some (x.fields 0x84)
  | .cgive x => some (x.fields 0x85)
  | .cwait x => some (x.fields 0x86)
  | .waitf x => some { x.mem.fields (x.h.fields 0x87) false false false with sub := x.cc.code, d := x.d.code }
  | .rgive x => some (x.fields 0x88)
  | .rclaim x => some (x.fields 0x89)
  | .rswitch x => some { x.h.fields 0x8A with a := x.a.code, b := x.b.code, imm := x.disp }
  | .rpoint x => some (x.h.fields 0x8B)
  | .mark x => some (x.fields 0x8C)
  | .tnext x => some { x.h.fields 0x91 with d := x.d.code }
  | .tdone x => some (x.h.fields 0x92)
  | .tspawn x => some (x.fields 0x93)
  | .tscope x => some { x.h.fields 0x94 with d := x.d.code, a := x.a.code, b := x.b.code, imm := x.imm }
  | .cancel x => some (x.fields 0x95)
  | .ld x => some { x.mem.fields (x.h.fields 0xA1) x.u false x.acq with sub := x.ty.code, d := x.d.code }
  | .st x => some { x.mem.fields (x.h.fields 0xA2) false x.rel false with sub := x.ty.code, d := x.d.code }
  | .lds x => some { x.mem.fields (x.h.fields 0xA3) x.col false false with sub := x.ty.code, d := x.d.code }
  | .sts x => some { x.mem.fields (x.h.fields 0xA4) x.col false false with sub := x.ty.code, d := x.d.code }
  | .atom x => some { x.mem.fields (x.h.fields 0xA5) x.wide x.rel x.acq with
      sub := x.op.code, d := x.d.code, c := x.c.code }
  | .atoms x => some { x.mem.fields (x.h.fields 0xA6) x.wide false false with
      sub := x.op.code, d := x.d.code, c := x.c.code }
  | .fence x => some (x.mem.fields (x.h.fields 0xA7) false false false)
  | .pref x => some { x.mem.fields (x.h.fields 0xA8) false false false with sub := BitVec.ofNat 4 (bnat x.llc) }
  | .cflush x => some (x.mem.fields (x.h.fields 0xA9) false false false)
  | .cinv x => some (x.mem.fields (x.h.fields 0xAA) false false false)
  | .spempty x => some { x.mem.fields (x.h.fields 0xAB) false false false with d := x.d.code }
  | .spstate x => some { x.mem.fields (x.h.fields 0xAC) false false false with d := x.d.code }
  | .wbind x => some { x.h.fields 0xB1 with
      a := x.a.code, c := BitVec.ofNat 9 x.k.val, md := BitVec.ofNat 6 (bnat x.go), imm := x.off }
  | .warm x => some { x.h.fields 0xB2 with
      a := x.a.code, c := BitVec.ofNat 9 x.k.val, md := BitVec.ofNat 6 (bnat x.go), imm := x.off }
  | .wput x => some { x.h.fields 0xB3 with c := BitVec.ofNat 9 x.k.val }
  | .wstate x => some { x.h.fields 0xB4 with sub := x.cc.code, d := x.d.code, c := BitVec.ofNat 9 x.k.val }
  | .tacc x => some { x.mem.fields (x.h.fields 0xB5) false false false with sub := x.ft.code, d := x.d.code }
  | .tcons x => some { x.mem.fields (x.h.fields 0xB6) x.nb false false with d := x.d.code }
  | .tcnt x => some { x.mem.fields (x.h.fields 0xB7) false false false with d := x.d.code }
  | .treset x => some { x.mem.fields (x.h.fields 0xB8) false false false with d := x.d.code }
  | .atake x => some { x.h.fields 0xC1 with c := BitVec.ofNat 9 x.t.val }
  | .agive x => some { x.h.fields 0xC2 with a := x.a.code, c := BitVec.ofNat 9 x.t.val, imm := x.imm }
  | .ald x => some { x.h.fields 0xC3 with
      d := x.d.code, a := x.a.code, c := BitVec.ofNat 9 x.t.val, md := x.rm.code ++ x.ft.code, imm := x.off }
  | .ast x => some { x.h.fields 0xC4 with
      d := x.d.code, a := x.a.code, c := BitVec.ofNat 9 x.t.val, md := 0#3 ++ x.ft.code, imm := x.off }
  | .awin x => some { x.h.fields 0xC5 with
      a := x.a.code, b := x.b.code, c := BitVec.ofNat 9 x.t.val
      imm := BitVec.ofNat 32 (x.g.val * 256 + x.k.val) }
  | .awinUnp x => some { x.h.fields 0xC5 with md := 1, imm := BitVec.ofNat 32 x.k.val }
  | .collArm x => some { x.h.fields 0xC9 with d := x.d.code, a := x.a.code, imm := x.off }
  | .collPut x => some { x.h.fields 0xCA with a := x.a.code, imm := x.off }
  | .mlatch x => some { strFields 0xD0 with
      d := x.d.code, a := x.a.code, b := x.b.code, c := strC x.win x.l (if x.second then 4 else 0), imm := x.imm
      md := BitVec.ofBool x.col ++ BitVec.ofBool x.exp ++ x.sp.code ++ x.wf.code }
  | .mstreamF x => some (x.fields 0xD1)
  | .mstreamB x => some (x.fields 0xD2)
  | .mzero x => some { strFields 0xD3 with d := x.d.code, b := x.b.code, c := strC 0 0 x.t, imm := x.imm }
  | .mdrain x => some { strFields 0xD4 with
      d := x.d.code, a := x.a.code, b := x.b.code, c := strC x.win 0 x.t, md := fMod x.rm x.ft, imm := x.imm }
  | .mdrainT x => some { strFields 0xD5 with
      d := x.d.code, a := x.a.code, b := x.b.code, c := strC x.win 0 x.t, imm := x.imm }
  | .mscale x => some { strFields 0xD6 with
      d := x.d.code, a := x.a.code, b := x.b.code, c := strC 0 0 x.t, imm := x.imm }
  | .mtake x => some { strFields 0xD7 with c := strC 0 0 x.t }
  | .mgive x => some { strFields 0xD8 with a := x.a.code, c := strC 0 0 x.t, imm := x.imm }
  | .mwin x => some { strFields 0xD9 with a := x.a.code, imm := x.imm }
  | .mbarArr x => some { strFields 0xDA with
      md := BitVec.ofNat 6 (bnat x.rd), imm := BitVec.ofNat 32 x.k.val }
  | .mbarSync x => some { strFields 0xDA with
      sub := 1, md := BitVec.ofNat 6 (bnat x.rd), imm := BitVec.ofNat 32 x.k.val }
  | .mbarWait x => some { strFields 0xDA with sub := 2, imm := BitVec.ofNat 32 x.k.val }
  | .mset x => some { strFields 0xDB with d := x.d.code, a := x.a.code, imm := x.imm }
  | .madd x => some { strFields 0xDC with d := x.d.code, a := x.a.code, b := x.b.code, imm := x.imm }
  | .mloop x => some { strFields 0xDD with d := x.d.code, imm := x.disp }
  | .mjmp x => some { strFields 0xDE with imm := x.disp }
  | .mend => some (strFields 0xDF)
  | .srd x => some { x.h.fields 0xE1 with d := x.d.code, imm := x.idx.zeroExtend 32 }
  | .swr x => some { x.h.fields 0xE2 with a := x.a.code, imm := x.idx.zeroExtend 32 }
  | .svc x => some { x.h.fields 0xE3 with imm := x.code.zeroExtend 32 }
  | .rfe x => some (x.h.fields 0xE4)
  | .tlbiVa x => some { x.h.fields 0xE5 with a := x.a.code, imm := x.off }
  | .tlbiCtx x => some { x.fields 0xE5 with sub := 1 }
  | .tlbiAll x => some { x.h.fields 0xE5 with sub := 2 }
  | .evt x => some { x.h.fields 0xE6 with a := x.a.code, imm := x.code.zeroExtend 32 }
  | .halt x => some (x.fields 0xE7)
  | .barrierRelease _ _ | .takeQueueServe _ _ | .waitTimeout _ | .chunkReturn _ | .claimQueueServe _ _
  | .teamStall _ | .governorArm _ | .scheduleMissTimeout _ | .markTimeout _ | .groupKill _ | .cancelAck _ _
  | .longLatencyDelivery _ _ | .lateFailure _ _ | .copyLine _ _ | .copyFault _ _ | .twinEarlyTimeout _ _
  | .meshWordFinish _ | .putArrival _ | .collDeadline _ _ | .hubCombine _ _ | .slotWriteFault _ _
  | .versionFull _ | .segmentResolve _ | .launchEligible _ | .teamPlace _ | .launchCompletion _
  | .pageMove _ | .victimRetry _ | .preemptDeadline _ | .teamSave _ | .owedReply _ _
  | .peerRequest _ | .peerReply _ | .retransmit _ | .packetDiscard _ | .flitReplay _
  | .eccCorrected _ | .eccUncorrectable _ | .eventRingTake _
  | .provision _ | .attest _ | .policy _ | .peers _ | .write _ | .read _ | .map _ | .unmap _ | .frames _
  | .launch _ | .timetable _ | .preempt _ | .resume _ | .discard _ | .events _
  | .reset _ | .affinityWaitExpiry _ | .storeAcknowledged _ _ => none

/-- The word of an instruction; `none` for an event. -/
def encode (i : Instr) : Option W96 := i.toFields.map Fields.pack

/-! ### Reading the fields of a word -/

/-- The header fields of a word. -/
def Fields.hdr (f : Fields) : Hdr :=
  ⟨finOf 15 f.la.toNat, finOf 7 f.gp.toNat, f.gn == 1, Hold.ofCode f.hold⟩

/-- The `RES`, `WIX` or `TILE` number in `C`, at most `n` (R81); larger values do not survive encoding again. -/
def Fields.res (f : Fields) (n : Nat) : Fin (n + 1) := finOf n f.c.toNat

def Fields.iTy (f : Fields) : Option ITy := ITy.ofCode (f.md.extractLsb' 0 4)
def Fields.sat (f : Fields) : Bool := f.md.getLsbD 4
def Fields.ft (f : Fields) : Option FTy := FTy.ofCode (f.md.extractLsb' 0 3)
def Fields.rm (f : Fields) : Option RMode := RMode.ofCode (f.md.extractLsb' 3 3)
def Fields.x (f : Fields) : Bool := f.md.getLsbD 2
def Fields.rel (f : Fields) : Bool := f.md.getLsbD 1
def Fields.acq (f : Fields) : Bool := f.md.getLsbD 0

def Fields.mem (f : Fields) : Option MemOp := do
  let base ← Opnd.ofCode f.a
  let index ← Opnd.ofCode f.b
  let scale ← Scale.ofCode (f.md.extractLsb' 3 3)
  some ⟨base, index, scale, f.imm⟩

def Fields.int1 (f : Fields) (uni : Bool) : Option Int1 := do
  some ⟨f.hdr, uni, ← f.iTy, f.sat, ← Opnd.ofCode f.d, ← Opnd.ofCode f.a, f.imm⟩
def Fields.int2 (f : Fields) (uni : Bool) : Option Int2 := do
  some ⟨f.hdr, uni, ← f.iTy, f.sat, ← Opnd.ofCode f.d, ← Opnd.ofCode f.a, ← Opnd.ofCode f.b, f.imm⟩
def Fields.int3 (f : Fields) (uni : Bool) : Option Int3 := do
  some ⟨f.hdr, uni, ← f.iTy, f.sat, ← Opnd.ofCode f.d, ← Opnd.ofCode f.a, ← Opnd.ofCode f.b, ← Opnd.ofCode f.c, f.imm⟩
def Fields.icmp (f : Fields) (uni : Bool) : Option IcmpW := do
  some ⟨f.hdr, uni, ← ICond.ofCode f.sub, ← f.iTy, ← Opnd.ofCode f.d, ← Opnd.ofCode f.a, ← Opnd.ofCode f.b, f.imm⟩
def Fields.movi (f : Fields) (uni : Bool) : Option MoviW := do
  some ⟨f.hdr, uni, ← f.iTy, ← Opnd.ofCode f.d, f.imm⟩
def Fields.fp1 (f : Fields) : Option Fp1 := do
  some ⟨f.hdr, ← f.rm, ← f.ft, ← Opnd.ofCode f.d, ← Opnd.ofCode f.a, f.imm⟩
def Fields.fp2 (f : Fields) : Option Fp2 := do
  some ⟨f.hdr, ← f.rm, ← f.ft, ← Opnd.ofCode f.d, ← Opnd.ofCode f.a, ← Opnd.ofCode f.b, f.imm⟩
def Fields.fp3 (f : Fields) : Option Fp3 := do
  some ⟨f.hdr, ← f.rm, ← f.ft, ← Opnd.ofCode f.d, ← Opnd.ofCode f.a, ← Opnd.ofCode f.b, ← Opnd.ofCode f.c, f.imm⟩
def Fields.fcmp (f : Fields) : Option FcmpW := do
  some ⟨f.hdr, ← FCond.ofCode f.sub, ← f.ft, ← Opnd.ofCode f.d, ← Opnd.ofCode f.a, ← Opnd.ofCode f.b, f.imm⟩

/-- Whether a CVT takes the second source b (R146). -/
def cvtPacks (s : CvtSrc) (t : FTy) : Bool := s == .fp .f32 && (t == .f16x2 || t == .bf16x2)

def Fields.cvt (f : Fields) : Option CvtW := do
  let s ← CvtSrc.ofCode f.sub
  let t ← f.ft
  if cvtPacks s t then
    some ⟨f.hdr, s, ← f.rm, t, ← Opnd.ofCode f.d, ← Opnd.ofCode f.a, some (← Opnd.ofCode f.b), f.imm⟩
  else some ⟨f.hdr, s, ← f.rm, t, ← Opnd.ofCode f.d, ← Opnd.ofCode f.a, none, f.imm⟩
def Fields.qntt (f : Fields) : Option QnttW := do
  some ⟨f.hdr, f.sub == 1, ← f.rm, ← Opnd.ofCode f.d, ← Opnd.ofCode f.a, ← Opnd.ofCode f.b, ← Opnd.ofCode f.c, f.imm⟩
def Fields.vact (f : Fields) : Option VactW := do
  some ⟨f.hdr, ← ActFn.ofCode f.sub, ← f.rm, ← f.ft, ← Opnd.ofCode f.d, ← Opnd.ofCode f.a, f.imm⟩
def Fields.vdact (f : Fields) : Option VdactW := do
  some ⟨f.hdr, ← ActFn.ofCode f.sub, ← f.rm, ← f.ft, ← Opnd.ofCode f.d, ← Opnd.ofCode f.a, ← Opnd.ofCode f.b, f.imm⟩
def Fields.shfl (f : Fields) : Option ShflW := do
  some ⟨f.hdr, ← ShflMode.ofCode f.sub, f.md == iMod false .b64, ← Opnd.ofCode f.d, ← Opnd.ofCode f.a,
    ← Opnd.ofCode f.b, ← Opnd.ofCode f.c, f.imm⟩
def Fields.gred (f : Fields) : Option GredW := do
  some ⟨f.hdr, ← GredOp.ofCodes f.sub f.md, ← Opnd.ofCode f.d, ← Opnd.ofCode f.a⟩
def Fields.ctlA (f : Fields) : Option CtlA := do some ⟨f.hdr, ← Opnd.ofCode f.a⟩
def Fields.tok (f : Fields) : CtlTok := ⟨f.hdr, f.res 7⟩
def Fields.tokDisp (f : Fields) : CtlTokDisp := ⟨f.hdr, f.res 7, f.imm⟩
def Fields.codeW (f : Fields) : CodeW := ⟨f.hdr, f.imm.setWidth 16⟩
def Fields.nbar (f : Fields) : Option NbarW := do some ⟨f.hdr, f.res 15, ← Opnd.ofCode f.d⟩
def Fields.ctr (f : Fields) : Option CtrW := do some ⟨f.hdr, f.res 31, ← Opnd.ofCode f.a, f.imm⟩
def Fields.num (f : Fields) : Option NumW := do some ⟨f.hdr, ← Opnd.ofCode f.a, f.imm⟩
def Fields.memW (f : Fields) : Option MemW := do some ⟨f.hdr, ← f.mem⟩
def Fields.regMem (f : Fields) : Option RegMemW := do some ⟨f.hdr, ← Opnd.ofCode f.d, ← f.mem⟩
def Fields.sp (f : Fields) : Option SpW := do
  some ⟨f.hdr, ← ITy.ofCode f.sub, f.x, ← Opnd.ofCode f.d, ← f.mem⟩
def Fields.win (f : Fields) : Option WinW := do
  some ⟨f.hdr, f.res 31, f.md == 1, ← Opnd.ofCode f.a, f.imm⟩
def Fields.baseOff (f : Fields) : Option BaseOffW := do some ⟨f.hdr, ← Opnd.ofCode f.a, f.imm⟩

def Fields.wix (f : Fields) : Fin 32 := finOf 31 (f.c.extractLsb' 4 5).toNat
def Fields.lset (f : Fields) : Fin 2 := finOf 1 (f.c.extractLsb' 3 1).toNat
def Fields.tile (f : Fields) : Fin 8 := finOf 7 (f.c.extractLsb' 0 3).toNat

def Fields.mstream (f : Fields) : Option MstreamW := do
  some ⟨← MFmt.ofCode (f.md.extractLsb' 0 2), f.md.getLsbD 2, f.md.getLsbD 3, f.md.getLsbD 4, f.lset, f.tile, f.wix,
    ← SOp.ofCode f.d, ← SOp.ofCode f.a, ← SOp.ofCode f.b, f.imm⟩

/-- The integer words by their vector opcode (R85, R138). -/
def Fields.parseInt (f : Fields) (op : Nat) (uni : Bool) : Option Instr :=
  match op with
  | 0x01 => f.int2 uni |>.map .iadd
  | 0x02 => f.int2 uni |>.map .isub
  | 0x03 => f.int2 uni |>.map .imul
  | 0x04 => f.int2 uni |>.map .imulh
  | 0x05 => f.int3 uni |>.map .imad
  | 0x06 => f.int2 uni |>.map .imin
  | 0x07 => f.int2 uni |>.map .imax
  | 0x08 => f.int1 uni |>.map .iabs
  | 0x09 => f.int2 uni |>.map .and
  | 0x0A => f.int2 uni |>.map .or
  | 0x0B => f.int2 uni |>.map .xor
  | 0x0C => f.int2 uni |>.map .shl
  | 0x0D => f.int2 uni |>.map .shr
  | 0x0E => f.int2 uni |>.map .sar
  | 0x0F => f.int2 uni |>.map .bfx
  | 0x10 => f.int3 uni |>.map .bfi
  | 0x11 => f.int1 uni |>.map .popc
  | 0x12 => f.int1 uni |>.map .clz
  | 0x13 => f.icmp uni |>.map .icmp
  | 0x14 => f.int3 uni |>.map .sel
  | 0x15 => f.int1 uni |>.map .mov
  | 0x16 => if f.sub = 1 then (if uni then (Opnd.ofCode f.d).map fun d => .moviHi ⟨f.hdr, d, f.imm⟩ else none)
            else f.movi uni |>.map .movi
  | _ => none

/-- The floating, training and lane-exchange words (R143, R149 to R157). -/
def Fields.parseFp (f : Fields) (op : Nat) : Option Instr :=
  match op with
  | 0x41 => f.fp2.map .fadd
  | 0x42 => f.fp2.map .fmul
  | 0x43 => f.fp3.map .ffma
  | 0x44 => f.fp2.map .fmin
  | 0x45 => f.fp2.map .fmax
  | 0x46 => f.fcmp.map .fcmp
  | 0x47 => f.fp1.map .frcp
  | 0x48 => f.fp1.map .frsq
  | 0x49 => f.fp1.map .fsqrt
  | 0x4A => f.fp1.map .fexp2
  | 0x4B => f.fp1.map .flog2
  | 0x4C => f.cvt.map .cvt
  | 0x51 => f.fp2.map .qnt
  | 0x52 => f.qntt.map .qntt
  | 0x53 => f.fp2.map .dqnt
  | 0x54 => f.vact.map .vact
  | 0x55 => f.vdact.map .vdact
  | 0x56 => f.memW.map .ctld
  | 0x57 => f.fp2.map .ctdec
  | 0x58 => f.fp2.map .ctenc
  | 0x59 => f.fp2.map .maxkey
  | 0x5A => do some (.srseed ⟨f.hdr, ← Opnd.ofCode f.a, ← Opnd.ofCode f.b, f.imm⟩)
  | 0x61 => f.shfl.map .shfl
  | 0x62 => do some (.vote ⟨f.hdr, ← VoteMode.ofCode f.sub, ← Opnd.ofCode f.d, ← Opnd.ofCode f.a⟩)
  | 0x63 => f.gred.map .gred
  | 0x64 => do
      some (.prmt ⟨f.hdr, ← Opnd.ofCode f.d, ← Opnd.ofCode f.a, ← Opnd.ofCode f.b, ← Opnd.ofCode f.c, f.imm⟩)
  | _ => none

/-- The control, synchronisation, pool and task words (R159). -/
def Fields.parseCtl (f : Fields) (op : Nat) : Option Instr :=
  match op with
  | 0x71 => some (.bra ⟨f.hdr, f.imm⟩)
  | 0x72 => some (.brD f.tokDisp)
  | 0x73 => f.ctlA.map .brx
  | 0x74 => (Opnd.ofCode f.d).map fun d => .call ⟨f.hdr, d, f.imm⟩
  | 0x75 => f.ctlA.map .ret
  | 0x76 => some (.jopen f.tokDisp)
  | 0x77 => some (.join f.tok)
  | 0x78 => some (.brk f.tok)
  | 0x79 => some (.eject ⟨f.hdr, f.res 7, finOf 3 f.md.toNat, f.imm⟩)
  | 0x7A => some (.rejoin f.tok)
  | 0x7B => some (.yield ⟨f.hdr⟩)
  | 0x7C => some (.exit ⟨f.hdr⟩)
  | 0x7D => some (.nop ⟨f.hdr⟩)
  | 0x7E => some (.trap f.codeW)
  | 0x81 => f.nbar.map .nbarArr
  | 0x82 => some (.nbarWait ⟨f.hdr, f.res 15⟩)
  | 0x83 => f.nbar.map .nbarSync
  | 0x84 => f.ctr.map .ctake
  | 0x85 => f.ctr.map .cgive
  | 0x86 => f.ctr.map .cwait
  | 0x87 => do some (.waitf ⟨f.hdr, ← WCond.ofCode f.sub, ← Opnd.ofCode f.d, ← f.mem⟩)
  | 0x88 => f.num.map .rgive
  | 0x89 => f.num.map .rclaim
  | 0x8A => do some (.rswitch ⟨f.hdr, ← Opnd.ofCode f.a, ← Opnd.ofCode f.b, f.imm⟩)
  | 0x8B => some (.rpoint ⟨f.hdr⟩)
  | 0x8C => some (.mark f.codeW)
  | 0x91 => (Opnd.ofCode f.d).map fun d => .tnext ⟨f.hdr, d⟩
  | 0x92 => some (.tdone ⟨f.hdr⟩)
  | 0x93 => f.ctlA.map .tspawn
  | 0x94 => do some (.tscope ⟨f.hdr, ← Opnd.ofCode f.d, ← Opnd.ofCode f.a, ← Opnd.ofCode f.b, f.imm⟩)
  | 0x95 => f.num.map .cancel
  | _ => none

/-- The memory, window, twin and accumulator words (R191 to R216, R244). -/
def Fields.parseMem (f : Fields) (op : Nat) : Option Instr :=
  match op with
  | 0xA1 => do some (.ld ⟨f.hdr, ← ITy.ofCode f.sub, f.acq, f.x, ← Opnd.ofCode f.d, ← f.mem⟩)
  | 0xA2 => do some (.st ⟨f.hdr, ← ITy.ofCode f.sub, f.rel, ← Opnd.ofCode f.d, ← f.mem⟩)
  | 0xA3 => f.sp.map .lds
  | 0xA4 => f.sp.map .sts
  | 0xA5 => do
      some (.atom ⟨f.hdr, ← AtomOp.ofCode f.sub, f.x, f.acq, f.rel, ← Opnd.ofCode f.d, ← Opnd.ofCode f.c, ← f.mem⟩)
  | 0xA6 => do some (.atoms ⟨f.hdr, ← AtomOp.ofCode f.sub, f.x, ← Opnd.ofCode f.d, ← Opnd.ofCode f.c, ← f.mem⟩)
  | 0xA7 => f.memW.map .fence
  | 0xA8 => f.mem.map fun m => .pref ⟨f.hdr, f.sub == 1, m⟩
  | 0xA9 => f.memW.map .cflush
  | 0xAA => f.memW.map .cinv
  | 0xAB => f.regMem.map .spempty
  | 0xAC => f.regMem.map .spstate
  | 0xB1 => f.win.map .wbind
  | 0xB2 => f.win.map .warm
  | 0xB3 => some (.wput ⟨f.hdr, f.res 31⟩)
  | 0xB4 => do some (.wstate ⟨f.hdr, f.res 31, ← WinCond.ofCode f.sub, ← Opnd.ofCode f.d⟩)
  | 0xB5 => do some (.tacc ⟨f.hdr, ← TwFmt.ofCode f.sub, ← Opnd.ofCode f.d, ← f.mem⟩)
  | 0xB6 => do some (.tcons ⟨f.hdr, f.x, ← Opnd.ofCode f.d, ← f.mem⟩)
  | 0xB7 => f.regMem.map .tcnt
  | 0xB8 => f.regMem.map .treset
  | 0xC1 => some (.atake ⟨f.hdr, f.res 7⟩)
  | 0xC2 => (Opnd.ofCode f.a).map fun a => .agive ⟨f.hdr, f.res 7, a, f.imm⟩
  | 0xC3 => do
      some (.ald ⟨f.hdr, ← f.rm, ← AFmt.ofCode (f.md.extractLsb' 0 3), f.res 7, ← Opnd.ofCode f.d, ← Opnd.ofCode f.a, f.imm⟩)
  | 0xC4 => do
      some (.ast ⟨f.hdr, ← AFmt.ofCode (f.md.extractLsb' 0 3), f.res 7, ← Opnd.ofCode f.d, ← Opnd.ofCode f.a, f.imm⟩)
  | 0xC5 =>
      if f.md = 1 then some (.awinUnp ⟨f.hdr, finOf 1 f.imm.toNat⟩)
      else do
        some (.awin ⟨f.hdr, finOf 1 (f.imm.toNat % 2), f.res 7, ← Opnd.ofCode f.a, ← Opnd.ofCode f.b,
          finOf 63 (f.imm.toNat / 256 % 64)⟩)
  | _ => none

/-- The matrix stream words (R227). -/
def Fields.parseStr (f : Fields) (op : Nat) : Option Instr :=
  match op with
  | 0xD0 => do
      some (.mlatch ⟨← MFmt.ofCode (f.md.extractLsb' 0 2), ← Sparsity.ofCode (f.md.extractLsb' 2 2),
        f.md.getLsbD 4, f.md.getLsbD 5, f.lset, f.tile == 4, f.wix, ← SOp.ofCode f.d, ← SOp.ofCode f.a,
        ← SOp.ofCode f.b, f.imm⟩)
  | 0xD1 => f.mstream.map .mstreamF
  | 0xD2 => f.mstream.map .mstreamB
  | 0xD3 => do some (.mzero ⟨f.tile, ← SOp.ofCode f.d, ← SOp.ofCode f.b, f.imm⟩)
  | 0xD4 => do
      some (.mdrain ⟨← f.rm, ← f.ft, f.tile, f.wix, ← SOp.ofCode f.d, ← SOp.ofCode f.a, ← SOp.ofCode f.b, f.imm⟩)
  | 0xD5 => do some (.mdrainT ⟨f.tile, f.wix, ← SOp.ofCode f.d, ← SOp.ofCode f.a, ← SOp.ofCode f.b, f.imm⟩)
  | 0xD6 => do some (.mscale ⟨f.tile, ← SOp.ofCode f.d, ← SOp.ofCode f.a, ← SOp.ofCode f.b, f.imm⟩)
  | 0xD7 => some (.mtake ⟨f.tile⟩)
  | 0xD8 => (SOp.ofCode f.a).map fun a => .mgive ⟨f.tile, a, f.imm⟩
  | 0xD9 => (SOp.ofCode f.a).map fun a => .mwin ⟨a, f.imm⟩
  | 0xDA =>
    match f.sub.toNat with
    | 0 => some (.mbarArr ⟨f.md == 1, finOf 15 f.imm.toNat⟩)
    | 1 => some (.mbarSync ⟨f.md == 1, finOf 15 f.imm.toNat⟩)
    | 2 => some (.mbarWait ⟨finOf 15 f.imm.toNat⟩)
    | _ => none
  | 0xDB => do some (.mset ⟨← SOp.ofCode f.d, ← SOp.ofCode f.a, f.imm⟩)
  | 0xDC => do some (.madd ⟨← SOp.ofCode f.d, ← SOp.ofCode f.a, ← SOp.ofCode f.b, f.imm⟩)
  | 0xDD => (SOp.ofCode f.d).map fun d => .mloop ⟨d, f.imm⟩
  | 0xDE => some (.mjmp ⟨f.imm⟩)
  | 0xDF => some .mend
  | _ => none

/-- The collective and system words (R253). -/
def Fields.parseSys (f : Fields) (op : Nat) : Option Instr :=
  match op with
  | 0xC9 => do some (.collArm ⟨f.hdr, ← Opnd.ofCode f.d, ← Opnd.ofCode f.a, f.imm⟩)
  | 0xCA => f.baseOff.map .collPut
  | 0xE1 => (Opnd.ofCode f.d).map fun d => .srd ⟨f.hdr, d, f.imm.setWidth 12⟩
  | 0xE2 => (Opnd.ofCode f.a).map fun a => .swr ⟨f.hdr, a, f.imm.setWidth 12⟩
  | 0xE3 => some (.svc ⟨f.hdr, f.imm.setWidth 8⟩)
  | 0xE4 => some (.rfe ⟨f.hdr⟩)
  | 0xE5 =>
    match f.sub.toNat with
    | 0 => f.baseOff.map .tlbiVa
    | 1 => f.ctlA.map .tlbiCtx
    | 2 => some (.tlbiAll ⟨f.hdr⟩)
    | _ => none
  | 0xE6 => (Opnd.ofCode f.a).map fun a => .evt ⟨f.hdr, a, f.imm.setWidth 16⟩
  | 0xE7 => some (.halt f.codeW)
  | _ => none

/-- `OP` values of R85. -/
def opListed (op : Nat) : Bool :=
  (0x01 ≤ op && op ≤ 0x16) || (0x21 ≤ op && op ≤ 0x36) || (0x41 ≤ op && op ≤ 0x4C) || (0x51 ≤ op && op ≤ 0x5A) ||
  (0x61 ≤ op && op ≤ 0x64) || (0x71 ≤ op && op ≤ 0x7E) || (0x81 ≤ op && op ≤ 0x8C) || (0x91 ≤ op && op ≤ 0x95) ||
  (0xA1 ≤ op && op ≤ 0xAC) || (0xB1 ≤ op && op ≤ 0xB8) || (0xC1 ≤ op && op ≤ 0xC5) || (0xC9 ≤ op && op ≤ 0xCA) ||
  (0xD0 ≤ op && op ≤ 0xDF) || (0xE1 ≤ op && op ≤ 0xE7)

/-- The instruction that the fields name, before its unused fields and its legality are checked. -/
def Fields.parse (f : Fields) : Option Instr :=
  let op := f.op.toNat
  if op ≤ 0x20 then f.parseInt op false
  else if op ≤ 0x36 then f.parseInt (op - 0x20) true
  else if op ≤ 0x64 then f.parseFp op
  else if op ≤ 0x95 then f.parseCtl op
  else if op ≤ 0xC5 then f.parseMem op
  else if op ≤ 0xCA then f.parseSys op
  else if op ≤ 0xDF then f.parseStr op
  else f.parseSys op

/-- The fields decoded: the instruction, whose unused fields are zero and which is legal by itself. -/
def Fields.decode (f : Fields) : Except DecErr Instr :=
  match f.parse with
  | none => .error (if opListed f.op.toNat then .reservedField else .reservedOp)
  | some i =>
    if i.toFields = some f then
      match i.legalErr with
      | none => .ok i
      | some e => .error (.illegal e)
    else .error .unusedField

/-- The decoder of instruction words. -/
def decodeWord (w : W96) : Except DecErr Instr := (Fields.unpack w).decode

/-- The kind of an undecodable word for the rule of R100: a reserved `OP` counts as vector kind. -/
def opVector (op : Nat) : Bool :=
  (op ≤ 0x20) || (0x41 ≤ op && op ≤ 0x4C) || (0x51 ≤ op && op ≤ 0x59 && op != 0x56) || (0x61 ≤ op && op ≤ 0x64) ||
  op == 0x72 || op == 0x77 || op == 0x78 || op == 0x79 || op == 0x7A || op == 0x7C ||
  (0xA1 ≤ op && op ≤ 0xA6) || op == 0xA8 || op == 0xAC || (0xB5 ≤ op && op ≤ 0xB7) || op == 0xC3 || op == 0xC4 ||
  op == 0xE1 || !opListed op

/-! ### Words in memory -/

/-- A word from its twelve bytes, the first lowest (R78). -/
def wordOfBytes (b : List Byte) : W96 :=
  BitVec.ofNat 96 (b.foldr (fun x n => x.toNat + 256 * n) 0)

/-- The twelve bytes of a word, the first lowest (R78). -/
def bytesOfWord (w : W96) : List Byte := (List.range 12).map fun j => w.extractLsb' (8 * j) 8

/-- Whether a word holds an odd number of ones: its `PAR` bit (R75, R88). -/
def parity (w : W96) : Bool := (List.range 96).foldl (fun p i => p ^^ w.getLsbD i) false

/-- The instruction the decoder reads from a word whose low `nbits` bits are `w` and whose other bits are zero
(bit 0 of the word is bit 0 of byte 0, R78). -/
def decodeTableWord (nbits w : Nat) : Option Instr :=
  match decodeWord (wordOfBytes (bytesOfWord (BitVec.ofNat 96 (w % 2 ^ nbits)))) with
  | .ok i => some i
  | .error _ => none

/-! ### Messages of the command channel -/

/-- A little-endian number of `n` bytes from offset `off`; bytes beyond the end count as 0. -/
def leNat (b : List Byte) (off n : Nat) : Nat :=
  ((b.drop off).take n).foldr (fun x a => x.toNat + 256 * a) 0

/-- The header fields of a message (R417). -/
def msgOfBytes (src : W128) (b : List Byte) : HostMsg where
  src := src
  tag := BitVec.ofNat 32 (leNat b 4 4)
  die := finOf 3 (leNat b 2 1 % 4)
  len := leNat b 8 4
  stat := BitVec.ofNat 32 (leNat b 12 4)
  dev := leNat b 1 1 / 2 % 2 == 1
  rpl := leNat b 1 1 % 2 == 1
  rsvd := !(leNat b 1 1 / 4 == 0 && leNat b 2 2 / 4 == 0 && leNat b 16 16 == 0)
  body := b.drop 32

/-- The command that `OPC` names (R419); `none` for a reserved `OPC`. COMPLETE is sent by the device only. -/
def cmdOfOpc (opc : Nat) (m : HostMsg) : Option Instr :=
  match opc with
  | 0x01 => some (.provision m)
  | 0x02 => some (.attest m)
  | 0x03 => some (.policy m)
  | 0x04 => some (.peers m)
  | 0x10 => some (.write m)
  | 0x11 => some (.read m)
  | 0x20 => some (.map m)
  | 0x21 => some (.unmap m)
  | 0x22 => some (.frames m)
  | 0x30 => some (.launch m)
  | 0x31 => some (.timetable m)
  | 0x32 => some (.preempt m)
  | 0x33 => some (.resume m)
  | 0x34 => some (.discard m)
  | 0x40 => some (.events m)
  | _ => none

/-- A message of the command channel decoded: the command with its header and body. -/
def decodeMessage (src : W128) (b : List Byte) : Option Instr := cmdOfOpc (leNat b 0 1) (msgOfBytes src b)

end Sys2Proof
end

