-- ==== Sys2Proof/Machine/Bits.lean ====
section
/-! DEFINITION. Bit fields, sign extension, byte order and lane masks: the small helpers of R45 and R78. -/
namespace Sys2Proof.Machine

/-- Bits `hi` to `lo` of `x` as a number (R45). -/
def bits (x hi lo : Nat) : Nat := x / 2 ^ lo % 2 ^ (hi + 1 - lo)

/-- One bit of a number. -/
def bitAt (x i : Nat) : Bool := x / 2 ^ i % 2 == 1

/-- The low `n` bits of `x` as a signed number (R45). -/
def sext (x n : Nat) : Int :=
  let y := x % 2 ^ n
  if n ≠ 0 ∧ 2 ^ (n - 1) ≤ y then (y : Int) - (2 ^ n : Nat) else (y : Int)

/-- The low `n` bits of a signed number, as a natural number. -/
def wrap (x : Int) (n : Nat) : Nat := (x % (2 ^ n : Nat)).toNat

/-- A little-endian number from bytes. -/
def natOf (b : List Byte) : Nat := b.foldr (fun x a => x.toNat + 256 * a) 0

/-- The `n` low bytes of `x`, least significant first. -/
def bytesOf : Nat → Nat → List Byte
  | 0, _ => []
  | n + 1, x => BitVec.ofNat 8 x :: bytesOf n (x / 256)

/-- The bytes from offset `off`, `n` of them; short where the list ends. -/
def sub (b : List Byte) (off n : Nat) : List Byte := (b.drop off).take n

/-- The number in `n` bytes at `off`. -/
def numAt (b : List Byte) (off n : Nat) : Nat := natOf (sub b off n)

/-- The lanes of a mask below `w`, ascending. -/
def lanes (m : Mask) (w : Nat) : List Nat := (List.range w).filter fun i => m.getLsbD i

/-- The mask of lanes 0 to `w` − 1. -/
def laneMask (w : Nat) : Mask := BitVec.ofNat 64 (2 ^ w - 1)

/-- The mask of one lane. -/
def lane1 (i : Nat) : Mask := BitVec.ofNat 64 (2 ^ i)

/-- A mask with the lanes of a list. -/
def maskOf (l : List Nat) : Mask := l.foldl (fun m i => m ||| lane1 i) 0

/-- The lowest lane of a mask, 0 for the empty one. -/
def lowLane (m : Mask) : Nat := ((List.range 64).find? fun i => m.getLsbD i).getD 0

/-- Number of ones. -/
def popcount (x n : Nat) : Nat := ((List.range n).filter fun i => bitAt x i).length

/-- Bits below the highest one: 0 for 0. -/
def bitLen (x : Nat) : Nat := if x = 0 then 0 else Nat.log2 x + 1

/-- The address of the 128-byte line of `a` (R45). -/
def lineOf (a : Nat) : Nat := a / 128 * 128

/-- `a` rounded up to a multiple of `n`. -/
def roundUp (a n : Nat) : Nat := (a + n - 1) / n * n

/-- Ceiling of a division. -/
def ceilDiv (a n : Nat) : Nat := (a + n - 1) / n

/-- Replace the first element that satisfies `p`. -/
def replaceFirst {α : Type} (p : α → Bool) (x : α) : List α → List α
  | [] => []
  | y :: r => if p y then x :: r else y :: replaceFirst p x r

/-- Modify element `i` of a list. -/
def modifyAt {α : Type} (f : α → α) : Nat → List α → List α
  | _, [] => []
  | 0, y :: r => f y :: r
  | n + 1, y :: r => y :: modifyAt f n r

end Sys2Proof.Machine
end

