-- ==== Sys2Proof/Machine/Num.lean ====
section
/-! DEFINITION. Number formats and rounding (R103 to R116): exact values, decoding, and the one rounding function `round`
of R49. An exact value is a NaN, an infinity, or a sign with a fraction of natural numbers, so that sums, products and
quotients are exact and every result is rounded once (R112). -/
namespace Sys2Proof.Machine

/-- A floating format (R103): exponent and fraction widths, whether it has infinities, its largest finite code. -/
structure Fmt where
  eb : Nat
  fb : Nat
  inf : Bool
  maxCode : Nat
  nanCode : Nat
deriving DecidableEq, Repr

/-- R103, R105. -/
def FP32 : Fmt := ⟨8, 23, true, 0x7F7FFFFF, 0x7FC00000⟩
def FP16 : Fmt := ⟨5, 10, true, 0x7BFF, 0x7E00⟩
def BF16 : Fmt := ⟨8, 7, true, 0x7F7F, 0x7FC0⟩
def E4M3 : Fmt := ⟨4, 3, false, 0x7E, 0x7F⟩
def XF48 : Fmt := ⟨10, 37, true, 0x7FDFFFFFFFFF, 0x7FF000000000⟩

/-- Bit number of the sign. -/
def Fmt.signBit (f : Fmt) : Nat := f.eb + f.fb
/-- Exponent bias (R103). -/
def Fmt.bias (f : Fmt) : Nat := 2 ^ (f.eb - 1) - 1
/-- Code of +∞, for the formats that have it. -/
def Fmt.infCode (f : Fmt) : Nat := (2 ^ f.eb - 1) * 2 ^ f.fb
/-- The weight of the last place of the least binade: 2^-(bias − 1 + fraction width). -/
def Fmt.minExp (f : Fmt) : Nat := f.bias - 1 + f.fb

/-- An exact value. A finite one is (−1)^`neg` × `n` / `d`; zeros keep their sign. -/
inductive ExactNum where
  | nan
  | inf (neg : Bool)
  | fin (neg : Bool) (n d : Nat)
deriving DecidableEq, Repr

/-- Zero with a sign. -/
def ExactNum.zero (neg : Bool) : ExactNum := .fin neg 0 1

/-- A signed integer as a value. -/
def ExactNum.ofInt (x : Int) : ExactNum := .fin (x < 0) x.natAbs 1

def ExactNum.isNan : ExactNum → Bool
  | .nan => true
  | _ => false

def ExactNum.isInf : ExactNum → Bool
  | .inf _ => true
  | _ => false

def ExactNum.isZero : ExactNum → Bool
  | .fin _ 0 _ => true
  | _ => false

def ExactNum.isFin : ExactNum → Bool
  | .fin _ _ _ => true
  | _ => false

/-- The sign; a NaN counts as positive. -/
def ExactNum.sign : ExactNum → Bool
  | .nan => false
  | .inf s => s
  | .fin s _ _ => s

def ExactNum.abs : ExactNum → ExactNum
  | .nan => .nan
  | .inf _ => .inf false
  | .fin _ n d => .fin false n d

def ExactNum.neg : ExactNum → ExactNum
  | .nan => .nan
  | .inf s => .inf (!s)
  | .fin s n d => .fin (!s) n d

/-- The value of a code (R104). -/
def decodeNum (f : Fmt) (code : Nat) : ExactNum :=
  let s := bitAt code f.signBit
  let e := bits code (f.signBit - 1) f.fb
  let m := code % 2 ^ f.fb
  if f.inf then
    if e = 2 ^ f.eb - 1 then (if m = 0 then .inf s else .nan)
    else if e = 0 then .fin s m (2 ^ f.minExp)
    else if f.minExp ≤ e - 1 then .fin s ((2 ^ f.fb + m) * 2 ^ (e - 1 - f.minExp)) 1
    else .fin s (2 ^ f.fb + m) (2 ^ (f.minExp - (e - 1)))
  else
    if e = 2 ^ f.eb - 1 ∧ m = 2 ^ f.fb - 1 then .nan
    else if e = 0 then .fin s m (2 ^ f.minExp)
    else if f.minExp ≤ e - 1 then .fin s ((2 ^ f.fb + m) * 2 ^ (e - 1 - f.minExp)) 1
    else .fin s (2 ^ f.fb + m) (2 ^ (f.minExp - (e - 1)))

/-! ### Exact arithmetic under the rules of IEEE 754 for infinities, NaNs and zeros (R111, R112) -/

/-- The sum; `rdn` is true under round-down, where cancelling addends give −0 (R111). -/
def ExactNum.add (rdn : Bool) : ExactNum → ExactNum → ExactNum
  | .nan, _ => .nan
  | _, .nan => .nan
  | .inf a, .inf b => if a = b then .inf a else .nan
  | .inf a, _ => .inf a
  | _, .inf b => .inf b
  | .fin a n d, .fin b m e =>
    let x := n * e
    let y := m * d
    if a = b then .fin a (x + y) (d * e)
    else if x = y then .fin rdn 0 1
    else if y < x then .fin a (x - y) (d * e)
    else .fin b (y - x) (d * e)

/-- The product. -/
def ExactNum.mul : ExactNum → ExactNum → ExactNum
  | .nan, _ => .nan
  | _, .nan => .nan
  | .inf a, .inf b => .inf (a != b)
  | .inf a, .fin b m _ => if m = 0 then .nan else .inf (a != b)
  | .fin a n _, .inf b => if n = 0 then .nan else .inf (a != b)
  | .fin a n d, .fin b m e => .fin (a != b) (n * m) (d * e)

/-- The quotient. -/
def ExactNum.div : ExactNum → ExactNum → ExactNum
  | .nan, _ => .nan
  | _, .nan => .nan
  | .inf _, .inf _ => .nan
  | .inf a, .fin b _ _ => .inf (a != b)
  | .fin a _ _, .inf b => .fin (a != b) 0 1
  | .fin a n d, .fin b m e =>
    if m = 0 then (if n = 0 then .nan else .inf (a != b)) else .fin (a != b) (n * e) (d * m)

/-- Order of two values that are no NaN, zeros comparing equal. -/
def ExactNum.cmp : ExactNum → ExactNum → Ordering
  | .inf a, .inf b => if a = b then .eq else if a then .lt else .gt
  | .inf a, _ => if a then .lt else .gt
  | _, .inf b => if b then .gt else .lt
  | .fin a n d, .fin b m e =>
    let x : Int := if a then -((n * e : Nat) : Int) else ((n * e : Nat) : Int)
    let y : Int := if b then -((m * d : Nat) : Int) else ((m * d : Nat) : Int)
    compare x y
  | _, _ => .eq

def ExactNum.lt (a b : ExactNum) : Bool := a.cmp b == .lt

/-- `a` lies below `b` in the order of R144, where −0 lies below +0. -/
def ExactNum.below (a b : ExactNum) : Bool :=
  match a.cmp b with
  | .lt => true
  | .gt => false
  | .eq => a.isZero && b.isZero && a.sign && !b.sign

/-! ### Rounding (R109 to R115) -/

/-- The 64-bit mixer of R113. -/
def mix (seed coord : Nat) : Nat :=
  let m := 2 ^ 64
  let z := (seed + coord * 0x9E3779B97F4A7C15) % m
  let z := (z ^^^ (z >>> 30)) * 0xBF58476D1CE4E5B9 % m
  let z := (z ^^^ (z >>> 27)) * 0x94D049BB133111EB % m
  z ^^^ (z >>> 31)

/-- Where the upper neighbour is drawn: T / 2^24 against the draw u, with t = `num` / `den` (R113). -/
def stochUp (num den seed coord : Nat) : Bool :=
  decide (bits (mix seed coord) 63 40 < num * 2 ^ 24 / den)

/-- The seed and coordinate of a stochastic choice (R113). -/
structure Draw where
  seed : Nat
  coord : Nat
deriving DecidableEq, Repr

/-- No draw: for modes and formats that make none. -/
def Draw.none : Draw := ⟨0, 0⟩

/-- Floor of log2 of a positive fraction. -/
def floorLog2 (n d : Nat) : Int :=
  let k : Int := (bitLen n : Int) - (bitLen d : Int)
  let ge : Bool := if 0 ≤ k then decide (d * 2 ^ k.toNat ≤ n) else decide (d ≤ n * 2 ^ (-k).toNat)
  if ge then k else k - 1

/-- The magnitude `n` / `d` in units of the last place of its binade (no less than the least binade): the index of the
binade, the whole units, and the remainder as a fraction. -/
def ulps (f : Fmt) (n d : Nat) : Nat × Nat × Nat × Nat :=
  let e := floorLog2 n d
  let i := (e + (f.bias : Int) - 1).toNat
  -- the unit is 2^(i − minExp)
  let num := n * 2 ^ f.minExp
  let den := d * 2 ^ i
  (i, num / den, num % den, den)

/-- Whether the magnitude is rounded away from zero, given whole units `k` and remainder `r` / `den` ≠ 0 (R109). -/
def roundsUp (m : RMode) (neg : Bool) (k r den : Nat) (w : Draw) : Bool :=
  match m with
  | .rne => decide (den < 2 * r) || (decide (2 * r = den) && decide (k % 2 = 1))
  | .rtz => false
  | .rup => !neg
  | .rdn => neg
  | .rto => decide (k % 2 = 0)
  | .rs => if neg then !stochUp (den - r) den w.seed w.coord else stochUp r den w.seed w.coord

/-- The code of a magnitude beyond the largest finite value (R110); `near` says that it reaches half a unit beyond. -/
def overCode (f : Fmt) (m : RMode) (neg near : Bool) : Nat :=
  if !f.inf then f.maxCode
  else match m with
    | .rne | .rs => if near then f.infCode else f.maxCode
    | .rtz => f.maxCode
    | .rup => if neg then f.maxCode else f.infCode
    | .rdn => if neg then f.infCode else f.maxCode
    | .rto => f.infCode

/-- The code of the magnitude of a finite value. -/
def roundMag (f : Fmt) (m : RMode) (neg : Bool) (n d : Nat) (w : Draw) : Nat :=
  if n = 0 then 0
  else if !f.inf && (m == .rne || m == .rs) && decide (n * 2 ^ f.minExp < d) then
    -- the underflow rule of R115: E4M3 below its least subnormal
    bnat (stochUp (n * 2 ^ f.minExp) d w.seed w.coord)
  else
    let (i, k, r, den) := ulps f n d
    let code := i * 2 ^ f.fb + k
    if f.maxCode < code ∨ (code = f.maxCode ∧ r ≠ 0) then
      overCode f m neg (decide (f.maxCode < code) || decide (den ≤ 2 * r))
    else if r = 0 then code
    else if roundsUp m neg k r den w then code + 1 else code

/-- `round(x, fmt, mode)` (R49, R109 to R115): the code of the rounded value. -/
def round (f : Fmt) (m : RMode) (x : ExactNum) (w : Draw := Draw.none) : Nat :=
  match x with
  | .nan => f.nanCode
  | .inf s => (if f.inf then f.infCode else f.maxCode) + bnat s * 2 ^ f.signBit
  | .fin s n d => roundMag f m s n d w + bnat s * 2 ^ f.signBit

/-- The two neighbours of an inexact finite value as magnitude codes, or the code twice where it is exact. -/
def neighbours (f : Fmt) (n d : Nat) : Nat × Nat :=
  if n = 0 then (0, 0)
  else
    let (i, k, r, _) := ulps f n d
    let code := i * 2 ^ f.fb + k
    if r = 0 then (code, code) else (code, code + 1)

end Sys2Proof.Machine

namespace Sys2Proof
open Machine

/-! ### Values by the format codes of R84 -/

/-- The storage format of one value of an `FT` type. -/
def FTy.fmt : FTy → Fmt
  | .f32 => FP32
  | .f16 | .f16x2 => FP16
  | .bf16 | .bf16x2 => BF16
  | .e4m3 | .ct8 => E4M3

/-- The packed types hold two values in a register (R142). -/
def FTy.packed : FTy → Bool
  | .f16x2 | .bf16x2 => true
  | _ => false

/-- The halves of a register that a format computes (R142). -/
def FTy.halves (t : FTy) : List Nat := if t.packed then [0, 1] else [0]

end Sys2Proof

namespace Sys2Proof.Machine

/-- Bits of one value. -/
def Fmt.width (f : Fmt) : Nat := f.signBit + 1

/-- Sign and shape of a value for printing and tests: the FP32 value of some bits. -/
def f32 (x : Nat) : ExactNum := decodeNum FP32 x

/-- A positive finite FP32 value (R149, R127). -/
def posFinite (x : W32) : Bool :=
  match f32 x.toNat with
  | .fin false n _ => n != 0
  | _ => false

/-! ### Exact roots -/

/-- The integer square root of `n`, by bits from `b` down. -/
def isqrtLoop (n : Nat) : Nat → Nat → Nat
  | 0, r => r
  | b + 1, r =>
    let c := r + 2 ^ b
    isqrtLoop n b (if c * c ≤ n then c else r)

/-- The integer square root. -/
def isqrt (n : Nat) : Nat := isqrtLoop n (bitLen n / 2 + 1) 0

/-- The square root of a positive fraction, exact where it is rational with a power-of-two scale; otherwise a value strictly
between the same two multiples of the reciprocal of `d` × 2^400, which rounds as the root does: no rounding boundary of
FP32 lies strictly between them. -/
def sqrtNum (n d : Nat) : ExactNum :=
  let big := n * d * 4 ^ 400
  let r := isqrt big
  if r * r = big then .fin false r (d * 2 ^ 400) else .fin false (2 * r + 1) (d * 2 ^ 401)

end Sys2Proof.Machine
end

