-- ==== Sys2Proof/Machine/State.lean ====
section
/-! DEFINITION. The state of the Axmar: everything the spec gives the machine, as plain data, and the state after reset.
Registers, records and addresses that the spec treats as bits are bit vectors; counts, indices and memory keys are `Nat`.
Sparse arrays (memory, scratchpad, registers behind a chunk map, accumulators) are lists of (key, value) pairs with
rising keys, listing no key that holds the array's default value; `Sys2Proof.Machine.Ops` gives their one read and write. -/
namespace Sys2Proof.Machine

/-- A virtual address (R34) or a code address (R26). -/
abbrev Addr := BitVec 56

/-- A sparse array in canonical form: keys strictly rising, no entry that holds the default. -/
abbrev Store (α : Type) := List (Nat × α)

/-- The memory of both tiers: bytes at 48-bit physical addresses (R39). -/
abbrev Memory := List Host.Cell

/-- A vector clock: events of each party of a team that are ordered before a point (R351; log 23). -/
abbrev VClock := Store Nat

/-! ### Causes, records, outcomes -/

/-- The causes of R379. -/
inductive Cause where
  | illegal | illegalTarget | fetch | fetchError | regUnmapped | latchStale | lookahead | badAddress | badPte | token
  | task | barrier | counter | pool | scope | badRecord | badScale | badTable | badWindow | badStream | badSparse
  | latchEmpty | accOwner | accWindow | waitTimeout | teamStall | markTimeout | scheduleMiss | adjointUnderflow
  | countOverflow | twinRange | twinBusy | orderRace | versionFull | dataLost | user | halt | shadowMismatch
  | translation | permission | twinEarly
  | event | corrected | taskCount | collRefused | tierSkip | roleChange | launchRefused | predDiscarded | remoteFail
  | scopeAck | spawnRefused | policyStep
deriving DecidableEq, Repr

/-- The source of a record (R380). -/
inductive RecSrc where
  | group | continuation | sequencer | copyEngine | collective | slice | fathom | cmdProc | supervisor | port
deriving DecidableEq, Repr

/-- The fields every record shares in bits 31:0 (R380). -/
structure RecHead where
  die : Nat
  core : Nat
  src : RecSrc
  vdisc : Bool
  priv : Bool
  shdw : Bool
  cause : Cause
deriving DecidableEq, Repr

/-- An event record (R381). -/
structure EventRec where
  hd : RecHead
  info : W128
  taskr : Nat
  pc : Addr
  lane : Nat
  group : Nat
  team : Nat
  launch : Nat
  seq : Nat
  time : Nat
  aux : W32
deriving DecidableEq, Repr

/-- `AKIND` of a data fault record (R382). -/
inductive AKind where
  | load | store | atomic | counted | twin | fetch | fillRead | drainWrite | tableWalk
deriving DecidableEq, Repr

/-- A data fault record (R382). -/
structure FaultRec where
  hd : RecHead
  grps : Mask
  pcm : Mask
  va : Addr
  akind : AKind
  ctx : Nat
  merged : Nat
  unit : Nat
  team : Nat
  launch : Nat
  taskr : Nat
deriving DecidableEq, Repr

/-- A record of either class (R380). -/
inductive Rec where
  | ev (r : EventRec)
  | df (r : FaultRec)
deriving DecidableEq, Repr

/-- The action of a policy entry (R386). -/
inductive PolAct where
  | stop | park | retry | requeue | discard
deriving DecidableEq, Repr

/-! ### Groups -/

/-- A valid latch (R97): the value of each lane, whether it was uniform, its bytes per lane, the words it still serves. -/
structure Latch where
  vals : List W128
  uniform : Bool
  bytes : Nat
  life : Nat
deriving DecidableEq, Repr

/-- A reconvergence token with its join address and ejected lanes (R162). -/
structure Token where
  mem : Mask
  arr : Mask
  ja : Addr
  ej : Mask
deriving DecidableEq, Repr

/-- An entry of the pending list (R162). -/
structure Pend where
  pc : Addr
  mask : Mask
  tok : Fin 8
deriving DecidableEq, Repr

/-- A write a word makes to its group's registers or queues. -/
inductive Wr where
  /-- Bits of one lane of a v register. -/
  | v (reg lane : Nat) (x : W32)
  | s (n : Nat) (x : W64)
  /-- The bits of a predicate in the lanes of `lanes`. -/
  | p (n : Nat) (lanes vals : Mask)
  /-- Entries pushed on a queue, in lane order. -/
  | push (q : Nat) (xs : List W32)
deriving DecidableEq, Repr

/-- A piece of a global access that lies in one 128-byte line, translated at acceptance (R93): its virtual and physical
address, its bytes, and the leaf that translated it (R402). -/
structure Piece where
  va : Addr
  pa : Nat
  n : Nat
  pte : BitVec 256
deriving DecidableEq, Repr

/-- One lane's access, resolved at issue: lane, virtual address, and the pieces of a global access (none of a local one). -/
structure LaneAddr where
  lane : Nat
  va : Addr
  ps : List Piece
deriving DecidableEq, Repr

/-- What an accepted long-latency word still has to do (R93); it is performed when the word is delivered (log 5). -/
inductive PendOp where
  /-- A result formed at acceptance. -/
  | write (ws : List Wr)
  /-- A load: its lanes; a scratchpad load names its offsets in row terms (R200). -/
  | load (lanes : List LaneAddr)
  | atomic (lanes : List LaneAddr) (args news : List W64)
  | tcons (lanes : List LaneAddr)
  | tcnt (lanes : List LaneAddr)
  | tnext
deriving DecidableEq, Repr

/-- A register or queue of a destination set (R94). -/
inductive Dest where
  | v (n : Nat)
  | s (n : Nat)
  | p (n : Nat)
  | q (n : Nat)
deriving DecidableEq, Repr

/-- What has become of a peer request of a word (R396, R415). -/
inductive Owed where
  | sent
  | replied (data : List Nat)
  | failed (cause : Cause)
deriving DecidableEq, Repr

/-- A peer request of a word: its sequence number, the lanes it serves, the virtual address it names. -/
structure OwedReq where
  seq : Nat
  lanes : List Nat
  va : Addr
  st : Owed
deriving DecidableEq, Repr

/-- The last accesses of one word under ordered-mode tracking (R352). -/
structure AccTag where
  team : Nat
  party : Nat
  pc : Addr
  epoch : Nat
  tick : Nat
  /-- 0 plain, 1 twin, 2 + operation code for a value-free atomic. -/
  kind : Nat
deriving DecidableEq, Repr

/-- A failure after acceptance (R95): its cause, address and `INFO`, and the other party of a race. -/
structure LateFail where
  cause : Cause
  va : Addr
  info : W128
  race : Option AccTag
deriving DecidableEq, Repr

/-- A lookahead entry (R93, R94, R398). `done` says that the result was delivered; `fail` is a failure after acceptance. -/
structure LaEnt where
  pc : Addr
  word : Instr
  window : Nat
  done : Bool
  dests : List Dest
  act : Mask
  /-- Lanes already performed (`PCM` of the word, R198, R218). -/
  pcm : Mask
  op : PendOp
  /-- The requests of its accesses on SYSTEM pages, once sent. -/
  owed : List OwedReq
  fail : Option LateFail
  /-- Values of the lanes performed so far, where the word is performed in parts (R279). -/
  got : List (Nat × Nat)
  /-- Clock of acceptance (R218). -/
  since : Nat
  /-- The version that holds its accesses (R292). -/
  vers : Option Nat
  epoch : Nat
  /-- Value of the party's own clock at issue, and its clocks then (R351, R352). -/
  tick : Nat
  vc : VClock
  /-- The entry is that of the replay word, or of a word that failed after acceptance and whose window is still open (R93 to R95). -/
  again : Bool
  /-- Bytes that the word has read before the rest, with their lanes and their places in the lane's bytes (R279, R301). -/
  early : List (Nat × Nat × Byte)
  /-- Lanes whose access to a line of a peer's TWIN page the peer has counted, with the line's address, in an LD.U that failed on
  another line (R375, R376). -/
  counted : List (Nat × Nat)
deriving DecidableEq, Repr

/-- A word that is executed again alone on resumption (R95). -/
structure Replay where
  pc : Addr
  word : Instr
  pcm : Mask
  /-- Old values of the lanes of an atomic that were performed before it failed; its destination takes them when it succeeds. -/
  got : List (Nat × Nat)
  /-- See `LaEnt.counted`. -/
  counted : List (Nat × Nat)
deriving DecidableEq, Repr

/-- What a store or TACC still has to write in one line, and what its home has not acknowledged (R195, R217). -/
structure Posted where
  pc : Addr
  word : Instr
  /-- Active lanes of the word, and the lanes that touch this line. -/
  act : Mask
  lanes : Mask
  /-- Pieces and bytes of a store, in lane order. -/
  stores : List (Piece × List Byte)
  /-- Element and raw register value of each lane of a TACC. -/
  taccs : List (Piece × W32)
  /-- A value-free atomic on a SYSTEM page that a version held until its commit (R316). -/
  atoms : List (Piece × AtomOp × W64)
  /-- The line increase of an LD.U on a SYSTEM page that a version held until its commit (R316). -/
  counts : List (Piece × Nat)
  /-- The word writes its line whole (R295). -/
  covers : Bool
  /-- Sequence number of its peer request, once sent. -/
  sent : Option Nat
  /-- Clock of acceptance, and the version that holds the store (R292, R293). -/
  since : Nat
  vers : Option Nat
  epoch : Nat
  tick : Nat
  vc : VClock
deriving DecidableEq, Repr

/-- The task a group has taken with TNEXT (R181): its record's address, version, place in the spawn pool, and the line
increases its LD.U words have made outside a version (R376). -/
structure CurTask where
  addr : Addr
  bytes : List Byte
  place : Option Nat
  vers : Option Nat
  lines : Nat
deriving DecidableEq, Repr

/-- What the group's word at `PC` waits for (R176, R184, R447). -/
inductive Wait where
  | none
  | rclaim (n : Nat)
  | ctake (k n : Nat)
  | cwait (k n : Nat)
  /-- NBAR.ARR or NBAR.SYNC before its arrival is possible, or after it. -/
  | nbarArr (k : Nat) (arrived : Bool)
  | nbarWait (k : Nat)
  | nbarSync (k : Nat) (arrived : Bool)
  /-- A push that goes on once queue `q` holds at most `n` entries (R18). -/
  | push (q n : Nat)
  /-- A pop that goes on once queue `q` holds `n` entries. -/
  | pop (q n : Nat)
  | resume (k : Nat)
  | atake (t : Nat)
  /-- A load or atomic on an empty scratchpad line. -/
  | emptyLine (off : Nat)
  /-- A TSPAWN that has read this record and waits for a place. -/
  | spawn (b : List Byte)
  /-- WAITF since a clock, with its timeout, condition, value and address. -/
  | waitf (since tmo : Nat) (cc : WCond) (v : W32) (a : Addr)
  | evt
  /-- TLBI since a clock, with the translations removed (R261). -/
  | tlbi (since : Nat)
  /-- MARK k in `check` since a clock; `counted` in ordered mode after the arrival; the pages that miss, each with its entry. -/
  | check (k since : Nat) (counted : Bool) (m : List (Nat × Nat))
  /-- An ordered MARK k waiting for the other groups since a clock (R350). -/
  | mark (k since : Nat)
  /-- A shadowed MARK k waiting for its segment since a clock (R355). -/
  | segment (k since : Nat)
  | tnext
  /-- A shadow's COLL.ARM waiting for the primary's (R356). -/
  | collArm
  /-- A YIELD that waits for a save (R393). -/
  | yielded
  /-- A QNTT performed in parts: whether it is in its conversion pass, its next row, the FP32 bits of the largest magnitude
  that its test pass has read, and the row offset of the empty line that it waits for (R149). -/
  | qntt (conv : Bool) (row : Nat) (big : W32) (line : Option Nat)
  /-- A COLL.PUT that waits for a version line since a clock (R293). -/
  | vline (since : Nat)
  /-- Any other wait: a drain, engine room, a mesh word, a copy, an acknowledgement. -/
  | engine
deriving DecidableEq, Repr

/-- The run state of a group (R26); `ended` is the model's, for a group that has ended (R168). -/
inductive RunSt where
  | run | blocked | parked | stopped | ended
deriving DecidableEq, Repr

/-- Why a unit is stopped or parked, for its resumption (R387 to R389). -/
structure StopInfo where
  cause : Cause
  act : PolAct
  /-- The faulting address of a data fault, for the wake of R421. -/
  va : Option Addr
  /-- The stop discarded the version of the group's task (R389). -/
  vdisc : Bool
  /-- Stopped by HALT of its launch (R260). -/
  halted : Bool
  /-- The segment's end holds the group (R356). -/
  segment : Bool
deriving DecidableEq, Repr

/-- A pending cancellation of a group: the clock at which it reached the core, the scope whose CANCEL counts it, and whether
it waits for the restore of a team that is being saved (R185, R187, R405). -/
structure Kill where
  since : Nat
  scope : Nat
  atRestore : Bool
deriving DecidableEq, Repr

/-- A group, and also the context of a continuation (R14, R26, R162, R169). -/
structure Group where
  idx : Nat
  width : Nat
  pc : Addr
  exec : Mask
  pcm : Mask
  role : Byte
  st : RunSt
  priv : Bool
  sticky : W16
  /-- v registers of mapped chunks: key `64 * register + lane`, default 0. -/
  v : Store W32
  /-- Physical chunk of each mapped entry of the chunk map, entry 0 first (R23, R174). -/
  chunks : List Nat
  s : Vector W64 64
  /-- p0 to p6; p7 is hard-wired (R16). -/
  p : Vector Mask 7
  l : Vector (Option Latch) 3
  j : Vector Token 8
  /-- The pending list, top entry first. -/
  pend : List Pend
  arv : BitVec 16
  aph : BitVec 16
  seed : W64
  ctr : W32
  la : List LaEnt
  replay : Option Replay
  epc : W64
  ecode : Byte
  epoch : Nat
  lastMark : Option Nat
  task : Option CurTask
  posted : List Posted
  wait : Wait
  /-- The word at `PC` is reached by a kernel entry or a REQUEUE, whose target is checked at issue (R89). -/
  entry : Bool
  /-- The stopping word of consecutive RETRY steps, its cause, and their number (R387, R405). -/
  retries : Option (Addr × Cause × Nat)
  stop : Option StopInfo
  kill : Option Kill
  /-- COLL.ARM results of the segment, oldest first (R356). -/
  arms : List W64
  /-- This group's place among the arrivals of each barrier's phase (R171): the ordinal of its last arrival. -/
  arrSeq : Vector Nat 16
  /-- This group received the predicate of the phase of barrier k that opened last (R171). -/
  last : BitVec 16
  /-- Own program-order clock and the events ordered before this point (R351). -/
  vc : VClock
  /-- Collective puts formed and not acknowledged (R266). -/
  puts : Nat
  /-- Restored with owed replies outstanding: the group waits for them (R396). -/
  owedHold : Bool
  /-- What the rejoined continuations of each token release to the group when the token completes (R169). -/
  tokVc : Store VClock
  /-- The cancelled scope that counts the line increases of this killed group's words still to be performed (R376). -/
  owing : Option Nat
  /-- The clock since which it has been ready to issue, if it is ready (R343). -/
  readyAt : Nat
  /-- Words of a scratchpad store at `PC` that have been stored before the rest: lane and word of its access (R279). -/
  parted : List (Nat × Nat)
deriving DecidableEq, Repr

/-- The state of a continuation (R169). -/
structure Cont where
  id : Nat
  /-- Its context of width 1; its `exec` is lane 0. -/
  g : Group
  origin : Nat
  lane : Nat
  tok : Fin 8
  /-- Chunks `c` of the origin group it carries. -/
  c : Nat
deriving DecidableEq, Repr

/-! ### Teams -/

/-- A numbered barrier (R19). -/
structure NBar where
  parts : Nat
  arrived : Nat
  phase : Bool
  /-- Arrivals so far, for the order of R171. -/
  count : Nat
  /-- What the arrivals of the open phase release (R351). -/
  vc : VClock
  /-- What the last opened phase released. -/
  openVc : VClock
deriving DecidableEq, Repr

/-- One part of a team's register pool (R174, R448). -/
structure PoolPart where
  base : Nat
  size : Nat
  free : List Nat
  /-- Chunks given up, with the clock at which they join the free list. -/
  returning : List (Nat × Nat)
deriving DecidableEq, Repr

/-- The state of a region window (R209, R282). -/
inductive WinSt where
  | unbound | absent | filling | present | writing
deriving DecidableEq, Repr

/-- The scaling policy of a tensor parameter record (R126). -/
inductive ScalePol where
  | fixed | step | amax
deriving DecidableEq, Repr

/-- A checked tensor parameter record (R126, R127). -/
structure Tpr where
  scale : W32
  clamp : W32
  seed : W64
  rm : RMode
  dfmt : FTy
  spol : ScalePol
  grp : Bool
  ov : Bool
deriving DecidableEq, Repr

/-- A checked layout record (R211). -/
structure Layout where
  lstride : Int
  pstride : Int
  ih : Nat
  iw : Nat
  oy : Int
  ox : Int
  ph : Nat
  pw : Nat
deriving DecidableEq, Repr

/-- A checked window descriptor (R210). -/
structure WinDesc where
  raw : BitVec 512
  gbase : Nat
  rstride : Int
  spoff : Nat
  rows : Nat
  cols : Nat
  pitch : Nat
  scoff : Nat
  esz : Nat
  sfmt : FTy
  orient : Bool
  cnt : Bool
  acq : Bool
  rel : Bool
  layoutAddr : Nat
  tprAddr : Nat
  layout : Option Layout
  tpr : Option Tpr
deriving DecidableEq, Repr

/-- A region window (R209, R282). `desc` is the checked copy of its descriptor and of the records it names. -/
structure Window where
  st : WinSt
  desc : Option WinDesc
  daddr : W64
  ofs : W64
  next : Nat
  stop : Bool
  /-- Units of the row at `next` that are done (log 19). -/
  unitDone : Nat
  /-- First pass of a two-pass fill: the scale of each group, an exact multiple of a power of two, and whether its last raise still
  saturates (R128, R284). -/
  scales : Store (Nat × Int × Bool)
  /-- The test pass of a two-pass fill has been made. -/
  tested : Bool
  /-- The state when WPUT began (R214). -/
  before : WinSt
  /-- Unbind as soon as the copy has finished (R185). -/
  dying : Bool
  /-- The group that issued the command, and its place in program order (R351). -/
  issuer : Nat
  tick : Nat
  epoch : Nat
  vc : VClock
  /-- The group whose WBIND or WARM armed the window, for its flags (R128). -/
  armer : Nat
  /-- Consecutive RETRY steps of the copy, and their cause (R387, R405). -/
  retries : Option (Cause × Nat)
  /-- The copy has made the acquire of `ACQ` (R213). -/
  acquired : Bool
  /-- Clock since which a line of a write-back of a versioned party waits for a version line (R293). -/
  waiting : Option Nat
  stopInfo : Option StopInfo
deriving DecidableEq, Repr

/-- A drain window (R20, R246). -/
structure DrainWin where
  base : Nat
  limit : Nat
  tile : Nat
  grp : Nat
  pub : Bool
deriving DecidableEq, Repr

/-- Where the weights of a latch set came from (R21, R232). -/
structure Prov where
  gbase : Nat
  rstride : Int
  ofs : W64
  tprAddr : Nat
  row : Nat
  /-- Operand `B` of the MLATCH: `KV`, `NV`, `KB` and `WS`. -/
  ext : W32
  sp : Sparsity
  col : Bool
  exp : Bool
  desc : WinDesc
deriving DecidableEq, Repr

/-- A latch set of a mesh (R21, R232). Weights are keyed `128 * k + n`, default +0. -/
structure LatchSet where
  full : Bool
  fmt : MFmt
  sp : Sparsity
  kv : Nat
  nv : Nat
  scale : W32
  prov : Option Prov
  w : Store W16
deriving DecidableEq, Repr

/-- `SST` (R223). -/
inductive SeqSt where
  | run | wait | stopped | ended
deriving DecidableEq, Repr

/-- What a waiting sequencer waits for, where the wait is no engine work (R175, R226). -/
inductive SeqWait where
  | none
  /-- MTAKE: the tile. -/
  | tile (t : Nat)
  /-- MWIN: the drain window. -/
  | drain (k : Nat)
  /-- An MBAR: the phase of the barrier. -/
  | bar (k : Nat)
  /-- An MBAR: the mesh words that come before its arrival; `rd` for those alone that read scratchpad (R241). -/
  | mesh (rd : Bool)
  /-- The row offsets of scratchpad lines that must be full. -/
  | lines (os : List Nat)
deriving DecidableEq, Repr

/-- The matrix sequencer (R223). -/
structure Seq where
  spc : Addr
  sst : SeqSt
  sbm : BitVec 16
  sarv : BitVec 16
  saph : BitVec 16
  m : Vector W32 16
  /-- The word at `SPC` is the matrix-stream entry (R89). -/
  entry : Bool
  /-- MBAR.sync has made its arrival and waits for the phase. -/
  arrived : Bool
  stop : Option StopInfo
  retries : Option (Addr × Cause × Nat)
  /-- What the sequencer waits for where that is no engine work (R175). -/
  blocked : SeqWait
  /-- It has been discarded, or its team killed: it ends as at MEND, once its mesh words have finished (R226, R249). -/
  ending : Bool
  vc : VClock
deriving DecidableEq, Repr

/-- A mesh word issued and not finished, with its operand values (R224, R399). -/
structure MeshWord where
  word : Instr
  pc : Addr
  d : W32
  a : W32
  b : W32
  /-- Rows whose accumulator writes are done, in a restored word (R250). -/
  rows : W128
  /-- Value of the sequencer's own clock at issue, and its clocks then (R351). -/
  tick : Nat
  vc : VClock
  /-- It met a cause before its effect and stopped the sequencer: a resumed sequencer executes it again (R226, R239). -/
  failed : Bool
  /-- Scratchpad lines that it has read before the rest, with their bytes; of a drain, the lines that it has written (R279, R435). -/
  early : List (Nat × List Byte)
  /-- The first failure among the lines that an MDRAIN.T has written before the rest (R239). -/
  late : Option (Cause × Nat)
  /-- Clock since which it waits for a version line (R293). -/
  since : Option Nat
deriving DecidableEq, Repr

/-- The role governor's state of a team (R347). -/
structure Gov where
  below : Nat
  armed : Bool
  conv : Nat
deriving DecidableEq, Repr

/-- An entry of a hardware queue, with what its push releases (R306). -/
structure QEnt where
  x : W32
  vc : VClock
deriving DecidableEq, Repr

/-- A slot counter with its take queue (R172): groups and the amounts they take, head first. -/
structure SlotCtr where
  c : W32
  takes : List (Nat × Nat)
  vc : VClock
deriving DecidableEq, Repr

/-- How a group was saved (R394). -/
inductive SaveWay where
  | yielded | waiting | parked | forced
deriving DecidableEq, Repr

/-- A pre-emption of a team (R392 to R395). -/
structure Preempt where
  /-- Clock at which the deadline expires. -/
  deadline : Nat
  /-- The area of the buffer that takes the team (R392). -/
  area : Nat
  /-- The save has started: every group is at a yield point, or the deadline has expired (R393). -/
  started : Bool
  forced : Bool
deriving DecidableEq, Repr

/-- The segment state of a shadowed team or of a shadow (R355, R356). -/
structure Segment where
  /-- Index of the running segment. -/
  idx : Nat
  /-- Version that holds the segment's writes. -/
  vers : Nat
  /-- Sum of the items of primary-only words, modulo 2^256. -/
  items : Nat
  /-- The segment has reached its end, at the last MARK or the end of the team. -/
  atEnd : Bool
  /-- Its comparison failed: mismatch, or a commit check (R356). -/
  failed : Option Cause
deriving DecidableEq, Repr

/-- What acts on a saved team once it is restored (R405): a host command on a unit of it (a discard or not, the unit's kind and
index), or an uncorrectable error that met a line of a group's version (R8). -/
inductive LateAct where
  | unit (discard : Bool) (kind idx : Nat)
  | lost (g line : Nat)
deriving DecidableEq, Repr

/-- A team (R14, R32). -/
structure Team where
  ref : TeamRef
  /-- `sr.core` of its core, the even one of a pair. -/
  core : Nat
  pair : Bool
  x : Nat
  y : Nat
  z : Nat
  width : Nat
  groups : List Group
  conts : List Cont
  contNext : Nat
  queues : List (List QEnt)
  ctrs : Vector SlotCtr 32
  nb : Vector NBar 16
  pool : PoolPart
  poolOdd : PoolPart
  /-- Groups waiting to claim chunks, in the order they joined, with the chunks each asks for; each part's queue holds the
  groups of its core (R174, R399). -/
  claims : List (Nat × Nat)
  spans : Nat
  spanBase : Nat
  spad : Store Byte
  /-- Full lines (by line number): the full/empty bits (R280), with what the marking released (R351). -/
  full : Store Bool
  fullVc : Store VClock
  /-- Lines marked full in this clock, which release no waiter before the next (R281). -/
  newFull : Store Bool
  /-- Lines of the scratchpad lost to an uncorrectable error of their span (R8, R295). -/
  spLost : Store Bool
  /-- Lines of the register pool so lost: key `16 * (4096 * part + chunk) + 2 * (register in the chunk) + lane / 32` (R8, R295). -/
  rLost : Store Bool
  /-- Lines whose last writer is a window's fill (R232). -/
  filled : Store Bool
  wins : Vector Window 32
  code : Vector W32 256
  loaded : Bool
  acc : Store W48
  /-- Owner of each tile: a group, or 64 for the sequencer (R20). -/
  owner : Vector Nat 8
  /-- What the last handover of each tile releases (R243). -/
  tileVc : Vector VClock 8
  dwin : Vector DrainWin 2
  /-- Latch set L of mesh h at index `2 * h + L`. -/
  sets : Vector LatchSet 4
  sq : Seq
  mq : List MeshWord
  scope : Nat
  gov : Gov
  prq : Bool
  save : Option Preempt
  seg : Option Segment
  /-- A CANCEL killed the team's launch root (R185). -/
  cancelled : Bool
  /-- What waits for the team's restore. -/
  late : List LateAct
  /-- The save area that it was restored from, while replies are owed to it there (R396). -/
  owedArea : Option Nat
deriving DecidableEq, Repr

/-- A team saved by a pre-emption (R392): the area that holds its map, and what the map does not hold (log 27). -/
structure SavedTeam where
  ref : TeamRef
  area : Nat
  team : Team
  /-- Its area failed the check of R400; the next RESUME tries again. -/
  bad : Bool
deriving DecidableEq, Repr

/-! ### Launches -/

/-- A launch packet's fields (R334). -/
structure Packet where
  wtab : List Nat
  pg : Nat
  ps : Nat
  policy : Nat
  prio : Nat
  tasks : Bool
  ord : Bool
  fuse : Bool
  pair : Bool
  queues : Nat
  spans : Nat
  pool : Nat
  regs : Nat
  groups : Nat
  width : Nat
  svb : Nat
  ctx : Nat
  sbm : BitVec 16
  scope : Nat
  govr : Nat
  seed : W64
  ttbl : Nat
  affr : Nat
  preds : List Nat
  preempt : Nat
  gx : Nat
  gy : Nat
  gz : Nat
  trec : Nat
  arg : W64
  mentry : Nat
  entry : Nat
deriving DecidableEq, Repr

/-- A checked governor record (R346). -/
structure GovRec where
  en : Bool
  maxn : Nat
  chunks : Nat
  into : Byte
  frm : Byte
  ctr : Fin 32
  level : Nat
  time : Nat
  entry : Addr
deriving DecidableEq, Repr

/-- The operation of a timetable entry (R364). -/
inductive TtOp where
  | fetch | evict | retain | drop
deriving DecidableEq, Repr

/-- A timetable entry (R364). -/
structure TtEnt where
  base : Nat
  len : Nat
  due : Nat
  lead : Nat
  start : Bool
  op : TtOp
  /-- Order in which it started; `none` before (R370). -/
  started : Option Nat
  /-- Its miss at `due` has been recorded (R366). -/
  missed : Bool
  /-- Its `due` marker or a later DROP has ended its protection (R370). -/
  ended : Bool
  /-- The pages it skipped when it started, which count as not resident (R370). -/
  skipped : List Nat
deriving DecidableEq, Repr

/-- An accepted timetable (R362 to R365). -/
structure Timetable where
  counts : List Nat
  sto : Nat
  trap : Bool
  ents : List TtEnt
deriving DecidableEq, Repr

/-- A task waiting in a launch's queue (R342). -/
structure Task where
  addr : Addr
  bytes : List Byte
  prio : Nat
  place : Option Nat
  /-- Clock of its enqueue. -/
  since : Nat
  /-- It has waited 4,096 clocks: a TNEXT of any die takes it (R342). -/
  anywhere : Bool
deriving DecidableEq, Repr

/-- A cancel scope of a launch (R184 to R187). -/
structure Scope where
  num : Nat
  parent : Option Nat
  ack : Nat
  cancelled : Bool
  /-- The effects of its CANCEL have settled. -/
  settled : Bool
  /-- Acknowledgements outstanding, one for each CANCEL of this scope (R186, R187). -/
  acking : Nat
  /-- Place of its first CANCEL among those of the launch (R187). -/
  order : Nat
  killed : Nat
  queued : Nat
  discard : Nat
  refused : Nat
  owed : Nat
  /-- The core of its last CANCEL, whose identifier the write of the acknowledgement takes (R304). -/
  core : Nat
deriving DecidableEq, Repr

/-- The tracking state of one word: the last write (with the value-free atomics of its operation that no write has
replaced) and the reads not ordered before it. -/
structure Track where
  writes : List AccTag
  reads : List AccTag
deriving DecidableEq, Repr

/-- A launch (R335, R336). -/
structure Launch where
  num : Nat
  die : Nat
  tag : W32
  pkt : Packet
  /-- The initial windows as read and checked at acceptance (R33, R335). -/
  wins : List (Option WinDesc)
  gov : Option GovRec
  aff : Option (List Nat)
  tt : Option Timetable
  /-- The initial task records, read at acceptance (R335, R336). -/
  initial : List (List Byte)
  eligible : Bool
  /-- Clock at which it became eligible; its teams are placed from the next clock on (R358). -/
  eligibleAt : Nat
  /-- Logical index of the next team to place. -/
  nextTeam : Nat
  halted : Bool
  preempted : Bool
  buffer : Nat
  /-- Teams saved in the buffer (R392). -/
  saved : List SavedTeam
  discarded : Bool
  tasks : List Task
  /-- Places of the spawn pool in use (R342). -/
  places : List Nat
  scopes : List Scope
  arrivals : Store Nat
  reached : List Nat
  failedStores : Nat
  failedPuts : Nat
  /-- Trackers: key is `2^64 * space + word address`; spaces as in `Sys2Proof.Machine.Track`. -/
  track : Store Track
  /-- Words written otherwise than by value-free `.add` (R350). -/
  uncounted : Store Bool
  /-- What the value-free `.add` atomics of a word release to counted WAITFs, by tracker key and team: `2^32 * key + team` (R350, R351). -/
  adds : Store VClock
  /-- The markers each group has arrived at; 65,536 says that it has left the count of every later one (R353). -/
  arrivedBy : List (TeamRef × Nat × Nat)
deriving DecidableEq, Repr

/-! ### Versions -/

/-- A word held in a version (R292): a value, the operand of one value-free atomic operation, or the operand of a 64-bit one
at its low word with `high` at its high word. -/
inductive VWord where
  | value (x : W32)
  | operand (op : AtomOp) (x : W32)
  | wide (op : AtomOp) (x : W64)
  | high
deriving DecidableEq, Repr

/-- A twin update held in a version (R374), in the version's order: line header address keys are physical. -/
structure VLine where
  /-- Physical line address of the primary line. -/
  line : Nat
  /-- A consuming read cleared the committed sum and state. -/
  consumed : Bool
  /-- A count or contribution followed the consuming read, or there was none. -/
  touched : Bool
  delta : Int
  nanf : Bool
  range : Bool
  /-- Accumulator deltas by byte address of the accumulator; `none` once a NaN or an infinity was added. -/
  accs : List (Nat × Option Int)
  /-- Address of the header and of the first accumulator, and how many accumulators the line has. -/
  hdr : Nat
  acc0 : Nat
  naccs : Nat
deriving DecidableEq, Repr

/-- A task or segment version (R292, R374). -/
structure Version where
  id : Nat
  launch : Nat
  team : TeamRef
  grp : Option Nat
  words : Store (Option VWord)
  lines : List VLine
  /-- Stores, contributions, value-free atomics and line increases on SYSTEM pages, each with its group; they go to their peers
  at the commit (R316). -/
  remote : List (Nat × Posted)
  /-- Records that the task has spawned, each with its place in the pool and the address it was read at; they are queued at the commit
  (R316; log 30). -/
  spawns : List (Nat × Addr × List Byte)
deriving DecidableEq, Repr

/-! ### Cores, dies, device -/

/-- A line of an L1 (R286): physical line address, 32 words with valid and dirty bits, the attributes scope actions ask for. -/
structure L1Line where
  line : Nat
  valid : W32
  dirty : W32
  words : Vector W32 32
  /-- Home pair of a HOMED page; `none` for a DEVICE page (R289). -/
  homed : Option Nat
  page : Nat
deriving DecidableEq, Repr

/-- A TLB entry (R404): context, root, page and the leaf it holds. -/
structure TlbEnt where
  ctx : Nat
  sup : Bool
  /-- Page number: virtual address without the page offset. -/
  vpn : Nat
  bits : Nat
  pte : BitVec 256
deriving DecidableEq, Repr

/-- A core (R14, R273, R283, R286, R384, R404). -/
structure CoreSt where
  ps : Nat
  pg : Nat
  fused : Bool
  l1 : List L1Line
  tlb : List TlbEnt
  evq : List Rec
  seq : W32
  /-- Helper queue: continuations in order, the running one first (R169). -/
  helper : List (TeamRef × Nat)
  /-- Copies and write-backs in the order they were started (R283). -/
  copies : List (TeamRef × Nat)
  /-- Clock at the core's reset (R30). -/
  base : Nat
  /-- The running group of each partition (R349). -/
  runs : Vector (Option GRef) 4
  /-- What each partition has issued in this clock: lanes of its vector slot, the kind of word that they hold, and whether it has made
  its uniform issue (R343, R344). -/
  slots : Vector (Nat × Nat × Bool) 4
  /-- Teams that were placed on the core in this clock (R337). -/
  took : List TeamRef
  /-- Lines of its spans that an uncorrectable error has marked lost and that no resident team holds, by their place among the
  spans' lines (R8, R295). -/
  lostSp : Store Bool
deriving DecidableEq, Repr

/-- A put in flight to a hub (R416): the packet, its sender, the launch it counts for. -/
structure Flying where
  pkt : PutPkt
  /-- Peer endpoint and sequence number of a put from a peer, for its acknowledgement. -/
  peer : Option (W128 × Nat)
  /-- The group that formed a put of this device. -/
  owner : Option GRef
  launch : Nat
  core : Nat
  /-- The global timestamp of its arrival, where it waits at its slot for an earlier write (R267). -/
  stamp : Option Nat
deriving DecidableEq, Repr

/-- A collective slot (R262). -/
structure Slot where
  tag : W32
  cnt : Nat
  op : CollOp
  n : Nat
  stage : Nat
  dsts : List Nat
  status : Nat
  arrived : W64
  /-- Deadline on the global timestamp. -/
  deadline : Nat
  refused : Nat
  /-- Launch and team that armed it, and its context. -/
  launch : Nat
  team : Nat
  ctx : Nat
  /-- The combine has begun and stands at this destination and element; 4 is the status write. -/
  at_ : Option (Nat × Nat)
  timedOut : Bool
  nanSeen : Bool
  /-- Stopped at a failed write (R270); the accepted put whose staging write stands at an element. -/
  stop : Option StopInfo
  standing : Option (Flying × Nat)
  /-- Consecutive RETRY steps of the slot, and their cause (R387, R405). -/
  retries : Option (Cause × Nat)
  /-- The core that armed it (R304). -/
  core : Nat
deriving DecidableEq, Repr

/-- A record source of a die besides its cores (R381). -/
structure DieSrc where
  buf : List Rec
  seq : W32
deriving DecidableEq, Repr

/-- A page move in progress or waiting on a die (R370 to R372). -/
structure Move where
  launch : Nat
  /-- Index of the entry that asks for it. -/
  ent : Nat
  ctx : Nat
  va : Nat
  toNear : Bool
deriving DecidableEq, Repr

/-- A table entry that a die's walker keeps (R404): context, root, level, and the address bits that choose it. -/
structure WalkEnt where
  ctx : Nat
  sup : Bool
  lvl : Nat
  ix : Nat
  pte : BitVec 256
deriving DecidableEq, Repr

/-- A die (R262, R360, R370, R384, R404). -/
structure DieSt where
  slots : List (Nat × Slot)
  ring : List Rec
  /-- The sources: slices 0 to 31, Fathom, collective engine, command processor, supervisor core, ports 0 to 3. -/
  srcs : Vector DieSrc 40
  /-- The walker's table entries, the newest first (R404). -/
  walks : List WalkEnt
  /-- A team was offered in this clock (R337). -/
  offered : Bool
  /-- Pages of started timetable entries that Fathom has still to look at, in order: launch, entry, page, and its leaf when the
  entry started (R370, R384). -/
  starting : List (Nat × Nat × Nat × Option (BitVec 256))
  /-- Free frames: tier (0 near), size code of R41, physical address. -/
  frames : List (Nat × Nat × Nat)
  moves : List Move
  /-- Commands of this die's command processor in their order, the one it performs first (R424). -/
  cmds : List Instr
  /-- The first command has acted and waits for what its reply follows (R421). -/
  busy : Bool
deriving DecidableEq, Repr

/-- An outstanding request of this device to a peer (R411, R415). -/
structure Request where
  seq : Nat
  /-- Peer number. -/
  peer : Nat
  req : PeerReq
  /-- The party that waits for it. -/
  owner : Option GRef
  /-- The collective slot that waits for it (R268). -/
  slot : Option (Nat × Nat)
  launch : Nat
  /-- Retransmissions so far (R411). -/
  tries : Nat
  core : Nat
  /-- The peer has acknowledged the packet, which is then not sent again (R375, R411). -/
  acked : Bool
deriving DecidableEq, Repr

/-- A reply that this device keeps for a peer until it is acknowledged (R411, R414): the peer's endpoint, the request's sequence
number, the reply, the device port it leaves through, its own packet sequence number and the retransmissions so far. -/
structure Kept where
  src : W128
  seq : Nat
  rep : PeerRep
  port : Nat
  pkt : Nat
  tries : Nat
deriving DecidableEq, Repr

/-- A message this device sends to the host (R418, R424). -/
structure HostOut where
  opc : Nat
  tag : W32
  die : Nat
  dev : Bool
  rpl : Bool
  stat : Nat
  body : List Byte
  dest : W128
  /-- Packet sequence number, and retransmissions so far (R411). -/
  seq : Nat
  tries : Nat
deriving DecidableEq, Repr

/-! ### What moves next -/

/-- The party whose word is being executed. -/
inductive Cur where
  | idle
  | grp (g : GRef)
  | sq (t : TeamRef)
deriving DecidableEq, Repr

/-- One move of the machine (log 3). -/
inductive Act where
  /-- An event of the device, or a decoded command. -/
  | ev (i : Instr)
  /-- A group or continuation issues its next word, or its waiting word is attempted again. -/
  | issue (g : GRef)
  /-- A sequencer issues its next word, or attempts its waiting word again. -/
  | sq (t : TeamRef)
  /-- A clock passes. -/
  | tick
  /-- Bytes of a command-channel message from an endpoint arrive. -/
  | msg (src : W128) (bytes : List Byte)
  /-- The L1 of a core evicts a line (R287). -/
  | evict (core line : Nat)
  /-- The lanes of `m` of a party's lookahead entry are performed alone (R279, R301). -/
  | lanesOf (g : GRef) (i : Nat) (m : Mask)
  /-- A posted store is cut at word `w` of its line, so that its parts are performed apart (R303). -/
  | cutStore (g : GRef) (i w : Nat)
  /-- A party's next word, a scratchpad store or QNTT, is performed in the lanes of `m`, or for one row, alone (R149, R279). -/
  | partOf (g : GRef) (m : Mask)
  /-- The word at word address `w` of lane `lane` of a party's load is read before the rest (R279, R301). -/
  | wordOf (g : GRef) (i lane w : Nat)
  /-- A party's next word, a scratchpad store, stores the word at word address `w` of lane `lane` alone (R279). -/
  | storeWordOf (g : GRef) (lane w : Nat)
  /-- Mesh word `n` of a team reads or writes the scratchpad line at row offset `o` alone (R279). -/
  | meshLine (t : TeamRef) (n o : Nat)
  /-- The endpoint `ep` acknowledges the packet with this sequence number (R375, R411, R414). -/
  | acked (ep : W128) (seq : Nat)
  /-- The first request turned away that waits for room at its port gets its record and its reply (R418). -/
  | turnedAway
deriving DecidableEq, Repr

/-- A planned move: clocks that pass before it, and the move. -/
structure Planned where
  dt : Nat
  act : Act
deriving DecidableEq, Repr

/-- The state of the machine. -/
structure State where
  /-- Arithmetic clocks since the release of reset. -/
  clock : Nat
  /-- The moves that come next, and the rotation that chooses when none is planned (log 3). -/
  agenda : List Planned
  rr : Nat
  /-- How far the moves of this clock have come in their order (R304, R321, R337, R342, R358; log 44). -/
  rank : Nat
  cur : Cur
  /-- Counter of the free values used so far (log 11). -/
  fresh : Nat
  mem : Memory
  /-- Physical lines marked lost (R295). -/
  lost : Store Bool
  /-- User and supervisor roots of the contexts (R401), default 0. -/
  rootU : Store Nat
  rootS : Store Nat
  cores : Vector CoreSt 128
  dies : Vector DieSt 4
  launches : List Launch
  /-- Launches of the past: number and whether it was discarded (R336). -/
  past : List (Nat × Bool)
  launchNext : Nat
  teams : List Team
  versions : List Version
  versNext : Nat
  /-- The installed policy table, by byte offset / 8 (R386); `none` before POLICY. -/
  policy : Option (Store W64)
  /-- The peer table, default the zero entry (R412). -/
  peers : Store (BitVec 256)
  flying : List Flying
  requests : List Request
  seqNext : Nat
  /-- Replies kept for repeated requests (R414). -/
  kept : List Kept
  /-- Peer requests that wait at this home (a consuming read under BLOCK, R375), with the clock they came. -/
  heldReqs : List (PeerReq × Nat)
  /-- Requests sent to peers, each with the device port it left through (R410). -/
  toPeers : List (Nat × PeerReq)
  repPeers : List (Nat × W128 × PeerRep)
  toHost : List HostOut
  /-- Requests of the host turned away whose records wait for room at the port: `OPC`, status and message (R384, R418). -/
  turned : List (Nat × Nat × HostMsg)
  host : Option W128
  measurement : List Byte
  fuseMin : Nat
  serial : W64
  straps : Straps
  /-- Replays of the flit that each boundary is sending, of 0–1, 2–3, 0–2 and 1–3; the boundary holds its traffic from 1,024 on
  (R406, R408). -/
  replays : Vector Nat 4
deriving DecidableEq, Repr

/-- Why the machine itself would stop. Every cause of the spec is a next state of this model, so no run from reset
meets one of these. -/
inductive Fault where
  /-- Raised by the shared execution of a word when `cur` names a party that the state does not hold; safe: `step` never
  executes a word in such a state. -/
  | noParty
deriving DecidableEq, Repr

/-- What the model refuses to give a meaning. -/
inductive Refusal where
  /-- Raised by an arm of `exec` that has no meaning yet; safe. -/
  | notModelled (mnemonic : String)
  /-- Raised by the shared execution of a word when `cur` is idle: the spec gives a word an effect only where a party
  issues it; safe: `step` always names the issuing party first. -/
  | noIssuer
deriving DecidableEq, Repr

/-! ### Reset -/

/-- A core at reset: the default partition of R273, everything empty. -/
def CoreSt.reset (clock : Nat) : CoreSt := ⟨96, 32, false, [], [], [], 0, [], [], clock, Vector.replicate 4 none,
  Vector.replicate 4 (0, 0, false), [], []⟩

/-- A die at reset: slots FREE, rings and lists empty. -/
def DieSt.reset : DieSt := ⟨[], [], Vector.replicate 40 ⟨[], 0⟩, [], false, [], [], [], [], false⟩

/-- The machine right after reset: unprovisioned, nothing installed, memory with nothing listed (R429; logs 1, 14). -/
def State.reset : State where
  clock := 0
  agenda := []
  rr := 0
  rank := 0
  cur := .idle
  fresh := 0
  mem := []
  lost := []
  rootU := []
  rootS := []
  cores := Vector.replicate 128 (CoreSt.reset 0)
  dies := Vector.replicate 4 DieSt.reset
  launches := []
  past := []
  launchNext := 1
  teams := []
  versions := []
  versNext := 0
  policy := none
  peers := []
  flying := []
  requests := []
  seqNext := 0
  kept := []
  heldReqs := []
  toPeers := []
  repPeers := []
  toHost := []
  turned := []
  host := none
  measurement := List.replicate 32 0
  fuseMin := 0
  serial := 0
  straps := ⟨0, false⟩
  replays := Vector.replicate 4 0

end Sys2Proof.Machine
end

