-- ==== Sys2Proof/Machine/Ops.lean ====
section
/-! DEFINITION. The named operations over the state: sparse arrays and memory bytes, registers, teams and groups, records,
the end of a group, TAKING A TRAP (R50, R379 to R390) and resuming after one (R388, R389). -/
namespace Sys2Proof.Machine

/-! ### Sparse arrays -/

/-- Read a sparse array. -/
def Store.get {α : Type} (d : α) : Store α → Nat → α
  | [], _ => d
  | (k, x) :: r, i => if i = k then x else if i < k then d else Store.get d r i

/-- Write a sparse array, keeping its canonical form; a read after it gives the value written in any array. -/
def Store.set {α : Type} [DecidableEq α] (d : α) : Store α → Nat → α → Store α
  | [], i, y => if y = d then [] else [(i, y)]
  | (k, x) :: r, i, y =>
    if i = k then (if y = d then r.filter fun e => decide (i < e.1) else (k, y) :: r)
    else if i < k then (if y = d then (k, x) :: r else (i, y) :: (k, x) :: r)
    else (k, x) :: Store.set d r i y

/-- Every key of a sparse array lies above `lo` and rises, and no entry holds the default. -/
def Store.above {α : Type} [DecidableEq α] (d : α) : Nat → Store α → Bool
  | _, [] => true
  | lo, (k, x) :: r => decide (lo ≤ k) && decide (x ≠ d) && Store.above d (k + 1) r

/-- The canonical form of a sparse array. -/
def Store.wf {α : Type} [DecidableEq α] (d : α) (m : Store α) : Bool := Store.above d 0 m

/-- Write consecutive keys from `i`. -/
def Store.setMany {α : Type} [DecidableEq α] (d : α) (m : Store α) (i : Nat) : List α → Store α
  | [] => m
  | x :: r => Store.setMany d (Store.set d m i x) (i + 1) r

/-- Write consecutive keys from `i` in one pass. -/
def Store.setRange {α : Type} [DecidableEq α] (d : α) (m : Store α) (i : Nat) (xs : List α) : Store α :=
  (m.filter fun e => decide (e.1 < i)) ++ (xs.zipIdx.filterMap fun e => if e.1 = d then none else some (i + e.2, e.1)) ++
    m.filter fun e => decide (i + xs.length ≤ e.1)

/-- Write the default at `n` keys from `i`. -/
def Store.clear {α : Type} [DecidableEq α] (d : α) (m : Store α) (i : Nat) : Nat → Store α
  | 0 => m
  | n + 1 => Store.clear d (Store.set d m i d) (i + 1) n

/-! ### Memory -/

/-- What a byte of memory that nothing has written reads as (log 1). -/
def memDefault : Byte := 0

/-- The canonical form of memory. -/
def Memory.wf (m : Memory) : Bool := Store.wf memDefault m

/-- One byte of memory. -/
def Memory.byte (m : Memory) (a : Nat) : Byte := Store.get memDefault m a

/-- `n` bytes of memory from `a`. -/
def Memory.read (m : Memory) (a : Nat) : Nat → List Byte
  | 0 => []
  | n + 1 => m.byte a :: Memory.read m (a + 1) n

/-- Write bytes from `a`. -/
def Memory.write (m : Memory) (a : Nat) (b : List Byte) : Memory := Store.setMany memDefault m a b

/-- A little-endian number of `n` bytes at `a`. -/
def Memory.num (m : Memory) (a n : Nat) : Nat := natOf (m.read a n)

/-! ### Registers of a group -/

/-- Key of lane `i` of register `r`. -/
def vKey (r i : Nat) : Nat := 64 * r + i

/-- Lane `i` of v register `r`. -/
def Group.vreg (g : Group) (r i : Nat) : W32 := Store.get 0 g.v (vKey r i)

/-- Write lane `i` of v register `r`. -/
def Group.setV (g : Group) (r i : Nat) (x : W32) : Group := { g with v := Store.set 0 g.v (vKey r i) x }

/-- The chunk of register `r` is mapped (R23, R24). -/
def Group.mapped (g : Group) (r : Nat) : Bool := decide (r / 8 < g.chunks.length)

/-- An s register. -/
def Group.sreg (g : Group) (n : Nat) : W64 := g.s.getD n 0

/-- Write an s register. -/
def Group.setS (g : Group) (n : Nat) (x : W64) : Group := { g with s := g.s.setIfInBounds n x }

/-- A predicate in every lane; p7 reads 1 everywhere (R16). -/
def Group.pred (g : Group) (n : Nat) : Mask := if n = 7 then BitVec.allOnes 64 else g.p.getD n 0

/-- Write a predicate in the lanes of `m`; p7 discards it (R16). -/
def Group.setP (g : Group) (n : Nat) (m x : Mask) : Group :=
  { g with p := g.p.setIfInBounds n ((g.p.getD n 0 &&& ~~~m) ||| (x &&& m)) }

/-- A latch (R97). -/
def Group.latch (g : Group) (n : Nat) : Option Latch := g.l.getD n none

/-- A token. -/
def Group.tok (g : Group) (k : Nat) : Token := g.j.getD k ⟨0, 0, 0, 0⟩

/-- Write a token. -/
def Group.setTok (g : Group) (k : Nat) (t : Token) : Group := { g with j := g.j.setIfInBounds k t }

/-- A lane set that the guard of a word passes: `EXEC`, the predicate and its negation (R46). -/
def Group.guard (g : Group) (gp : Nat) (gn : Bool) : Mask :=
  g.exec &&& (if gn then ~~~ g.pred gp else g.pred gp)

/-- The save of a team has started: its groups stand at their word boundaries, its sequencer and copies too (R393 to R395). -/
def Team.saving (t : Team) : Bool := match t.save with | some p => p.started | none => false

/-- The group is in a QNTT, which a save lets finish (R395). -/
def Group.inQntt (g : Group) : Bool := match g.wait with | .qntt _ _ _ _ => true | _ => false

/-- A group takes part in its team (it has not ended). -/
def Group.live (g : Group) : Bool := g.st != .ended

/-- A free token (R162). -/
def Token.free : Token := ⟨0, 0, 0, 0⟩

/-- The lanes that are live (R162). -/
def Group.liveLanes (g : Group) : Mask :=
  let inTok := (List.range 8).foldl (fun m k =>
    let t := g.tok k
    if t.mem = 0 then m else m ||| t.arr ||| t.ej) (0 : Mask)
  g.pend.foldl (fun m e => m ||| e.mask) (g.exec ||| inTok)

/-- The sticky flags of R26. -/
inductive Sticky where
  | inv | qsat | clamp | twnan | ctnan
deriving DecidableEq, Repr

/-- Bit of a sticky flag (R26). -/
def Sticky.bit : Sticky → W16
  | .inv => 1
  | .qsat => 2
  | .clamp => 4
  | .twnan => 8
  | .ctnan => 16

/-- Set a sticky flag if the condition holds (R27). -/
def Group.flag (g : Group) (f : Sticky) (on : Bool) : Group :=
  if on then { g with sticky := g.sticky ||| f.bit } else g

/-! ### Vector clocks (R351) -/

/-- The later of two vector clocks, party by party. -/
def VClock.join (a b : VClock) : VClock :=
  b.foldl (fun m e => Store.set 0 m e.1 (max (Store.get 0 m e.1) e.2)) a

/-- Advance a party's own clock. -/
def VClock.bump (a : VClock) (party : Nat) : VClock := Store.set 0 a party (Store.get 0 a party + 1)

/-- The party number of a sequencer in its team's clocks. -/
def seqParty : Nat := 64

/-! ### Teams, groups, launches -/

def State.team? (s : State) (r : TeamRef) : Option Team := s.teams.find? fun t => t.ref == r

def State.setTeam (s : State) (t : Team) : State :=
  { s with teams := replaceFirst (fun u => u.ref == t.ref) t s.teams }

def State.launch? (s : State) (n : Nat) : Option Launch := s.launches.find? fun l => l.num == n

def State.setLaunch (s : State) (l : Launch) : State :=
  { s with launches := replaceFirst (fun u => u.num == l.num) l s.launches }

def Team.grp? (t : Team) (i : Nat) : Option Group := t.groups.find? fun g => g.idx == i

def Team.setGrp (t : Team) (g : Group) : Team :=
  { t with groups := replaceFirst (fun u => u.idx == g.idx) g t.groups }

def Team.cont? (t : Team) (n : Nat) : Option Cont := t.conts.find? fun c => c.id == n

def Team.setCont (t : Team) (c : Cont) : Team :=
  { t with conts := replaceFirst (fun u => u.id == c.id) c t.conts }

/-- The context of a group or continuation of a team. -/
def Team.who? (t : Team) : Who → Option Group
  | .grp i => t.grp? i
  | .cont n => (t.cont? n).map (·.g)

def Team.setWho (t : Team) (w : Who) (g : Group) : Team :=
  match w with
  | .grp _ => t.setGrp g
  | .cont n =>
    match t.cont? n with
    | none => t
    | some c => t.setCont { c with g := g }

/-- What a word of a party sees: its launch, team and group. -/
structure Ctx where
  ref : GRef
  l : Launch
  t : Team
  g : Group
deriving DecidableEq, Repr

/-- The context of a party. -/
def State.ctx? (s : State) (r : GRef) : Option Ctx := do
  let t ← s.team? r.t
  let l ← s.launch? r.t.launch
  let g ← t.who? r.who
  some ⟨r, l, t, g⟩

/-- Replace a party's group. -/
def State.setGroup (s : State) (r : GRef) (g : Group) : State :=
  match s.team? r.t with
  | none => s
  | some t => s.setTeam (t.setWho r.who g)

/-- Change a party's group. -/
def State.modGroup (s : State) (r : GRef) (f : Group → Group) : State :=
  match s.team? r.t with
  | none => s
  | some t =>
    match t.who? r.who with
    | none => s
    | some g => s.setTeam (t.setWho r.who (f g))

/-- Change a team. -/
def State.modTeam (s : State) (r : TeamRef) (f : Team → Team) : State :=
  match s.team? r with
  | none => s
  | some t => s.setTeam (f t)

/-- Change a launch. -/
def State.modLaunch (s : State) (n : Nat) (f : Launch → Launch) : State :=
  match s.launch? n with
  | none => s
  | some l => s.setLaunch (f l)

def State.core (s : State) (c : Nat) : CoreSt := s.cores.getD c (CoreSt.reset 0)

def State.modCore (s : State) (c : Nat) (f : CoreSt → CoreSt) : State :=
  { s with cores := s.cores.setIfInBounds c (f (s.core c)) }

def State.die (s : State) (d : Nat) : DieSt := s.dies.getD d DieSt.reset

def State.modDie (s : State) (d : Nat) (f : DieSt → DieSt) : State :=
  { s with dies := s.dies.setIfInBounds d (f (s.die d)) }

/-- The core a group runs on (R341): on a pair, the even core where `floor(g / 4)` is even. -/
def Team.coreOf (t : Team) (g : Nat) : Nat := if t.pair && g / 4 % 2 == 1 then t.core + 1 else t.core

/-- The partition a group runs on (R341). -/
def partOf (g : Nat) : Nat := g % 4

/-- A group's index, or the origin group of a continuation. -/
def Team.groupOf (t : Team) : Who → Nat
  | .grp i => i
  | .cont n => match t.cont? n with | some c => c.origin | none => 0

/-- The core of a party. -/
def Ctx.core (c : Ctx) : Nat := c.t.coreOf (c.t.groupOf c.ref.who)

/-- The die of a core (R256). -/
def dieOf (core : Nat) : Nat := core / 32

/-- Scratchpad bytes of a team. -/
def Team.spadSize (t : Team) : Nat := t.spans * 16384

/-- The global timestamp of a die in nanoseconds: it lags by at most 4 ns and never runs back. What a die reads at a clock is the
latest of what it would read at that clock and the clocks before it; 15 of them reach back over every lag (R30, R428; log 4). -/
def State.timeAt (s : State) (die : Nat) : Nat :=
  (List.range 15).foldl (fun m i =>
    let n := (s.clock - i) / 3
    max m (n - min n (Config.timeSkew die (s.clock - i) % 5))) 0

/-- A window that has never been bound. -/
def Window.unbound : Window := ⟨.unbound, none, 0, 0, 0, false, 0, [], false, .unbound, false, 0, 0, 0, [], 0, none, false, none, none⟩

/-- A window of a team. -/
def Team.win (t : Team) (k : Nat) : Window :=
  t.wins.getD k Window.unbound

def Team.setWin (t : Team) (k : Nat) (w : Window) : Team := { t with wins := t.wins.setIfInBounds k w }

def Team.bar (t : Team) (k : Nat) : NBar := t.nb.getD k ⟨0, 0, false, 0, [], []⟩

def Team.setBar (t : Team) (k : Nat) (b : NBar) : Team := { t with nb := t.nb.setIfInBounds k b }

def Team.ctr (t : Team) (k : Nat) : SlotCtr := t.ctrs.getD k ⟨0, [], []⟩

def Team.setCtr (t : Team) (k : Nat) (c : SlotCtr) : Team := { t with ctrs := t.ctrs.setIfInBounds k c }

/-- The pool part of a group's core (R448). -/
def Team.poolOf (t : Team) (g : Nat) : PoolPart := if t.coreOf g = t.core then t.pool else t.poolOdd

def Team.setPool (t : Team) (g : Nat) (p : PoolPart) : Team :=
  if t.coreOf g = t.core then { t with pool := p } else { t with poolOdd := p }

/-- Insert into a rising list without repeats. -/
def insertSorted (x : Nat) : List Nat → List Nat
  | [] => [x]
  | y :: r => if x < y then x :: y :: r else if x = y then y :: r else y :: insertSorted x r

/-- The groups that have not ended. -/
def Team.liveGroups (t : Team) : List Group := t.groups.filter (·.live)

/-- The version that a group's accesses are held in: its task's, or its team's segment's (R292, R355). -/
def Ctx.version (c : Ctx) : Option Nat :=
  match c.t.seg with
  | some sg => some sg.vers
  | none => match c.g.task with | some k => k.vers | none => none

/-! ### Versions -/

def State.version? (s : State) (n : Nat) : Option Version := s.versions.find? fun v => v.id == n

/-- Change a saved team (R392). -/
def State.modSaved (s : State) (r : TeamRef) (f : Team → Team) : State :=
  s.modLaunch r.launch fun l =>
    { l with saved := l.saved.map fun x => if x.ref == r then { x with team := f x.team } else x }

/-- A saved team. -/
def State.saved? (s : State) (r : TeamRef) : Option SavedTeam := (s.launch? r.launch).bind fun l => l.saved.find? fun x => x.ref == r

/-- A party of a resident or saved team. -/
def State.party? (s : State) (r : GRef) : Option Group :=
  match s.team? r.t with
  | some t => t.who? r.who
  | none => (s.saved? r.t).bind fun x => x.team.who? r.who

/-- Change a team, resident or saved. -/
def State.modAny (s : State) (r : TeamRef) (f : Team → Team) : State :=
  if (s.team? r).isSome then s.modTeam r f else s.modSaved r f

/-- Change a party of a team, resident or saved. -/
def State.modParty (s : State) (r : GRef) (f : Group → Group) : State :=
  s.modAny r.t fun t => match t.who? r.who with | some g => t.setWho r.who (f g) | none => t

/-- Set or clear `VER` (bit 16) in the line header at `h` (R44). -/
def Memory.setVer (m : Memory) (h : Nat) (on : Bool) : Memory :=
  Store.set memDefault m (h + 2) ((m.byte (h + 2) &&& 0xFE) ||| (if on then 1 else 0))

/-- Drop a version with every word and twin update it holds, and the places of the records that its task has spawned; `VER` is cleared
on the lines that no other version holds (R292, R342, R374). -/
def State.discardVersion (s : State) (n : Nat) : State :=
  match s.version? n with
  | none => s
  | some v =>
    let rest := s.versions.filter fun u => u.id != n
    let s := s.modLaunch v.launch fun l => { l with places := l.places.filter fun p => !v.spawns.any fun e => e.1 == p }
    { s with
      versions := rest
      mem := v.lines.foldl (fun m l =>
        if rest.any fun u => u.lines.any fun k => k.hdr == l.hdr then m else m.setVer l.hdr false) s.mem }

/-! ### Records -/

/-- The code of a cause (R379). -/
def Cause.code : Cause → Nat
  | .illegal => 0x01 | .illegalTarget => 0x02 | .fetch => 0x03 | .fetchError => 0x04 | .regUnmapped => 0x05
  | .latchStale => 0x06 | .lookahead => 0x07 | .badAddress => 0x08 | .badPte => 0x09 | .token => 0x0A
  | .task => 0x0B | .barrier => 0x0C | .counter => 0x0D | .pool => 0x0E | .scope => 0x0F | .badRecord => 0x10
  | .badScale => 0x11 | .badTable => 0x12 | .badWindow => 0x13 | .badStream => 0x14 | .badSparse => 0x15
  | .latchEmpty => 0x16 | .accOwner => 0x17 | .accWindow => 0x18 | .waitTimeout => 0x19 | .teamStall => 0x1A
  | .markTimeout => 0x1B | .scheduleMiss => 0x1C | .adjointUnderflow => 0x1D | .countOverflow => 0x1E
  | .twinRange => 0x1F | .twinBusy => 0x20 | .orderRace => 0x21 | .versionFull => 0x22 | .dataLost => 0x23
  | .user => 0x24 | .halt => 0x25 | .shadowMismatch => 0x26
  | .translation => 0x40 | .permission => 0x41 | .twinEarly => 0x42
  | .event => 0x60 | .corrected => 0x61 | .taskCount => 0x62 | .collRefused => 0x63 | .tierSkip => 0x64
  | .roleChange => 0x65 | .launchRefused => 0x66 | .predDiscarded => 0x67 | .remoteFail => 0x68 | .scopeAck => 0x69
  | .spawnRefused => 0x6A | .policyStep => 0x6B

/-- The stopping cause of a code that a peer's reply carries (R414, R375). -/
def Cause.ofReply (n : Nat) : Cause :=
  if n = 0x40 then .translation else if n = 0x41 then .permission else if n = 0x42 then .twinEarly
  else if n = 0x09 then .badPte else if n = 0x1D then .adjointUnderflow else if n = 0x1E then .countOverflow
  else if n = 0x1F then .twinRange else .dataLost

/-- Class D: a data fault record (R379). -/
def Cause.isD : Cause → Bool
  | .translation | .permission | .twinEarly => true
  | _ => false

/-- Class N: the cause stops nothing (R379). SCHEDULE-MISS is E here; its class N records are raised apart. -/
def Cause.isN : Cause → Bool
  | .event | .corrected | .taskCount | .collRefused | .tierSkip | .roleChange | .launchRefused | .predDiscarded
  | .remoteFail | .scopeAck | .spawnRefused | .policyStep => true
  | _ => false

/-- The PARK column of R379. -/
def Cause.canPark : Cause → Bool
  | .fetchError | .badPte | .translation | .permission | .twinEarly => true
  | _ => false

/-- The RETRY column of R379. -/
def Cause.canRetry : Cause → Bool
  | .fetchError | .waitTimeout | .markTimeout | .scheduleMiss | .versionFull | .translation | .twinEarly => true
  | _ => false

/-- `INFO` from a low item and a second item at bit 64 (R447). -/
def info2 (lo hi : Nat) : W128 := BitVec.ofNat 128 (lo % 2 ^ 64 + hi % 2 ^ 64 * 2 ^ 64)

/-- What a record says about its unit. -/
structure Unit where
  core : Nat
  src : RecSrc
  priv : Bool
  shdw : Bool
  pc : Addr
  lane : Nat
  group : Nat
  team : Nat
  launch : Nat
  taskr : Nat
  /-- Unit kind of R422: 2 group, 3 continuation, 4 sequencer, 5 copy, 6 slot. -/
  kind : Nat
deriving DecidableEq, Repr

/-- The unit of a group's or continuation's word. -/
def Ctx.unit (c : Ctx) : Unit where
  core := c.core
  src := match c.ref.who with | .grp _ => .group | .cont _ => .continuation
  priv := c.g.priv
  shdw := c.t.ref.shadow
  pc := c.g.pc
  lane := match c.ref.who with
    | .grp _ => 0
    | .cont n => match c.t.cont? n with | some k => k.lane | none => 0
  group := c.t.groupOf c.ref.who
  team := c.t.ref.idx
  launch := c.l.num
  taskr := match c.g.task with | some k => k.addr.toNat | none => 0
  kind := match c.ref.who with | .grp _ => 2 | .cont _ => 3

/-- Queue an event record in a core's event queue, with the core's next sequence number (R381, R384; log 22). -/
def State.raise (s : State) (u : Unit) (vdisc : Bool) (cause : Cause) (info : W128) (aux : W32 := 0) : State :=
  s.modCore u.core fun c =>
    { c with
      seq := c.seq + 1
      evq := c.evq ++ [.ev ⟨⟨dieOf u.core, u.core, u.src, vdisc, u.priv, u.shdw, cause⟩, info, u.taskr, u.pc, u.lane,
        u.group, u.team, u.launch, c.seq.toNat, s.timeAt (dieOf u.core), aux⟩] }

/-- The sequence number that the next record of a core takes. -/
def State.nextSeq (s : State) (core : Nat) : Nat := (s.core core).seq.toNat

/-- A data fault may merge into an open record of its core (R382; log 17). -/
def FaultRec.merges (r n : FaultRec) : Bool :=
  r.taskr == 0 && n.taskr == 0 && r.hd.src == .group && n.hd.src == .group && r.hd.cause == n.hd.cause &&
  r.team == n.team && r.launch == n.launch && r.ctx == n.ctx && r.hd.shdw == n.hd.shdw &&
  r.va.toNat / 65536 == n.va.toNat / 65536

/-- Merge a fault into the first open record that takes it, or append it. -/
def mergeFault (n : FaultRec) : List Rec → List Rec
  | [] => [.df n]
  | .ev r :: q => .ev r :: mergeFault n q
  | .df r :: q =>
    if r.merges n then
      .df { r with
        grps := r.grps ||| n.grps
        pcm := if lowLane n.grps < lowLane r.grps then n.pcm else r.pcm
        merged := r.merged + 1 } :: q
    else .df r :: mergeFault n q

/-- Queue a data fault record in a core's event queue, through its coalescer (R382). -/
def State.raiseFault (s : State) (u : Unit) (vdisc : Bool) (cause : Cause) (va : Addr) (ak : AKind) (ctx : Nat)
    (pcm : Mask) (versioned : Bool) : State :=
  s.modCore u.core fun c =>
    let hd : RecHead := ⟨dieOf u.core, u.core, u.src, vdisc, u.priv, u.shdw, cause⟩
    let r : FaultRec := ⟨hd, if u.src = .group then lane1 u.group else 0, pcm, va, ak, ctx, 1,
      if u.src = .group then 0 else u.group, u.team, u.launch, if versioned then u.taskr else 0⟩
    { c with evq := mergeFault r c.evq }

/-- The record sources of a die (R381). -/
inductive DieSource where
  | slice (n : Nat)
  | fathom | collective | cmdProc | supervisor
  | port (n : Nat)
deriving DecidableEq, Repr

/-- Place of a source among those of its die. -/
def DieSource.ix : DieSource → Nat
  | .slice n => n % 32
  | .fathom => 32 | .collective => 33 | .cmdProc => 34 | .supervisor => 35
  | .port n => 36 + n % 4

def DieSource.src : DieSource → RecSrc
  | .slice _ => .slice
  | .fathom => .fathom | .collective => .collective | .cmdProc => .cmdProc | .supervisor => .supervisor
  | .port _ => .port

def DieSt.source (d : DieSt) (k : DieSource) : DieSrc := d.srcs.getD k.ix ⟨[], 0⟩

/-- A die source raises an event record (R381, R384). -/
def State.raiseDie (s : State) (die : Nat) (k : DieSource) (cause : Cause) (info : W128)
    (group team launch : Nat) (aux : W32 := 0) (shdw : Bool := false) (vdisc : Bool := false) : State :=
  s.modDie die fun d =>
    let q := d.source k
    let r : EventRec := ⟨⟨die, 0, k.src, vdisc, false, shdw, cause⟩, info, 0, 0, 0, group, team, launch, q.seq.toNat,
      s.timeAt die, aux⟩
    { d with srcs := d.srcs.setIfInBounds k.ix ⟨q.buf ++ [.ev r], q.seq + 1⟩ }

/-- A die source raises a data fault record. -/
def State.raiseDieFault (s : State) (die : Nat) (k : DieSource) (cause : Cause) (va : Addr) (ak : AKind)
    (ctx unit team launch : Nat) : State :=
  s.modDie die fun d =>
    let q := d.source k
    let r : FaultRec := ⟨⟨die, 0, k.src, false, false, false, cause⟩, 0, 0, va, ak, ctx, 1, unit, team, launch, 0⟩
    { d with srcs := d.srcs.setIfInBounds k.ix ⟨q.buf ++ [.df r], q.seq⟩ }

/-- Entries of a core's event queue (R384). -/
def evqSize : Nat := 256

/-- A core holds records that its full queue has not taken: a unit that goes on by RETRY waits with them (R384; log 22). -/
def State.heldRecord (s : State) (core : Nat) : Bool := decide (evqSize < (s.core core).evq.length)

/-- A die source holds records that its output buffer of 16 has not taken (R384; log 22). -/
def State.srcHeld (s : State) (die : Nat) (k : DieSource) : Bool := decide (16 < ((s.die die).source k).buf.length)

/-- A die source has room for a record (R384). -/
def State.srcRoom (s : State) (die : Nat) (k : DieSource) : Bool := ((s.die die).source k).buf.length < 16

/-! ### The policy table (R386) -/

/-- The entry of a policy class for a cause. -/
def State.polEntry (s : State) (cls : Nat) (c : Cause) : W64 :=
  match s.policy with
  | none => 0
  | some t => Store.get 0 t (128 * cls + c.code)

/-- `ACT` of an entry. -/
def polAct (e : W64) : PolAct :=
  match e.toNat % 16 with
  | 1 => .park
  | 2 => .retry
  | 3 => .requeue
  | 4 => .discard
  | _ => .stop

def PolAct.code : PolAct → Nat
  | .stop => 0 | .park => 1 | .retry => 2 | .requeue => 3 | .discard => 4

/-- `LIMIT` of an entry. -/
def polLimit (e : W64) : Nat := e.toNat / 16 % 16
/-- `RQPC` of an entry. -/
def polRqpc (e : W64) : Addr := BitVec.ofNat 56 (e.toNat / 256)

/-! ### Numbered barriers (R19, R170, R241) -/

/-- The sequencer has arrived in the barrier's phase, or takes no part (R241). -/
def Team.seqArrived (t : Team) (k : Nat) : Bool :=
  !t.sq.sbm.getLsbD k || (t.sq.sarv.getLsbD k && t.sq.saph.getLsbD k == (t.bar k).phase)

/-- The group that receives the predicate when barrier k opens: the last to arrive in the phase, or the highest index in
ordered mode (R171). -/
def Team.lastArriver (t : Team) (ord : Bool) (k : Nat) : Option Nat :=
  let b := t.bar k
  let here := t.groups.filter fun g => g.live && g.arv.getLsbD k && g.aph.getLsbD k == b.phase
  (here.foldl (fun (m : Option Group) g =>
    match m with
    | none => some g
    | some h =>
      if ord then (if h.idx < g.idx then some g else some h)
      else (if h.arrSeq.getD k 0 ≤ g.arrSeq.getD k 0 then some g else some h)) none).map (·.idx)

/-- Open barrier k if its arrivals are complete (R19): the phase toggles, the arrived count returns to 0, and the group
that arrived last is noted for the predicate. -/
def Team.openBar (t : Team) (ord : Bool) (k : Nat) : Team :=
  let b := t.bar k
  if b.parts ≠ 0 ∧ b.arrived = b.parts ∧ t.seqArrived k = true then
    let win := t.lastArriver ord k
    let t := t.setBar k { b with arrived := 0, phase := !b.phase, vc := [], openVc := b.vc }
    { t with groups := t.groups.map fun g =>
        let bit : BitVec 16 := BitVec.ofNat 16 (2 ^ k)
        if some g.idx == win then { g with last := g.last ||| bit } else { g with last := g.last &&& ~~~bit } }
  else t

/-- A group leaves barrier k as it ends or is killed (R170). -/
def Team.leaveBar (t : Team) (ord : Bool) (g : Group) (k : Nat) : Team :=
  let b := t.bar k
  let here := g.arv.getLsbD k && g.aph.getLsbD k == b.phase
  (t.setBar k { b with parts := b.parts - 1, arrived := if here then b.arrived - 1 else b.arrived }).openBar ord k

/-- A long-latency word that reads or writes memory. -/
def PendOp.isMem : PendOp → Bool
  | .write _ | .tnext => false
  | _ => true

/-- A party still has an access to perform or a store to be acknowledged. -/
def Group.outstanding (g : Group) : Bool := !g.posted.isEmpty || g.la.any fun e => !e.done && e.op.isMem

/-- A group that waits in a place of a queue, or after an arrival, is at no boundary before its word. -/
def Wait.holds : Wait → Bool
  | .rclaim _ | .ctake _ _ | .nbarArr _ true | .nbarSync _ true | .mark _ _ | .check _ _ true _ | .segment _ _ | .resume _
  | .spawn _ => true
  | _ => false

/-- A failure after acceptance stops the party now: it stands at a boundary and has no replay word yet. -/
def Group.lateReady (g : Group) : Bool :=
  g.replay.isNone && (g.st == .run || g.st == .blocked) && !g.wait.holds && g.la.any fun e => e.fail.isSome

/-- A group leaves the claim and take queues. -/
def Team.leaveQueues (t : Team) (i : Nat) : Team :=
  { t with
    claims := t.claims.filter fun c => c.1 != i
    ctrs := t.ctrs.map fun c => { c with takes := c.takes.filter fun x => x.1 != i } }

/-! ### The end of a group (R168) -/

/-- Give back the chunks of a group to its part's free list (R168, R174). -/
def Team.freeChunks (t : Team) (g : Group) : Team :=
  let p := t.poolOf g.idx
  t.setPool g.idx { p with free := g.chunks.foldl (fun f c => insertSorted c f) p.free }

/-- The group ends: its chunks, barriers, tiles, drain windows and queue places are given up, its role, flags and
registers discarded (R168, R243, R246). Its continuations are discarded with it; words already accepted stay to be
performed, and their replies are discarded (R185). -/
def Team.endGroup (t : Team) (ord : Bool) (i : Nat) : Team :=
  match t.grp? i with
  | none => t
  | some g =>
    if g.st = .ended then t
    else
      let dead : Group := { g with
        st := .ended, exec := 0, pcm := 0, role := 0, sticky := 0, v := [], chunks := [], pend := []
        l := Vector.replicate 3 none, j := Vector.replicate 8 Token.free, tokVc := [], wait := .none, task := none, kill := none
        parted := []
        stop := none, replay := none, la := g.la.filter (fun e => !e.done && e.op.isMem), arv := 0, aph := 0 }
      let t := (t.setGrp dead).freeChunks g
      let t := ((List.range 16).foldl (fun t k => t.leaveBar ord g k) t).leaveQueues i
      { t with
        owner := t.owner.map fun o => if o = i then 64 else o
        dwin := t.dwin.map fun d => if d.pub && d.grp == i then { d with pub := false } else d
        conts := (t.conts.filter fun c => c.origin != i || c.g.outstanding).map fun c =>
          if c.origin = i then { c with g := { c.g with st := .ended } } else c }

/-- The marker number by which `arrivedBy` says that a group has left the count of every later marker (R353). -/
def goneMarker : Nat := 65536

/-- The end of a group in the state: its team's end of group, its continuations out of the helper queue, and in an
ordered launch out of the count of every later marker (R353). -/
def State.endGroup (s : State) (r : TeamRef) (i : Nat) : State :=
  match s.team? r, s.launch? r.launch with
  | some t, some l =>
    let gone := (t.conts.filter fun c => c.origin == i).map (·.id)
    let s := s.setTeam (t.endGroup l.pkt.ord i)
    let s := if l.pkt.ord && !r.shadow && (match t.grp? i with | some g => g.live | none => false) then
        s.modLaunch l.num fun l => { l with arrivedBy := l.arrivedBy ++ [(r, i, goneMarker)] } else s
    s.modCore (t.coreOf i) fun c => { c with helper := c.helper.filter fun h => !(h.1 == r && gone.contains h.2) }
  | _, _ => s

/-- A continuation leaves the helper core (R169): its lane arrives at the token's join and is no longer ejected, and `write`
says that its registers return to its lane. It stays, ended, while an access of it is outstanding. What it did is ordered
before the group's words once the token completes. Two points are the model's own (log 22): a register whose chunk the group has given
up since the EJECT receives nothing, and the sticky flags of a discarded continuation join the group's as those of a rejoined one do. -/
def Team.finishCont (t : Team) (n : Nat) (write : Bool) : Team :=
  match t.cont? n with
  | none => t
  | some c =>
    let t := if c.g.outstanding then t.setCont { c with g := { c.g with st := .ended } }
      else { t with conts := t.conts.filter fun k => k.id != n }
    match t.grp? c.origin with
    | none => t
    | some g =>
      let g := if write then ((List.range (8 * c.c)).filter g.mapped).foldl (fun g r => g.setV r c.lane (c.g.vreg r 0)) g else g
      let k := g.tok c.tok.val
      let m := lane1 c.lane
      let vc := VClock.join (Store.get [] g.tokVc c.tok.val) c.g.vc
      t.setGrp ({ g with sticky := g.sticky ||| c.g.sticky, tokVc := Store.set [] g.tokVc c.tok.val vc }.setTok c.tok.val
        { k with arr := k.arr ||| (m &&& k.mem), ej := k.ej &&& ~~~m })

/-- See `Team.finishCont`; the continuation leaves the helper queue. -/
def State.finishCont (s : State) (r : TeamRef) (n : Nat) (write : Bool) : State :=
  match s.team? r with
  | none => s
  | some t =>
    match t.cont? n with
    | none => s
    | some c =>
      (s.setTeam (t.finishCont n write)).modCore (t.coreOf c.origin) fun k =>
        { k with helper := k.helper.filter fun h => !(h.1 == r && h.2 == n) }

/-! ### Scopes (R184 to R187) -/

/-- Scope `a` is `b` or a descendant of it. `fuel` bounds the depth by the number of scopes. -/
def scopeIn (ss : List Scope) (b : Nat) : Nat → Nat → Bool
  | 0, _ => false
  | n + 1, a =>
    if a = b then true
    else match ss.find? fun x => x.num == a with
      | none => false
      | some x => match x.parent with | none => false | some p => scopeIn ss b n p

/-- A scope and its ancestors. -/
def scopePath (ss : List Scope) : Nat → Nat → List Scope
  | 0, _ => []
  | n + 1, a =>
    match ss.find? fun x => x.num == a with
    | none => []
    | some x => x :: (match x.parent with | none => [] | some p => scopePath ss n p)

/-- Scope `a` of a launch is `b` or a descendant of it. -/
def Launch.inScope (l : Launch) (b a : Nat) : Bool := scopeIn l.scopes b (l.scopes.length + 1) a

/-- The cancelled scope whose CANCEL came first among a scope and its ancestors: the one that counts (R187). -/
def Launch.dead (l : Launch) (scope : Nat) : Option Scope :=
  ((scopePath l.scopes (l.scopes.length + 1) scope).filter (·.cancelled)).foldl (fun m x =>
    match m with
    | none => some x
    | some y => if x.order < y.order then some x else some y) none

/-- `SCOPE` of a task record (R180). -/
def taskScope (rec : List Byte) : Nat := numAt rec 36 2
/-- `SUCC` of a task record. -/
def taskSucc (rec : List Byte) : Nat := numAt rec 28 8
/-- `PRIO` of a task record. -/
def taskPrio (rec : List Byte) : Nat := bits (numAt rec 38 2) 8 1 % 16
/-- `VERS` of a task record. -/
def taskVers (rec : List Byte) : Bool := bitAt (numAt rec 38 2) 0
/-- `AFF` of a task record. -/
def taskAff (rec : List Byte) : Bool := bitAt (numAt rec 38 2) 5

/-- The cancel scope a group answers to: its task's, or the team's (R185). -/
def Ctx.scope (c : Ctx) : Nat :=
  match c.g.task with
  | some k => taskScope k.bytes
  | none => c.t.scope

def Launch.modScope (l : Launch) (n : Nat) (f : Scope → Scope) : Launch :=
  { l with scopes := l.scopes.map fun x => if x.num = n then f x else x }

/-! ### Killing and discarding (R185, R390) -/

/-- End a group as a killed group does (R185): its version is discarded, its successor counter is not decremented, the
cancelled scope counts it. `by_` is the scope whose CANCEL kills it; `none` for the host's discard. -/
def State.killGroup (s : State) (r : TeamRef) (i : Nat) (by_ : Option Nat) : State :=
  match s.ctx? ⟨r, .grp i⟩ with
  | none => s
  | some c =>
    let vers := match c.g.task with | some k => k.vers | none => none
    let s := match vers with | some v => s.discardVersion v | none => s
    let owed := match c.g.task with | some k => (if k.vers.isNone then k.lines else 0) | none => 0
    let s := match by_ with
      | none => s
      | some sc => s.modLaunch r.launch fun l => l.modScope sc fun x =>
          { x with killed := x.killed + 1, discard := x.discard + bnat vers.isSome, owed := x.owed + owed }
    let s := match c.g.task with
      | some k => match k.place with
        | some p => s.modLaunch r.launch fun l => { l with places := l.places.filter (· != p) }
        | none => s
      | none => s
    let owing := match c.g.task with | some k => if k.vers.isNone then by_ else none | none => none
    (s.modGroup ⟨r, .grp i⟩ fun g => { g with owing := owing }).endGroup r i

/-! ### Requeue (R389) -/

/-- Put a task into a launch's queue (R342). -/
def Launch.enqueue (l : Launch) (t : Task) : Launch := { l with tasks := l.tasks ++ [t] }

/-- The lanes that run after a requeue are every live lane; tokens, pending list, latches, `PCM` and replay word are given
up (R389). The words outstanding are drained before the next word: their windows are closed (R94). -/
def Group.requeued (g : Group) (pc : Addr) : Group :=
  { g with
    exec := g.liveLanes
    pc := pc
    pcm := 0
    parted := []
    replay := none
    la := g.la.map fun e => { e with window := 0 }
    pend := []
    j := Vector.replicate 8 Token.free
    tokVc := []
    l := Vector.replicate 3 none
    wait := .none
    entry := true
    task := none
    st := .run
    stop := none
    s := g.s.setIfInBounds 1 0 }

/-- The group's versioned task goes back to its launch's queue and the group goes on at `RQPC` (R389). -/
def State.requeue (s : State) (r : GRef) (rqpc : Addr) : State :=
  match s.ctx? r with
  | none => s
  | some c =>
    let s := match c.g.task with
      | none => s
      | some k => s.modLaunch r.t.launch fun l => l.enqueue ⟨k.addr, k.bytes, taskPrio k.bytes, k.place, s.clock, false⟩
    (s.setGroup r (c.g.requeued rqpc)).modTeam r.t fun t => t.leaveQueues c.g.idx

/-! ### Taking a trap (R50, R379 to R390) -/

/-- What a cause says: its code, `INFO`, and the address of a data fault with its access kind. `event` marks a record of the
class that is not the cause's own: a PERMISSION that R383 records as an event record, and a BAD-PTE that the fetch of an
entry's target records as a data fault record (R89). -/
structure Trap where
  cause : Cause
  info : W128
  va : Addr
  akind : AKind
  event : Bool
deriving DecidableEq, Repr

/-- A cause of class E with its `INFO`. -/
def trapE (c : Cause) (info : W128) : Trap := ⟨c, info, 0, .load, false⟩

/-- A cause of an address: class D with its access kind, or class E with the address in `INFO`. -/
def trapA (c : Cause) (va : Addr) (k : AKind) : Trap := ⟨c, BitVec.ofNat 128 va.toNat, va, k, false⟩

/-- A PERMISSION of a check that concerns no address (R383): `INFO` holds the word's low bits and the failed check. -/
def trapPriv (word : Nat) (check : Nat) : Trap := ⟨.permission, info2 word check, 0, .load, true⟩

/-- A data fault record is raised: class D, but for the PERMISSIONs of R383, the BAD-PTE of an entry's fetch (R89), and the
COUNT-OVERFLOW of a counted fill (R373). -/
def Trap.isFault (t : Trap) : Bool := (t.cause.isD != t.event) || (t.cause == .countOverflow && t.akind == .fillRead)

/-- The step of a policy entry for a cause of a unit: RETRY beyond its limit and REQUEUE without a versioned task are
taken as STOP, and so is PARK for a PERMISSION of R383 (R383, R387). -/
def polStep (e : W64) (t : Trap) (tries : Nat) (versioned : Bool) : PolAct :=
  match polAct e with
  | .retry => if polLimit e ≤ tries then .stop else .retry
  | .requeue => if versioned then .requeue else .stop
  | .park => if t.event && t.cause.isD then .stop else .park
  | a => a

/-- Raise the record of a trap, what `extra` raises after it, and the POLICY-STEP record of a step other than STOP (R385, R387). -/
def State.trapRecords (s : State) (u : Unit) (ctx : Nat) (t : Trap) (pcm : Mask) (vdisc versioned : Bool)
    (act : PolAct) (extra : State → State := id) : State :=
  let seq := if t.isFault then 0 else s.nextSeq u.core
  let s := extra (if t.isFault then s.raiseFault u vdisc t.cause t.va t.akind ctx pcm versioned
    else s.raise u vdisc t.cause t.info)
  if act = .stop then s
  else s.raise u vdisc .policyStep
    (BitVec.ofNat 128 (t.cause.code + act.code * 256 + u.kind * 4096 + seq * 2 ^ 32))

/-- A unit stopped by `t` under step `act`. -/
def stopInfo (t : Trap) (act : PolAct) (vdisc : Bool) : StopInfo :=
  ⟨t.cause, act, if t.isFault || t.cause = .badPte then some t.va else none, vdisc, false, false⟩

/-- The task of a group runs as a version. -/
def Group.versioned (g : Group) : Bool := match g.task with | some k => k.vers.isSome | none => false

/-- `TRAP`: stop the party at the boundary before its current word (R50). The version of a versioned task is discarded,
the record is raised, and the policy entry's step follows (R387): the group is STOPPED or PARKED, goes on at once,
goes back to the queue (R389), or is discarded (R390). `extra` raises what follows the first record (R385); `pcAt` names the
word of a failure after acceptance (R95). R50 and R389 speak of a stop in a group: a trap in a continuation keeps the version of
its group's task, which is the model's choice (log 22). A RETRY step of a group whose version the stop discarded requeues its task and
goes on at `RQPC`, as the host's resumption would, and leaves the group STOPPED where `RQPC` is 0, which is the model's choice too
(log 22). A shadow stops under every entry (R356). -/
def State.takeTrap (s : State) (r : GRef) (t : Trap) (extra : State → State := id) (pcAt : Option Addr := none) : State :=
  match s.ctx? r with
  | none => s
  | some c =>
    let wordPc := match pcAt with | some a => a | none => c.g.pc
    let vdisc := c.g.versioned && (match r.who with | .grp _ => true | .cont _ => false)
    let e := s.polEntry c.l.pkt.policy t.cause
    let tries := match c.g.retries with | some (pc, k, n) => if pc = wordPc ∧ k = t.cause then n else 0 | none => 0
    let act := if r.t.shadow then .stop else polStep e t tries vdisc
    let s := match (if vdisc then c.g.task else none) with
      | some k => match k.vers with | some v => s.discardVersion v | none => s
      | none => s
    -- the answered requests of the word itself are given up: it asks again when it is executed again
    let s := s.modGroup r fun g => { g with la := g.la.filter fun e => !(e.done && e.window == 0 && !e.owed.isEmpty && e.fail.isNone) }
    let s := s.trapRecords { c.unit with pc := wordPc } c.l.pkt.ctx t c.g.pcm vdisc vdisc act extra
    match act with
    | .stop =>
      s.modGroup r fun g => { g with st := .stopped, wait := .none, retries := none, stop := some (stopInfo t .stop vdisc) }
    | .park =>
      s.modGroup r fun g => { g with st := .parked, wait := .none, retries := none, stop := some (stopInfo t .park vdisc) }
    | .retry =>
      let again (g : Group) : Group := { g with wait := .none, retries := some (wordPc, t.cause, tries + 1) }
      if vdisc then
        (if polRqpc e = 0 then
          s.modGroup r fun g => { g with st := .stopped, wait := .none, stop := some (stopInfo t .stop vdisc) }
         else (s.requeue r (polRqpc e)).modGroup r again)
      else s.modGroup r again
    | .requeue => s.requeue r (polRqpc e)
    | .discard =>
      match r.who with
      | .grp i => s.killGroup r.t i none
      | .cont n => s.finishCont r.t n false

/-- The waits of R176: a group in one of them is blocked. -/
def Wait.blocks : Wait → Bool
  | .rclaim _ | .ctake _ _ | .cwait _ _ | .nbarArr _ _ | .nbarWait _ | .nbarSync _ _ | .push _ _ | .pop _ _ | .resume _
  | .atake _ | .spawn _ => true
  | _ => false

/-- Whether a stopped or parked group may be resumed: a group whose version was discarded needs an `RQPC` (R389). -/
def State.canResume (s : State) (r : GRef) : Bool :=
  match s.ctx? r with
  | none => false
  | some c =>
    match c.g.stop with
    | none => false
    | some i => !i.vdisc || polRqpc (s.polEntry c.l.pkt.policy i.cause) != 0

/-- Resume a stopped or parked group or continuation (R388): it executes its replay word and then its stopped word in the
lanes absent from `PCM`; a group whose version was discarded goes back to `RQPC` instead (R389). -/
def State.resumeGroup (s : State) (r : GRef) : State :=
  match s.ctx? r with
  | none => s
  | some c =>
    match c.g.stop with
    | none => s
    | some i =>
      if i.vdisc then
        let rq := polRqpc (s.polEntry c.l.pkt.policy i.cause)
        if rq = 0 then s else s.requeue r rq
      else s.modGroup r fun g => { g with st := if g.wait.blocks then .blocked else .run, stop := none }

/-! ### Supervisor mode (R257, R258) -/

/-- Enter supervisor mode at a service entry (R257, steps 4 and 5). -/
def Group.enterSupervisor (g : Group) (next : Addr) (svbase : Nat) (code : Byte) : Group :=
  { g with
    epc := next.zeroExtend 64
    ecode := code
    priv := true
    pc := BitVec.ofNat 56 (svbase + 64 * code.toNat) }

/-- Leave supervisor mode (R258). -/
def Group.leaveSupervisor (g : Group) : Group := { g with pc := g.epc.truncate 56, priv := false }

end Sys2Proof.Machine
end

