-- ==== Sys2Proof/Machine/Mem.lean ====
section
/-! DEFINITION. Memory as the parties see it: attribute words (R41, R42), translation (R401 to R404), the L1 (R286 to R290),
accesses at the home with versions and lost lines (R291 to R295), the actions of releases and acquires (R289, R305, R309,
R313), and the race trackers of ordered mode (R351, R352). -/
namespace Sys2Proof.Machine

/-! ### Attribute words and leaves (R41, R402) -/

/-- Bits `hi` to `lo` of an entry. -/
def pteBits (p : BitVec 256) (hi lo : Nat) : Nat := bits p.toNat hi lo

/-- Bits of a page offset for a size code of R41. -/
def sizeBits (code : Nat) : Nat := if code = 0 then 16 else if code = 1 then 21 else 30

/-- `ADDR`: the frame or the next table. -/
def pteFrame (p : BitVec 256) : Nat := pteBits p 127 90 * 1024
/-- `TWBASE`. -/
def pteTwBase (p : BitVec 256) : Nat := pteBits p 191 160 * 65536
/-- Bits of the page offset of a leaf. -/
def ptePage (p : BitVec 256) : Nat := sizeBits (pteBits p 16 15)
def pteRd (p : BitVec 256) : Bool := bitAt p.toNat 17
def pteW (p : BitVec 256) : Bool := bitAt p.toNat 18
def pteX (p : BitVec 256) : Bool := bitAt p.toNat 19
def pteSup (p : BitVec 256) : Bool := bitAt p.toNat 20
def ptePin (p : BitVec 256) : Bool := bitAt p.toNat 21
def pteTier (p : BitVec 256) : Nat := pteBits p 22 22
def pteTwin (p : BitVec 256) : Bool := bitAt p.toNat 23
def pteFrozen (p : BitVec 256) : Bool := bitAt p.toNat 24
/-- Bytes of a twin element (R43). -/
def pteTwSize (p : BitVec 256) : Nat := if pteBits p 26 25 = 0 then 4 else 2
def pteTwFault (p : BitVec 256) : Bool := bitAt p.toNat 27
def pteTwTime (p : BitVec 256) : Nat := 2 ^ (10 + pteBits p 31 28)
/-- `SHARE` is SYSTEM. -/
def pteSystem (p : BitVec 256) : Bool := pteBits p 33 32 = 2
/-- The home pair of a HOMED page. -/
def pteHomed (p : BitVec 256) : Option Nat := if pteBits p 33 32 = 0 then some (pteBits p 39 34) else none
def ptePeer (p : BitVec 256) : Nat := pteBits p 47 40

/-- Capacity of the tier of a physical address (R39). -/
def tierCap (pa : Nat) : Nat := if bitAt pa 45 then Config.farTierBytes else Config.nearTierBytes

/-- `n` bytes from `pa` lie within one tier (R39). -/
def inTier (pa n : Nat) : Bool := decide (pa < 2 ^ 48) && decide (pa % 2 ^ 45 + n ≤ tierCap pa)

/-- The attribute word fails R41 or R42. -/
def attrBad (p : BitVec 256) : Bool :=
  pteBits p 63 48 != 0 || pteBits p 14 0 != 0 || pteBits p 33 32 == 3 || pteBits p 26 25 == 3 || pteBits p 16 15 == 3 ||
  (ptePeer p != 0 && !pteSystem p) || (pteBits p 39 34 != 0 && (pteHomed p).isNone) || (pteTwin p && pteFrozen p)

/-- Bytes of the twin backing of a page (R361). -/
def backingBytes (p : BitVec 256) : Nat := 16 * 2 ^ ptePage p / pteTwSize p + 2 ^ ptePage p / 32

/-- `TWBASE` fails R361, or is not 0 on a page without `TWIN` (R402). -/
def twBaseBad (p : BitVec 256) : Bool :=
  let b := pteTwBase p
  let f := pteFrame p
  if pteTwin p then
    b / 2 ^ 45 != f / 2 ^ 45 || !inTier b (backingBytes p) ||
      (decide (b < f + 2 ^ ptePage p) && decide (f < b + backingBytes p))
  else b != 0

/-- A non-zero reserved bit of an entry (R402). -/
def reservedBad (p : BitVec 256) : Bool := pteBits p 255 192 != 0 || pteBits p 159 128 != 0 || pteBits p 89 66 != 0

/-- An entry met at level `lvl` is a BAD-PTE as a leaf (R403). -/
def leafBad (p : BitVec 256) (lvl : Nat) : Bool :=
  reservedBad p || lvl == 0 || ptePage p != (if lvl = 1 then 30 else if lvl = 2 then 21 else 16) || attrBad p ||
  pteFrame p % 2 ^ ptePage p != 0 || !inTier (pteFrame p) (2 ^ ptePage p) ||
  decide (pteTier p ≠ bits (pteFrame p) 45 45) || twBaseBad p

/-- Entries of the table at each level, and its bytes (R402). -/
def tableBytes (lvl : Nat) : Nat := if lvl = 0 then 2 ^ 20 else if lvl = 3 then 2 ^ 10 else 2 ^ 14

/-- An entry met at level `lvl` is a BAD-PTE as a table (R403). -/
def tableBad (p : BitVec 256) (lvl : Nat) : Bool :=
  reservedBad p || lvl == 3 || pteBits p 63 0 != 0 || pteTwBase p != 0 || pteFrame p % tableBytes (lvl + 1) != 0 ||
  !inTier (pteFrame p) (tableBytes (lvl + 1))

/-- Index of a virtual address in the table at a level (R402). -/
def tableIndex (va lvl : Nat) : Nat :=
  if lvl = 0 then bits va 53 39 else if lvl = 1 then bits va 38 30 else if lvl = 2 then bits va 29 21 else bits va 20 16

/-! ### Lost lines (R295) -/

def State.isLost (s : State) (pa : Nat) : Bool := Store.get false s.lost (lineOf pa)

def State.setLost (s : State) (pa : Nat) (on : Bool) : State := { s with lost := Store.set false s.lost (lineOf pa) on }

/-! ### Translation -/

/-- Why a walk ends: the cause, and the table level or the lost line. -/
structure WalkErr where
  cause : Cause
  info : Nat
deriving DecidableEq, Repr

/-- The entry of a table. -/
def State.pteAt (s : State) (a : Nat) : BitVec 256 := BitVec.ofNat 256 (s.mem.num a 32)

/-- Bits of an address below the index of a level (R402). -/
def levelBits (lvl : Nat) : Nat := if lvl = 0 then 39 else if lvl = 1 then 30 else if lvl = 2 then 21 else 16

/-- A walk: the die whose walker makes it, if one does, the context, and the root. -/
structure Walker where
  die : Option Nat
  ctx : Nat
  sup : Bool
deriving DecidableEq, Repr

/-- The table entry that the walker keeps for an address at a level (R404). -/
def State.walkKept (s : State) (k : Walker) (va lvl : Nat) : Option WalkEnt :=
  k.die.bind fun d => (s.die d).walks.find? fun e =>
    e.ctx == k.ctx && e.sup == k.sup && e.lvl == lvl && e.ix == va / 2 ^ levelBits lvl

/-- Walk from the table at `base`; `n` levels remain. A table entry that the walker keeps is not read again
(R402, R403 items 1 and 2, R404). -/
def State.walkFrom (s : State) (k : Walker) (va : Nat) : Nat → Nat → Except WalkErr (BitVec 256)
  | 0, _ => .error ⟨.badPte, 3⟩
  | n + 1, base =>
    let lvl := 3 - n
    match s.walkKept k va lvl with
    | some e => State.walkFrom s k va n (pteFrame e.pte)
    | none =>
    let ea := base + 32 * tableIndex va lvl
    if s.isLost ea then .error ⟨.dataLost, lineOf ea⟩
    else
      let p := s.pteAt ea
      match pteBits p 65 64 with
      | 0 => .error ⟨.translation, lvl⟩
      | 1 => if tableBad p lvl then .error ⟨.badPte, lvl⟩ else State.walkFrom s k va n (pteFrame p)
      | 2 => if leafBad p lvl then .error ⟨.badPte, lvl⟩ else .ok p
      | _ => .error ⟨.badPte, lvl⟩

/-- The table entries that the walk from `base` reads. -/
def State.walkRead (s : State) (k : Walker) (va : Nat) : Nat → Nat → List WalkEnt
  | 0, _ => []
  | n + 1, base =>
    let lvl := 3 - n
    match s.walkKept k va lvl with
    | some e => State.walkRead s k va n (pteFrame e.pte)
    | none =>
      let ea := base + 32 * tableIndex va lvl
      let p := s.pteAt ea
      if s.isLost ea || pteBits p 65 64 != 1 || tableBad p lvl then []
      else ⟨k.ctx, k.sup, lvl, va / 2 ^ levelBits lvl, p⟩ :: State.walkRead s k va n (pteFrame p)

/-- The walker keeps the table entries of a walk; the oldest leave a full cache of 1,024 (R404; log 8). -/
def State.walkFill (s : State) (k : Walker) (va root : Nat) : State :=
  match k.die with
  | none => s
  | some d => s.modDie d fun x => { x with walks := (s.walkRead k va 4 root ++ x.walks).take 1024 }

/-- Region of an address (R34). -/
def regionOf (va : Addr) : Nat := bits va.toNat 55 54

/-- The primary address of a twin address: the twins are the addresses of region 01 (R34, R35). R35 speaks of bit 54 of every address
and R34 gives region 11 no twin: that a supervisor address is its own primary, and keeps its root, is the model's choice (log 46). -/
def primary (va : Addr) : Addr := if regionOf va = 3 then va else va &&& ~~~(BitVec.ofNat 56 (2 ^ 54))

/-- The root of a context for a region; 0 is none (R401). -/
def State.rootOf (s : State) (ctx : Nat) (sup : Bool) : Nat := Store.get 0 (if sup then s.rootS else s.rootU) ctx

/-! ### The spawn pools (R342; log 30) -/

/-- Virtual address of the spawn pools, and the bytes of each. -/
def poolVa : Nat := 0x003FFF0000000000
/-- See `poolVa`. -/
def poolBytes : Nat := 4 * 2 ^ 20

/-- Physical address of a launch's spawn pool. R342 puts the pools in the near tier of the receiving die and names no place there: the top
256 MiB, one pool for each launch number modulo 64, is the model's choice (log 30). -/
def Launch.poolPa (l : Launch) : Nat := l.die * 2 ^ 46 + (Config.nearTierBytes - 64 * poolBytes) + l.num % 64 * poolBytes

/-- A read-only DEVICE leaf of a 2 MiB page. -/
def poolPte (frame : Nat) : BitVec 256 := BitVec.ofNat 256 (frame / 1024 * 2 ^ 90 + 2 * 2 ^ 64 + 2 ^ 32 + 2 ^ 17 + 2 ^ 15)

/-- The leaf of an address of a spawn pool of a launch of the context. -/
def State.poolLeaf (s : State) (ctx : Nat) (va : Addr) : Option (BitVec 256) :=
  let o := va.toNat - poolVa
  if va.toNat < poolVa ∨ 64 * poolBytes ≤ o then none
  else (s.launches.find? fun l => l.pkt.tasks && l.pkt.ctx == ctx && l.num % 64 == o / poolBytes).map fun l =>
    poolPte (l.poolPa + o % poolBytes / 2 ^ 21 * 2 ^ 21)

/-- A walk from the root, by a die's walker or by a unit without one (R401, R404). -/
def State.walk (s : State) (die : Option Nat) (ctx : Nat) (va : Addr) : Except WalkErr (BitVec 256) :=
  match s.poolLeaf ctx va with
  | some p => .ok p
  | none =>
  let root := s.rootOf ctx (regionOf va == 3)
  if root = 0 then .error ⟨.translation, 0⟩ else s.walkFrom ⟨die, ctx, regionOf va == 3⟩ (va.toNat % 2 ^ 54) 4 root

/-- What an access asks of the page (R403 item 3). -/
structure Want where
  rd : Bool
  w : Bool
  x : Bool
  tw : Bool
  priv : Bool
  ak : AKind
deriving DecidableEq, Repr

def wantLoad (priv : Bool) (ak : AKind := .load) : Want := ⟨true, false, false, false, priv, ak⟩
def wantStore (priv : Bool) (ak : AKind := .store) : Want := ⟨false, true, false, false, priv, ak⟩
def wantAtomic (priv : Bool) : Want := ⟨true, true, false, false, priv, .atomic⟩
def wantFetch (priv : Bool) : Want := ⟨false, false, true, false, priv, .fetch⟩
/-- A twin operation: `w` for TACC and TRESET, `rd` for TCONS and TCNT (R216). -/
def wantTwin (priv : Bool) (w : Bool) : Want := ⟨!w, w, false, true, priv, .twin⟩
/-- FENCE: only the checks of privilege (R205). -/
def wantNone (priv : Bool) : Want := ⟨false, false, false, false, priv, .load⟩

/-- The permission checks (R403 item 3, R415). -/
def State.permBad (s : State) (p : BitVec 256) (va : Addr) (q : Want) : Bool :=
  ((pteSup p || regionOf va == 3) && !q.priv) || (q.rd && !pteRd p) || (q.w && !pteW p) || (q.x && !pteX p) ||
  (q.tw && !pteTwin p) || (pteSystem p && !bitAt (Store.get 0 s.peers (ptePeer p)).toNat 0)

/-- The trap of a failed walk. -/
def WalkErr.trap (e : WalkErr) (va : Addr) (ak : AKind) : Trap :=
  match e.cause with
  | .badPte => ⟨.badPte, info2 va.toNat e.info, va, ak, false⟩
  | .dataLost => trapE .dataLost (BitVec.ofNat 128 e.info)
  | c => trapA c va ak

/-- The TLB entry that serves an address (R404). -/
def CoreSt.tlbFind (c : CoreSt) (ctx : Nat) (va : Addr) : Option TlbEnt :=
  c.tlb.find? fun e => e.ctx == ctx && e.sup == (regionOf va == 3) && e.vpn == va.toNat % 2 ^ 54 / 2 ^ e.bits

/-- Entries of a TLB for a page size (R404). -/
def tlbRoom (bits : Nat) : Nat := if bits = 16 then 2048 else if bits = 21 then 512 else 64

/-- A valid leaf enters the TLB; the oldest entry of its size leaves a full one (log 8). -/
def CoreSt.tlbFill (c : CoreSt) (ctx : Nat) (va : Addr) (p : BitVec 256) : CoreSt :=
  if (c.tlbFind ctx va).isSome then c
  else
    let e : TlbEnt := ⟨ctx, regionOf va == 3, va.toNat % 2 ^ 54 / 2 ^ ptePage p, ptePage p, p⟩
    let same := c.tlb.filter fun x => x.bits == ptePage p
    let kept := if same.length < tlbRoom (ptePage p) then c.tlb
      else match same.getLast? with | some y => c.tlb.erase y | none => c.tlb
    { c with tlb := e :: kept }

/-- Translate an address for a core, or for an engine of a die without a TLB, and check the permissions (R403). -/
def State.xlat (s : State) (core : Option Nat) (ctx : Nat) (va : Addr) (q : Want) : Except Trap (BitVec 256) :=
  let found : Except WalkErr (BitVec 256) :=
    match core.bind fun c => (s.core c).tlbFind ctx va with
    | some e => .ok e.pte
    | none => s.walk (core.map dieOf) ctx va
  match found with
  | .error e => .error (e.trap va q.ak)
  | .ok p => if s.permBad p va q then .error (trapA .permission va q.ak) else .ok p

/-- The TLB and the die's walker after a translation; one that the TLB served makes no walk. -/
def State.tlbFill (s : State) (core : Option Nat) (ctx : Nat) (va : Addr) (p : BitVec 256) : State :=
  match core with
  | none => s
  | some c =>
    if ((s.core c).tlbFind ctx va).isSome || (s.poolLeaf ctx va).isSome then s.modCore c fun k => k.tlbFill ctx va p
    else
      let sup := regionOf va == 3
      (s.walkFill ⟨some (dieOf c), ctx, sup⟩ (va.toNat % 2 ^ 54) (s.rootOf ctx sup)).modCore c fun k => k.tlbFill ctx va p

/-- A walker's table entry seen as the translation of all the addresses that it serves. -/
def WalkEnt.span (e : WalkEnt) : TlbEnt := ⟨e.ctx, e.sup, e.ix, levelBits e.lvl, e.pte⟩

/-- Remove the translations that `sel` selects, and the walkers' table entries that serve them (R261, R404). -/
def State.tlbDrop (s : State) (sel : TlbEnt → Bool) : State :=
  { s with
    cores := s.cores.map fun c => { c with tlb := c.tlb.filter fun e => !sel e }
    dies := s.dies.map fun d => { d with walks := d.walks.filter fun e => !sel e.span } }

/-- Selects the translations of the address `va` in a context. -/
def tlbOfVa (ctx : Nat) (va : Addr) (e : TlbEnt) : Bool :=
  e.ctx == ctx && e.sup == (regionOf va == 3) && e.vpn == va.toNat % 2 ^ 54 / 2 ^ e.bits

/-- The physical address of `va` under its leaf. -/
def paOf (p : BitVec 256) (va : Addr) : Nat := pteFrame p + va.toNat % 2 ^ ptePage p

/-- The parts of `n` bytes from `va` by 128-byte lines. -/
def linePieces (va : Addr) (n : Nat) : List (Addr × Nat) :=
  let r := 128 - va.toNat % 128
  if n ≤ r then [(va, n)] else [(va, r), (va + BitVec.ofNat 56 r, n - r)]

/-- Translate the pieces of an access; the trap of the first that fails. -/
def State.xlatParts (s : State) (core : Option Nat) (ctx : Nat) (q : Want) :
    List (Addr × Nat) → Except Trap (List Piece) × State
  | [] => (.ok [], s)
  | (va, n) :: r =>
    match s.xlat core ctx va q with
    | .error t => (.error t, s)
    | .ok p =>
      match (s.tlbFill core ctx va p).xlatParts core ctx q r with
      | (.error t, s') => (.error t, s')
      | (.ok ps, s') => (.ok (⟨va, paOf p va, n, p⟩ :: ps), s')

/-- Translate an access of `n` bytes at `va`. -/
def State.xlatPieces (s : State) (core : Option Nat) (ctx : Nat) (q : Want) (va : Addr) (n : Nat) :
    Except Trap (List Piece) × State := s.xlatParts core ctx q (linePieces va n)

/-! ### The L1 (R286 to R290) -/

/-- The core whose L1 holds a line for `core`: in a fused pair the even one where bits 7 and 12 of its address differ, else the odd
one (R290). -/
def State.l1Core (s : State) (core line : Nat) : Nat :=
  if (s.core core).fused then core / 2 * 2 + (if bitAt line 7 == bitAt line 12 then 1 else 0) else core

/-- The cores whose L1s serve `core`: both of a fused pair (R290). -/
def State.l1Cores (s : State) (core : Nat) : List Nat :=
  if (s.core core).fused then [core / 2 * 2, core / 2 * 2 + 1] else [core]

/-- Write the dirty words of a line to its home. -/
def L1Line.writeBack (x : L1Line) (m : Memory) : Memory :=
  (List.range 32).foldl (fun m w =>
    if x.dirty.getLsbD w then m.write (x.line + 4 * w) (bytesOf 4 (x.words.getD w 0).toNat) else m) m

/-- The lines of the L1 at core `k` that `sel` selects write their dirty words back under their masks; a whole dirty line clears a
lost mark (R287, R295). -/
def State.l1CleanAt (s : State) (k : Nat) (sel : L1Line → Bool) : State :=
  let hit : List L1Line := (s.core k).l1.filter fun x => sel x && x.dirty != 0
  let mem := hit.foldl (fun m x => L1Line.writeBack x m) s.mem
  let lost := hit.foldl (fun m x => if x.dirty = BitVec.allOnes 32 then Store.set false m x.line false else m) s.lost
  ({ s with mem := mem, lost := lost }).modCore k fun c => { c with l1 := c.l1.map fun x => if sel x then { x with dirty := 0 } else x }

/-- See `State.l1CleanAt`; in every L1 that serves `core`. -/
def State.l1Clean (s : State) (core : Nat) (sel : L1Line → Bool) : State := (s.l1Cores core).foldl (fun s k => s.l1CleanAt k sel) s

/-- The words of a line whose value its home no longer holds. -/
def L1Line.stale (x : L1Line) (m : Memory) : W32 :=
  (List.range 32).foldl (fun y w =>
    if (x.words.getD w 0).toNat = m.num (x.line + 4 * w) 4 then y else y ||| BitVec.ofNat 32 (2 ^ w)) 0

/-- In the L1 at core `k` every valid word of the selected lines that is not dirty becomes invalid (R289), and so does, of the other
lines, a word that is not dirty and whose home holds another value (R308; log 43). -/
def State.l1Inval (s : State) (k : Nat) (sel : L1Line → Bool) : State :=
  let keep (x : L1Line) : W32 := if sel x then x.dirty else x.dirty ||| (x.valid &&& ~~~x.stale s.mem)
  s.modCore k fun c => { c with l1 := (c.l1.map fun x => { x with valid := keep x }).filter fun x => x.valid != 0 }

/-- Write the selected lines of the L1 at core `k` back and remove them. -/
def State.l1DropAt (s : State) (k : Nat) (sel : L1Line → Bool) : State :=
  (s.l1CleanAt k sel).modCore k fun c => { c with l1 := c.l1.filter fun x => !sel x }

/-- See `State.l1DropAt`; in every L1 that serves `core`. -/
def State.l1Drop (s : State) (core : Nat) (sel : L1Line → Bool) : State := (s.l1Cores core).foldl (fun s k => s.l1DropAt k sel) s

/-- Selects one line. -/
def lineIs (line : Nat) (x : L1Line) : Bool := x.line == line

def CoreSt.l1Find (c : CoreSt) (line : Nat) : Option L1Line := c.l1.find? (lineIs line)

/-- An empty line for a piece. -/
def L1Line.ofPiece (x : Piece) : L1Line :=
  ⟨lineOf x.pa, 0, 0, Vector.replicate 32 0, pteHomed x.pte, pteFrame x.pte⟩

/-- Put a line into an L1, in place of the one with its address. -/
def CoreSt.l1Put (c : CoreSt) (x : L1Line) : CoreSt :=
  if (c.l1Find x.line).isSome then { c with l1 := replaceFirst (lineIs x.line) x c.l1 } else { c with l1 := x :: c.l1 }

/-- Lines that the L1 at core `k` holds: those of the spans that the partition leaves (R286, R296). -/
def State.l1Room (s : State) (k : Nat) : Nat :=
  let c := s.core k
  (160 - c.ps - c.pg) * 128

/-- A line enters the L1 at core `k`; the line that entered first leaves a full one, with its dirty words written back (R287;
log 7). -/
def State.l1Put (s : State) (k : Nat) (x : L1Line) : State :=
  let c := s.core k
  let s := if (c.l1Find x.line).isSome || decide (c.l1.length < s.l1Room k) then s
    else match c.l1.getLast? with
      | some y => s.l1DropAt k (lineIs y.line)
      | none => s
  s.modCore k fun c => c.l1Put x

/-- Words of a line as a mask. -/
def wordMask (ws : List Nat) : W32 := ws.foldl (fun m w => m ||| BitVec.ofNat 32 (2 ^ w)) 0

/-- Remove words of a line from the L1 that serves `core`: the dirty ones among them are written back first (R285, R288). -/
def State.l1Remove (s : State) (core line : Nat) (ws : List Nat) : State :=
  let k := s.l1Core core line
  match (s.core k).l1Find line with
  | none => s
  | some x =>
    let m := wordMask ws
    let mem := L1Line.writeBack { x with dirty := x.dirty &&& m } s.mem
    let rest : L1Line := { x with valid := x.valid &&& ~~~m, dirty := x.dirty &&& ~~~m }
    State.modCore { s with mem := mem } k fun c =>
      { c with l1 := (replaceFirst (lineIs line) rest c.l1).filter fun y => y.valid != 0 }

/-- An L1 may hold the line of a piece: its address lies in region 00 (R286). -/
def Piece.cached (x : Piece) : Bool := regionOf x.va == 0

/-- The words that `n` bytes from `pa` touch. -/
def wordsOf (pa n : Nat) : List Nat :=
  (List.range 32).filter fun w => decide (pa % 128 < 4 * w + 4) && decide (4 * w < pa % 128 + n)

/-- A merging fill: the invalid words of the line come from its home (R287). -/
def L1Line.fill (x : L1Line) (m : Memory) : L1Line :=
  { x with
    valid := BitVec.allOnes 32
    words := Vector.ofFn fun w : Fin 32 =>
      if x.valid.getLsbD w.val then x.words.getD w.val 0 else BitVec.ofNat 32 (m.num (x.line + 4 * w.val) 4) }

/-- A byte of a line. -/
def L1Line.byte (x : L1Line) (o : Nat) : Byte := BitVec.ofNat 8 ((x.words.getD (o / 4) 0).toNat / 256 ^ (o % 4))

/-- Replace the bytes from offset `o` of a line. -/
def L1Line.putBytes (x : L1Line) (o : Nat) (b : List Byte) : L1Line :=
  (b.zipIdx).foldl (fun x e =>
    let i := o + e.2
    let w := (x.words.getD (i / 4) 0).toNat
    let old := w / 256 ^ (i % 4) % 256
    let y : W32 := BitVec.ofNat 32 (w + e.1.toNat * 256 ^ (i % 4) - old * 256 ^ (i % 4))
    { x with words := x.words.setIfInBounds (i / 4) y }) x

/-- Mark words valid and dirty. -/
def L1Line.dirtied (x : L1Line) (ws : List Nat) : L1Line :=
  ws.foldl (fun x w =>
    let b : W32 := BitVec.ofNat 32 (2 ^ w)
    { x with valid := x.valid ||| b, dirty := x.dirty ||| b }) x

/-! ### Releases and acquires in the L1 (R289, R300, R305, R309, R313) -/

/-- A release at device scope: every dirty word is written back. -/
def State.releaseDev (s : State) (core : Nat) : State := s.l1Clean core fun _ => true

/-- A release of a party of `core` at the scope of a page: no action on a fused L1 that the page's pair shares (R289, R300,
R308; log 43). -/
def State.release (s : State) (core : Nat) (pte : BitVec 256) : State :=
  match pteHomed pte with
  | some n => if core / 2 = n ∧ (s.core core).fused = true then s else s.releaseDev core
  | none => s.releaseDev core

/-- An acquire at device scope of a party of `core`, after the acquiring read: it takes the DEVICE lines (R289; log 43). -/
def State.acquireDev (s : State) (core : Nat) : State :=
  (s.l1Cores core).foldl (fun s k => s.l1Inval k fun x => x.homed.isNone) s

/-- An acquire of a party of `core` at the scope of a page (R289, R300): the HOMED lines of its pair at home-pair scope, with no action
on a fused L1 that the page's pair shares, and else the DEVICE lines; a party outside the pair of a HOMED page takes that page's
lines as DEVICE lines (R300, R309; log 43). -/
def State.acquire (s : State) (core : Nat) (pte : BitVec 256) : State :=
  match pteHomed pte with
  | some n =>
    if core / 2 = n then
      (if (s.core core).fused then s else s.l1Inval core fun x => x.homed == some n)
    else (s.l1Cores core).foldl (fun s k => s.l1Inval k fun x => x.homed.isNone || x.homed == some n) s
  | none => s.acquireDev core

/-- The promotion that an acquire on a HOMED page by a party outside its pair asks for: both cores of the pair write the
page's dirty words back (R291, R309). -/
def State.promote (s : State) (core : Nat) (pte : BitVec 256) : State :=
  match pteHomed pte with
  | some n =>
    if core / 2 = n then s
    else
      let sel (x : L1Line) : Bool := x.page == pteFrame pte
      (s.l1Clean (2 * n) sel).l1Clean (2 * n + 1) sel
  | none => s

/-- A team-scope release: it acts on the L1 only for a team on a pair without fusion (R313). -/
def State.releaseTeam (s : State) (t : Team) (core : Nat) : State :=
  if t.pair && !(s.core core).fused then s.releaseDev core else s

/-- A team-scope acquire (R313). -/
def State.acquireTeam (s : State) (t : Team) (core : Nat) : State :=
  if t.pair && !(s.core core).fused then s.acquireDev core else s

/-! ### Versions (R292) -/

/-- `old` combined with `c` by an atomic operation on `bits`-bit values; `new` is the second operand of `.cas` (R202). -/
def atomNew (op : AtomOp) (n : Nat) (old c new : Nat) : Nat :=
  match op with
  | .add => (old + c) % 2 ^ n
  | .fadd => round FP32 .rne ((f32 old).add false (f32 c))
  | .minI => if sext c n < sext old n then c else old
  | .minN => min old c
  | .maxI => if sext old n < sext c n then c else old
  | .maxN | .maxkey => max old c
  | .and => old &&& c
  | .or => old ||| c
  | .xor => old ^^^ c
  | .exch => c
  | .cas => if old = c then new else old

/-- The view of the word at `pa` (a multiple of 4) of a party that runs in version `v`, or of any other party. -/
def State.wordView (s : State) (v : Option Nat) (pa : Nat) : W32 :=
  let old : W32 := BitVec.ofNat 32 (s.mem.num pa 4)
  match v.bind s.version? with
  | none => old
  | some x =>
    match Store.get none x.words pa with
    | none => old
    | some (.value y) => y
    | some (.operand op y) => BitVec.ofNat 32 (atomNew op 32 old.toNat y.toNat 0)
    | some (.wide op y) => BitVec.ofNat 32 (atomNew op 64 (s.mem.num pa 8) y.toNat 0)
    | some .high =>
      match Store.get none x.words (pa - 4) with
      | some (.wide op y) => BitVec.ofNat 32 (atomNew op 64 (s.mem.num (pa - 4) 8) y.toNat 0 / 2 ^ 32)
      | _ => old

/-- Change a version. -/
def State.modVersion (s : State) (n : Nat) (f : Version → Version) : State :=
  { s with versions := s.versions.map fun v => if v.id = n then f v else v }

/-- Make a version hold the words at `ws` as values in its view; the other word of a 64-bit operand goes with it (R292). -/
def State.settleWords (s : State) (n : Nat) (ws : List Nat) : State :=
  let hold (s : State) (w : Nat) : State :=
    let y := s.wordView (some n) w
    s.modVersion n fun x => { x with words := Store.set none x.words w (some (.value y)) }
  ws.foldl (fun s w =>
    match (s.version? n).bind fun x => Store.get none x.words w with
    | some (.wide _ _) => hold (hold s (w + 4)) w
    | some .high => hold (hold s w) (w - 4)
    | _ => hold s w) s

/-- Bytes read at the home (R291, R292). -/
def State.homeRead (s : State) (v : Option Nat) (pa n : Nat) : List Byte :=
  match v with
  | none => s.mem.read pa n
  | some _ => (List.range n).map fun i =>
    BitVec.ofNat 8 ((s.wordView v ((pa + i) / 4 * 4)).toNat / 256 ^ ((pa + i) % 4))

/-- Bytes written at the home: into memory, where a write of a whole line clears its lost mark, or into a version as whole
words (R292, R295). -/
def State.homeWrite (s : State) (v : Option Nat) (pa : Nat) (b : List Byte) : State :=
  match v with
  | none =>
    let s := { s with mem := s.mem.write pa b }
    if pa % 128 = 0 ∧ b.length = 128 then s.setLost pa false else s
  | some n =>
    let s := s.settleWords n ((wordsOf pa b.length).map fun w => lineOf pa + 4 * w)
    (b.zipIdx).foldl (fun s e =>
      let a := pa + e.2
      let w := (s.wordView v (a / 4 * 4)).toNat
      let old := w / 256 ^ (a % 4) % 256
      let y : W32 := BitVec.ofNat 32 (w + e.1.toNat * 256 ^ (a % 4) - old * 256 ^ (a % 4))
      s.modVersion n fun x => { x with words := Store.set none x.words (a / 4 * 4) (some (.value y)) }) s

/-- The slice of a physical address (R40). -/
def sliceOf (pa : Nat) : Nat × Nat :=
  (bits pa 47 46, bits pa 11 7 ^^^ bits pa 16 12 ^^^ bits pa 21 17 ^^^ bits pa 26 22 ^^^ bits pa 31 27 ^^^
    bits pa 36 32 ^^^ bits pa 41 37 ^^^ bits pa 45 42)

/-- The slice of an address as one number (log 25). -/
def sliceNo (pa : Nat) : Nat := 32 * (sliceOf pa).1 + (sliceOf pa).2

/-! ### Die boundaries (R406, R408) -/

/-- The boundaries that traffic from die `a` to die `b` crosses, of 0–1, 2–3, 0–2 and 1–3: it changes bit 0 first, then bit 1 (R406). -/
def route (a b : Nat) : List Nat :=
  (if a % 2 = b % 2 then [] else [a / 2 % 2]) ++ if a / 2 % 2 = b / 2 % 2 then [] else [2 + b % 2]

/-- A boundary holds its traffic: a flit has failed after 1,024 replays (R408). -/
def State.held (s : State) (b : Nat) : Bool := decide (1024 ≤ s.replays.getD b 0)

/-- A held boundary lies on the way from die `a` to die `b`, or back. -/
def State.cut (s : State) (a b : Nat) : Bool := (route a b ++ route b a).any s.held

/-- The home of a physical address cannot be reached from a core. -/
def State.far (s : State) (core pa : Nat) : Bool := s.cut (dieOf core) (sliceOf pa).1

/-- Traffic has crossed boundaries: the flit that each was sending has arrived (R408). -/
def State.crossed (s : State) (bs : List Nat) : State :=
  if s.replays.all (· == 0) then s else { s with replays := bs.foldl (fun v b => v.setIfInBounds b 0) s.replays }

/-- Clocks that a versioned write may wait for a version line (R293). -/
def versionClocks : Nat := 2 ^ 20

/-- The lines that a version holds, for their words or their twin changes. -/
def Version.lineList (v : Version) : List Nat :=
  ((v.words.map fun e => lineOf e.1) ++ v.lines.map (·.line)).eraseDups

/-- The lines that an error of a version can meet: those of its words and twin changes, and those of the headers and accumulators
that it changes (R8, R295). -/
def Version.errorLines (v : Version) : List Nat :=
  v.lineList ++ (v.lines.map fun l => lineOf l.hdr :: l.accs.map fun e => lineOf e.1).flatten

/-- A version holds words of a line as values. -/
def Version.holds (v : Version) (line : Nat) (ws : List Nat) : Bool :=
  ws.all fun w => match Store.get none v.words (line + 4 * w) with | some (.value _) => true | _ => false

/-- An access of a party of version `v` to words of a line meets the mark of a lost line; words that the version holds as
values do not come from the line (R295). -/
def State.lostFor (s : State) (v : Option Nat) (line : Nat) (ws : List Nat) : Bool :=
  s.isLost line && match v.bind s.version? with
    | some x => !x.holds line ws
    | none => true

/-- The slice that holds the line of `pa` has no version line left for version `n` (R293). -/
def State.sliceFull (s : State) (n : Nat) (pa : Nat) : Bool :=
  let mine := match s.version? n with | some v => v.lineList.contains (lineOf pa) | none => true
  if mine then false
  else decide (8192 ≤ ((s.versions.map fun v => v.lineList.filter fun l => sliceOf l == sliceOf pa).flatten).length)

/-- A slice has no version line left for one of the lines at `pas`, where each line that the version does not hold yet needs one (R293). -/
def State.linesFull (s : State) (n : Nat) (pas : List Nat) : Bool :=
  match s.version? n with
  | none => false
  | some v =>
    let new := ((pas.map lineOf).eraseDups).filter fun l => !v.lineList.contains l
    let held := (s.versions.map (·.lineList)).flatten
    new.any fun l =>
      decide (8192 < (held.filter fun k => sliceOf k == sliceOf l).length + (new.filter fun k => sliceOf k == sliceOf l).length)

/-- A piece that a version writes and has no line left for, where each new line needs one (R293). -/
def State.versionWaits (s : State) (v : Option Nat) (ps : List Piece) : Option Piece :=
  v.bind fun n => if s.linesFull n (ps.map (·.pa)) then (ps.find? fun x => s.sliceFull n x.pa).or ps.getLast? else none

/-- The words of committed memory that a version commits (R292). -/
def Version.commitWords (v : Version) (m : Memory) : Memory :=
  v.words.foldl (fun m e =>
    match e.2 with
    | some (.value x) => m.write e.1 (bytesOf 4 x.toNat)
    | some (.operand op x) => m.write e.1 (bytesOf 4 (atomNew op 32 (m.num e.1 4) x.toNat 0))
    | some (.wide op x) => m.write e.1 (bytesOf 8 (atomNew op 64 (m.num e.1 8) x.toNat 0))
    | some .high => m
    | none => m) m

/-! ### The race trackers (R351, R352) -/

/-- A party's access at a home: who makes it, and the tags fixed at its issue. -/
structure Pty where
  core : Nat
  launch : Nat
  team : TeamRef
  /-- Its accesses are tracked: a party of an ordered launch that is no shadow. -/
  ord : Bool
  vers : Option Nat
  tag : AccTag
  vc : VClock
deriving DecidableEq, Repr

/-- An earlier access comes before a party's access in the order of R351; a sequencer takes no part in the order of markers. -/
def AccTag.before (a : AccTag) (p : Pty) : Bool :=
  (a.team == p.tag.team && a.party == p.tag.party) ||
  (a.epoch != p.tag.epoch && a.party != seqParty && p.tag.party != seqParty) ||
  (a.team == p.tag.team && decide (a.tick ≤ Store.get 0 p.vc a.party))

/-- The tracked spaces: global words by physical address, scratchpad offsets and aperture registers of a team. -/
inductive Space where
  | glob
  | spad (team : Nat)
  | aper (team : Nat)
deriving DecidableEq, Repr

/-- The key of a word of a space. -/
def Space.key (sp : Space) (word : Nat) : Nat :=
  match sp with
  | .glob => word
  | .spad t => 2 ^ 64 * (2 * t + 1) + word
  | .aper t => 2 ^ 64 * (2 * t + 2) + word

/-- An untouched word. -/
def Track.none : Track := ⟨[], []⟩

/-- The earlier access that races a read or write of kind `kind` (R351). -/
def Track.racer (t : Track) (p : Pty) (write : Bool) (kind : Nat) : Option AccTag :=
  let bad (a : AccTag) : Bool := !a.before p && !(2 ≤ kind && a.kind == kind) && !(kind == 1 && a.kind == 1)
  (t.writes.find? bad).or (if write then t.reads.find? bad else .none)

/-- The word after the access. It stands for the accesses ordered before it: an ordinary one for all of them, one that does not conflict
with others of its kind for those of its kind alone (R351, R352). -/
def Track.note (t : Track) (p : Pty) (write : Bool) (kind : Nat) : Track :=
  let me := { p.tag with kind := kind }
  let kept (a : AccTag) : Bool := !(a.before p && (kind == 0 || a.kind == kind))
  if write then ⟨me :: t.writes.filter kept, t.reads.filter kept⟩
  else ⟨t.writes, me :: t.reads.filter kept⟩

/-- The key of `Launch.adds` for a tracked word and a team. -/
def addKey (k team : Nat) : Nat := 2 ^ 32 * k + team

/-- An access to `n` bytes at `a` of a space: the party it races with, or the trackers after it. A write other than a value-free
32-bit `.add` makes its words uncounted, and such an `.add` releases to the counted WAITFs of its team on the word (R350, R351). -/
def State.track (s : State) (p : Pty) (sp : Space) (a n : Nat) (write : Bool) (kind : Nat) : Option AccTag × State :=
  if !p.ord then (.none, s)
  else match s.launch? p.launch with
    | none => (.none, s)
    | some l =>
      let keys := (List.range ((a + n - 1) / 4 - a / 4 + 1)).map fun i => sp.key (a / 4 + i)
      let here := keys.map fun k => (k, Store.get Track.none l.track k)
      match here.findSome? fun e => e.2.racer p write kind with
      | some o => (some o, s)
      | none => (.none, s.setLaunch { l with
          track := here.foldl (fun m e => Store.set Track.none m e.1 (e.2.note p write kind)) l.track
          uncounted := if write && !(kind == 2 && n == 4) then keys.foldl (fun m k => Store.set false m k true) l.uncounted
            else l.uncounted
          adds := if write && kind == 2 && n == 4 then keys.foldl (fun m k =>
              let i := addKey k p.tag.team
              Store.set [] m i (VClock.join (Store.get [] m i) (Store.set 0 p.vc p.tag.party p.tag.tick))) l.adds
            else l.adds })

/-- An access to a page of this device: those of regions 00 and 01 are tracked (R351). -/
def State.trackPiece (s : State) (p : Pty) (x : Piece) (write : Bool) (kind : Nat) : Option AccTag × State :=
  if regionOf x.va = 3 then (.none, s) else s.track p .glob x.pa x.n write kind

/-- The two records of ORDER-RACE (R385): the trap, and what follows its record. -/
def raceTrap (va : Addr) (o : AccTag) : Trap := trapE .orderRace (info2 va.toNat o.pc.toNat)

/-- The second record of ORDER-RACE. -/
def raceSecond (u : Unit) (o : AccTag) (epoch : Nat) (s : State) : State :=
  s.raise u false .orderRace
    (BitVec.ofNat 128 (o.team + o.party * 2 ^ 32 + o.epoch % 2 ^ 24 * 2 ^ 48 + epoch % 2 ^ 24 * 2 ^ 72 + 2 ^ 127))

/-! ### Loads and stores of a piece (R287, R288, R292) -/

/-- Why a home does not perform an access. -/
inductive HomeErr where
  | lost (line : Nat)
  | race (o : AccTag)
deriving DecidableEq, Repr

/-- The trap of a failed access at the home. -/
def HomeErr.trap (e : HomeErr) (va : Addr) : Trap :=
  match e with
  | .lost l => trapE .dataLost (BitVec.ofNat 128 l)
  | .race o => raceTrap va o

/-- Read a piece. `home` asks for the home's value: an acquire, a counted load (R288, R312). Dirty words of the line in the
party's own L1 are then written back first, and the words read leave it, so that no later load reads an older value there (R288,
R302). -/
def State.loadPiece (s : State) (p : Pty) (x : Piece) (home : Bool) : Except HomeErr (List Byte) × State :=
  match s.trackPiece p x false 0 with
  | (some o, s) => (.error (.race o), s)
  | (none, s) =>
    let line := lineOf x.pa
    if s.lostFor p.vers line (wordsOf x.pa x.n) then (.error (.lost line), s)
    else if home || p.vers.isSome || !x.cached then
      let s := (s.l1Clean p.core (lineIs line)).l1Remove p.core line (wordsOf x.pa x.n)
      (.ok (s.homeRead p.vers x.pa x.n), s)
    else
      let k := s.l1Core p.core line
      let e := ((s.core k).l1Find line).getD (L1Line.ofPiece x)
      let hit := (wordsOf x.pa x.n).all fun w => e.valid.getLsbD w
      let e := if hit then e else e.fill s.mem
      let s := if hit then s else s.l1Put k e
      (.ok ((List.range x.n).map fun i => e.byte (x.pa % 128 + i)), s)

/-- The store is 4 bytes or wider and aligned, so that it writes whole words (R287, R192). -/
def wholeWords (pa n : Nat) : Bool := pa % 4 == 0 && n % 4 == 0

/-- Write a piece: into the L1, into the home's bytes, or into the version. `whole` says that the line is written whole by
the word that stores, so that a lost mark does not stop it (R295). -/
def State.storePiece (s : State) (p : Pty) (x : Piece) (b : List Byte) (whole : Bool) : Except HomeErr PUnit.{1} × State :=
  match s.trackPiece p x true 0 with
  | (some o, s) => (.error (.race o), s)
  | (none, s) =>
    let line := lineOf x.pa
    let k := s.l1Core p.core line
    let ok : Except HomeErr PUnit.{1} := .ok ⟨⟩
    let e := ((s.core k).l1Find line).getD (L1Line.ofPiece x)
    let ws := wordsOf x.pa x.n
    if !whole && s.lostFor p.vers line ws then (.error (.lost line), s)
    else match p.vers with
    | some _ => (ok, (s.l1Remove p.core line ws).homeWrite p.vers x.pa b)
    | none =>
      let s := if whole then s.setLost line false else s
      if !x.cached then (ok, (s.l1Remove p.core line ws).homeWrite none x.pa b)
      else if wholeWords x.pa x.n || ws.all fun w => e.valid.getLsbD w then
        (ok, s.l1Put k ((e.putBytes (x.pa % 128) b).dirtied ws))
      else
        -- words valid in the L1 take their bytes there; the others go to the home (R287)
        let e := if (ws.any fun w => e.valid.getLsbD w) then
            (e.putBytes (x.pa % 128) b).dirtied (ws.filter fun w => e.valid.getLsbD w) else e
        let s := if e.valid = 0 then s else s.l1Put k e
        let s := { s with mem := (b.zipIdx).foldl (fun m y =>
          if e.valid.getLsbD ((x.pa + y.2) % 128 / 4) then m else m.write (x.pa + y.2) [y.1]) s.mem }
        (ok, s)

/-- Two atomics are the same operation: `.maxkey` and `.max` of an unsigned type are one (R202). -/
def sameOp (a b : AtomOp) : Bool := a == b || ((a == .maxN || a == .maxkey) && (b == .maxN || b == .maxkey))

/-- The words that hold a value-free atomic of `op` as an operand, if the words it touches were touched with nothing else
(R292). -/
def Version.operandAfter (v : Version) (pa n : Nat) (op : AtomOp) (c : Nat) : Option (List (Nat × VWord)) :=
  let lo := Store.get none v.words pa
  if n = 4 then
    match lo with
    | none => some [(pa, .operand op (BitVec.ofNat 32 c))]
    | some (.operand o y) =>
      if sameOp o op then some [(pa, .operand op (BitVec.ofNat 32 (atomNew op 32 y.toNat c 0)))] else none
    | _ => none
  else
    match lo, Store.get none v.words (pa + 4) with
    | none, none => some [(pa, .wide op (BitVec.ofNat 64 c)), (pa + 4, .high)]
    | some (.wide o y), _ => if sameOp o op then some [(pa, .wide op (BitVec.ofNat 64 (atomNew op 64 y.toNat c 0)))] else none
    | _, _ => none

/-- The tracking kind of an atomic (R352): value-free ones of one operation do not race. -/
def atomKind (op : AtomOp) (free : Bool) : Nat :=
  if free then
    match op with
    | .add => 2 | .minI => 4 | .minN => 5 | .maxI => 6 | .maxN | .maxkey => 7 | .and => 8 | .or => 9 | .xor => 10
    | .fadd | .exch | .cas => 0
  else 0

/-- One atomic at its home (R203, R288, R292): the value that the operation leaves; its old value is returned. -/
def State.atomPiece (s : State) (p : Pty) (x : Piece) (op : AtomOp) (c new : Nat) (free : Bool) :
    Except HomeErr Nat × State :=
  let kind := atomKind op free
  match s.trackPiece p x true kind with
  | (some o, s) => (.error (.race o), s)
  | (none, s) =>
    let line := lineOf x.pa
    let s := s.l1Drop p.core (lineIs line)
    if s.lostFor p.vers line (wordsOf x.pa x.n) then (.error (.lost line), s)
    else
      let old := natOf (s.homeRead p.vers x.pa x.n)
      let res := atomNew op (8 * x.n) old c new
      match p.vers with
      | none => (.ok old, s.homeWrite none x.pa (bytesOf x.n res))
      | some v =>
        match (if kind = 0 then none else (s.version? v).bind fun y => y.operandAfter x.pa x.n op c) with
        | some ws =>
          (.ok old, s.modVersion v fun y =>
            { y with words := ws.foldl (fun m e => Store.set none m e.1 (some e.2)) y.words })
        | none => (.ok old, s.homeWrite (some v) x.pa (bytesOf x.n res))

end Sys2Proof.Machine
end

