-- ==== Sys2Proof/Machine/Spad.lean ====
section
/-! DEFINITION. The scratchpad: orientation (R200), full/empty bits (R201, R280), local addresses (R36, R199), the windows that
cover it and the start of their copies (R209, R283). -/
namespace Sys2Proof.Machine

/-- Lines of a span. -/
def spanBytes : Nat := 16384

/-- The row offset that an offset names in an orientation, for elements of `e` bytes (R200). -/
def rowOff (col : Bool) (e o : Nat) : Nat :=
  if col then
    let n := 128 / e
    let p := o % spanBytes
    let q := p / 128
    o / spanBytes * spanBytes + (q / n * n + p % 128 / e) * 128 + q % n * e + p % e
  else o

def Team.spadByte (t : Team) (o : Nat) : Byte := Store.get 0 t.spad o

/-- `n` bytes of the scratchpad from row offset `o`. -/
def Team.spadRead (t : Team) (o : Nat) : Nat → List Byte
  | 0 => []
  | n + 1 => t.spadByte o :: Team.spadRead t (o + 1) n

/-- Write bytes of the scratchpad from row offset `o`. -/
def Team.spadWrite (t : Team) (o : Nat) (b : List Byte) : Team := { t with spad := Store.setMany 0 t.spad o b }

/-- The full/empty bit of the line at a row offset (R280). -/
def Team.isFull (t : Team) (o : Nat) : Bool := Store.get false t.full (o / 128)

/-- An access that needs the line at a row offset full may be served: the line was full when the clock began (R281). -/
def Team.serves (t : Team) (o : Nat) : Bool := t.isFull o && !Store.get false t.newFull (o / 128)

/-- Mark the line at a row offset full; `vc` is what the marking releases where a fill or drain made it (R351). A line that was
empty serves its waiters from the next clock on (R281). -/
def Team.markFull (t : Team) (o : Nat) (vc : VClock) : Team :=
  { t with
    full := Store.set false t.full (o / 128) true
    newFull := if t.isFull o then t.newFull else Store.set false t.newFull (o / 128) true
    fullVc := Store.set [] t.fullVc (o / 128) vc
    filled := Store.set false t.filled (o / 128) false }

/-- Mark `n` lines from the line at `o` empty. -/
def Team.markEmpty (t : Team) (o n : Nat) : Team :=
  { t with
    full := Store.clear false t.full (o / 128) n
    newFull := Store.clear false t.newFull (o / 128) n
    fullVc := Store.clear [] t.fullVc (o / 128) n
    filled := Store.clear false t.filled (o / 128) n }

/-! ### Lost lines (R295) -/

/-- The line at a row offset is lost to an uncorrectable error of its span. -/
def Team.spadLost (t : Team) (o : Nat) : Bool := Store.get false t.spLost (o / 128)

/-- The first lost line among those at row offsets. -/
def Team.lostAmong (t : Team) (os : List Nat) : Option Nat := (os.find? t.spadLost).map lineOf

/-- The line at a row offset has been stored whole. -/
def Team.spadWhole (t : Team) (o : Nat) : Team := { t with spLost := Store.set false t.spLost (o / 128) false }

/-- The row lines that runs of bytes touch. -/
def runLines (runs : List (Nat × Nat)) : List Nat :=
  (runs.flatMap fun e => (List.range ((e.1 + e.2 - 1) / 128 + 1 - e.1 / 128)).map fun i => lineOf e.1 + 128 * i).eraseDups

/-- Disjoint runs write every byte of the line at `l`. -/
def runsCover (runs : List (Nat × Nat)) (l : Nat) : Bool :=
  decide (128 ≤ (runs.map fun e => min (e.1 + e.2) (l + 128) - max e.1 l).foldl (· + ·) 0)

/-- The first lost line that runs of bytes write in part. -/
def Team.lostWrite (t : Team) (runs : List (Nat × Nat)) : Option Nat :=
  (runLines runs).find? fun l => t.spadLost l && !runsCover runs l

/-- The lines that runs of bytes write whole are lost no more. -/
def Team.wholeWrite (t : Team) (runs : List (Nat × Nat)) : Team :=
  ((runLines runs).filter (runsCover runs)).foldl Team.spadWhole t

/-- Bytes of a window's range (R210). -/
def WinDesc.range (d : WinDesc) : Nat := d.rows * d.pitch

/-- The bound window whose range holds a row offset. -/
def Team.winAt (t : Team) (o : Nat) : Option Nat :=
  (List.range 32).find? fun k =>
    let w := t.win k
    w.st != .unbound && (match w.desc with
      | some d => decide (d.spoff ≤ o) && decide (o < d.spoff + d.range)
      | none => false)

/-- Who starts an engine command: the group, its clock at issue and its epoch (R351). -/
structure Issuer where
  grp : Nat
  tick : Nat
  epoch : Nat
  vc : VClock
deriving DecidableEq, Repr

/-- Start the copy of window `k`: FILLING from row 0, behind the copies of the team's core (R209, R283). -/
def State.startCopy (s : State) (r : TeamRef) (k : Nat) (i : Issuer) : State :=
  match s.team? r with
  | none => s
  | some t =>
    let w := t.win k
    let s := s.setTeam (t.setWin k { w with
      st := .filling, next := 0, unitDone := 0, scales := [], tested := false, stop := false, stopInfo := none, retries := none
      acquired := false, waiting := none
      issuer := i.grp, tick := i.tick, epoch := i.epoch, vc := i.vc })
    s.modCore t.core fun c => { c with copies := c.copies ++ [(r, k)] }

/-- A touch of the line at a row offset starts the copy of an ABSENT window (R201, R209). -/
def State.touch (s : State) (r : TeamRef) (o : Nat) (i : Issuer) : State :=
  match s.team? r with
  | none => s
  | some t =>
    match t.winAt o with
    | some k => if (t.win k).st = .absent then s.startCopy r k i else s
    | none => s

/-- A store to the line at a row offset waits for the copy of its window (R201). -/
def Team.storeWaits (t : Team) (o : Nat) : Bool :=
  match t.winAt o with
  | some k => (t.win k).st == .absent || ((t.win k).st == .filling && !t.isFull o)
  | none => false

/-- The row offsets of the lines that `n` bytes at `o` touch. -/
def spLines (col : Bool) (o n : Nat) : List Nat :=
  if col then [lineOf (rowOff true n o)] else (lineOf o :: [lineOf (o + n - 1)]).eraseDups

/-- Row offset of each of the `n` bytes of an element at offset `o`. -/
def spBytes (col : Bool) (o n : Nat) : List Nat := (List.range n).map fun j => rowOff col n (o + j)

/-- Check an offset of LDS, STS, ATOMS, SPEMPTY or SPSTATE for `n` bytes (R199, R200). -/
def Team.spCheck (t : Team) (va : Addr) (n : Nat) (aligned : Bool) (ak : AKind) : Except Trap Nat :=
  let off := va.toNat % 2 ^ 32
  if (aligned && off % n != 0) || (regionOf va != 0 && regionOf va != 2) || bits va.toNat 53 32 != 0 ||
      decide (t.spadSize < off + n) then .error (trapA .badAddress va ak)
  else .ok off

/-- What a local address reaches (R36). -/
inductive Local where
  | spad (o : Nat)
  | reg (g r i : Nat)
deriving DecidableEq, Repr

/-- Check 1 of R192 for an access of `n` bytes: a kind that must be aligned, and every access through the aperture. -/
def misaligned (va : Addr) (n : Nat) (must : Bool) : Bool :=
  if regionOf va == 2 && decide (0x40000000 ≤ va.toNat % 2 ^ 32) then va.toNat % 4 != 0 || decide (4 < n)
  else must && va.toNat % n != 0

/-- Check 2 for a local address (R36). An atomic reaches scratchpad alone (R34, R202). -/
def Team.localCheck (t : Team) (va : Addr) (n : Nat) (ak : AKind) : Except Trap Local :=
  let o := va.toNat % 2 ^ 32
  let bad : Except Trap Local := .error (trapA .badAddress va ak)
  if bits va.toNat 53 32 ≠ 0 then bad
  else if o + n ≤ t.spadSize then .ok (.spad o)
  else if 0x40000000 ≤ o ∧ o < 0x40400000 ∧ ak ≠ .atomic then
    let g := (o - 0x40000000) / 0x10000
    let r := o % 0x10000 / 0x100
    let i := o % 0x100 / 4
    if t.groups.length ≤ g ∨ t.width ≤ i then bad
    else match t.grp? g with
      | none => bad
      | some x => if x.mapped r then .ok (.reg g r i) else .error (trapE .regUnmapped (BitVec.ofNat 128 r))
  else bad

/-- Check 2 for any address: the region (R34 to R38). `twin` accepts region 01. -/
def Team.regionCheck (t : Team) (va : Addr) (n : Nat) (twin priv : Bool) (ak : AKind) : Option Trap :=
  match regionOf va with
  | 0 => none
  | 1 => if twin then none else some (trapA .permission va ak)
  | 2 =>
    if twin then some (trapA .permission va ak)
    else match t.localCheck va n ak with
    | .error e => some e
    | .ok _ => none
  | _ => if priv then none else some (trapA .permission va ak)

end Sys2Proof.Machine
end

