-- ==== Sys2Proof/Machine/Operands.lean ====
section
/-! DEFINITION. How a group word is issued and retired: its dynamic legality, the order of causes (R101), lookahead (R93,
R94), queues (R18), holds and latch lifetimes (R97, R98), inactive words (R100), every operand form (R79, R133, R134,
R142), and the writing of results. A meaning supplies only the body of its word. -/
namespace Sys2Proof.Machine

/-! ### Program counter -/

/-- The next word: slot 4 is followed by slot 0 of the next line (R78, R161). -/
def nextPc (pc : Addr) : Addr := if pc.toNat % 64 = 48 then pc + 16 else pc + 12

/-- A displaced address: this word plus a signed displacement (R159). -/
def dispPc (pc : Addr) (disp : W32) : Addr := pc + disp.signExtend 56

/-! ### Accesses that are outstanding -/

/-- The group whose accesses come before and after a party's: itself, its origin and its continuations (R169, R301). -/
def Ctx.family (c : Ctx) : List Group :=
  let o := c.t.groupOf c.ref.who
  (c.t.groups.filter fun g => g.idx == o) ++ (c.t.conts.filter fun k => k.origin == o).map (·.g)

/-- Every earlier access of the party has been performed (R196, R305, R310). -/
def Ctx.quiet (c : Ctx) : Bool :=
  c.family.all fun g => g.posted.isEmpty && g.puts == 0 && g.la.all fun e => e.done || !e.op.isMem

/-! ### A word at issue -/

/-- A word being issued: its context, view, active lanes (for a uniform word, the lanes of `EXEC`), its address, and the
entries it pops from each queue. -/
structure Ex where
  c : Ctx
  word : Instr
  v : View
  act : Mask
  pc : Addr
  popped : List (Nat × List QEnt)
  replay : Bool
deriving DecidableEq, Repr

/-- Width of the issuing context. -/
def Ex.w (x : Ex) : Nat := x.c.g.width

/-- Lanes already performed: `PCM`, or the mask of the replay word (R193, R95). -/
def Ex.done (x : Ex) : Mask :=
  match x.c.g.replay with
  | some r => r.pcm
  | none => x.c.g.pcm

/-- The lanes a memory word still has to perform (R193). -/
def Ex.todo (x : Ex) : List Nat := Sys2Proof.Machine.lanes (x.act &&& ~~~ x.done) x.c.g.width

/-- The active lanes, ascending. -/
def Ex.lanes (x : Ex) : List Nat := Sys2Proof.Machine.lanes x.act x.w

/-- What the body of a word answers. -/
inductive Eff where
  /-- The word retires: the state it leaves, the register writes still to make, and the next address if it branches. -/
  | done (s : State) (ws : List Wr) (pc : Option Addr)
  /-- The word is accepted; its work and further destinations are left to a lookahead entry (R93). -/
  | defer (s : State) (op : PendOp) (dests : List Dest)
  /-- The word traps without effect. -/
  | trap (t : Trap)
  /-- The word traps and leaves the effects in the state given (R47, R193). -/
  | trapAt (s : State) (t : Trap)
  /-- The word waits without effect. -/
  | wait (w : Wait)
  /-- The word waits after an effect on the state given. -/
  | waitIn (s : State) (w : Wait)
  /-- The word has settled its group's control state itself. -/
  | gone (s : State)

/-- The word retires with register writes only. -/
def Eff.writes (s : State) (ws : List Wr) : Eff := .done s ws none

/-! ### Operands -/

/-- The queue entry that lane `i` receives: one per active lane, ascending (R18). -/
def Ex.popped1 (x : Ex) (q i : Nat) : W32 :=
  match x.popped.find? fun e => e.1 == q with
  | none => 0
  | some e => ((e.2.drop ((x.lanes.takeWhile (· < i)).length)).head?.map (·.x)).getD 0

/-- What a latch holds where the spec names no value, for the word being issued (log 24). -/
def Ex.openLatch (x : Ex) (i : Nat) : W128 :=
  let p := x.c.t.groupOf x.c.ref.who
  Config.openLatch x.c.l.num x.c.t.ref.idx p (Store.get 0 x.c.g.vc p) i

/-- The low `n` bits of a latch in lane `i`; above the bytes it holds the value is open. -/
def Ex.latchVal (x : Ex) (k n i : Nat) : Nat :=
  match x.c.g.latch k with
  | none => 0
  | some l =>
    let v := (l.vals.getD i 0).toNat
    if n ≤ 8 * l.bytes then v % 2 ^ n
    else (v % 256 ^ l.bytes + 256 ^ l.bytes * (x.openLatch i).toNat) % 2 ^ n

/-- `n` registers from `r` of one lane as one number, the first least significant (R80). -/
def Group.regs (g : Group) (r i : Nat) : Nat → Nat
  | 0 => 0
  | n + 1 => (g.vreg r i).toNat + 2 ^ 32 * g.regs (r + 1) i n

/-- `IMM` extended to `n` bits (R134). -/
def extImm (imm : W32) (signed : Bool) (n : Nat) : Nat :=
  if signed then wrap imm.toInt n else imm.toNat % 2 ^ n

/-- The low `n` bits of an operand in lane `i`; an immediate is sign-extended where `signed` (R134). -/
def Ex.val (x : Ex) (o : Opnd) (n : Nat) (signed : Bool) (imm : W32) (i : Nat) : Nat :=
  match o with
  | .v r => x.c.g.regs r.val i (regsOf n) % 2 ^ n
  | .s r => (x.c.g.sreg r.val).toNat % 2 ^ n
  | .l k => x.latchVal k.val n i
  | .p k => bnat ((x.c.g.pred k.val).getLsbD i)
  | .zero => 0
  | .q k => (x.popped1 k.val i).toNat % 2 ^ n
  | .imm => extImm imm signed n

/-- The low `n` bits of a uniform operand; a latch gives its lowest lane of `EXEC`. -/
def Ex.uval (x : Ex) (o : Opnd) (n : Nat) (signed : Bool) (imm : W32) : Nat :=
  x.val o n signed imm (lowLane x.c.g.exec)

/-- The writes of one lane's value of `n` registers to a destination that is no queue. -/
def laneWr (d : Opnd) (n i val : Nat) : List Wr :=
  match d with
  | .v r => (List.range n).map fun j => .v (r.val + j) i (BitVec.ofNat 32 (val / 2 ^ (32 * j)))
  | .s r => [.s r.val (BitVec.ofNat 64 val)]
  | .p k => [.p k.val (lane1 i) (if val % 2 = 1 then lane1 i else 0)]
  | _ => []

/-- The writes of the lanes' values to a destination (R135); a queue takes one entry per lane in ascending order. -/
def laneWrs (d : Opnd) (n : Nat) (vals : List (Nat × Nat)) : List Wr :=
  match d with
  | .q k => [.push k.val (vals.map fun e => BitVec.ofNat 32 e.2)]
  | _ => (vals.map fun e => laneWr d n e.1 e.2).flatten

/-- A predicate written in the lanes of `m` (R140). -/
def predWr (d : Opnd) (m x : Mask) : List Wr :=
  match d with
  | .p k => [.p k.val m x]
  | _ => []

/-- A uniform result of `n` bits, extended to the whole s register: signed for `.i` (R134). -/
def uniWr (d : Opnd) (x : W64) : List Wr :=
  match d with
  | .s k => [.s k.val x]
  | _ => []

/-- Make one write. -/
def Team.wr (t : Team) (r : Who) (vc : VClock) : Wr → Team
  | .v reg i x => match t.who? r with | none => t | some g => t.setWho r (g.setV reg i x)
  | .s n x => match t.who? r with | none => t | some g => t.setWho r (g.setS n x)
  | .p n m x => match t.who? r with | none => t | some g => t.setWho r (g.setP n m x)
  | .push q xs => { t with queues := modifyAt (fun l => l ++ xs.map fun x => ⟨x, vc⟩) q t.queues }

/-- Make the writes of a word. -/
def State.wrs (s : State) (r : GRef) (ws : List Wr) : State :=
  match s.team? r.t with
  | none => s
  | some t =>
    let vc := match t.who? r.who with | some g => g.vc | none => []
    s.setTeam (ws.foldl (fun t w => t.wr r.who vc w) t)

end Sys2Proof.Machine

namespace Sys2Proof
open Machine

/-! ### Which registers a word touches (R94) -/

/-- The registers and queues that a field names. -/
def Ref.dests (r : Ref) : List Dest :=
  match r.o with
  | .v n => (List.range r.n).map fun j => .v (n.val + j)
  | .s n => [.s n.val]
  | .p n => [.p n.val]
  | .q n => [.q n.val]
  | _ => []

/-- The destination set of a word (R94). -/
def View.dests (v : View) : List Dest :=
  match v.d with
  | some r => if r.write then r.dests else []
  | none => []

/-- The word pushes a queue. -/
def View.pushes (v : View) : Bool := v.dests.any fun d => match d with | .q _ => true | _ => false

/-- Everything a word reads or writes by name, its guard included; latch reads are not covered (R94). -/
def View.touches (v : View) : List Dest := .p v.h.gp.val :: (v.refs.map Ref.dests).flatten

/-- The v registers a word names (R24). -/
def View.vregs (v : View) : List Nat :=
  v.refs.flatMap fun r => match r.o with | .v n => (List.range r.n).map fun j => n.val + j | _ => []

end Sys2Proof

namespace Sys2Proof.Machine

/-! ### Legality that depends on the context -/

/-- The words that a continuation may run (R169). -/
def contWord : Instr → Bool
  | .iadd _ | .isub _ | .imul _ | .imulh _ | .imad _ | .imin _ | .imax _ | .iabs _ | .and _ | .or _ | .xor _
  | .shl _ | .shr _ | .sar _ | .bfx _ | .bfi _ | .popc _ | .clz _ | .icmp _ | .sel _ | .mov _ | .movi _ | .moviHi _
  | .fadd _ | .fmul _ | .ffma _ | .fmin _ | .fmax _ | .fcmp _ | .frcp _ | .frsq _ | .fsqrt _ | .fexp2 _ | .flog2 _
  | .cvt _ | .dqnt _ | .vact _ | .vdact _ | .ctdec _ | .ctenc _ | .maxkey _ | .prmt _
  | .ld _ | .st _ | .atom _
  | .bra _ | .brx _ | .call _ | .ret _ | .nop _ | .trap _ | .rejoin _ => true
  | _ => false

/-- The accumulator tile a group word names (R244). -/
def wordTile : Instr → Option Nat
  | .atake x => some x.t.val
  | .agive x => some x.t.val
  | .ald x => some x.t.val
  | .ast x => some x.t.val
  | .awin x => some x.t.val
  | _ => none

/-- A word is illegal in the context that issues it: a queue the team does not hold (R17), a tile of an absent mesh
(R244), a latch of the wrong kind (R133), a QNT operand misaligned at this width (R149), a word outside the subset of a
continuation, or REJOIN in a group (R169). -/
def Ctx.illegal (c : Ctx) (i : Instr) (v : View) : Bool :=
  (v.refs.any fun r =>
    match r.o with
    | .q n => decide (c.t.queues.length ≤ n.val)
    | .l n =>
      (match c.g.latch n.val with
       | none => false
       | some l => (r.lat == .uniform && !l.uniform) || (r.lat == .perLane && l.uniform))
    | .v n => n.val % r.al != 0 || decide (256 < n.val + r.n)
    | _ => false) ||
  (match wordTile i with | some t => decide (4 ≤ t) && !c.t.pair | none => false) ||
  (match c.ref.who with
   | .cont _ => !contWord i
   | .grp _ => match i with | .rejoin _ => true | _ => false)

/-- The 64 low bits of a word, for the record of ILLEGAL and of a privileged check (R379, R383). -/
def wordLow (i : Instr) : Nat :=
  match encode i with
  | some w => w.toNat % 2 ^ 64
  | none => 0

/-- The causes of items 3 to 5 of R101: ILLEGAL, REG-UNMAPPED, LATCH-STALE. -/
def Ctx.wordTrap (c : Ctx) (i : Instr) (v : View) : Option Trap :=
  if i.legalErr.isSome || c.illegal i v then some (trapE .illegal (BitVec.ofNat 128 (wordLow i)))
  else
    match v.vregs.find? fun r => !c.g.mapped r with
    | some r => some (trapE .regUnmapped (BitVec.ofNat 128 r))
    | none =>
      (v.sources.findSome? fun r =>
        match r.o with
        | .l n => if (c.g.latch n.val).isNone then some n.val else none
        | _ => none).map fun n => trapE .latchStale (BitVec.ofNat 128 n)

/-! ### Lookahead (R93, R94) -/

/-- What the lookahead entries ask of a word that touches `ts`. -/
inductive Look where
  | go
  | wait
  | trap (pc : Addr)
deriving DecidableEq, Repr

/-- R94: a word waits for an entry whose window is 0 and whose result is not delivered, and for a replay word (R95); a word that touches a destination
within an open window waits for the result and traps. An inactive word raises no cause (R100). -/
def lookCheck (la : List LaEnt) (ts : List Dest) (inactive : Bool) : Look :=
  if la.any fun e => (e.window == 0 || e.again) && !e.done then .wait
  else if inactive then .go
  else
    match la.find? fun e => e.window != 0 && e.dests.any ts.contains with
    | none => .go
    | some e => if e.done then .trap e.pc else .wait

/-- An entry that has delivered its result and whose window is closed: it is free, and stands until the next word issues (R93, R94). -/
def LaEnt.free (e : LaEnt) : Bool := e.done && e.window == 0 && e.fail.isNone

/-- Each issue counts every open window down, and frees the entries that are delivered and closed (R94). -/
def countDown (la : List LaEnt) : List LaEnt :=
  (la.map fun e => { e with window := e.window - 1 }).filter fun e => !e.free

/-! ### Holds and latches (R97, R98) -/

/-- A word uses 64 bits of an s register in its field `f`: by its type, or as a base or address (R57, R134). -/
def heldWide (i : Instr) (f : Hold) : Bool :=
  match i with
  | .iadd x | .isub x | .imul x | .imulh x | .imin x | .imax x | .and x | .or x | .xor x | .shl x | .shr x | .sar x | .bfx x =>
    x.ty.bits == 64
  | .imad x | .bfi x | .sel x => x.ty.bits == 64
  | .iabs x | .popc x | .clz x | .mov x => x.ty.bits == 64
  | .icmp x => x.ty.bits == 64
  | .cvt x => (match x.src with | .int t => t.bits == 64 | _ => false)
  | .fadd _ | .fmul _ | .fmin _ | .fmax _ | .maxkey _ | .ffma _ | .fcmp _ | .frcp _ | .frsq _ | .fsqrt _ | .fexp2 _ | .flog2 _
  | .qnt _ | .dqnt _ | .vact _ | .vdact _ | .ctdec _ | .ctenc _ | .gred _ | .prmt _ => false
  | .shfl x => x.wide
  | .tscope _ | .rswitch _ => f == .b
  | .qntt _ => f == .a || f == .b
  | .ctake _ | .cgive _ | .cwait _ | .rgive _ | .rclaim _ | .agive _ | .awin _ | .ald _ | .ast _
  | .tlbiCtx _ => false
  | .atom x => f == .a || (f == .c && x.wide)
  | .atoms x => f == .a || (f == .c && x.wide)
  | _ => f == .a

/-- Bytes per lane of a held operand: 4 or 8, as a latch keeps them (R398). -/
def heldBytes (i : Instr) (f : Hold) (r : Ref) : Nat :=
  match r.o with
  | .v _ => if r.n = 1 then 4 else 8
  | .s _ => if heldWide i f then 8 else 4
  | _ => 4

/-- The latch that a hold of field `r` fills, in every lane of `EXEC`; `none` where it becomes invalid (R97, R98). A lane that took
no entry of a held queue, and a lane outside `EXEC`, hold an open value (log 24). -/
def Ex.heldLatch (x : Ex) (f : Hold) (r : Ref) (inactive : Bool) : Option Latch :=
  let n := heldBytes x.word f r
  let mk (uniform : Bool) (lane : Nat → Bool) : Option Latch :=
    some ⟨(List.range x.w).map fun i =>
      if lane i then BitVec.ofNat 128 (x.val r.o (8 * n) false 0 i % 256 ^ n) else x.openLatch i &&& BitVec.ofNat 128 (256 ^ n - 1),
      uniform, n, 2⟩
  match r.o with
  | .v k => if x.c.g.mapped k.val then mk false x.c.g.exec.getLsbD else none
  | .s _ => mk true fun _ => true
  | .p _ => mk false x.c.g.exec.getLsbD
  | .q _ => if inactive then none else mk false x.act.getLsbD
  | _ => none

/-- Latches after a word retires: each lifetime falls, then the hold takes effect. An inactive word that would be illegal for what it
holds raises no cause (R100); its hold of a mapped register takes effect over one register, any other makes the latch invalid, and
one of a field it does not use leaves the latches as they are, which is the model's choice (R98; log 24). -/
def Ex.latches (x : Ex) (inactive : Bool) (l : Vector (Option Latch) 3) : Vector (Option Latch) 3 :=
  let aged := l.map fun e =>
    match e with
    | none => none
    | some l => if l.life ≤ 1 then none else some { l with life := l.life - 1 }
  match x.v.h.hold, x.v.held with
  | .none, _ => aged
  | _, none => aged
  | .a, some r => aged.setIfInBounds 0 (x.heldLatch .a r inactive)
  | .b, some r => aged.setIfInBounds 1 (x.heldLatch .b r inactive)
  | .c, some r => aged.setIfInBounds 2 (x.heldLatch .c r inactive)

/-! ### Lost lines of registers (R295) -/

/-- The lines of v registers among destinations that a write in the lanes of `m` covers whole, by 2 * register + lane / 32. -/
def wholeRegs (w : Nat) (m : Mask) (ds : List Dest) : List Nat :=
  ds.flatMap fun d => match d with
    | .v n => ([0, 1].filter fun h => decide (32 * h < w) &&
        (List.range 32).all fun i => decide (w ≤ 32 * h + i) || m.getLsbD (32 * h + i)).map (2 * n + ·)
    | _ => []

/-- The key of a line of a group's v registers among those of its team's pool: the line is named by 2 * register + lane / 32. -/
def Team.regKey (t : Team) (g : Group) (k : Nat) : Nat :=
  16 * ((if t.coreOf g.idx = t.core then 0 else 4096) + g.chunks.getD (k / 16) 0) + k % 16

/-- A line of a group's v registers is lost. -/
def Team.regLost (t : Team) (g : Group) (k : Nat) : Bool := Store.get false t.rLost (t.regKey g k)

/-- Lines of a group's v registers have been written whole: their marks are gone. -/
def Team.regsWhole (t : Team) (g : Group) (ks : List Nat) : Team :=
  if t.rLost.isEmpty then t else { t with rLost := ks.foldl (fun m k => Store.set false m (t.regKey g k) false) t.rLost }

/-- See `Team.regsWhole`; a continuation's registers lie in no span (R169). -/
def State.regsWhole (s : State) (r : GRef) (ks : List Nat) : State :=
  match r.who with
  | .cont _ => s
  | .grp i => s.modTeam r.t fun t => match t.grp? i with | some g => t.regsWhole g ks | none => t

/-- The address of a register's line in the local aperture, by which a record names it (R36; log 28). -/
def regLineVa (g k : Nat) : Nat := 2 ^ 55 + 0x40000000 + g * 0x10000 + k / 2 * 0x100 + k % 2 * 128

/-- DATA-LOST at a line of a register. -/
def Ctx.regLostTrap (c : Ctx) (k : Nat) : Trap := trapE .dataLost (BitVec.ofNat 128 (regLineVa (c.t.groupOf c.ref.who) k))

/-- DATA-LOST of a word that reads a lost line of a register, or writes it in part. -/
def Ex.lostReg (x : Ex) : Option Trap :=
  if x.c.t.rLost.isEmpty || (match x.c.ref.who with | .cont _ => true | .grp _ => false) then none
  else
    let read := (x.v.sources.map Ref.dests).flatten
    let whole := (wholeRegs x.w x.act x.v.dests).filter fun k => !read.any (· == .v (k / 2))
    let touched := x.v.vregs.flatMap fun r => ([0, 1].filter fun h => x.lanes.any fun i => i / 32 == h).map (2 * r + ·)
    (touched.find? fun k => x.c.t.regLost x.c.g k && !whole.contains k).map x.c.regLostTrap

/-! ### Addresses -/

/-- The scale of an index (R82). -/
def scaleFactor : Scale → Int
  | .x1 => 1 | .x2 => 2 | .x4 => 4 | .x8 => 8 | .x16 => 16

/-- The address of lane `i` (R57, R82): base + sext(index, 32) × scale + sext(offset, 32), in 56 bits. -/
def Ex.addr (x : Ex) (m : MemOp) (i : Nat) : Addr :=
  let base : Int := (x.val m.base 64 false 0 i : Nat)
  let idx := sext (x.val m.index 32 false 0 i) 32
  BitVec.ofInt 56 (base + idx * scaleFactor m.scale + sext m.off.toNat 32)

/-- The address of a uniform memory word. -/
def Ex.uaddr (x : Ex) (m : MemOp) : Addr := x.addr m (lowLane x.c.g.exec)

/-- The registers of its own group that a word reaches through the aperture (R36, R94). -/
def Ex.ownRegs (x : Ex) (as : List (Nat × Addr)) : List Dest :=
  match x.c.ref.who with
  | .cont _ => []
  | .grp g => as.filterMap fun a =>
      if regionOf a.2 ≠ 2 then none
      else match x.c.t.localCheck a.2 1 .load with
        | .ok (.reg h r _) => if h = g then some (.v r) else none
        | _ => none

/-- R94 for an access through the aperture to a register of the own group. -/
def Ex.ownLook (x : Ex) (as : List (Nat × Addr)) : Option Eff :=
  if x.replay then none
  else
    let ds := x.ownRegs as
    match x.c.g.la.find? fun e => e.window != 0 && e.dests.any ds.contains with
    | none => none
    | some e => some (if e.done then .trap (trapE .lookahead (BitVec.ofNat 128 e.pc.toNat)) else .wait .engine)

/-- The address operand through which a word reaches memory lane by lane, or in its lowest lane. -/
def memOperand : Instr → Option (MemOp × Bool)
  | .ld w => some (w.mem, false)
  | .st w => some (w.mem, false)
  | .atom w => some (w.mem, false)
  | .waitf w => some (w.mem, true)
  | _ => none

/-- R94 for what a word reaches through the aperture comes before the causes of its own execution, a lost register among them (R101). -/
def Ex.aperture (x : Ex) : Option Eff :=
  match memOperand x.word with
  | none => none
  | some (m, uniform) => x.ownLook (if uniform then [(lowLane x.c.g.exec, x.uaddr m)] else x.todo.map fun i => (i, x.addr m i))

/-! ### Retiring -/

/-- The group after its word retires with next address `pc`: windows, latches, waits and retry count. -/
def Ex.retired (x : Ex) (inactive : Bool) (pc : Addr) (g : Group) : Group :=
  { g with
    la := if x.replay then g.la else countDown g.la
    l := if x.replay then g.l else x.latches inactive g.l
    pc := if x.replay then g.pc else pc
    replay := if x.replay then none else g.replay
    wait := .none
    st := if g.st = .blocked then .run else g.st
    pcm := if x.replay then g.pcm else 0
    parted := if x.replay then g.parted else []
    retries := if x.replay then g.retries else g.retries.filter fun k => k.1 != x.pc
    vc := g.vc.bump (x.c.t.groupOf x.c.ref.who) }

/-- Take the popped entries off their queues, and order the group after their pushes (R18, R306). -/
def Ex.popAll (x : Ex) (s : State) : State :=
  x.popped.foldl (fun s e =>
    (s.modTeam x.c.ref.t fun t => { t with queues := modifyAt (fun l => l.drop e.2.length) e.1 t.queues }).modGroup
      x.c.ref fun g => { g with vc := e.2.foldl (fun v q => v.join q.vc) g.vc }) s

/-- A word's kill points (R185). -/
def killPoint : Instr → Bool
  | .nbarArr _ | .nbarWait _ | .nbarSync _ | .ctake _ | .cwait _ | .waitf _ | .rclaim _ | .yield _ | .mark _ | .tnext _ =>
    true
  | _ => false

/-- End a party that a CANCEL has reached: a group ends as R185 gives, a continuation is discarded with its group. -/
def State.killNow (s : State) (r : GRef) (k : Kill) : State :=
  match r.who with
  | .grp i => s.killGroup r.t i (some k.scope)
  | .cont _ => s

/-- The lookahead entry of an accepted word. A replay word keeps the window that its first execution had left (R93, R95). -/
def Ex.entryOf (x : Ex) (s : State) (op : PendOp) (dests : List Dest) : LaEnt where
  pc := x.pc
  word := x.word
  window := if x.replay then (match x.c.g.la.find? (·.again) with | some e => e.window | none => 0) else x.v.h.la.val
  done := false
  dests := x.v.dests ++ dests
  act := x.act
  pcm := x.done
  op := op
  owed := []
  fail := none
  got := if x.replay then (match x.c.g.replay with | some r => r.got | none => []) else []
  since := s.clock
  vers := x.c.version
  epoch := x.c.g.epoch
  tick := Store.get 0 x.c.g.vc (x.c.t.groupOf x.c.ref.who) + 1
  vc := x.c.g.vc
  again := x.replay
  early := []
  counted := match x.c.g.replay with | some r => r.counted | none => []

/-- A new entry of a group's lookahead; that of a replay word takes the place of the entry that its first execution left. -/
def Group.addEntry (g : Group) (e : LaEnt) : Group := { g with la := (if e.again then g.la.filter (!·.again) else g.la) ++ [e] }

/-- Set a group waiting at its word. -/
def State.setWait (s : State) (r : GRef) (w : Wait) : State :=
  s.modGroup r fun g => { g with wait := w, st := if w.blocks then .blocked else .run }

/-- The branches of R161 and R164, whose taken backward form is a kill point (R185). -/
def branchWord : Instr → Bool
  | .bra _ | .brD _ | .brx _ | .call _ | .ret _ => true
  | _ => false

/-- Carry out what the body of a word answered. -/
def Ex.finish (x : Ex) (s : State) (e : Eff) : State :=
  let r := x.c.ref
  match e with
  | .trap t => s.takeTrap r t (pcAt := some x.pc)
  | .trapAt s' t => s'.takeTrap r t (pcAt := some x.pc)
  | .wait w => s.setWait r w
  | .waitIn s' w => s'.setWait r w
  | .gone s' => s'
  | .done s' ws pc =>
    let s' := x.popAll s'
    let target := match pc with | some p => p | none => nextPc x.pc
    let back := branchWord x.word && (match pc with | some p => decide (p.toNat ≤ x.pc.toNat) | none => false)
    let s' :=
      if x.v.isLong then
        (s'.modGroup r fun g => x.retired false target g).modGroup r fun g => g.addEntry (x.entryOf s (.write ws) [])
      else ((s'.wrs r ws).modGroup r fun g => x.retired false target g).regsWhole r (wholeRegs x.w x.act x.v.dests)
    match x.c.g.kill with
    | some k => if back then s'.killNow r k else s'
    | none => s'
  | .defer s' op ds =>
    let s' := x.popAll s'
    (s'.modGroup r fun g => x.retired false (nextPc x.pc) g).modGroup r fun g => g.addEntry (x.entryOf s op ds)

/-- A word that retires without effect: inactive (R100), or uniform with a failing guard (R160). -/
def Ex.skip (x : Ex) (s : State) (inactive : Bool) : State :=
  s.modGroup x.c.ref fun g => x.retired inactive (nextPc x.pc) g

/-! ### Queues at issue (R18) -/

/-- The queues a word pops with the entries it would take, or the first queue that holds too few. -/
def Ctx.takePops (c : Ctx) (v : View) (n : Nat) : Except Nat (List (Nat × List QEnt)) :=
  v.pops.foldl (fun acc q =>
    match acc with
    | .error k => .error k
    | .ok l =>
      let have_ := c.t.queues.getD q.val []
      if have_.length < n then .error q.val else .ok (l ++ [(q.val, have_.take n)])) (.ok [])

/-- The queue a word pushes, if it lacks room for `n` entries after the word's own pops, and how many entries it may hold when the
word goes on (R14, R18). -/
def Ctx.noRoom (c : Ctx) (v : View) (n : Nat) (pops : List (Nat × List QEnt)) : Option (Nat × Nat) :=
  match v.d with
  | some ⟨.q k, _, _, _, _, true⟩ =>
    let own := match pops.find? (·.1 == k.val) with | some e => e.2.length | none => 0
    if 256 + own < (c.t.queues.getD k.val []).length + n then some (k.val, 256 + own - n) else none
  | _ => none

/-! ### The issue of a group word -/

/-- The word that a party issues now: its replay word, or the one at `PC`. -/
def Group.issuePc (g : Group) : Addr := match g.replay with | some r => r.pc | none => g.pc

/-- Issue a group word for its party: kill points, legality, lookahead, queues, guard, then the body (R94, R100, R101). Every vector
word whose guard is false in every lane retires so, a JOIN or REJOIN under a predicate among them, though R160 makes no exception
for them but `(!p7)`: the model follows R100 (log 45). -/
def Ctx.issue (c : Ctx) (i : Instr) (v : View) (body : Ex → State → Eff) (s : State) : State :=
  let g := c.g
  let replay := g.replay.isSome
  let guard := g.guard v.h.gp.val v.h.gn &&& laneMask g.width
  let inactive := v.kind == .vector && guard == 0 && !replay
  let skipU := v.kind == .uniform && !guard.getLsbD (lowLane g.exec)
  let act := if v.kind = .vector then guard else g.exec
  let x : Ex := ⟨c, i, v, act, g.issuePc, [], replay⟩
  match g.kill with
  | some k => if killPoint i && !k.atRestore && !skipU then s.killNow c.ref k else issueLive g replay inactive skipU act x
  | none => issueLive g replay inactive skipU act x
where
  issueLive (g : Group) (replay inactive skipU : Bool) (act : Mask) (x : Ex) : State :=
    match (if inactive then none else c.wordTrap i v) with
    | some t => s.takeTrap c.ref t (pcAt := some x.pc)
    | none =>
      match (if replay then (if g.la.any fun e => !e.done then .wait else .go) else lookCheck g.la v.touches inactive) with
      | .wait => s.setWait c.ref .engine
      | .trap pc => s.takeTrap c.ref (trapE .lookahead (BitVec.ofNat 128 pc.toNat))
      | .go =>
        if inactive then x.skip s true
        else if skipU then x.skip s false
        else if v.isLong && !replay && decide (16 ≤ (g.la.filter fun e => !e.free).length) then s.setWait c.ref .engine
        else
          let n := (lanes act g.width).length
          match c.takePops v n with
          | .error q => s.setWait c.ref (.pop q n)
          | .ok pops =>
            match c.noRoom v n pops with
            | some (q, m) => s.setWait c.ref (.push q m)
            | none =>
              let x := { x with popped := pops }
              match x.lostReg with
              | some t => (match x.aperture with
                | some e => x.finish s e
                | none => s.takeTrap c.ref t (pcAt := some x.pc))
              | none =>
              -- a push releases, a pop acquires (R305, R313)
              if v.pushes && !v.isLong && !c.quiet then s.setWait c.ref .engine
              else
                let s := if v.pushes && !v.isLong then s.releaseTeam c.t c.core else s
                let s := if pops.isEmpty then s else s.acquireTeam c.t c.core
                x.finish s (body x s)

/-- A stream sequencer that meets a cause stops before its word (R226); taken by every stream word, and by a group word
that the sequencer fetches (R86). -/
def State.seqUnit (l : Launch) (t : Team) : Unit where
  core := t.core
  src := .sequencer
  priv := false
  shdw := t.ref.shadow
  pc := t.sq.spc
  lane := 0
  group := 0
  team := t.ref.idx
  launch := l.num
  taskr := 0
  kind := 4

/-- The sequencer ends: it takes no further part in any barrier (R240). -/
def Team.endSeq (t : Team) (ord : Bool) : Team :=
  let t2 := { t with sq := { t.sq with sst := .ended, sbm := 0, stop := none, blocked := .none, ending := false } }
  (List.range 16).foldl (fun u k => if t.sq.sbm.getLsbD k then u.openBar ord k else u) t2

/-- A sequencer that ends as at MEND ends once its mesh queue is empty (R226, R240). -/
def Team.seqOver (t : Team) (ord : Bool) : Team := if t.sq.ending && t.mq.isEmpty then t.endSeq ord else t

/-- End a sequencer as at MEND: what it has issued finishes first; a word that stopped it is given up (R226, R249). -/
def Team.closeSeq (t : Team) (ord : Bool) : Team :=
  let mq := t.mq.filter fun m => !m.failed
  if t.sq.sst == .ended then { t with mq := mq }
  else Team.seqOver { t with mq := mq, sq := { t.sq with sst := .run, stop := none, blocked := .none, ending := true } } ord

/-- A stopped sequencer goes on: at its word, and with a mesh word that failed before its effect (R226, R388). -/
def Team.seqGo (t : Team) : Team :=
  { t with sq := { t.sq with sst := .run, stop := none }, mq := t.mq.map fun m => { m with failed := false } }

/-- Stop a sequencer with a cause, under its policy entry (R226, R387). `pcAt` names a mesh word that failed after its issue
(R239), `extra` raises what follows the first record (R385). A sequencer that ends, or has ended, stops no more: the failure of a
mesh word that it left is recorded. That of a shadow stops under every entry (R356). -/
def State.stopSeq (s : State) (r : TeamRef) (t : Trap) (extra : State → State := id) (pcAt : Option Addr := none) : State :=
  match s.team? r, s.launch? r.launch with
  | some tm, some l =>
    let wordPc := match pcAt with | some a => a | none => tm.sq.spc
    let e := s.polEntry l.pkt.policy t.cause
    let tries := match tm.sq.retries with | some (pc, k, n) => if pc = wordPc ∧ k = t.cause then n else 0 | none => 0
    let ended := tm.sq.sst == .ended || tm.sq.ending
    let act := if ended || r.shadow then .stop else polStep e t tries false
    let s := s.trapRecords { State.seqUnit l tm with pc := wordPc } l.pkt.ctx t 0 false false act extra
    if ended then s
    else match act with
    | .retry => s.modTeam r fun tm => { tm with sq := { tm.sq with retries := some (wordPc, t.cause, tries + 1) } }
    | .discard => s.modTeam r fun tm => tm.closeSeq l.pkt.ord
    | a => s.modTeam r fun tm => { tm with sq := { tm.sq with
        sst := .stopped, blocked := .none, retries := none, stop := some (stopInfo t a false) } }
  | _, _ => s

/-- Execute a group word: for the group or continuation that issues it; the sequencer stops on it (R86); a word that no
party issues has no meaning. -/
def runWord (i : Instr) (body : Ex → State → Eff) (s : State) : Host.Outcome State Fault Refusal :=
  match s.cur with
  | .idle => .refused .noIssuer
  | .sq t => .next (s.stopSeq t (trapE .illegal (BitVec.ofNat 128 (wordLow i))))
  | .grp r =>
    match s.ctx? r with
    | none => .fault .noParty
    | some c =>
      match i.view c.g.width with
      | none => .next (s.takeTrap r (trapE .illegal (BitVec.ofNat 128 (wordLow i))))
      | some v => .next (c.issue i v body s)

end Sys2Proof.Machine
end

