-- ==== Sys2Proof/Machine/TwinHome.lean ====
section
/-! DEFINITION. The twin at its home (R44, R48, R129 to R132, R361, R373, R374): headers, accumulators, the task's view of a
line, and the commit of a version with its words and twin updates (R292, R374). -/
namespace Sys2Proof.Machine

/-! ### Headers and accumulators -/

/-- The fields of a line header (R44); `st` is 0 IDLE, 1 OWED, 2 READY. -/
structure THdr where
  count : Nat
  st : Nat
  nanf : Bool
  range : Bool
deriving DecidableEq, Repr

/-- The reset value of a header. -/
def THdr.idle : THdr := ⟨0, 0, false, false⟩

/-- Address of the header of a piece's line (R361). -/
def Piece.hdr (x : Piece) : Nat :=
  pteTwBase x.pte + 16 * 2 ^ ptePage x.pte / pteTwSize x.pte + 4 * (x.va.toNat % 2 ^ ptePage x.pte / 128)

/-- Address of the accumulator of the element that holds a piece's first byte (R361). -/
def Piece.acc (x : Piece) : Nat := pteTwBase x.pte + 16 * (x.va.toNat % 2 ^ ptePage x.pte / pteTwSize x.pte)

/-- Address of the first accumulator of a piece's line, and how many the line has. -/
def Piece.lineAcc (x : Piece) : Nat := pteTwBase x.pte + 16 * (lineOf (x.va.toNat % 2 ^ ptePage x.pte) / pteTwSize x.pte)
def Piece.naccs (x : Piece) : Nat := 128 / pteTwSize x.pte

/-- Read a header. -/
def Memory.hdr (m : Memory) (h : Nat) : THdr :=
  let w := m.num h 4
  ⟨w % 65536, bits w 18 17, bitAt w 19, bitAt w 20⟩

/-- Write a header, keeping `VER`. -/
def Memory.setHdr (m : Memory) (h : Nat) (x : THdr) : Memory :=
  let ver := bits (m.num h 4) 16 16
  m.write h (bytesOf 4 (x.count % 65536 + ver * 2 ^ 16 + x.st % 4 * 2 ^ 17 + bnat x.nanf * 2 ^ 19 + bnat x.range * 2 ^ 20))

/-- The NaN mark (R129). -/
def nanMark : Int := -(2 ^ 127 : Nat)

/-- The largest sum in units of 2^-80 (R129). -/
def accMax : Int := (2 ^ 127 : Nat) - 1

def Memory.acc (m : Memory) (a : Nat) : Int := sext (m.num a 16) 128

def Memory.setAcc (m : Memory) (a : Nat) (x : Int) : Memory := m.write a (bytesOf 16 (wrap x 128))

/-- Clear `n` accumulators from `a`. -/
def Memory.clearAccs (m : Memory) (a : Nat) : Nat → Memory
  | 0 => m
  | n + 1 => Memory.clearAccs (m.setAcc a 0) (a + 16) n

/-- The integer of a contribution; `none` for a NaN or an infinity (R130). -/
def contribution : ExactNum → Option Int
  | .fin s n d =>
    let q : Nat := n * 2 ^ 80 / d
    let r : Nat := n * 2 ^ 80 % d
    let k : Nat := if d < 2 * r ∨ (2 * r = d ∧ q % 2 = 1) then q + 1 else q
    some (if s then -(k : Int) else (k : Int))
  | _ => none

/-- Add to an accumulator, `none` for a NaN or an infinity: the sum, and whether it saturates (R130). -/
def accAdd (a : Int) (c : Option Int) : Int × Bool :=
  match c with
  | none => (nanMark, false)
  | some c =>
    if a = nanMark then (nanMark, false)
    else if accMax < a + c then (accMax, true)
    else if a + c < -accMax then (-accMax, true)
    else (a + c, false)

/-- The sum of two deltas of a version; a NaN or an infinity stays (R374). -/
def deltaAdd (a b : Option Int) : Option Int := a.bind fun x => b.map fun y => x + y

/-- The value of an accumulator in units of one (R129, R131). -/
def accNum (a : Int) : ExactNum := if a = nanMark then .nan else .fin (a < 0) a.natAbs (2 ^ 80)

/-! ### The task's view (R374) -/

/-- What a version holds of a piece's line. -/
def State.vline (s : State) (v : Option Nat) (x : Piece) : Option VLine :=
  (v.bind s.version?).bind fun y => y.lines.find? fun l => l.line == lineOf x.pa

/-- The header in the view of a party of version `v`, or of any other party. -/
def State.twView (s : State) (v : Option Nat) (x : Piece) : THdr :=
  let base := s.mem.hdr x.hdr
  match s.vline v x with
  | none => base
  | some l =>
    let base := if l.consumed then THdr.idle else base
    let n := ((base.count : Int) + l.delta).toNat
    ⟨n, if l.touched then (if n = 0 then 2 else 1) else base.st, base.nanf || l.nanf, base.range || l.range⟩

/-- An accumulator in that view. -/
def State.accView (s : State) (v : Option Nat) (x : Piece) (a : Nat) : Int :=
  match s.vline v x with
  | none => s.mem.acc a
  | some l =>
    let base := if l.consumed then 0 else s.mem.acc a
    match l.accs.find? fun e => e.1 == a with
    | none => base
    | some e => (accAdd base e.2).1

/-- The lines of a piece's accumulators. -/
def Piece.accLines (x : Piece) : List Nat := (List.range (x.naccs / 8)).map fun i => x.lineAcc + 128 * i

/-- The line that holds the header of a piece's line, if it is lost (R295). -/
def State.hdrLost (s : State) (x : Piece) : Option Nat := if s.isLost x.hdr then some (lineOf x.hdr) else none

/-- A lost line among those of a piece's header and accumulators. -/
def State.twLost (s : State) (x : Piece) : Option Nat := (s.hdrLost x).or (x.accLines.find? s.isLost)

/-- Another version holds the line by a consuming read: twin operations of other parties wait (R374). -/
def State.heldElsewhere (s : State) (v : Option Nat) (line : Nat) : Bool :=
  s.versions.any fun y => some y.id != v && y.lines.any fun l => l.consumed && l.line == line

/-- Change what a version holds of a piece's line; the line then carries `VER`. -/
def State.modVLine (s : State) (n : Nat) (x : Piece) (f : VLine → VLine) : State :=
  let l0 := (s.vline (some n) x).getD ⟨lineOf x.pa, false, false, 0, false, false, [], x.hdr, x.lineAcc, x.naccs⟩
  let s := if (s.version? n).isSome then { s with mem := s.mem.setVer x.hdr true } else s
  s.modVersion n fun y => { y with lines := f l0 :: y.lines.filter fun l => l.line != lineOf x.pa }

/-- Raise the count of a piece's line by `c`; refused past 65,535 (R197, R198, R373). -/
def State.twCount (s : State) (v : Option Nat) (x : Piece) (c : Nat) : Option State :=
  let h := s.twView v x
  if 65535 < h.count + c then none
  else match v with
    | none => some { s with mem := s.mem.setHdr x.hdr { h with count := h.count + c, st := 1 } }
    | some n => some (s.modVLine n x fun l => { l with delta := l.delta + c, touched := true })

/-- The outcome of a contribution. -/
inductive TwAcc where
  | underflow
  | applied (s : State) (range nanf : Bool)

/-- What a version adds to an accumulator of a line. -/
def VLine.acc (l : VLine) (a : Nat) : Option Int :=
  match l.accs.find? fun e => e.1 == a with
  | some e => e.2
  | none => some 0

/-- Add one value to an accumulator of a line: in memory, or as an exact delta of a version. -/
def State.accPut (s : State) (v : Option Nat) (x : Piece) (a : Nat) (c : Option Int) : State × Bool :=
  let (y, sat) := accAdd (s.accView v x a) c
  match v with
  | none => ({ s with mem := s.mem.setAcc a y }, sat)
  | some n => (s.modVLine n x fun l => { l with accs := (a, deltaAdd (l.acc a) c) :: l.accs.filter fun e => e.1 != a }, sat)

/-- Contributions of `m` lanes to a line: the values with their accumulators, in order (R217, R239, R373). -/
def State.twContribute (s : State) (v : Option Nat) (x : Piece) (vals : List (Nat × ExactNum)) : TwAcc :=
  let h := s.twView v x
  let m := vals.length
  if h.count < m then .underflow
  else
    let nan := vals.any fun e => (contribution e.2).isNone
    let (s, sat) := vals.foldl (fun (a : State × Bool) e =>
      let (s', b) := a.1.accPut v x e.1 (contribution e.2)
      (s', a.2 || b)) (s, false)
    match v with
    | none =>
      let h' : THdr := ⟨h.count - m, if h.count = m then 2 else h.st, h.nanf || nan, h.range || sat⟩
      .applied { s with mem := s.mem.setHdr x.hdr h' } sat nan
    | some n =>
      .applied (s.modVLine n x fun l =>
        { l with delta := l.delta - m, touched := true, nanf := l.nanf || nan, range := l.range || sat }) sat nan

/-- A consuming read of a READY line clears its accumulators and its header (R218). -/
def State.twConsume (s : State) (v : Option Nat) (x : Piece) : State :=
  match v with
  | none =>
    { s with mem := (s.mem.clearAccs x.lineAcc x.naccs).setHdr x.hdr THdr.idle }
  | some n => s.modVLine n x fun l =>
      { l with consumed := true, touched := false, delta := 0, nanf := false, range := false, accs := [] }

/-- TRESET of one line: it writes the lines of the accumulators whole, so that they are lost no more (R219, R295). -/
def State.twReset (s : State) (x : Piece) : State :=
  { s with
    mem := (s.mem.clearAccs x.lineAcc x.naccs).setHdr x.hdr THdr.idle
    lost := x.accLines.foldl (fun m a => Store.set false m a false) s.lost }

/-! ### Commit (R292, R374) -/

/-- The check of a line before a commit: the cause of a count outside 0 to 65,535. -/
def VLine.commitErr (l : VLine) (m : Memory) : Option Cause :=
  let n := (if l.consumed then 0 else ((m.hdr l.hdr).count : Int)) + l.delta
  if n < 0 then some .adjointUnderflow else if 65535 < n then some .countOverflow else none

/-- Apply a line's updates; whether a sum saturates. -/
def VLine.commit (l : VLine) (m : Memory) : Memory × Bool :=
  let m := if l.consumed then (m.clearAccs l.acc0 l.naccs).setHdr l.hdr THdr.idle else m
  let (m, sat) := l.accs.foldl (fun (a : Memory × Bool) e =>
    let (y, b) := accAdd (a.1.acc e.1) e.2
    (a.1.setAcc e.1 y, a.2 || b)) (m, false)
  let h := m.hdr l.hdr
  let n := ((h.count : Int) + l.delta).toNat
  (m.setHdr l.hdr ⟨n, if l.touched then (if n = 0 then 2 else 1) else h.st, h.nanf || l.nanf, h.range || l.range || sat⟩,
    sat)

/-- The outcome of a commit: a failed check with its line, or the state with the first line that saturated. -/
inductive Commit where
  | failed (c : Cause) (line : Nat)
  | done (s : State) (saturated : Option Nat)

/-- The words of a line that a version commits. -/
def Version.lineWords (v : Version) (line : Nat) : W32 :=
  wordMask ((List.range 32).filter fun w => (Store.get none v.words (line + 4 * w)).isSome)

/-- Words that a version commits are newer than those that an L1 of its team holds and has not written: they leave it (R288, R302). -/
def State.l1Forget (s : State) (v : Version) : State :=
  match s.team? v.team with
  | none => s
  | some t => (if t.pair then [t.core, t.core + 1] else [t.core]).foldl (fun s k => s.modCore k fun c =>
      { c with l1 := (c.l1.map fun x => { x with valid := x.dirty ||| (x.valid &&& ~~~v.lineWords x.line) }).filter fun x => x.valid != 0 }) s

/-- Commit a version: every line of every slice is checked first; then words and twin updates are applied, `VER` is cleared
and the version is gone; what it held for peers is posted in its groups (R292, R316, R374). -/
def State.commitVersion (s : State) (n : Nat) : Commit :=
  match s.version? n with
  | none => .done s none
  | some v =>
    match v.lines.findSome? fun l => (l.commitErr s.mem).map fun c => (c, l.line) with
    | some (c, line) => .failed c line
    | none =>
      let (m, sat) := v.lines.foldl (fun (a : Memory × Option Nat) l =>
        let (m, b) := l.commit a.1
        (m, a.2.or (if b then some l.line else none))) (v.commitWords s.mem, none)
      let lost := v.lineList.foldl (fun m l => if v.holds l (List.range 32) then Store.set false m l false else m) s.lost
      let s := (({ s with mem := m, lost := lost } : State).l1Forget v).discardVersion n
      .done (v.remote.foldl (fun s e => s.modParty ⟨v.team, .grp e.1⟩ fun g =>
        { g with posted := g.posted ++ [{ e.2 with vers := none }] }) s) sat

end Sys2Proof.Machine
end

