-- ==== Sys2Proof/Machine/Access.lean ====
section
/-! DEFINITION. How a group's word reaches memory: the party of an access, addresses (R82), the order of checks (R192), the
waits that keep program order (R196, R302, R311), and scratchpad and aperture accesses (R36, R201). -/
namespace Sys2Proof.Machine

/-! ### Parties -/

/-- The party of a context's next word. -/
def Ctx.party (c : Ctx) : Nat := c.t.groupOf c.ref.who

/-- The clock value of the word being issued. -/
def Ctx.tick (c : Ctx) : Nat := Store.get 0 c.g.vc c.party + 1

/-- A party's accesses with the tags of issue. -/
def Ctx.pty (c : Ctx) (pc : Addr) : Pty where
  core := c.core
  launch := c.l.num
  team := c.t.ref
  ord := c.l.pkt.ord && !c.t.ref.shadow
  vers := c.version
  tag := ⟨c.t.ref.idx, c.party, pc, c.g.epoch, c.tick, 0⟩
  vc := c.g.vc

def Ex.pty (x : Ex) : Pty := x.c.pty x.pc

/-- The party of a lookahead entry (R352). -/
def Ctx.entPty (c : Ctx) (e : LaEnt) : Pty :=
  { c.pty e.pc with tag := ⟨c.t.ref.idx, c.party, e.pc, e.epoch, e.tick, 0⟩, vc := e.vc, vers := e.vers }

/-- The party of a posted store. -/
def Ctx.postPty (c : Ctx) (e : Posted) : Pty :=
  { c.pty e.pc with tag := ⟨c.t.ref.idx, c.party, e.pc, e.epoch, e.tick, 0⟩, vc := e.vc, vers := e.vers }

/-- Who starts an engine command at this word (R351). -/
def Ctx.issuer (c : Ctx) : Issuer := ⟨c.party, c.tick, c.g.epoch, c.g.vc.bump c.party⟩

/-! ### Checks -/

/-- Checks 1 and 2 of R192 for every lane: natural alignment where `must`, then the region. -/
def Ex.check12 (x : Ex) (n : Nat) (must twin : Bool) (ak : AKind) (as : List Addr) : Option Trap :=
  (as.findSome? fun a => if misaligned a n must then some (trapA .badAddress a ak) else none).or
    (as.findSome? fun a => x.c.t.regionCheck a n twin x.c.g.priv ak)

/-- Check 3 for one lane: the pieces of a global access; a local one has none. -/
def State.lanePieces (s : State) (c : Ctx) (q : Want) (lane : Nat) (va : Addr) (n : Nat) : Except Trap LaneAddr × State :=
  if regionOf va = 2 then (.ok ⟨lane, va, []⟩, s)
  else match s.xlatPieces (some c.core) c.l.pkt.ctx q va n with
    | (.error t, s) => (.error t, s)
    | (.ok ps, s) => (.ok ⟨lane, va, ps⟩, s)

/-- Check 3 lane by lane: the lanes that pass before the first that fails, and its trap (R192, R193). -/
def State.lanesPieces (s : State) (c : Ctx) (q : Want) (n : Nat) :
    List (Nat × Addr) → List LaneAddr × Option Trap × State
  | [] => ([], none, s)
  | (i, a) :: r =>
    match s.lanePieces c q i a n with
    | (.error t, s) => ([], some t, s)
    | (.ok l, s) =>
      let (ls, t, s) := s.lanesPieces c q n r
      (l :: ls, t, s)

/-! ### Waits that keep program order -/

/-- The word carries `.ACQ`. -/
def isAcq : Instr → Bool
  | .ld x => x.acq
  | .atom x => x.acq
  | _ => false

/-- The word acquires when its result is delivered: an `.ACQ`, or a TNEXT (R305). -/
def acquires : Instr → Bool
  | .tnext _ => true
  | i => isAcq i

/-- An earlier acquire of the party has not read its value yet (R196, R305). -/
def Ctx.acqPending (c : Ctx) : Bool := c.family.any fun g => g.la.any fun e => !e.done && acquires e.word

/-- Bytes: a physical address, or a scratchpad or aperture offset above all of them, and a length. -/
abbrev Span := Nat × Nat

def localKey (va : Addr) : Nat := 2 ^ 64 + va.toNat % 2 ^ 32

/-- The bytes of a lane's access of `n` bytes. -/
def LaneAddr.spans (l : LaneAddr) (n : Nat) : List Span :=
  match l.ps with
  | [] => [(localKey l.va, n)]
  | ps => ps.map fun p => (p.pa, p.n)

/-- Bytes of an access of a word. -/
def wordBytes : Instr → Nat
  | .ld x => x.ty.bits / 8
  | .st x => x.ty.bits / 8
  | .lds x => x.ty.bits / 8
  | .sts x => x.ty.bits / 8
  | .atom x => if x.wide then 8 else 4
  | .atoms x => if x.wide then 8 else 4
  | _ => 4

/-- The bytes that an undelivered lookahead entry still touches. -/
def LaEnt.spans (e : LaEnt) : List Span :=
  if e.done then []
  else match e.op with
    | .load ls | .atomic ls _ _ => (ls.map fun l => l.spans (wordBytes e.word)).flatten
    | _ => []

def Posted.spans (p : Posted) : List Span :=
  (p.stores.map fun e => (e.1.pa, e.1.n)) ++ p.atoms.map fun e => (e.1.pa, e.1.n)

def spansMeet (a b : List Span) : Bool :=
  a.any fun x => b.any fun y => decide (x.1 < y.1 + y.2) && decide (y.1 < x.1 + x.2)

/-- The whole lines of bytes. -/
def wholeLines (ss : List Span) : List Span := ss.map fun x => (lineOf x.1, 128)

/-- An access to these bytes must wait for an earlier one of the party that is not performed: a read for posted writes and
atomics, a write for every access (R302, R307; log 6). -/
def Ctx.mustWait (c : Ctx) (ss : List Span) (write : Bool) : Bool :=
  c.acqPending ||
  c.family.any fun g =>
    (g.posted.any fun p => spansMeet p.spans ss) ||
    (g.la.any fun e =>
      (write || (match e.op with | .atomic _ _ _ => true | _ => false)) && spansMeet e.spans ss)

/-! ### Local accesses -/

/-- A local address of a row offset. -/
def localVa (o : Nat) : Addr := BitVec.ofNat 56 (2 ^ 55 + o)

/-- A local address names a lost line: of the scratchpad, or of a register (R295). -/
def Team.localLost (t : Team) (va : Addr) : Bool :=
  match t.localCheck va 1 .load with
  | .ok (.spad o) => t.spadLost o
  | .ok (.reg g r i) => (match t.grp? g with | some x => t.regLost x (2 * r + i / 32) | none => false)
  | .error _ => false

/-- The line at a local address has been stored whole. -/
def Team.localWhole (t : Team) (va : Addr) : Team :=
  match t.localCheck va 1 .store with
  | .ok (.spad o) => t.spadWhole o
  | .ok (.reg g r i) => (match t.grp? g with | some x => t.regsWhole x [2 * r + i / 32] | none => t)
  | .error _ => t

/-- The lines of local addresses that accesses of `n` bytes touch. -/
def localLines (n : Nat) (vas : List Addr) : List Addr :=
  (vas.flatMap fun a => [BitVec.ofNat 56 (lineOf a.toNat), BitVec.ofNat 56 (lineOf (a.toNat + n - 1))]).eraseDups

/-- The first lost line that local accesses of `n` bytes touch. -/
def Team.lostLine (t : Team) (n : Nat) (vas : List Addr) : Option Addr := (localLines n vas).find? t.localLost

/-- DATA-LOST of a local line: the record names it by its local address (log 28). -/
def localLostTrap (va : Addr) : Trap := trapE .dataLost (BitVec.ofNat 128 va.toNat)

/-- Scratchpad bytes of an element, and the registers of the aperture, read. A register whose chunk has been given up since the load
was accepted reads as 0, of which the spec says nothing: the model's choice (log 42). -/
def Team.localRead (t : Team) (va : Addr) (n : Nat) : List Byte :=
  match t.localCheck va n .load with
  | .ok (.spad o) => t.spadRead o n
  | .ok (.reg g r i) => bytesOf n ((match t.grp? g with | some x => (x.vreg r i).toNat | none => 0) % 256 ^ n)
  | .error _ => []

/-- Write bytes of one scratchpad element, marking its lines full (R201, R280). -/
def Team.spadStore (t : Team) (col : Bool) (o : Nat) (b : List Byte) : Team :=
  let n := b.length
  let t := ((spBytes col o n).zip b).foldl (fun t e => t.spadWrite e.1 [e.2]) t
  (spLines col o n).foldl (fun t l => t.markFull l []) t

/-- Write bytes at a local address: the scratchpad, or the low bytes of a register of the aperture (R36, R37). -/
def Team.localWrite (t : Team) (va : Addr) (b : List Byte) : Team :=
  match t.localCheck va b.length .store with
  | .ok (.spad o) => t.spadStore false o b
  | .ok (.reg g r i) =>
    match t.grp? g with
    | some x =>
      let old := (x.vreg r i).toNat
      let n := 256 ^ b.length
      t.setGrp (x.setV r i (BitVec.ofNat 32 (old / n * n + natOf b)))
    | none => t
  | .error _ => t

/-- The tracked words of a local access. -/
def localSpace (t : Team) (va : Addr) : Space × Nat :=
  let o := va.toNat % 2 ^ 32
  if o < 0x40000000 then (.spad t.ref.idx, o) else (.aper t.ref.idx, o)

/-- Track a local access (R352). -/
def State.trackLocal (s : State) (p : Pty) (t : Team) (va : Addr) (n : Nat) (write : Bool) (kind : Nat) :
    Option AccTag × State :=
  let (sp, o) := localSpace t va
  s.track p sp o n write kind

/-- The vector clock after waiting for full lines (R351; log 23). -/
def Team.fullJoin (t : Team) (ls : List Nat) (vc : VClock) : VClock :=
  ls.foldl (fun v o => v.join (Store.get [] t.fullVc (o / 128))) vc

/-- Rows of scratchpad lines of one lane's access at an offset. -/
def laneLines (col : Bool) (va : Addr) (n : Nat) : List Nat := spLines col (va.toNat % 2 ^ 32) n

/-- Whether a local access reaches the scratchpad. -/
def isSpad (t : Team) (va : Addr) : Bool := decide (va.toNat % 2 ^ 32 < t.spadSize)

/-- Touch the windows over the lines of a word (R209), once every earlier acquire of the party has read (R314). -/
def State.touchAll (s : State) (c : Ctx) (ls : List Nat) : State :=
  if c.acqPending then s else ls.foldl (fun s o => s.touch c.t.ref o c.issuer) s

/-- The ORDER-RACE of a party: its two records and the policy step (R352, R385). -/
def State.orderRace (s : State) (c : Ctx) (va : Addr) (o : AccTag) (epoch : Nat) (pc : Addr) : State :=
  s.takeTrap c.ref (raceTrap va o) (raceSecond { c.unit with pc := pc } o epoch) (pcAt := some pc)

end Sys2Proof.Machine
end

