-- ==== Sys2Proof/Machine/Flags.lean ====
section
/-! DEFINITION. The conditions of the sticky flags (R26, R27, R106) and the advance of the group stream state (R147).
The architecture has no other flags: compares write predicates. -/
namespace Sys2Proof.Machine

/-- `INV` is met: a NaN produced from operands none of which is a NaN (R106). -/
def invMet (res : ExactNum) (ops : List ExactNum) : Bool := res.isNan && ops.all fun x => !x.isNan

/-- A drawing word of R147: executed with `RM` = RS, or writing E4M3 under RNE. -/
def isDrawing (rm : RMode) (fmt : FTy) : Bool := rm == .rs || (rm == .rne && fmt == .e4m3)

/-- Seed and coordinate of lane `i`, half `h` (R147). -/
def Group.draw (g : Group) (i h : Nat) : Draw := ⟨g.seed.toNat, g.ctr.toNat * 2 ^ 32 + 2 * i + h⟩

/-- `CTR` advances after a drawing word (R147). -/
def Group.advance (g : Group) (rm : RMode) (fmt : FTy) : Group :=
  if isDrawing rm fmt then { g with ctr := g.ctr + 1 } else g

end Sys2Proof.Machine
end

