-- ==== Sys2Proof/Machine/Transc.lean ====
section
/-! DEFINITION. The transcendental functions of FEXP2, FLOG2 (R145), VACT and VDACT (R150), by fixed-point series with 384
fraction bits. The result rounds as the exact value does wherever the exact value lies farther than 2^-340 from a rounding
boundary, which holds for every FP32 argument whose result is not exact (log 15). -/
namespace Sys2Proof.Machine

/-- Fraction bits of the fixed-point values of this file. -/
def P : Nat := 384
/-- One in fixed point. -/
def one : Nat := 2 ^ P

/-- Sum of z^(2k+1) / (2k+1) over `n` terms, in fixed point: atanh z for |z| ≤ 1/3. `pw` is the running power. -/
def atanhLoop (z2 : Nat) : Nat → Nat → Nat → Nat → Nat
  | 0, _, _, acc => acc
  | n + 1, k, pw, acc => atanhLoop z2 n (k + 2) (pw * z2 / one) (acc + pw / k)

/-- atanh of a fixed-point value at most 1/3. -/
def atanhFix (z : Nat) : Nat := atanhLoop (z * z / one) 130 1 z 0

/-- ln 2 in fixed point: 2 atanh(1/3). -/
def ln2 : Nat := 2 * atanhFix (one / 3)

/-- Sum of the Taylor series of e^x from the term `t` on. -/
def expLoop (x : Nat) : Nat → Nat → Nat → Nat → Nat
  | 0, _, _, acc => acc
  | n + 1, k, t, acc => expLoop x n (k + 1) (t * x / one / k) (acc + t)

/-- e^x in fixed point for 0 ≤ x < 1. -/
def expFix (x : Nat) : Nat := expLoop x 90 1 one 0

/-- 2^y for a signed fixed-point y, as a positive value; beyond ±4000 it stands for a value out of every format's range. -/
def exp2Num (y : Int) : ExactNum :=
  let k := y / (one : Int)
  if 4000 < k then .fin false (2 ^ 4000) 1
  else if k < -4000 then .fin false 1 (2 ^ 4000)
  else
    let f := (y % (one : Int)).toNat
    let m := expFix (f * ln2 / one)
    if 0 ≤ k then .fin false (m * 2 ^ k.toNat) one else .fin false m (one * 2 ^ (-k).toNat)

/-- A value in fixed point, rounded down; magnitudes beyond 2^20 are cut there. -/
def toFix : ExactNum → Int
  | .fin s n d =>
    let m : Nat := if d * 2 ^ 20 ≤ n then one * 2 ^ 20 else n * one / d
    if s then -(m : Int) else (m : Int)
  | .inf s => if s then -((one * 2 ^ 20 : Nat) : Int) else ((one * 2 ^ 20 : Nat) : Int)
  | .nan => 0

/-- 2^x (R145). An integer argument is exact; an argument whose result differs from 1 by less than 2^-160 stands for that
side of 1. -/
def fexp2Num (x : ExactNum) : ExactNum :=
  match x with
  | .fin s n d =>
    if n = 0 then .fin false 1 1
    else if n % d = 0 then
      (if n / d ≤ 4000 then (if s then .fin false 1 (2 ^ (n / d)) else .fin false (2 ^ (n / d)) 1)
       else (if s then .fin false 1 (2 ^ 4000) else .fin false (2 ^ 4000) 1))
    else exp2Num (toFix x)
  | .inf s => if s then .fin false 0 1 else .inf false
  | .nan => .nan

/-- ln(m) in fixed point for a fraction 1 ≤ n/d < 2. -/
def lnFix (n d : Nat) : Nat := 2 * atanhFix ((n - d) * one / (n + d))

/-- A signed fixed-point value over `one`. -/
def ofFix (y : Int) : ExactNum := .fin (y < 0) y.natAbs one

/-- log2 x for a positive fraction (R145); exact for powers of two. -/
def log2Num (n d : Nat) : ExactNum :=
  let e := floorLog2 n d
  let (a, b) := if 0 ≤ e then (n, d * 2 ^ e.toNat) else (n * 2 ^ (-e).toNat, d)
  if a = b then ExactNum.ofInt e
  else ofFix (e * (one : Int) + ((lnFix a b * one / ln2 : Nat) : Int))

/-- ln x for a positive fraction, in signed fixed point. -/
def lnNum (n d : Nat) : Int :=
  let e := floorLog2 n d
  let (a, b) := if 0 ≤ e then (n, d * 2 ^ e.toNat) else (n * 2 ^ (-e).toNat, d)
  e * (ln2 : Int) + (lnFix a b : Int)

/-- e^x. -/
def expNum (x : ExactNum) : ExactNum := exp2Num (toFix x * (one : Int) / (ln2 : Int))

/-- Sum of x^(2n+1) / (2n+1)!! in fixed point. -/
def phiLoop (x2 : Nat) : Nat → Nat → Nat → Nat → Nat
  | 0, _, _, acc => acc
  | n + 1, k, t, acc => phiLoop x2 n (k + 2) (t * x2 / one / k) (acc + t)

/-- Sum of (−1)^k / ((2k+1) q^(2k+1)) in fixed point: arctan(1/q). -/
def atanLoop (q2 : Nat) : Nat → Nat → Nat → Int → Int → Int
  | 0, _, _, _, acc => acc
  | n + 1, k, t, sg, acc => atanLoop q2 n (k + 2) (t / q2) (-sg) (acc + sg * ((t / k : Nat) : Int))

/-- π in fixed point, by Machin's formula. -/
def piFix : Nat := (16 * atanLoop 25 170 1 (one / 5) 1 0 - 4 * atanLoop 57121 60 1 (one / 239) 1 0).toNat

/-- The density of the standard normal distribution at a fixed-point |x| below 16, in fixed point. -/
def normDensity (x : Nat) : Nat :=
  let e := exp2Num (-((x * x / one / 2 * one / ln2 : Nat) : Int))
  let root := isqrt (2 * piFix * one)
  match e with
  | .fin _ n d => n * one / d * one / root
  | _ => 0

/-- Φ(|x|) − 1/2 in fixed point, for |x| below 16. -/
def phiHalf (x : Nat) : Nat := normDensity x * phiLoop (x * x / one) 900 3 x 0 / one

/-! ### The activation functions (R150) -/

/-- The exact value of `VACT.fn` at a finite argument that is not zero, to the precision of this file. For arguments where
the value lies nearer to a bound of the function than any format can tell, it stands strictly inside that bound. -/
def actNum (fn : ActFn) (x : ExactNum) : ExactNum :=
  match x with
  | .fin s n d =>
    match fn with
    | .relu => if s then .fin false 0 1 else x
    | .exp => expNum x
    | .sig => (ExactNum.fin false 1 1).div ((ExactNum.fin false 1 1).add false (expNum x.neg))
    | .tanh =>
      -- small arguments: tanh x = x − x³/3 + ..., strictly below |x|
      if n * 2 ^ 100 < d then .fin s (n * (2 ^ 210 - 1)) (d * 2 ^ 210)
      else
        match expNum (.fin false (2 * n) d) with
        | .fin _ a b => .fin s (a - b) (a + b)
        | y => y
    | .softplus =>
      match expNum (.fin true n d) with
      | .fin _ a b =>
        -- ln(1 + t) with t = e^−|x|
        let small := decide (a * 2 ^ 180 < b)
        let l : ExactNum := if small then .fin false a b else ofFix (lnNum (a + b) b)
        if s then l else (ExactNum.fin false n d).add false l
      | y => y
    | .gelu =>
      if d * 15 ≤ n then (if s then .fin true 1 (2 ^ 1000) else .fin false (n * (2 ^ 400 - 1)) (d * 2 ^ 400))
      else
        let h := phiHalf (n * one / d)
        if s then (ExactNum.fin true n d).mul (ofFix ((one / 2 : Nat) - (h : Int)))
        else (ExactNum.fin false n d).mul (ofFix ((one / 2 : Nat) + (h : Int)))
  | y => y

/-- The values at zeros and infinities (R150), where the table gives them exactly; `none` for ln 2 at a zero of softplus. -/
def actSpecial (fn : ActFn) (x : ExactNum) : Option ExactNum :=
  match x with
  | .nan => some .nan
  | .inf s =>
    match fn with
    | .sig => some (if s then .fin false 0 1 else .fin false 1 1)
    | .tanh => some (.fin s 1 1)
    | .exp | .relu | .softplus => some (if s then .fin false 0 1 else .inf false)
    | .gelu => some (if s then .fin true 0 1 else .inf false)
  | .fin s 0 _ =>
    match fn with
    | .sig => some (.fin false 1 2)
    | .tanh | .gelu => some (.fin s 0 1)
    | .exp => some (.fin false 1 1)
    | .relu => some (.fin false 0 1)
    | .softplus => none
  | .fin _ _ _ => none

/-- ln 2 as a value. -/
def ln2Num : ExactNum := .fin false ln2 one

/-- 1 − e^(−y) for the derivative of softplus (R150). -/
def softplusDeriv (y : ExactNum) : ExactNum :=
  match y with
  | .nan => .nan
  | .inf s => if s then .inf true else .fin false 1 1
  | .fin s n d =>
    if n = 0 then .fin false 0 1
    else if n * 2 ^ 100 < d then
      (if s then .fin true (n * (2 ^ 210 + 1)) (d * 2 ^ 210) else .fin false (n * (2 ^ 210 - 1)) (d * 2 ^ 210))
    else (ExactNum.fin false 1 1).add false ((expNum y.neg).neg)

end Sys2Proof.Machine
end

