-- ==== Sys2Proof/Machine/Float.lean ====
section
/-! DEFINITION. The floating-point instructions (R142 to R146). -/
namespace Sys2Proof.Machine

/-- Bits of half `h` of a source in lane `i`. -/
def Ex.fbits (x : Ex) (t : FTy) (o : Opnd) (imm : W32) (i h : Nat) : Nat :=
  x.val o 32 false imm i / 2 ^ (16 * h) % 2 ^ t.fmt.width

/-- The value of half `h` of a source: an immediate of an unpacked 16-bit form is an FP32 value (R142). -/
def Ex.fval (x : Ex) (t : FTy) (o : Opnd) (imm : W32) (i h : Nat) : ExactNum :=
  if o = .imm ∧ (t = .f16 ∨ t = .bf16) then f32 imm.toNat else decodeNum t.fmt (x.fbits t o imm i h)

/-- Codes of the halves as one register. -/
def joinHalves (cs : List Nat) : Nat := cs.foldr (fun c a => c + 2 ^ 16 * a) 0

/-- A result of a half: the exact value, and its operands for the condition of `INV`. -/
structure FRes where
  val : ExactNum
  ops : List ExactNum
deriving DecidableEq, Repr

/-- Write the rounded results of a floating word, set `INV`, and advance the stream state (R106, R142, R147). -/
def fpBody (d : Opnd) (rm : RMode) (t : FTy) (f : Ex → Nat → Nat → FRes) (x : Ex) (s : State) : Eff :=
  let out := x.lanes.map fun i => (i, t.halves.map fun h => (h, f x i h))
  let inv := out.any fun e => e.2.any fun r => invMet r.2.val r.2.ops
  let vals := out.map fun e => (e.1, joinHalves (e.2.map fun r => round t.fmt rm r.2.val (x.c.g.draw e.1 r.1)))
  .done (s.modGroup x.c.ref fun g => (g.flag .inv inv).advance rm t) (laneWrs d 1 vals) none

/-- A word of one source. -/
def fp1Body (w : Fp1) (f : ExactNum → ExactNum) : Ex → State → Eff :=
  fpBody w.d w.rm w.ft fun x i h =>
    let a := x.fval w.ft w.a w.imm i h
    ⟨f a, [a]⟩

/-- A word of two sources. -/
def fp2Body (w : Fp2) (f : ExactNum → ExactNum → ExactNum) : Ex → State → Eff :=
  fpBody w.d w.rm w.ft fun x i h =>
    let a := x.fval w.ft w.a w.imm i h
    let b := x.fval w.ft w.b w.imm i h
    ⟨f a b, [a, b]⟩

/-- FADD (R143). -/
def faddVal (rm : RMode) (a b : ExactNum) : ExactNum := a.add (rm == .rdn) b
/-- FFMA: rounded once (R143). -/
def ffmaVal (rm : RMode) (a b c : ExactNum) : ExactNum := (a.mul b).add (rm == .rdn) c

/-- FMIN and FMAX return one operand unchanged; an immediate of an unpacked 16-bit form is rounded (R144). -/
def minmaxBody (w : Fp2) (max : Bool) (x : Ex) (s : State) : Eff :=
  let code (o : Opnd) (i h : Nat) : Nat :=
    if o = .imm then round w.ft.fmt .rne (x.fval w.ft o w.imm i h) else x.fbits w.ft o w.imm i h
  let pick (i h : Nat) : Nat :=
    let a := x.fval w.ft w.a w.imm i h
    let b := x.fval w.ft w.b w.imm i h
    if a.isNan && b.isNan then w.ft.fmt.nanCode
    else if a.isNan then code w.b i h
    else if b.isNan then code w.a i h
    else if (if max then a.below b else b.below a) then code w.b i h else code w.a i h
  Eff.writes s (laneWrs w.d 1 (x.lanes.map fun i => (i, joinHalves (w.ft.halves.map (pick i)))))

/-- A comparison of FCMP (R144). -/
def fcmpVal (c : FCond) (a b : ExactNum) : Bool :=
  let nan := a.isNan || b.isNan
  match c with
  | .eq => !nan && a.cmp b == .eq
  | .lt => !nan && a.cmp b == .lt
  | .le => !nan && a.cmp b != .gt
  | .gt => !nan && a.cmp b == .gt
  | .ge => !nan && a.cmp b != .lt
  | .ne => nan || a.cmp b != .eq
  | .num => !nan
  | .nan => nan

/-- 1/a (R145). -/
def frcpVal (a : ExactNum) : ExactNum := (ExactNum.fin false 1 1).div a

/-- 1/√a (R145). -/
def frsqVal (a : ExactNum) : ExactNum :=
  match a with
  | .nan => .nan
  | .inf s => if s then .nan else .fin false 0 1
  | .fin s n d => if n = 0 then .inf s else if s then .nan else sqrtNum d n

/-- √a (R145). -/
def fsqrtVal (a : ExactNum) : ExactNum :=
  match a with
  | .nan => .nan
  | .inf s => if s then .nan else .inf false
  | .fin s n d => if n = 0 then .fin s 0 1 else if s then .nan else sqrtNum n d

/-- log2 a (R145). -/
def flog2Val (a : ExactNum) : ExactNum :=
  match a with
  | .nan => .nan
  | .inf s => if s then .nan else .inf false
  | .fin s n d => if n = 0 then .inf true else if s then .nan else log2Num n d

/-- Round a value to a 32-bit signed integer: a NaN gives 0, a value beyond the range its nearer end (R146). -/
def toI32 (rm : RMode) (a : ExactNum) : Int :=
  match a with
  | .nan => 0
  | .inf s => if s then -(2 ^ 31 : Nat) else (2 ^ 31 : Nat) - 1
  | .fin s n d =>
    let q := n / d
    let r := n % d
    let up := r != 0 && (match rm with
      | .rne => decide (d < 2 * r) || (decide (2 * r = d) && q % 2 == 1)
      | .rup => !s
      | .rdn => s
      | _ => false)
    let m : Nat := if up then q + 1 else q
    let y : Int := if s then -(m : Int) else (m : Int)
    if y < -(2 ^ 31 : Nat) then -(2 ^ 31 : Nat) else if (2 ^ 31 : Nat) - 1 < y then (2 ^ 31 : Nat) - 1 else y

/-- The value that CVT converts in half `h` (R146). -/
def cvtVal (w : CvtW) (x : Ex) (i h : Nat) : ExactNum :=
  match w.src with
  | .toI32 => x.fval .f32 w.a w.imm i 0
  | .int t => ExactNum.ofInt (if t.signed then sext (x.val w.a t.bits true w.imm i) t.bits else (x.val w.a t.bits false w.imm i : Int))
  | .fp t =>
    match w.b with
    | some b => x.fval .f32 (if h = 0 then w.a else b) w.imm i 0
    | none => x.fval t w.a w.imm i h

/-- CVT never sets `INV` (R146). -/
def cvtBody (w : CvtW) (x : Ex) (s : State) : Eff :=
  match w.src with
  | .toI32 => Eff.writes s (laneWrs w.d 1 (x.lanes.map fun i => (i, wrap (toI32 w.rm (cvtVal w x i 0)) 32)))
  | _ =>
    let vals := x.lanes.map fun i =>
      (i, joinHalves (w.ft.halves.map fun h => round w.ft.fmt w.rm (cvtVal w x i h) (x.c.g.draw i h)))
    .done (s.modGroup x.c.ref fun g => g.advance w.rm w.ft) (laneWrs w.d 1 vals) none

def execFadd (x : Fp2) (s : State) : Host.Outcome State Fault Refusal :=
  runWord (.fadd x) (fp2Body x (faddVal x.rm)) s

def execFmul (x : Fp2) (s : State) : Host.Outcome State Fault Refusal :=
  runWord (.fmul x) (fp2Body x ExactNum.mul) s

def execFfma (x : Fp3) (s : State) : Host.Outcome State Fault Refusal :=
  runWord (.ffma x) (fpBody x.d x.rm x.ft fun e i h =>
    let a := e.fval x.ft x.a x.imm i h
    let b := e.fval x.ft x.b x.imm i h
    let c := e.fval x.ft x.c x.imm i h
    ⟨ffmaVal x.rm a b c, [a, b, c]⟩) s

def execFmin (x : Fp2) (s : State) : Host.Outcome State Fault Refusal :=
  runWord (.fmin x) (minmaxBody x false) s

def execFmax (x : Fp2) (s : State) : Host.Outcome State Fault Refusal :=
  runWord (.fmax x) (minmaxBody x true) s

/-- FCMP: a predicate bit in each active lane (R144). -/
def execFcmp (x : FcmpW) (s : State) : Host.Outcome State Fault Refusal :=
  runWord (.fcmp x) (fun e s =>
    Eff.writes s (predWr x.d e.act (maskOf (e.lanes.filter fun i =>
      fcmpVal x.cc (e.fval x.ft x.a x.imm i 0) (e.fval x.ft x.b x.imm i 0))))) s

def execFrcp (x : Fp1) (s : State) : Host.Outcome State Fault Refusal :=
  runWord (.frcp x) (fp1Body x frcpVal) s

def execFrsq (x : Fp1) (s : State) : Host.Outcome State Fault Refusal :=
  runWord (.frsq x) (fp1Body x frsqVal) s

def execFsqrt (x : Fp1) (s : State) : Host.Outcome State Fault Refusal :=
  runWord (.fsqrt x) (fp1Body x fsqrtVal) s

def execFexp2 (x : Fp1) (s : State) : Host.Outcome State Fault Refusal :=
  runWord (.fexp2 x) (fp1Body x fexp2Num) s

def execFlog2 (x : Fp1) (s : State) : Host.Outcome State Fault Refusal :=
  runWord (.flog2 x) (fp1Body x flog2Val) s

def execCvt (x : CvtW) (s : State) : Host.Outcome State Fault Refusal :=
  runWord (.cvt x) (cvtBody x) s

end Sys2Proof.Machine
end

