-- ==== Sys2Proof/Machine/Acc.lean ====
section
/-! DEFINITION. Accumulator tiles, their owners and the drain windows as the groups reach them (R20, R243 to R246): ATAKE, AGIVE,
ALD, AST and AWIN. -/
namespace Sys2Proof.Machine

/-! ### Elements, owners, windows -/

/-- Key of element (r, c) of a tile. -/
def accKey (t r c : Nat) : Nat := 16384 * t + 128 * r + c

def Team.accGet (t : Team) (tile r c : Nat) : W48 := Store.get 0 t.acc (accKey tile r c)

def Team.accSet (t : Team) (tile r c : Nat) (x : W48) : Team := { t with acc := Store.set 0 t.acc (accKey tile r c) x }

/-- The owner field of a tile: a group, or 64 for the sequencer (R20). -/
def Team.ownerOf (t : Team) (tile : Nat) : Nat := t.owner.getD tile 64

/-- The owner field changes, with what the change releases (R243). -/
def Team.setOwner (t : Team) (tile o : Nat) (vc : VClock) : Team :=
  { t with owner := t.owner.setIfInBounds tile o, tileVc := t.tileVc.setIfInBounds tile ((t.tileVc.getD tile []).join vc) }

/-- A drain window that is not published. -/
def DrainWin.none : DrainWin := ⟨0, 0, 0, 0, false⟩

def Team.drain (t : Team) (k : Nat) : DrainWin := t.dwin.getD k DrainWin.none

/-- Rows `a` to `b` of a tile meet a published window; its number. -/
def Team.drainMeets (t : Team) (tile a b : Nat) : Option Nat :=
  (List.range 2).find? fun k =>
    let d := t.drain k
    d.pub && d.tile == tile && decide (d.base ≤ b) && decide (a ≤ d.limit)

/-- The trap ACC-OWNER (R447). -/
def trapOwner (t : Team) (tile : Nat) : Trap := trapE .accOwner (info2 tile (t.ownerOf tile))

/-- The trap ACC-WINDOW (R447). -/
def trapDrain (tile k : Nat) : Trap := trapE .accWindow (info2 tile k)

/-- A group of the team that has not ended. -/
def Team.isLive (t : Team) (g : Nat) : Bool := match t.grp? g with | some x => x.live | none => false

/-! ### Unfinished mesh words (R235) -/

/-- `N` of a row operand (R228). -/
def rowN (b : W32) : Nat := b.toNat % 256

/-- The tiles and rows that a mesh word reads or writes: tile, first row, count. -/
def MeshWord.rowsOf (m : MeshWord) : List (Nat × Nat × Nat) :=
  let one (t : Nat) : Nat × Nat × Nat := (t, m.d.toNat, rowN m.b)
  match m.word with
  | .mstreamF w => one w.t.val :: (if w.both then [one (w.t.val + 4)] else [])
  | .mstreamB w => one w.t.val :: (if w.both then [one (w.t.val + 4)] else [])
  | .mzero w => [one w.t.val]
  | .mscale w => [one w.t.val]
  | .mdrain w => [one w.t.val]
  | .mdrainT w => [one w.t.val]
  | _ => []

/-- An unfinished mesh word reads or writes a row from `a` to `b` of a tile. -/
def Team.meshOn (t : Team) (tile a b : Nat) : Bool :=
  t.mq.any fun m => m.rowsOf.any fun e => e.1 == tile && decide (e.2.1 ≤ b) && decide (a < e.2.1 + e.2.2)

/-! ### Values (R245) -/

/-- The storage format of an accumulator value; `none` for raw XF48. -/
def accFmt : AFmt → Option Fmt
  | .f32 => some FP32
  | .f16 => some FP16
  | .bf16 => some BF16
  | .x48 => none

/-- The value that ALD gives. -/
def aldVal (rm : RMode) (ft : AFmt) (x : W48) : Nat :=
  match accFmt ft with
  | some f => round f rm (decodeNum XF48 x.toNat)
  | none => x.toNat

/-- The element that AST stores. -/
def astVal (ft : AFmt) (x : Nat) : W48 :=
  match accFmt ft with
  | some f => BitVec.ofNat 48 (round XF48 .rne (decodeNum f (x % 2 ^ f.width)))
  | none => BitVec.ofNat 48 x

/-! ### ATAKE and AGIVE -/

def atakeBody (w : AtakeW) (x : Ex) (s : State) : Eff :=
  let t := w.t.val
  if x.c.t.ownerOf t = x.c.g.idx then
    .done (s.modGroup x.c.ref fun g => { g with vc := g.vc.join (x.c.t.tileVc.getD t []) }) [] none
  else .wait (.atake t)

/-- An ALD of the group on a tile has not delivered its result. -/
def Group.aldOn (g : Group) (tile : Nat) : Bool :=
  g.la.any fun e => !e.done && (match e.word with | .ald w => w.t.val == tile | _ => false)

def agiveBody (w : AgiveW) (x : Ex) (s : State) : Eff :=
  let t := w.t.val
  let g := x.uval w.a 32 false w.imm
  if x.c.t.ownerOf t ≠ x.c.g.idx ∨ 64 < g ∨ (g < 64 ∧ x.c.t.isLive g = false) then .trap (trapOwner x.c.t t)
  else if x.c.g.aldOn t then .wait .engine
  else .done (s.modTeam x.c.ref.t fun u => u.setOwner t g (x.c.g.vc.bump x.c.party)) [] none

/-! ### ALD and AST -/

/-- The check of one lane: its element, or the trap. -/
def Ex.accElem (x : Ex) (tile : Nat) (a : Opnd) (off : W32) (i : Nat) : Except Trap (Nat × Nat) :=
  let e : Int := (x.val a 32 false 0 i : Nat) + sext off.toNat 32
  if e < 0 ∨ 16383 < e then .error (trapE .badAddress (BitVec.ofInt 128 (e % 2 ^ 56)))
  else
    let r := e.toNat / 128
    let window := (List.range 2).any fun k =>
      let d := x.c.t.drain k
      d.pub && d.tile == tile && d.grp == x.c.g.idx && decide (d.base ≤ r) && decide (r ≤ d.limit)
    if x.c.t.ownerOf tile = x.c.g.idx ∨ window = true then .ok (r, e.toNat % 128) else .error (trapOwner x.c.t tile)

/-- The elements of every active lane. -/
def Ex.accElems (x : Ex) (tile : Nat) (a : Opnd) (off : W32) : Except Trap (List (Nat × Nat × Nat)) :=
  x.lanes.foldr (fun i r =>
    match x.accElem tile a off i with
    | .error t => .error t
    | .ok e => match r with
      | .error t => .error t
      | .ok l => .ok ((i, e) :: l)) (.ok [])

/-- ALD reads its elements at acceptance; its registers are written when it is delivered (log 5). -/
def aldBody (w : AldW) (x : Ex) (s : State) : Eff :=
  match x.accElems w.t.val w.a w.off with
  | .error t => .trap t
  | .ok es =>
    let n := if w.ft = .x48 then 2 else 1
    Eff.writes s (laneWrs w.d n (es.map fun e => (e.1, aldVal w.rm w.ft (x.c.t.accGet w.t.val e.2.1 e.2.2))))

def astBody (w : AstW) (x : Ex) (s : State) : Eff :=
  match x.accElems w.t.val w.a w.off with
  | .error t => .trap t
  | .ok es =>
    let n := if w.ft = .x48 then 64 else 32
    .done (s.modTeam x.c.ref.t fun t =>
      es.foldl (fun t e => t.accSet w.t.val e.2.1 e.2.2 (astVal w.ft (x.val w.d n false 0 e.1))) t) [] none

/-! ### AWIN (R246) -/

/-- AWIN by a group other than group 0 (R383). -/
def notLeader (x : Ex) : Option Trap := if x.c.g.idx = 0 then none else some (trapPriv (wordLow x.word) 4)

def awinBody (w : AwinW) (x : Ex) (s : State) : Eff :=
  let t := w.t.val
  let a := x.uval w.a 32 false 0
  let b := x.uval w.b 32 false 0
  match notLeader x with
  | some e => .trap e
  | none =>
    if x.c.t.ownerOf t ≠ 64 ∨ x.c.t.groups.length ≤ w.g.val then .trap (trapOwner x.c.t t)
    else if (x.c.t.drain w.k.val).pub || decide (b < a) || decide (127 < b) || (x.c.t.drainMeets t a b).isSome then
      .trap (trapDrain t w.k.val)
    else if x.c.t.meshOn t a b then .wait .engine
    else
      .done (s.modTeam x.c.ref.t fun u => { u with dwin := u.dwin.setIfInBounds w.k.val ⟨a, b, t, w.g.val, true⟩ }) [] none

def awinUnpBody (w : AwinUnpW) (x : Ex) (s : State) : Eff :=
  let d := x.c.t.drain w.k.val
  match notLeader x with
  | some e => .trap e
  | none =>
    if d.pub && (match x.c.t.grp? d.grp with | some g => g.aldOn d.tile | none => false) then .wait .engine
    else .done (s.modTeam x.c.ref.t fun u => { u with dwin := u.dwin.setIfInBounds w.k.val { d with pub := false } }) [] none

/-! ### Meanings -/

def execAtake (x : AtakeW) (s : State) : Host.Outcome State Fault Refusal := runWord (.atake x) (atakeBody x) s

def execAgive (x : AgiveW) (s : State) : Host.Outcome State Fault Refusal := runWord (.agive x) (agiveBody x) s

def execAld (x : AldW) (s : State) : Host.Outcome State Fault Refusal := runWord (.ald x) (aldBody x) s

def execAst (x : AstW) (s : State) : Host.Outcome State Fault Refusal := runWord (.ast x) (astBody x) s

def execAwin (x : AwinW) (s : State) : Host.Outcome State Fault Refusal := runWord (.awin x) (awinBody x) s

def execAwinUnp (x : AwinUnpW) (s : State) : Host.Outcome State Fault Refusal := runWord (.awinUnp x) (awinUnpBody x) s

end Sys2Proof.Machine
end

