-- ==== Sys2Proof/Machine/Tokens.lean ====
section
/-! DEFINITION. Reconvergence tokens (R162 to R165): the highest open token, and `resume`. -/
namespace Sys2Proof.Machine

/-- The highest-indexed open token. -/
def Group.topTok (g : Group) : Option Nat := ((List.range 8).filter fun k => (g.tok k).mem != 0).getLast?

/-- The trap TOKEN. -/
def trapTok (k : Nat) : Trap := trapE .token (BitVec.ofNat 128 k)

/-- How `resume` ends. -/
inductive Resumed where
  | go (g : Group)
  /-- Every member of token `k` that is not ejected has arrived. -/
  | blocked (k : Nat) (g : Group)
  | ended (g : Group)
  | token (k : Nat)

/-- Token `k` completes: its members continue at its join address, after what its rejoined continuations did (R165, R169). -/
def Group.complete (g : Group) (k : Nat) : Group :=
  let t := g.tok k
  let vc := VClock.join g.vc (Store.get [] g.tokVc k)
  ({ g with exec := t.mem, pc := t.ja, vc := vc, tokVc := Store.set [] g.tokVc k [] }).setTok k { t with mem := 0, arr := 0 }

/-- `resume` with pending entries still to pop (R165). -/
def resumeLoop : List Pend → Group → Resumed
  | ps, g =>
    let done := match g.topTok with
      | none => none
      | some k =>
        let t := g.tok k
        if (g.pend.all fun e => e.tok.val != k) && (t.arr ||| t.ej) == t.mem then some k else none
    match done with
    | some k => if (g.tok k).ej ≠ 0 then .blocked k g else .go (g.complete k)
    | none =>
      match ps with
      | e :: r =>
        let g := { g with exec := e.mask, pc := e.pc, pend := r }
        if e.mask = 0 then resumeLoop r g else .go g
      | [] => match g.topTok with | none => .ended g | some k => .token k

/-- `resume()` of R165. -/
def Group.resume (g : Group) : Resumed := if g.exec = 0 then resumeLoop g.pend g else .go g

end Sys2Proof.Machine
end

