-- ==== Sys2Proof/Machine/Fetch.lean ====
section
/-! DEFINITION. Fetching: line words (R75, R87 to R91), entries (R89), and what a group or a sequencer meets at its program
counter before its word is executed (R100 to R102). -/
namespace Sys2Proof.Machine

/-- The 64 bytes of the fetch line of an address, and the state after its translation. A fetch in region 01 or 10, or from
a SYSTEM page, is refused with PERMISSION (log 26), and so is one in region 11 without `PRIV` (R38). -/
def State.fetchLine (s : State) (core ctx : Nat) (priv : Bool) (a : Addr) : Except Trap (List Byte) × State :=
  if regionOf a = 1 ∨ regionOf a = 2 ∨ (regionOf a = 3 ∧ priv = false) then (.error (trapA .permission a .fetch), s)
  else
    match s.xlat (some core) ctx a (wantFetch priv) with
    | .error t => (.error t, s)
    | .ok p =>
      let pa := paOf p a / 64 * 64
      let s := s.tlbFill (some core) ctx a p
      if pteSystem p then (.error (trapA .permission a .fetch), s)
      else if s.isLost pa then (.error (trapE .dataLost (BitVec.ofNat 128 (lineOf pa))), s)
      else (.ok (s.mem.read pa 64), s)

/-- Slot of an address, if its low bits name one (R26). -/
def slotOf (a : Addr) : Option Nat :=
  let o := a.toNat % 64
  if o % 12 = 0 ∧ o ≤ 48 then some (o / 12) else none

/-- Word `k` of a line. -/
def lineSlot (l : List Byte) (k : Nat) : W96 := wordOfBytes (sub l (12 * k) 12)

/-- The line word. -/
def lineWord (l : List Byte) : Nat := numAt l 60 4

/-- Why an entry to `a` is not legal, or what its fetch meets: a BAD-PTE is a data fault record here (R89). -/
def State.entryTrap (s : State) (core ctx : Nat) (priv : Bool) (a : Addr) : Option Trap :=
  match slotOf a with
  | none => some (trapA .illegalTarget a .fetch)
  | some k =>
    match (s.fetchLine core ctx priv a).1 with
    | .error t => some { t with event := t.cause == .badPte }
    | .ok l => if bitAt (lineWord l) (5 + k) then none else some (trapA .illegalTarget a .fetch)

/-- Registers that a word writes, for R91: p7 is written by nothing. -/
def pairWrites (v : View) : List Dest := v.dests.filter fun d => d != .p 7

/-- The class that a pairing code names (R90). -/
def pairClass (code : Nat) (op : Nat) : Bool :=
  if code = 1 then decide (1 ≤ op) && decide (op ≤ 0x16)
  else if code = 2 then (decide (0x41 ≤ op) && decide (op ≤ 0x46)) || op == 0x4C
  else decide (0x21 ≤ op) && decide (op ≤ 0x36)

/-- A word of a pair names no queue, no latch, and holds nothing (R91). -/
def pairPlain (v : View) : Bool :=
  v.h.hold == .none && v.refs.all fun r => r.o.cls != .q && r.o.cls != .l

/-- The view of bits that may be no instruction: their fields, as registers by their codes. -/
def rawView (w : W96) : View :=
  let f := Fields.unpack w
  let ref (c : BitVec 9) (write : Bool) : Option Ref := (Opnd.ofCode c).map fun o => ⟨o, 1, 1, [], .any, write⟩
  ⟨.vector, false, f.hdr, ref f.d true, ref f.a false, ref f.b false, ref f.c false, none⟩

/-- What R91 looks at in a word: the class of a pair goes by its `OP`, so a word that is no instruction may stand in one, and
is then ILLEGAL by itself. -/
def pairView (w : W96) (width : Nat) : View :=
  match decodeWord w with
  | .ok i => (i.view width).getD (rawView w)
  | .error _ => rawView w

/-- Field `k` of the pairing template breaks R91. -/
def pairBad (l : List Byte) (width k : Nat) : Bool :=
  let code := bits (lineWord l) (2 * k + 11) (2 * k + 10)
  if code = 0 then false
  else
    let w1 := lineSlot l k
    let w2 := lineSlot l (k + 1)
    let v1 := pairView w1 width
    let v2 := pairView w2 width
    let ws := pairWrites v1
    !(pairClass code (w1.toNat % 256) && pairClass code (w2.toNat % 256) && pairPlain v1 && pairPlain v2 &&
      !bitAt (lineWord l) (6 + k) && !(v2.touches.any ws.contains) && !((pairWrites v2).any v1.touches.contains))

/-- The pairing field that covers slot `k` and breaks R91, if any: the lower-numbered slot of its pair. Where both fields that cover
the slot break it, field `k` is named, which is the model's choice (log 36). -/
def pairFault (l : List Byte) (width k : Nat) : Option Nat :=
  if k ≤ 3 ∧ pairBad l width k = true then some k
  else if 1 ≤ k ∧ pairBad l width (k - 1) = true then some (k - 1)
  else none

/-- `INFO` of FETCH and FETCH-ERROR: line address and slot (R447). -/
def fetchInfo (a : Addr) (k : Nat) : W128 := info2 (a.toNat / 64 * 64) k

/-- What a party meets at its program counter. -/
inductive Fetched where
  | trap (t : Trap)
  /-- A word that is no instruction, with its bits. -/
  | bad (w : W96)
  | word (i : Instr)
deriving DecidableEq, Repr

/-- Fetch and check the word at `a` (R87, R88, R91, R101 items 1 and 2); `pairs` asks for the check of the pairing fields, which concerns
a group (R91) and no sequencer (R224). -/
def State.fetchWord (s : State) (core ctx : Nat) (priv pairs : Bool) (width : Nat) (a : Addr) : Fetched × State :=
  match slotOf a with
  | none => (.trap (trapA .illegalTarget a .fetch), s)
  | some k =>
    match s.fetchLine core ctx priv a with
    | (.error t, s) => (.trap t, s)
    | (.ok l, s) =>
      let w := lineSlot l k
      if lineWord l / 2 ^ 18 ≠ 0 then (.trap (trapE .fetch (fetchInfo a k)), s)
      else match (if pairs then pairFault l width k else none) with
        | some j => (.trap (trapE .fetch (fetchInfo a j)), s)
        | none =>
          if parity w != bitAt (lineWord l) k then (.trap (trapE .fetchError (fetchInfo a k)), s)
          else match decodeWord w with
            | .ok i => (.word i, s)
            | .error _ => (.bad w, s)

/-- The cause ILLEGAL of a word by its bits (R447). -/
def illegalWord (w : W96) : Trap := trapE .illegal (BitVec.ofNat 128 (w.toNat % 2 ^ 64))

/-- What a group does before its word executes: the state it is left in, or the word to execute with the state. -/
inductive Pre where
  | settled (s : State)
  | word (i : Instr) (s : State)

/-- The party issues nothing: stopped, parked, ended, or waiting at a YIELD for a save (R393). -/
def Group.held (g : Group) : Bool :=
  (match g.st with | .stopped | .parked | .ended => true | _ => false) || g.wait == .yielded

/-- A result of a word that was saved with its destination owed is still to be written (R396). -/
def Group.owes (g : Group) : Bool := g.la.any fun e => !e.done && !e.owed.isEmpty

/-- A group whose `EXEC` is empty runs `resume` again: it waited on ejected lanes (R165). -/
def State.resumeLanes (s : State) (r : GRef) (c : Ctx) : State :=
  match c.g.resume with
  | .go g => s.setGroup r { g with wait := .none, st := .run }
  | .blocked k g => s.setGroup r { g with wait := .resume k, st := .blocked }
  | .token k => s.takeTrap r (trapTok k)
  | .ended g =>
    match r.who with
    | .grp i => s.endGroup r.t i
    | .cont _ => s.setGroup r { g with st := .ended }

/-- The stop of a unit by a HALT of its launch (R260). -/
def haltStop : StopInfo := ⟨.halt, .stop, none, false, true, false⟩

/-- Where a HALT of the launch holds a party: a group stops once its long-latency words are delivered, and a blocked group where
it stands, with its wait (R260; log 29). -/
def State.haltGroup (s : State) (r : GRef) (c : Ctx) : State :=
  if c.g.st == .blocked || c.g.la.all (·.done) then s.setGroup r { c.g with st := .stopped, stop := some haltStop } else s

/-- A HALT of the launch stops its groups, but none between two rows of a QNTT that waits for no line; a continuation runs on. -/
def Ctx.haltsHere (c : Ctx) : Bool := c.l.halted && !(match c.g.wait with | .qntt _ _ _ none => true | _ => false) && (match c.ref.who with | .grp _ => true | .cont _ => false)

/-- The entry of a party at its word has passed its check: what stops the word from now on, and its resumption, meet no entry (R89). A
party that stops at the check itself makes its entry afresh, of which R89 says nothing for a kernel entry or a REQUEUE: the model's choice
(log 26). -/
def State.entered (s : State) (r : GRef) (c : Ctx) : State := if c.g.entry then s.modGroup r fun g => { g with entry := false } else s

/-- A group or continuation comes to issue: its kill (R185), its replay word (R95), its entry (R89), and the fetch and the
decoding of its word. One that goes on by RETRY waits until its core's queue has taken its record (R384). -/
def State.fetchGroup (s : State) (r : GRef) : Pre :=
  match s.ctx? r with
  | none => .settled s
  | some c =>
    let due := match c.g.kill with
      | some k => if !c.t.saving && !k.atRestore && c.g.wait != .evt && decide (k.since + 4096 ≤ s.clock) then some k else none
      | none => none
    match due with
    | some k => .settled (s.killNow r k)
    | none =>
      if c.g.held || (c.t.saving && !c.g.inQntt) || c.g.lateReady || (c.g.retries.isSome && s.heldRecord c.core) then .settled s
      else if c.g.owedHold then
        .settled (if c.g.owes then s else s.modGroup r fun g => { g with owedHold := false })
      else if c.haltsHere then .settled (s.haltGroup r c)
      else if c.g.exec = 0 then .settled (s.resumeLanes r c)
      else match c.g.replay with
      | some p => .word p.word s
      | none =>
        if c.g.entry && c.g.la.any fun e => !e.done then .settled (s.setWait r .engine)
        else match (if c.g.entry then s.entryTrap c.core c.l.pkt.ctx c.g.priv c.g.pc else none) with
          | some t => .settled (s.takeTrap r t)
          | none =>
            match (s.entered r c).fetchWord c.core c.l.pkt.ctx c.g.priv true c.g.width c.g.pc with
            | (.trap t, s) => .settled (s.takeTrap r t)
            | (.word i, s) => .word i s
            | (.bad w, s) =>
              -- an inactive word that is no instruction still holds the operand it names (R98, R100)
              let v := rawView w
              let guard := c.g.guard v.h.gp.val v.h.gn &&& laneMask c.g.width
              if opVector (w.toNat % 256) && guard == 0 then
                let x : Ex := ⟨c, .nop ⟨v.h⟩, v, 0, c.g.pc, [], false⟩
                match lookCheck c.g.la [] true with
                | .go => .settled (x.skip s true)
                | _ => .settled (s.setWait r .engine)
              else .settled (s.takeTrap r (illegalWord w))

/-- A sequencer that runs, or waits at its word, comes to issue: its entry, and the fetch and decoding of its word (R86, R89, R226). -/
def State.fetchSeq (s : State) (r : TeamRef) : Pre :=
  match s.team? r, s.launch? r.launch with
  | some t, some l =>
    if t.saving || t.sq.ending || (t.sq.sst != .run && t.sq.sst != .wait) || (t.sq.retries.isSome && s.heldRecord t.core) then .settled s
    else if l.halted then
      .settled (s.setTeam { t with sq := { t.sq with sst := .stopped, blocked := .none, stop := some haltStop } })
    else match (if t.sq.entry then s.entryTrap t.core l.pkt.ctx false t.sq.spc else none) with
    | some e => .settled (s.stopSeq r e)
    | none =>
      match (s.modTeam r fun t => { t with sq := { t.sq with entry := false } }).fetchWord t.core l.pkt.ctx false false t.width t.sq.spc with
      | (.trap e, s) => .settled (s.stopSeq r e)
      | (.word i, s) => .word i s
      | (.bad w, s) => .settled (s.stopSeq r (illegalWord w))
  | _, _ => .settled s

end Sys2Proof.Machine
end

