-- ==== Sys2Proof/Machine/Control.lean ====
section
/-! DEFINITION. Branches, reconvergence, ending, yielding, program traps and the helper core (R159 to R169). -/
namespace Sys2Proof.Machine

/-- The check of a taken entry (R89). -/
def Ex.entryTrap (x : Ex) (s : State) (a : Addr) : Option Trap :=
  s.entryTrap x.c.core x.c.l.pkt.ctx x.c.g.priv a

/-- A taken entry at `a`, after the effect `f` on the group. -/
def Ex.enter (x : Ex) (s : State) (a : Addr) (f : Group → Group) (ws : List Wr) : Eff :=
  match x.entryTrap s a with
  | some t => .trap t
  | none => .done (s.modGroup x.c.ref f) ws (some a)

/-- The address operand of BRX, RET and TSPAWN. -/
def Ex.addrOp (x : Ex) (o : Opnd) : Addr := BitVec.ofNat 56 (x.uval o 64 false 0)

/-- Every long-latency word of the group has delivered its result (R96). -/
def Group.drained (g : Group) : Bool := g.la.all (·.done)

/-- Remove lanes from every token above `k` (from every one for `none`). -/
def Group.leaveTokens (g : Group) (above : Option Nat) (m : Mask) : Group :=
  (List.range 8).foldl (fun g j =>
    let t := g.tok j
    if (match above with | some k => decide (k < j) | none => true) then
      g.setTok j { t with mem := t.mem &&& ~~~m, arr := t.arr &&& ~~~m }
    else g) g

/-- Address of the current task's record, for the record of TASK. -/
def Group.taskAddr (g : Group) : Nat := match g.task with | some k => k.addr.toNat | none => 0

/-- `resume` as the last act of JOIN, BREAK, EXIT and EJECT, on the group as the word has left it. -/
def Ex.resume (x : Ex) (s : State) (g0 : Group) : Eff :=
  match g0.resume with
  | .token k => .trap (trapTok k)
  | .go g => .done (s.setGroup x.c.ref g) [] (some (if g0.exec = 0 then g.pc else nextPc x.pc))
  | .blocked k g =>
    .gone (s.setGroup x.c.ref { x.retired false x.pc g with wait := .resume k, st := .blocked })
  | .ended _ =>
    if !x.c.g.drained then .wait .engine
    else if x.c.g.task.isSome then .trap (trapE .task (BitVec.ofNat 128 x.c.g.taskAddr))
    else match x.c.ref.who with
      | .grp i => .gone (s.endGroup x.c.ref.t i)
      | .cont _ => .gone s

/-! ### Branches and calls (R161) -/

def braBody (w : CtlDisp) (x : Ex) (s : State) : Eff := x.enter s (dispPc x.pc w.disp) id []

def brxBody (w : CtlA) (x : Ex) (s : State) : Eff := x.enter s (x.addrOp w.a) id []

def callBody (w : CallW) (x : Ex) (s : State) : Eff :=
  x.enter s (dispPc x.pc w.disp) id (uniWr w.d ((nextPc x.pc).zeroExtend 64))

/-! ### Tokens (R163 to R165) -/

def jopenBody (w : CtlTokDisp) (x : Ex) (s : State) : Eff :=
  let k := w.k.val
  if (List.range 8).any fun j => k ≤ j && (x.c.g.tok j).mem != 0 then .trap (trapTok k)
  else .done (s.modGroup x.c.ref fun g =>
      { g with tokVc := Store.set [] g.tokVc k [] }.setTok k ⟨g.exec, 0, dispPc x.pc w.disp, 0⟩) [] none

/-- The token is the highest open one and the lanes are members of it. -/
def Group.tokOk (g : Group) (k : Nat) (m : Mask) : Bool := g.topTok == some k && (m &&& ~~~(g.tok k).mem) == 0

/-- The lanes that do not take a divergent branch go to the pending list, merging with its top entry. -/
def Group.pushPend (g : Group) (pc : Addr) (m : Mask) (k : Fin 8) : Option Group :=
  match g.pend with
  | e :: r =>
    if e.pc = pc ∧ e.tok = k then some { g with pend := { e with mask := e.mask ||| m } :: r }
    else if 16 ≤ g.pend.length then none
    else some { g with pend := ⟨pc, m, k⟩ :: g.pend }
  | [] => some { g with pend := [⟨pc, m, k⟩] }

def brDBody (w : CtlTokDisp) (x : Ex) (s : State) : Eff :=
  let a := dispPc x.pc w.disp
  let f := x.c.g.exec &&& ~~~x.act
  if !x.c.g.tokOk w.k.val x.c.g.exec then .trap (trapTok w.k.val)
  else if f = 0 then x.enter s a id []
  else match x.c.g.pushPend (nextPc x.pc) f w.k with
    | none => .trap (trapTok w.k.val)
    | some g => x.enter s a (fun h => { h with pend := g.pend, exec := x.act }) []

def joinBody (w : CtlTok) (x : Ex) (s : State) : Eff :=
  let k := w.k.val
  let g := x.c.g
  if !g.tokOk k g.exec then .trap (trapTok k)
  else
    let t := g.tok k
    x.resume s { g.setTok k { t with arr := t.arr ||| g.exec } with exec := 0 }

def breakBody (w : CtlTok) (x : Ex) (s : State) : Eff :=
  let k := w.k.val
  let g := x.c.g
  let t := g.tok k
  if t.mem = 0 ∨ x.act &&& ~~~t.mem ≠ 0 then .trap (trapTok k)
  else
    let g1 := (g.setTok k { t with arr := t.arr ||| x.act }).leaveTokens (some k) x.act
    x.resume s { g1 with exec := g.exec &&& ~~~x.act }

def exitBody (x : Ex) (s : State) : Eff :=
  if !x.c.g.drained then .wait .engine
  else x.resume s { x.c.g.leaveTokens none x.act with exec := x.c.g.exec &&& ~~~x.act }

/-! ### Yielding and program traps (R166, R167, R259) -/

/-- YIELD drains and invalidates the latches; while a pre-emption is requested the group then waits for the save (R393). -/
def yieldBody (x : Ex) (s : State) : Eff :=
  if !x.c.g.drained then .wait .engine
  else
    .gone (s.modGroup x.c.ref fun g =>
      let g := x.retired false (nextPc x.pc) g
      { g with l := Vector.replicate 3 none, wait := if x.c.t.prq then .yielded else .none })

/-! ### The helper core (R169) -/

/-- The context of lane `i` of a group as a continuation that starts at `pc` with `c` chunks. -/
def Group.eject (g : Group) (i c : Nat) (pc : Addr) : Group where
  idx := g.idx
  width := 1
  pc := pc
  exec := 1
  pcm := 0
  role := g.role
  st := .run
  priv := false
  sticky := 0
  v := (List.range (8 * c)).foldl (fun m r => Store.set 0 m (vKey r 0) (g.vreg r i)) []
  chunks := List.range c
  s := g.s
  p := g.p.map fun m => if m.getLsbD i then 1 else 0
  l := Vector.replicate 3 none
  j := Vector.replicate 8 Token.free
  pend := []
  arv := 0
  aph := 0
  seed := g.seed
  ctr := g.ctr
  la := []
  replay := none
  epc := 0
  ecode := 0
  epoch := g.epoch
  lastMark := g.lastMark
  task := g.task.map fun k => { k with lines := 0 }
  posted := []
  wait := .none
  entry := false
  retries := none
  stop := none
  kill := none
  arms := []
  arrSeq := Vector.replicate 16 0
  last := 0
  vc := g.vc
  puts := 0
  owedHold := false
  tokVc := []
  owing := none
  readyAt := 0
  parted := []

/-- Queue a continuation for each lane (R169). -/
def Team.ejectLanes (t : Team) (g : Group) (k : Fin 8) (c : Nat) (pc : Addr) (ls : List Nat) : Team :=
  ls.foldl (fun t i => { t with
    conts := t.conts ++ [⟨t.contNext, g.eject i c pc, g.idx, i, k, c⟩], contNext := t.contNext + 1 }) t

def ejectBody (w : EjectW) (x : Ex) (s : State) : Eff :=
  let k := w.k.val
  let c := w.c1.val + 1
  let g := x.c.g
  if !g.tokOk k x.act then .trap (trapTok k)
  else if g.chunks.length < c then .trap (trapE .regUnmapped (BitVec.ofNat 128 (8 * g.chunks.length)))
  else if 64 < (s.core x.c.core).helper.length + x.lanes.length then .wait .engine
  else match (x.lanes.flatMap fun i => (List.range (8 * c)).map fun r => 2 * r + i / 32).find? (x.c.t.regLost g) with
  | some l => .trap (x.c.regLostTrap l)
  | none =>
    let t := g.tok k
    let s1 := s.modTeam x.c.ref.t fun tm => tm.ejectLanes g w.k c (dispPc x.pc w.disp) x.lanes
    let s2 := s1.modCore x.c.core fun q =>
      { q with helper := q.helper ++ (List.range x.lanes.length).map fun n => (x.c.ref.t, x.c.t.contNext + n) }
    x.resume s2 { g.setTok k { t with ej := t.ej ||| x.act } with exec := g.exec &&& ~~~x.act }

/-- REJOIN, of a continuation whose words have delivered their results. -/
def rejoinBody (w : CtlTok) (x : Ex) (s : State) : Eff :=
  match x.c.ref.who with
  | .grp _ => .trap (trapE .illegal (BitVec.ofNat 128 (wordLow x.word)))
  | .cont n =>
    match x.c.t.cont? n with
    | none => .gone s
    | some c =>
      if w.k ≠ c.tok then .trap (trapTok w.k.val)
      else if !x.c.g.drained then .wait .engine
      else .gone (s.finishCont x.c.ref.t n true)

/-! ### Meanings -/

def execBra (x : CtlDisp) (s : State) : Host.Outcome State Fault Refusal := runWord (.bra x) (braBody x) s

def execBrD (x : CtlTokDisp) (s : State) : Host.Outcome State Fault Refusal := runWord (.brD x) (brDBody x) s

def execBrx (x : CtlA) (s : State) : Host.Outcome State Fault Refusal := runWord (.brx x) (brxBody x) s

def execCall (x : CallW) (s : State) : Host.Outcome State Fault Refusal := runWord (.call x) (callBody x) s

def execRet (x : CtlA) (s : State) : Host.Outcome State Fault Refusal := runWord (.ret x) (brxBody x) s

def execJopen (x : CtlTokDisp) (s : State) : Host.Outcome State Fault Refusal := runWord (.jopen x) (jopenBody x) s

def execJoin (x : CtlTok) (s : State) : Host.Outcome State Fault Refusal := runWord (.join x) (joinBody x) s

def execBrk (x : CtlTok) (s : State) : Host.Outcome State Fault Refusal := runWord (.brk x) (breakBody x) s

def execExit (x : Ctl0) (s : State) : Host.Outcome State Fault Refusal := runWord (.exit x) exitBody s

def execEject (x : EjectW) (s : State) : Host.Outcome State Fault Refusal := runWord (.eject x) (ejectBody x) s

def execRejoin (x : CtlTok) (s : State) : Host.Outcome State Fault Refusal := runWord (.rejoin x) (rejoinBody x) s

def execYield (x : Ctl0) (s : State) : Host.Outcome State Fault Refusal := runWord (.yield x) yieldBody s

/-- NOP has no effect (R167). -/
def execNop (x : Ctl0) (s : State) : Host.Outcome State Fault Refusal :=
  runWord (.nop x) (fun _ s => Eff.writes s []) s

/-- TRAP stops the party with USER and its code (R167, R259). -/
def execTrap (x : CodeW) (s : State) : Host.Outcome State Fault Refusal :=
  runWord (.trap x) (fun _ _ => .trap (trapE .user (BitVec.ofNat 128 x.code.toNat))) s

end Sys2Proof.Machine
end

