-- ==== Sys2Proof/Machine/PeerOut.lean ====
section
/-! DEFINITION. Requests to peers (R375, R410 to R415): the peer table, the requests that a long-latency word or a posted line
makes, and the values that their replies bring. -/
namespace Sys2Proof.Machine

/-! ### The peer table (R412) -/

def State.peerEntry (s : State) (n : Nat) : BitVec 256 := Store.get 0 s.peers n
/-- `EPA`. -/
def peerEpa (p : BitVec 256) : W128 := BitVec.ofNat 128 (bits p.toNat 255 128)
/-- `JOB`. -/
def peerJob (p : BitVec 256) : W32 := BitVec.ofNat 32 (bits p.toNat 127 96)
/-- `IN`. -/
def peerIn (p : BitVec 256) : Bool := bitAt p.toNat 80
/-- `ICTX`. -/
def peerICtx (p : BitVec 256) : Nat := bits p.toNat 79 64
/-- `V`. -/
def peerValid (p : BitVec 256) : Bool := bitAt p.toNat 0

/-- The first valid entry with an endpoint address. -/
def State.peerOf (s : State) (ep : W128) : Option Nat :=
  (s.peers.find? fun e => peerValid e.2 && peerEpa e.2 == ep).map (·.1)

/-- The endpoint address of this device: its low four bits are the straps (R430). -/
def State.endpoint (s : State) : W128 := BitVec.ofNat 128 (16 * Config.endpointHigh.toNat + s.straps.id.val)

/-- The device port of a request of a core for a peer line address (R410). A reply leaves through the port of die 0 that the same bits of
its request's address name (log 28). -/
def peerPort (core va : Nat) : Nat := 4 * dieOf core + bits va 8 7

/-- Send a peer request; its sequence number is `seqNext` before. -/
def State.sendPeer (s : State) (core launch : Nat) (owner : Option GRef) (peer : Nat) (va : Addr) (k : PeerKind)
    (slot : Option (Nat × Nat) := none) : State :=
  let r : PeerReq := ⟨s.endpoint, peerJob (s.peerEntry peer), s.seqNext, va.toNat, k⟩
  { s with
    seqNext := s.seqNext + 1
    toPeers := s.toPeers ++ [(peerPort core va.toNat, r)]
    requests := s.requests ++ [⟨s.seqNext, peer, r, owner, slot, launch, 0, core, false⟩] }

/-- Reply to a peer's request for `va`; the reply is kept until the peer acknowledges it (R411, R414). -/
def State.replyPeer (s : State) (ep : W128) (seq va status : Nat) (data : List Nat) : State :=
  let r : PeerRep := ⟨s.endpoint, seq, status, data⟩
  let port := peerPort 0 va
  { s with
    seqNext := s.seqNext + 1
    repPeers := s.repPeers ++ [(port, ep, r)]
    kept := s.kept ++ [⟨ep, seq, r, port, s.seqNext, 0⟩] }

/-- REMOTE-FAIL with the peer of a request (R447). -/
def remoteFailInfo (va peer code : Nat) : W128 := BitVec.ofNat 128 (va % 2 ^ 56 + peer % 256 * 2 ^ 56 + code % 256 * 2 ^ 64)

/-! ### The requests of a word -/

/-- The address of a line. -/
def lineVa (va : Addr) : Addr := BitVec.ofNat 56 (lineOf va.toNat)

/-- The pieces of a lane's access on SYSTEM pages. -/
def LaneAddr.sys (l : LaneAddr) : List Piece := l.ps.filter fun p => pteSystem p.pte

/-- The pieces of the lanes on SYSTEM pages, each with its lane. -/
def sysPieces (ls : List LaneAddr) : List (Nat × Piece) := (ls.map fun l => l.sys.map fun p => (l.lane, p)).flatten

/-- One request per line: the lines' addresses in the order of first touch, with their lanes and pieces. -/
def byLine (ps : List (Nat × Piece)) : List (Addr × List (Nat × Piece)) :=
  ((ps.map fun e => lineVa e.2.va).eraseDups).map fun a => (a, ps.filter fun e => lineVa e.2.va == a)

/-- A request to make: the lanes it serves, its address, its peer and what it asks. -/
structure Ask where
  lanes : List Nat
  va : Addr
  peer : Nat
  kind : PeerKind
deriving DecidableEq, Repr

/-- The peer of a list of pieces. -/
def peerOfPieces (ps : List (Nat × Piece)) : Nat := match ps with | [] => 0 | e :: _ => ptePeer e.2.pte

/-- A load of the bytes of one line that its lanes touch; of the words of 8 bytes around them for a version, which may hold an
operand of one of them (R316). It counts the lanes of `did` no more (R375, R376). -/
def askLoad (counted vers : Bool) (a : Addr) (ps : List (Nat × Piece)) (did : List (Nat × Nat) := []) : Ask :=
  let lo := ps.foldl (fun m e => min m (e.2.va.toNat % 128)) 128
  let hi := ps.foldl (fun m e => max m (e.2.va.toNat % 128 + e.2.n)) 0
  let lo := if vers then lo / 8 * 8 else lo
  let hi := if vers then (hi + 7) / 8 * 8 else hi
  let c := (ps.filter fun e => !did.contains (e.1, a.toNat)).length
  let tw := counted && (ps.any fun e => pteTwin e.2.pte) && c != 0
  ⟨ps.map (·.1), a, peerOfPieces ps, .load lo (hi - lo) tw (if tw then c else 0)⟩

/-- The lanes of LD.U count on their lines. -/
def isCounted : Instr → Bool
  | .ld x => x.u
  | _ => false

/-- A version holds an atomic as its operand alone: a value-free one of an integer operation (R292, R316). -/
def holdsOperand (op : AtomOp) (free : Bool) : Bool := atomKind op free != 0

/-- The requests of a lookahead entry. The counts of a version's LD.U are held until the commit; of its atomics, those that need the
old value read it, and the others ask nothing (R316). -/
def LaEnt.asks (e : LaEnt) : List Ask :=
  match e.op with
  | .load ls => (byLine (sysPieces ls)).map fun b => askLoad (isCounted e.word && e.vers.isNone) e.vers.isSome b.1 b.2 e.counted
  | .atomic ls args news =>
    match e.word with
    | .atom w =>
      if e.vers.isSome then
        (if holdsOperand w.op (w.d == .zero) then []
         else (ls.map fun l => l.sys.map fun p => { askLoad false true (lineVa p.va) [(l.lane, p)] with lanes := [l.lane] }).flatten)
      else ((ls.zip (args.zip news)).map fun x =>
        x.1.sys.map fun p =>
          (⟨[x.1.lane], lineVa p.va, ptePeer p.pte, .atomic w.op w.wide (p.va.toNat % 128) x.2.1 x.2.2⟩ : Ask)).flatten
    | _ => []
  | .tcons ls =>
    let nb := match e.word with | .tcons w => w.nb | _ => false
    -- a consuming read asks for its lines one at a time, in ascending order (R218)
    let first := ((ls.map fun l => l.ps.map fun p => (lineVa p.va).toNat).flatten).foldl min (2 ^ 56)
    ((byLine (sysPieces ls)).filter fun b => b.1.toNat == first).map fun b =>
      let pte : BitVec 256 := match b.2 with | [] => 0 | x :: _ => x.2.pte
      ⟨b.2.map (·.1), b.1, ptePeer pte,
        .tcons (b.2.map fun x => x.2.va.toNat % 128) nb (pteTwFault pte) (pteTwTime pte) (pteTwSize pte)⟩
  | .tcnt ls => (byLine (sysPieces ls)).map fun b => ⟨b.2.map (·.1), b.1, peerOfPieces b.2, .tcnt⟩
  | _ => []

/-- Send the requests of an entry of a party; the entry then waits for their replies. -/
def State.sendAsks (s : State) (core launch : Nat) (r : GRef) (asks : List Ask) : List OwedReq × State :=
  asks.foldl (fun (a : List OwedReq × State) k =>
    (a.1 ++ [⟨a.2.seqNext, k.lanes, k.va, .sent⟩], a.2.sendPeer core launch (some r) k.peer k.va k.kind)) ([], s)

/-- Every request of the entry is answered. -/
def LaEnt.answered (e : LaEnt) : Bool := e.owed.all fun o => o.st != .sent

/-- The entry has requests to make and has not made them. -/
def LaEnt.unsent (e : LaEnt) : Bool := e.owed.isEmpty && !e.asks.isEmpty

/-- The reply of the request for a line, or for a lane of a line. -/
def LaEnt.reply (e : LaEnt) (lane : Nat) (va : Addr) : Owed :=
  match e.owed.find? fun o => o.va == lineVa va && o.lanes.contains lane with
  | some o => o.st
  | none => .failed .dataLost

/-- The offset at which the data of a line's load begins. -/
def LaEnt.loadOff (e : LaEnt) (lane : Nat) (va : Addr) : Nat :=
  match e.asks.find? fun a => a.va == lineVa va && a.lanes.contains lane with
  | some ⟨_, _, _, .load off _ _ _⟩ => off
  | _ => 0

/-- Bytes from `a` with those of `x`, which start at `b`, laid over them. -/
def overlay (a b : Nat) (x base : List Byte) : List Byte :=
  base.zipIdx.map fun y => if b ≤ a + y.2 then x.getD (a + y.2 - b) y.1 else y.1

/-- A value-free atomic of a version on `n` bytes at `b`, done on bytes from `a` (R292, R316). -/
def overlayAtom (a b n : Nat) (op : AtomOp) (c : W64) (base : List Byte) : List Byte :=
  if a ≤ b ∧ b + n ≤ a + base.length then
    overlay a b (bytesOf n (atomNew op (8 * n) (natOf ((base.drop (b - a)).take n)) c.toNat 0)) base
  else base

/-- A line of peer `k` from address `a` as a party of version `v` sees it: what the version holds for the peer is laid over it, in the
version's order (R316). -/
def State.remoteOver (s : State) (v : Option Nat) (k a : Nat) (base : List Byte) : List Byte :=
  match v.bind s.version? with
  | none => base
  | some y => y.remote.foldl (fun b e =>
      let b := e.2.stores.foldl (fun b x => if ptePeer x.1.pte = k then overlay a x.1.va.toNat x.2 b else b) b
      e.2.atoms.foldl (fun b x => if ptePeer x.1.pte = k then overlayAtom a x.1.va.toNat x.1.n x.2.1 x.2.2 b else b) b) base

/-- The bytes that a line's reply gives a piece. -/
def State.sysBytes (s : State) (e : LaEnt) (lane : Nat) (p : Piece) : Except Cause (List Byte) :=
  match e.reply lane p.va with
  | .replied d =>
    let off := e.loadOff lane p.va
    let b := s.remoteOver e.vers (ptePeer p.pte) (lineOf p.va.toNat + off) (d.map fun x => BitVec.ofNat 8 x)
    .ok ((b.drop (p.va.toNat % 128 - off)).take p.n)
  | .failed c => .error c
  | .sent => .error .dataLost

/-- A version holds something of a party for a peer (R316). -/
def State.holdRemote (s : State) (v g : Nat) (p : Posted) : State :=
  s.modVersion v fun y => { y with remote := y.remote ++ [(g, p)] }

/-! ### Posted lines on SYSTEM pages (R318, R415) -/

/-- The first piece of a posted line. -/
def Posted.piece (p : Posted) : Option Piece :=
  (p.stores.map (·.1) ++ p.taccs.map (·.1) ++ p.atoms.map (·.1) ++ p.counts.map (·.1)).head?

/-- The line of a posted line. -/
def Posted.line (p : Posted) : Option Addr := p.piece.map fun x => lineVa x.va

/-- The format of a TACC. -/
def taccFmt : Instr → TwFmt
  | .tacc w => w.ft
  | _ => .f32

/-- The request of a posted line on a SYSTEM page. -/
def postAsk (p : Posted) : Option (Addr × Nat × PeerKind) :=
  match p.stores, p.taccs, p.atoms, p.counts with
  | e :: r, _, _, _ =>
    some (lineVa e.1.va, ptePeer e.1.pte, .store (((e :: r).map fun x =>
      (x.2.zipIdx).map fun b => (x.1.va.toNat % 128 + b.2, b.1)).flatten))
  | [], e :: r, _, _ =>
    some (lineVa e.1.va, ptePeer e.1.pte, .tacc (taccFmt p.word) ((e :: r).map fun x => (x.1.va.toNat % 128, x.2)))
  | [], [], (x, op, c) :: _, _ => some (lineVa x.va, ptePeer x.pte, .atomic op (x.n == 8) (x.va.toNat % 128) c 0)
  | [], [], [], (x, n) :: _ => some (lineVa x.va, ptePeer x.pte, .load (x.va.toNat % 128) x.n true n)
  | [], [], [], [] => none

/-- A posted line on a SYSTEM page goes to its peer, once. -/
def State.postPeer (s : State) (core launch : Nat) (r : GRef) (i : Nat) (p : Posted) : State :=
  match postAsk p with
  | none => s
  | some (va, peer, k) =>
    let seq := s.seqNext
    (s.sendPeer core launch (some r) peer va k).modParty r fun g =>
      { g with posted := modifyAt (fun p => { p with sent := some seq }) i g.posted }

/-- What a committed version has left for peers goes to them at the commit: everything but what an earlier item for the same line
holds back (R316, R318, R415). -/
def State.sendCommitted (s : State) (r : TeamRef) : State :=
  match s.team? r with
  | none => s
  | some t => t.groups.foldl (fun s g => (g.posted.zipIdx).foldl (fun s e =>
      if e.1.sent.isSome || e.1.vers.isSome || !(match e.1.piece with | some x => pteSystem x.pte | none => false) ||
          (g.posted.take e.2).any fun q => q.line == e.1.line then s
      else s.postPeer (t.coreOf g.idx) r.launch ⟨r, .grp g.idx⟩ e.2 e.1) s) s

/-- The value that a reply gives one lane of an atomic, TCONS or TCNT. -/
def LaEnt.sysVal (e : LaEnt) (lane : Nat) (p : Piece) : Except Cause Nat :=
  match e.owed.find? fun o => o.va == lineVa p.va && o.lanes.contains lane with
  | some o =>
    match o.st with
    | .replied d =>
      match e.op with
      | .tcons _ => .ok (d.getD ((o.lanes.takeWhile (· != lane)).length) 0)
      | _ => .ok (d.getD 0 0)
    | .failed c => .error c
    | .sent => .error .dataLost
  | none => .error .dataLost

/-- An answer to a request reaches the entry that waits for it. -/
def LaEnt.answer (e : LaEnt) (seq : Nat) (st : Owed) : LaEnt :=
  { e with owed := e.owed.map fun o => if o.seq = seq then { o with st := st } else o }

/-- A lookahead entry waits for a request. -/
def LaEnt.waitsFor (e : LaEnt) (seq : Nat) : Bool := e.owed.any fun o => o.seq == seq

end Sys2Proof.Machine
end

