-- ==== Sys2Proof/Machine/Records.lean ====
section
/-! DEFINITION. Records that a word reads from memory as plain loads (R47): descriptors, task records and code tables, from
global memory, from the scratchpad, and from peers. -/
namespace Sys2Proof.Machine

/-- What the read of a record gives. -/
inductive RecRead where
  | bytes (b : List Byte) (s : State)
  /-- It cannot be read yet. -/
  | pending (s : State)
  | trap (t : Trap)
  | race (o : AccTag) (s : State)

/-- Read pieces in order. -/
def State.loadAll (s : State) (p : Pty) (home : Bool) : List Piece → Except HomeErr (List Byte) × State
  | [] => (.ok [], s)
  | x :: r =>
    match s.loadPiece p x home with
    | (.error e, s) => (.error e, s)
    | (.ok b, s) =>
      match s.loadAll p home r with
      | (.error e, s) => (.error e, s)
      | (.ok c, s) => (.ok (b ++ c), s)

/-- The parts of `n` bytes from `va` by lines. -/
def lineParts : Nat → Addr → Nat → List (Addr × Nat)
  | 0, _, _ => []
  | f + 1, va, n =>
    if n = 0 then []
    else
      let k := min n (128 - va.toNat % 128)
      (va, k) :: lineParts f (va + BitVec.ofNat 56 k) (n - k)

/-- The parts of a record. -/
def recParts (va : Addr) (n : Nat) : List (Addr × Nat) := lineParts (n / 128 + 2) va n

/-- Row offsets of the scratchpad lines of a record. -/
def recLines (va : Addr) (n : Nat) : List Nat := (recParts va n).map fun e => lineOf (e.1.toNat % 2 ^ 32)

/-- A word's read at a peer: the answers to its requests, once all have come, or its requests, made now. The entry that holds them
leaves with the word (R94). -/
def State.recordPeer (s : State) (c : Ctx) (word : Instr) (pc va : Addr) (ps : List Piece) (p : Pty) : RecRead :=
  match c.g.la.find? fun e => e.word == word && e.done && !e.owed.isEmpty && e.op == .load [⟨0, va, ps⟩] with
  | some e =>
    if !e.answered then .pending s
    else
      let out := ps.foldl (fun (a : RecRead) x =>
        match a with
        | .bytes b s =>
          if pteSystem x.pte then
            (match s.sysBytes e 0 x with
             | .ok y => .bytes (b ++ y) s
             | .error cause => .trap (trapA cause x.va .load))
          else match s.loadPiece p x false with
            | (.ok y, s) => .bytes (b ++ y) s
            | (.error (.lost n), _) => .trap (trapE .dataLost (BitVec.ofNat 128 n))
            | (.error (.race o), s) => .race o s
        | r => r) (.bytes [] s)
      out
  | none =>
    let e : LaEnt := ⟨pc, word, 0, true, [], 1, 0, .load [⟨0, va, ps⟩], [], none, [], s.clock, c.version, c.g.epoch, c.tick, c.g.vc, false, [], []⟩
    let (os, s) := s.sendAsks c.core c.l.num c.ref e.asks
    .pending (s.modGroup c.ref fun g => { g with la := g.la ++ [{ e with owed := os }] })

/-- Read `n` bytes at `va` for the word at `pc`. -/
def State.recordRead (s : State) (c : Ctx) (word : Instr) (pc va : Addr) (n : Nat) : RecRead :=
  if misaligned va n false then .trap (trapA .badAddress va .load)
  else match c.t.regionCheck va n false c.g.priv .load with
    | some t => .trap t
    | none =>
      let p := c.pty pc
      if regionOf va = 2 then
        let ls := recLines va n
        if c.mustWait [(localKey va, n)] true || ls.any fun o => !c.t.serves o then .pending (s.touchAll c ls)
        else match c.t.lostLine 1 ((recParts va n).map (·.1)) with
        | some a => .trap (localLostTrap a)
        | none =>
        match s.trackLocal p c.t va n false 0 with
          | (some o, s) => .race o s
          | (none, s) => .bytes (c.t.localRead va n) s
      else match s.xlatParts (some c.core) c.l.pkt.ctx (wantLoad c.g.priv) (recParts va n) with
        | (.error t, _) => .trap t
        | (.ok ps, s) =>
          if c.mustWait (ps.map fun x => (x.pa, x.n)) true || ps.any fun x => s.far c.core x.pa then .pending s
          else if ps.any fun x => pteSystem x.pte then s.recordPeer c word pc va ps p
          else match s.loadAll p false ps with
            | (.error (.lost l), _) => .trap (trapE .dataLost (BitVec.ofNat 128 l))
            | (.error (.race o), s) => .race o s
            | (.ok b, s) => .bytes b s

/-- A word that reads a record and goes on with its bytes. -/
def Ex.withRecord (x : Ex) (s : State) (va : Addr) (n : Nat) (f : List Byte → State → Eff) : Eff :=
  match s.recordRead x.c x.word x.pc va n with
  | .trap t => .trap t
  | .pending s => .waitIn s .engine
  | .race o s => .gone (s.orderRace x.c va o x.c.g.epoch x.pc)
  | .bytes b s => f b s

end Sys2Proof.Machine
end

