-- ==== Sys2Proof/Machine/Shake.lean ====
section
/-! DEFINITION. SHAKE256 taken to 32 bytes, as the natural number of R294. The spec names the function alone; its definition is
that of FIPS 202 (log 13). -/
namespace Sys2Proof.Machine

/-- A sponge state: 25 lanes, five to a plane; lane `x` of plane `y` is at index `x + 5 * y`. -/
abbrev Sponge := List W64

/-- A lane by its two coordinates, each taken modulo 5. -/
def Sponge.at (a : Sponge) (x y : Nat) : W64 := a.getD (x % 5 + 5 * (y % 5)) 0

/-- The state whose lane at each coordinate is `f`. -/
def Sponge.build (f : Nat → Nat → W64) : Sponge := (List.range 25).map fun i => f (i % 5) (i / 5)

/-- The sum of a column of five lanes. -/
def Sponge.column (a : Sponge) (x : Nat) : W64 := (List.range 5).foldl (fun s y => s ^^^ a.at x y) 0

/-- First part of a round: each lane takes the sums of two columns beside its own. -/
def Sponge.mixColumns (a : Sponge) : Sponge :=
  let sums : Sponge := (List.range 5).map a.column
  Sponge.build fun x y => a.at x y ^^^ sums.at (x + 4) 0 ^^^ (sums.at (x + 1) 0).rotateLeft 1

/-- The walk that orders the lanes other than the first: `n` coordinates from one, each with the next triangular number. -/
def laneWalk : Nat → Nat → Nat × Nat → List ((Nat × Nat) × Nat)
  | 0, _, _ => []
  | n + 1, t, (x, y) => ((x, y), (t + 1) * (t + 2) / 2) :: laneWalk n (t + 1) (y, (2 * x + 3 * y) % 5)

/-- How far the lane at a coordinate turns. -/
def laneTurn (x y : Nat) : Nat :=
  match (laneWalk 24 0 (1, 0)).find? fun e => e.1 == (x, y) with
  | some e => e.2 % 64
  | none => 0

/-- Second part: the lanes turn and change places along the walk. -/
def Sponge.scatter (a : Sponge) : Sponge :=
  Sponge.build fun x y =>
    let from_ := (x + 3 * y) % 5
    (a.at from_ x).rotateLeft (laneTurn from_ x)

/-- Third part, the one that is not linear: each lane against the next two of its plane. -/
def Sponge.crossRows (a : Sponge) : Sponge := Sponge.build fun x y => a.at x y ^^^ (a.at (x + 2) y &&& ~~~ a.at (x + 1) y)

/-- The shift register of eight bits that gives the round bits, after `t` steps from 1. -/
def roundRegister : Nat → Nat
  | 0 => 1
  | t + 1 =>
    let r := 2 * roundRegister t
    if r < 256 then r else (r ^^^ 0x171) % 256

/-- The constant of round `n`: round bit `7 * n + j` stands at bit `2 ^ j - 1`. -/
def roundWord (n : Nat) : W64 :=
  BitVec.ofNat 64 (((List.range 7).map fun j => roundRegister (7 * n + j) % 2 * 2 ^ (2 ^ j - 1)).sum)

/-- The permutation: 24 rounds. -/
def Sponge.permute (a : Sponge) : Sponge :=
  (List.range 24).foldl (fun a n =>
    let b := a.mixColumns.scatter.crossRows
    Sponge.build fun x y => if x + y = 0 then b.at 0 0 ^^^ roundWord n else b.at x y) a

/-- Bytes of a block of SHAKE256. -/
def shakeRate : Nat := 136

/-- The message with its closing bits, filled up to whole blocks: a byte `0x1F` first and the top bit of the last byte. -/
def padded (m : List Byte) : List Byte :=
  let gap := shakeRate - m.length % shakeRate
  if gap = 1 then m ++ [0x9F] else m ++ 0x1F :: (List.replicate (gap - 2) 0 ++ [0x80])

/-- Block `k` of a padded message enters the state. -/
def Sponge.enter (m : List Byte) (a : Sponge) (k : Nat) : Sponge :=
  Sponge.permute (Sponge.build fun x y =>
    let o := 8 * (x + 5 * y)
    if o < shakeRate then a.at x y ^^^ BitVec.ofNat 64 (numAt m (shakeRate * k + o) 8) else a.at x y)

/-- SHAKE256 of a message, 32 bytes as a little-endian number: the first four lanes after the last block. -/
def shake (m : List Byte) : Nat :=
  let p := padded m
  let a := (List.range (p.length / shakeRate)).foldl (Sponge.enter p) (List.replicate 25 0)
  (List.range 4).foldr (fun x n => (a.at x 0).toNat + 2 ^ 64 * n) 0

/-- The item of a written line (R294). -/
def lineItem (line : Nat) (data : List Byte) (mask : W32) : Nat :=
  shake (bytesOf 8 (line % 2 ^ 48) ++ data ++ bytesOf 4 mask.toNat)

/-- The item of a primary-only word (R356). -/
def wordItem (kind : Nat) (payload : List Byte) : Nat :=
  shake ([BitVec.ofNat 8 kind] ++ bytesOf 4 payload.length ++ payload)

end Sys2Proof.Machine
end

