-- ==== Sys2Proof/Machine/Memory.lean ====
section
/-! DEFINITION. Loads, stores and atomics at issue (R190 to R203), fences, prefetch and cache control (R204 to R207), the words
over full/empty bits (R208), and CTLD (R151). What a long-latency word does when its result is due is in `Deliver`. -/
namespace Sys2Proof.Machine

/-! ### Lanes of a memory word -/

/-- The lanes still to perform, with their addresses. -/
def Ex.laneAddrs (x : Ex) (m : MemOp) : List (Nat × Addr) := x.todo.map fun i => (i, x.addr m i)

/-- Add lanes to `PCM`, or to the mask of the replay word (R193). -/
def Ex.setPcm (x : Ex) (s : State) (ls : List Nat) : State :=
  s.modGroup x.c.ref fun g =>
    match g.replay with
    | some r => { g with replay := some { r with pcm := r.pcm ||| maskOf ls } }
    | none => { g with pcm := g.pcm ||| maskOf ls }

/-- The lanes below a failed check 3 are accepted alone: their entry serves no other lane (R193). -/
def Ex.partEntry (x : Ex) (s : State) (op : PendOp) (ds : List Dest) (ls : List LaneAddr) : State :=
  let e := x.entryOf s op ds
  let e := { e with window := 0, again := false, got := [], pcm := x.done ||| (x.act &&& ~~~maskOf (ls.map (·.lane))) }
  (x.setPcm s (ls.map (·.lane))).modGroup x.c.ref fun g => { g with la := g.la ++ [e] }

/-- A long-latency memory word after its checks: accepted, or stopped at the lane whose check 3 failed. -/
def Ex.accept (x : Ex) (s : State) (op : PendOp) (ds : List Dest) (ls : List LaneAddr) (t : Option Trap) : Eff :=
  match t with
  | none => .defer s op ds
  | some t => if ls.isEmpty then .trapAt s t else .trapAt (x.partEntry s op ds ls) t

/-- The scratchpad lines, in row terms, of local lanes. -/
def spadLines (t : Team) (n : Nat) (ls : List LaneAddr) : List Nat :=
  (ls.map fun l => if l.ps.isEmpty && isSpad t l.va then spLines false (l.va.toNat % 2 ^ 32) n else []).flatten

/-- Check the offsets of LDS, STS or ATOMS in every lane; the lanes as local lanes in row terms (R199, R200). -/
def Ex.spadLanes (x : Ex) (n : Nat) (col aligned : Bool) (ak : AKind) (as : List (Nat × Addr)) : Except Trap (List LaneAddr) :=
  as.foldr (fun a r =>
    match x.c.t.spCheck a.2 n aligned ak with
    | .error t => .error t
    | .ok o => match r with
      | .error t => .error t
      | .ok ls => .ok (⟨a.1, localVa (rowOff col n o), []⟩ :: ls)) (.ok [])

/-- The bytes of lanes. -/
def laneSpans (n : Nat) (ls : List LaneAddr) : List Span := (ls.map fun l => l.spans n).flatten

/-! ### Loads -/

/-- Windows over the lines of local lanes are touched (R209). -/
def Ex.touched (x : Ex) (s : State) (n : Nat) (ls : List LaneAddr) : State := s.touchAll x.c (spadLines x.c.t n ls)

/-- A load or atomic on scratchpad lines goes on once they were full at the start of the clock; it waits at its word for the first that
was not (R201, R281; log 25). -/
def Ex.onFull (x : Ex) (s : State) (n : Nat) (ls : List LaneAddr) (go : State → Eff) : Eff :=
  let s := x.touched s n ls
  match s.team? x.c.ref.t with
  | none => .gone s
  | some t => match (spadLines t n ls).find? fun o => !t.serves o with
    | some o => .waitIn s (.emptyLine o)
    | none => go s

/-- The lines that lanes touch. -/
def laneLineVas (ls : List LaneAddr) : List Addr := ((ls.map fun l => l.ps.map fun p => lineVa p.va).flatten).eraseDups

/-- A counted load waits for the party's earlier contributions and twin reads of its lines (log 6). -/
def Ctx.countWait (c : Ctx) (ls : List LaneAddr) : Bool :=
  let lines := laneLineVas ls
  c.family.any fun g =>
    (g.posted.any fun p => p.taccs.any fun e => lines.contains (lineVa e.1.va)) ||
    (g.la.any fun e => !e.done && (match e.op with
      | .tcons l | .tcnt l => (laneLineVas l).any lines.contains
      | _ => false))

def ldBody (w : LdW) (x : Ex) (s : State) : Eff :=
  let n := w.ty.bits / 8
  let all := x.laneAddrs w.mem
  let as := if w.d.cls = .s then all.take 1 else all
  let ak : AKind := if w.u then .counted else .load
  match x.ownLook as with
  | some e => e
  | none =>
    match x.check12 n w.acq false ak (as.map (·.2)) with
    | some t => .trap t
    | none =>
      let (ls, t, s) := s.lanesPieces x.c (wantLoad x.c.g.priv ak) n as
      let ss := laneSpans n ls
      -- a counted load comes after every earlier store to its lines (R288, R297)
      if x.c.mustWait (if w.u then wholeLines ss else ss) false || (w.u && x.c.countWait ls) then .waitIn s .engine
      else x.onFull s n ls fun s => x.accept s (.load ls) (if w.d = .zero then [] else x.ownRegs as) ls t

def ldsBody (w : SpW) (x : Ex) (s : State) : Eff :=
  let n := w.ty.bits / 8
  let all := x.laneAddrs w.mem
  match x.spadLanes n w.col w.col .load (if w.d.cls = .s then all.take 1 else all) with
  | .error t => .trap t
  | .ok ls =>
    if x.c.mustWait (laneSpans n ls) false then .wait .engine
    else x.onFull s n ls fun s => .defer s (.load ls) []

/-! ### Stores -/

/-- The bytes that stores write cover the line of `a` whole. -/
def coversLine (a : Nat) (ws : List (Nat × Nat)) : Bool :=
  (List.range 128).all fun o => ws.any fun w => decide (w.1 ≤ lineOf a + o) && decide (lineOf a + o < w.1 + w.2)

/-- The bytes of local lanes. -/
def localBytes (ls : List (LaneAddr × List Byte)) : List (Nat × Nat) :=
  ls.filterMap fun l => if l.1.ps.isEmpty then some (l.1.va.toNat, l.2.length) else none

/-- The first lost local line that a store does not write whole (R295). -/
def Team.storeLost (t : Team) (ls : List (LaneAddr × List Byte)) : Option Addr :=
  let ws := localBytes ls
  (localLines 1 (ws.flatMap fun w => [BitVec.ofNat 56 w.1, BitVec.ofNat 56 (w.1 + w.2 - 1)])).find? fun a =>
    t.localLost a && !coversLine a.toNat ws

/-- The local lines that a store writes whole are lost no more (R295). -/
def Team.storeWhole (t : Team) (ls : List (LaneAddr × List Byte)) : Team :=
  let ws := localBytes ls
  ((ws.map fun w => lineOf w.1).eraseDups.filter fun a => coversLine a ws).foldl (fun t a => t.localWhole (BitVec.ofNat 56 a)) t

/-- Store the local lanes in order, tracking each (R194, R352): the state, and the race that stops it with the lanes done. -/
def Ex.storeLocal (x : Ex) (s : State) (ls : List (LaneAddr × List Byte)) : State × Option (Addr × AccTag) × List Nat :=
  ls.foldl (fun (a : State × Option (Addr × AccTag) × List Nat) l =>
    match a.2.1 with
    | some _ => a
    | none =>
      match a.1.trackLocal x.pty x.c.t l.1.va l.2.length true 0 with
      | (some o, s) => (s, some (l.1.va, o), a.2.2)
      | (none, s) => (s.modTeam x.c.ref.t fun t => t.localWrite l.1.va l.2, none, a.2.2 ++ [l.1.lane])) (s, none, [])

/-- The pieces of a lane's store with their bytes. -/
def splitBytes : List Piece → List Byte → List (Piece × List Byte)
  | [], _ => []
  | p :: r, b => (p, b.take p.n) :: splitBytes r (b.drop p.n)

/-- The line of a piece: of this device's memory, where two addresses may name one line, or of a peer's page (R194, R318). -/
def Piece.lineKey (p : Piece) : Nat := if pteSystem p.pte then lineOf p.va.toNat else 2 ^ 56 + lineOf p.pa

/-- The posted writes of a word, one for each line in order of first touch, with their bytes in lane order. -/
def Ex.postLines (x : Ex) (s : State) (ls : List (LaneAddr × List Byte)) : List Posted :=
  let ps : List (Nat × Piece × List Byte) :=
    (ls.map fun l => (splitBytes l.1.ps l.2).map fun e => (l.1.lane, e.1, e.2)).flatten
  ((ps.map fun e => e.2.1.lineKey).eraseDups).map fun a =>
    let mine := ps.filter fun e => e.2.1.lineKey == a
    ⟨x.pc, x.word, x.act, maskOf (mine.map (·.1)), mine.map (·.2), [], [], [],
      coversLine a (mine.map fun e => (e.2.1.lineKey + e.2.1.va.toNat % 128, e.2.1.n)), none, s.clock, x.c.version, x.c.g.epoch,
      x.c.tick, x.c.g.vc⟩

/-- Add items of a primary-only word to a segment's sum (R356). -/
def State.addItem (s : State) (r : TeamRef) (kind : Nat) (payload : List Byte) : State :=
  s.modTeam r fun t =>
    match t.seg with
    | none => t
    | some g => { t with seg := some { g with items := (g.items + wordItem kind payload) % 2 ^ 256 } }

/-- Stores of a segment to SYSTEM pages: an item for each lane, and the shadow performs none of them (R356). -/
def Ex.systemItems (x : Ex) (s : State) (ls : List (LaneAddr × List Byte)) : State × List (LaneAddr × List Byte) :=
  if x.c.t.seg.isNone then (s, ls)
  else
    let sys : List (LaneAddr × List Byte) := ls.filter fun l => l.1.ps.any fun p => pteSystem p.pte
    let s := sys.foldl (fun s l => s.addItem x.c.ref.t 1 (bytesOf 8 l.1.va.toNat ++ l.2)) s
    (s, if x.c.t.ref.shadow then ls.filter fun l => !(l.1.ps.any fun p => pteSystem p.pte) else ls)

/-- The release of a store or atomic with `.REL`, at the scopes of the pages it touches (R196, R289). -/
def State.releaseLanes (s : State) (c : Ctx) (ls : List LaneAddr) : State :=
  ls.foldl (fun s l =>
    if l.ps.isEmpty then s.releaseTeam c.t c.core else l.ps.foldl (fun s p => s.release c.core p.pte) s) s

/-- Perform a store's lanes: local ones now, global ones as posted writes (R195); `t` is the failed check 3 of a later lane. -/
def Ex.storeLanes (x : Ex) (s : State) (rel : Bool) (ls : List (LaneAddr × List Byte)) (t : Option Trap) : Eff :=
  if x.c.mustWait (ls.flatMap fun l => l.1.spans l.2.length) true then .waitIn s .engine
  else
    let lines := ls.flatMap fun l => spadLines x.c.t l.2.length [l.1]
    let s := s.touchAll x.c lines
    match s.team? x.c.ref.t with
    | none => .gone s
    | some tm =>
      if lines.any tm.storeWaits then .waitIn s .engine
      else match tm.storeLost ls with
      | some a => .trap (localLostTrap a)
      | none =>
        let s := if (localBytes ls).isEmpty then s else s.modTeam x.c.ref.t fun t => t.storeWhole ls
        let s := if rel then s.releaseLanes x.c (ls.map (·.1)) else s
        let (s, race, did) := x.storeLocal s (ls.filter fun l => l.1.ps.isEmpty)
        let ls := match race with
          | some (va, _) => ls.takeWhile fun l => !(l.1.ps.isEmpty && l.1.va == va && !did.contains l.1.lane)
          | none => ls
        let (s, ls) := x.systemItems s ls
        let s := s.modGroup x.c.ref fun g =>
          { g with posted := g.posted ++ x.postLines s (ls.filter fun l => !l.1.ps.isEmpty) }
        match race with
        | some (va, o) => .gone ((x.setPcm s (ls.map (·.1.lane))).orderRace x.c va o x.c.g.epoch x.pc)
        | none => match t with
          | none => .done s [] none
          | some t => .trapAt (x.setPcm s (ls.map (·.1.lane))) t

/-- The parts of a local lane's store by words: the word, the address and the bytes. -/
def wordParts (l : LaneAddr) (b : List Byte) : List (Nat × LaneAddr × List Byte) :=
  ((List.range 5).map fun k => (l.va.toNat % 2 ^ 32 / 4 + k)).filterMap fun w =>
    let a := l.va.toNat % 2 ^ 32
    let lo := max a (4 * w) - a
    let hi := min (a + b.length) (4 * w + 4) - a
    if hi ≤ lo then none else some (w, { l with va := l.va + BitVec.ofNat 56 lo }, (b.drop lo).take (hi - lo))

/-- A lane's store without the words that have been stored before (R279). -/
def Ex.unstored (x : Ex) (l : LaneAddr) (b : List Byte) : List (LaneAddr × List Byte) :=
  if x.c.g.parted.any fun e => e.1 == l.lane then
    ((wordParts l b).filter fun e => !x.c.g.parted.contains (l.lane, e.1)).map (·.2)
  else [(l, b)]

/-- The low bytes of a store's register in one lane. -/
def Ex.storeBytes (x : Ex) (d : Opnd) (n : Nat) (i : Nat) : List Byte := bytesOf n (x.val d (8 * n) false 0 i)

def stBody (w : StW) (x : Ex) (s : State) : Eff :=
  let n := w.ty.bits / 8
  let as := x.laneAddrs w.mem
  match x.ownLook as with
  | some e => e
  | none =>
    match x.check12 n w.rel false .store (as.map (·.2)) with
    | some t => .trap t
    | none =>
      if w.rel && !x.c.quiet then .wait .engine
      else
        let (ls, t, s) := s.lanesPieces x.c (wantStore x.c.g.priv) n as
        x.storeLanes s w.rel (ls.flatMap fun l => x.unstored l (x.storeBytes w.d n l.lane)) t

def stsBody (w : SpW) (x : Ex) (s : State) : Eff :=
  let n := w.ty.bits / 8
  match x.spadLanes n w.col w.col .store (x.laneAddrs w.mem) with
  | .error t => .trap t
  | .ok ls => x.storeLanes s false (ls.flatMap fun l => x.unstored l (x.storeBytes w.d n l.lane)) none

/-- A store of which a part has been made: a line that was empty becomes full with its last part alone (R201, R326). -/
def Team.partFull (t old : Team) (rest : List Nat) : Team :=
  (rest.filter fun o => !old.isFull o).foldl (fun t o => t.markEmpty o 1) t

/-- Which words of a store are made apart: those of the lanes of a mask, or one word of one lane. -/
inductive Part where
  | lanes (m : Mask)
  | word (lane w : Nat)
deriving DecidableEq, Repr

/-- A word of a lane's store belongs to a part. -/
def Part.holds (p : Part) (lane w : Nat) : Bool :=
  match p with
  | .lanes m => m.getLsbD lane
  | .word l k => l == lane && k == w

/-- A store whose lanes are all local makes a part of its writes alone, if it can; its group stays at the word (R279). -/
def storePart (n : Nat) (ls : List LaneAddr) (body : Ex → State → Eff) (p : Part) (x : Ex) (s : State) : Eff :=
  let words := ls.flatMap fun l => ((wordParts l (List.replicate n 0)).filter fun e => !x.c.g.parted.contains (l.lane, e.1)).map
    fun e => (l.lane, e)
  let spans (l : List (Nat × Nat × LaneAddr × List Byte)) : List Span := l.map fun e => (localKey e.2.2.1.va, e.2.2.2.length)
  let mine := words.filter fun e => p.holds e.1 e.2.1
  let rest := words.filter fun e => !p.holds e.1 e.2.1
  if mine.isEmpty || rest.isEmpty || spansMeet (spans mine) (spans rest) then .wait .engine
  else
    let act := x.act &&& maskOf (mine.map (·.1))
    let others := (rest.filter fun e => act.getLsbD e.1).map fun e => (e.1, e.2.1)
    match body { x with act := act, c := { x.c with g := { x.c.g with parted := x.c.g.parted ++ others } } } s with
    | .done s' _ _ =>
      let s' := s'.modTeam x.c.ref.t fun t => t.partFull x.c.t (rest.flatMap fun e => spadLines x.c.t e.2.2.2.length [e.2.2.1])
      let s' := match p with
        | .lanes m => x.setPcm s' ((ls.filter fun l => m.getLsbD l.lane).map (·.lane))
        | .word lane w => s'.modGroup x.c.ref fun g => { g with parted := g.parted ++ [(lane, w)] }
      .waitIn s' .engine
    | _ => .wait .engine

/-- A part of STS. -/
def stsPart (w : SpW) (p : Part) (x : Ex) (s : State) : Eff :=
  let n := w.ty.bits / 8
  match x.spadLanes n w.col w.col .store (x.laneAddrs w.mem) with
  | .error _ => .wait .engine
  | .ok ls => storePart n ls (stsBody w) p x s

/-- A part of ST, where every lane is local and it releases nothing. -/
def stPart (w : StW) (p : Part) (x : Ex) (s : State) : Eff :=
  if w.rel || (x.laneAddrs w.mem).any fun a => regionOf a.2 != 2 then .wait .engine
  else storePart (w.ty.bits / 8) ((x.laneAddrs w.mem).map fun a => ⟨a.1, a.2, []⟩) (stBody w) p x s

/-! ### Atomics (R202, R203) -/

/-- The operand, and the new value of `.cas`, of one lane. -/
def Ex.atomArgs (x : Ex) (op : AtomOp) (n : Nat) (c : Opnd) (i : Nat) : W64 × W64 :=
  let v := x.val c (if op = .cas then 16 * n else 8 * n) false 0 i
  (BitVec.ofNat 64 (v % 2 ^ (8 * n)), BitVec.ofNat 64 (v / 2 ^ (8 * n)))

/-- An atomic's lanes, accepted. -/
def Ex.atomLanes (x : Ex) (s : State) (op : AtomOp) (n : Nat) (c : Opnd) (ds : List Dest) (ls : List LaneAddr)
    (t : Option Trap) : Eff :=
  if x.c.mustWait (laneSpans n ls) true then .waitIn s .engine
  else
    let args := ls.map fun l => x.atomArgs op n c l.lane
    x.onFull s n ls fun s => x.accept s (.atomic ls (args.map (·.1)) (args.map (·.2))) ds ls t

def atomBody (w : AtomW) (x : Ex) (s : State) : Eff :=
  let n := if w.wide then 8 else 4
  let as := x.laneAddrs w.mem
  match x.ownLook as with
  | some e => e
  | none =>
    match x.check12 n true false .atomic (as.map (·.2)) with
    | some t => .trap t
    | none =>
      if w.rel && !x.c.quiet then .wait .engine
      else
        let (ls, t, s) := s.lanesPieces x.c (wantAtomic x.c.g.priv) n as
        x.atomLanes (if w.rel then s.releaseLanes x.c ls else s) w.op n w.c (x.ownRegs as) ls t

def atomsBody (w : AtomsW) (x : Ex) (s : State) : Eff :=
  let n := if w.wide then 8 else 4
  match x.spadLanes n false true .atomic (x.laneAddrs w.mem) with
  | .error t => .trap t
  | .ok ls => x.atomLanes s w.op n w.c [] ls none

/-! ### Fences, prefetch and cache control -/

/-- Checks 1 to 3 of a uniform word for an access of `n` bytes; a local address has no piece. -/
def Ex.uniCheck (x : Ex) (s : State) (q : Want) (n : Nat) (a : Addr) : Except Trap (Option Piece) × State :=
  if misaligned a n false then (.error (trapA .badAddress a q.ak), s)
  else match x.c.t.regionCheck a n false x.c.g.priv q.ak with
  | some t => (.error t, s)
  | none =>
    match s.lanePieces x.c q 0 a n with
    | (.error t, s) => (.error t, s)
    | (.ok l, s) => (.ok l.ps.head?, s)

/-- FENCE completes once every earlier access is performed and acknowledged; it releases and acquires at the scope of its
address, and promotes as an acquire does (R205, R309, R310). -/
def fenceBody (w : MemW) (x : Ex) (s : State) : Eff :=
  let a := x.uaddr w.mem
  match x.uniCheck s (wantNone x.c.g.priv) 4 a with
  | (.error t, _) => .trap t
  | (.ok p, s) =>
    if !x.c.quiet then .waitIn s .engine
    else
      let core := x.c.core
      match p with
      | none => .done ((s.releaseTeam x.c.t core).acquireTeam x.c.t core) [] none
      | some p => .done (((s.release core p.pte).promote core p.pte).acquire core p.pte) [] none

/-- PREF changes no result; at a local address it touches (R206). -/
def prefBody (w : PrefW) (x : Ex) (s : State) : Eff :=
  let as := (x.laneAddrs w.mem).map (·.2)
  match as.find? fun a => regionOf a == 1 with
  | some a => .trap (trapA .permission a .load)
  | none =>
    if x.c.acqPending then .wait .engine
    else
    let lines := as.filterMap fun a =>
      if regionOf a = 2 ∧ bits a.toNat 53 32 = 0 ∧ isSpad x.c.t a = true then some (lineOf (a.toNat % 2 ^ 32)) else none
    .done (s.touchAll x.c lines) [] none

/-- CFLUSH and CINV act on the line of their address in this core's L1; of the page they ask only what privilege asks (R207, R403). -/
def cacheBody (w : MemW) (act : State → Nat → Nat → State) (x : Ex) (s : State) : Eff :=
  let a := x.uaddr w.mem
  match x.uniCheck s (wantNone x.c.g.priv) 1 a with
  | (.error t, _) => .trap t
  | (.ok none, s) => .done s [] none
  | (.ok (some p), s) =>
    if x.c.mustWait [(lineOf p.pa, 128)] true then .waitIn s .engine
    else .done (act s x.c.core (lineOf p.pa)) [] none

/-! ### Full/empty bits (R208) -/

/-- A window that is FILLING or WRITING holds one of the lines. -/
def Team.copyOver (t : Team) (o n : Nat) : Bool :=
  (List.range 32).any fun k =>
    let w := t.win k
    (w.st == .filling || w.st == .writing) && (match w.desc with
      | some d => decide (d.spoff < o + 128 * n) && decide (o < d.spoff + d.range)
      | none => false)

def spemptyBody (w : RegMemW) (x : Ex) (s : State) : Eff :=
  let a := x.uaddr w.mem
  let m := x.uval w.d 32 false 0
  match x.c.t.spCheck a 1 false .store with
  | .error t => .trap t
  | .ok o =>
    let l := lineOf o
    if x.c.t.spadSize < l + 128 * m then .trap (trapA .badAddress a .store)
    else if m ≠ 0 ∧ x.c.t.copyOver l m = true then .wait .engine
    else .done (s.modTeam x.c.ref.t fun t => t.markEmpty l m) [] none

def spstateBody (w : RegMemW) (x : Ex) (s : State) : Eff :=
  match x.spadLanes 1 false false .load (x.lanes.map fun i => (i, x.addr w.mem i)) with
  | .error t => .trap t
  | .ok ls =>
    let on := ls.filter fun l => x.c.t.isFull (l.va.toNat % 2 ^ 32)
    .done s (predWr w.d x.act (maskOf (on.map (·.lane)))) none

/-! ### CTLD (R151) -/

/-- The first entry that is a NaN or not strictly below the entry after it. -/
def badEntry : Nat → List Nat → Option Nat
  | _, [] => none
  | i, [c] => if (f32 c).isNan then some i else none
  | i, c :: d :: r =>
    if (f32 c).isNan || !(f32 c).lt (f32 d) then some i
    else badEntry (i + 1) (d :: r)

def ctldBody (w : MemW) (x : Ex) (s : State) : Eff :=
  let a := x.uaddr w.mem
  if a.toNat % 128 ≠ 0 then .trap (trapA .badAddress a .load)
  else x.withRecord s a 1024 fun b s =>
    let es := (List.range 256).map fun i => numAt b (4 * i) 4
    match badEntry 0 es with
    | some i => .trap (trapE .badTable (info2 a.toNat i))
    | none => .done (s.modTeam x.c.ref.t fun t =>
        { t with code := Vector.ofFn fun i : Fin 256 => BitVec.ofNat 32 (es.getD i.val 0), loaded := true }) [] none

/-! ### Meanings -/

def execCtld (x : MemW) (s : State) : Host.Outcome State Fault Refusal := runWord (.ctld x) (ctldBody x) s

def execLd (x : LdW) (s : State) : Host.Outcome State Fault Refusal := runWord (.ld x) (ldBody x) s

def execSt (x : StW) (s : State) : Host.Outcome State Fault Refusal := runWord (.st x) (stBody x) s

def execLds (x : SpW) (s : State) : Host.Outcome State Fault Refusal := runWord (.lds x) (ldsBody x) s

def execSts (x : SpW) (s : State) : Host.Outcome State Fault Refusal := runWord (.sts x) (stsBody x) s

def execAtom (x : AtomW) (s : State) : Host.Outcome State Fault Refusal := runWord (.atom x) (atomBody x) s

def execAtoms (x : AtomsW) (s : State) : Host.Outcome State Fault Refusal := runWord (.atoms x) (atomsBody x) s

def execFence (x : MemW) (s : State) : Host.Outcome State Fault Refusal := runWord (.fence x) (fenceBody x) s

def execPref (x : PrefW) (s : State) : Host.Outcome State Fault Refusal := runWord (.pref x) (prefBody x) s

def execCflush (x : MemW) (s : State) : Host.Outcome State Fault Refusal :=
  runWord (.cflush x) (cacheBody x fun s core line => s.l1Clean core (lineIs line)) s

def execCinv (x : MemW) (s : State) : Host.Outcome State Fault Refusal :=
  runWord (.cinv x) (cacheBody x fun s core line => s.l1Drop core (lineIs line)) s

def execSpempty (x : RegMemW) (s : State) : Host.Outcome State Fault Refusal := runWord (.spempty x) (spemptyBody x) s

def execSpstate (x : RegMemW) (s : State) : Host.Outcome State Fault Refusal := runWord (.spstate x) (spstateBody x) s

end Sys2Proof.Machine
end

