-- ==== Sys2Proof/Machine/Convert.lean ====
section
/-! DEFINITION. Quantisation by the step rule (R123) and conversion through a tensor parameter record (R126 to R128). -/
namespace Sys2Proof.Machine

/-- Some element has |x / s| above the bound; a NaN never does (R123). -/
def exceeds (xs : List ExactNum) (s bound : ExactNum) : Bool :=
  xs.any fun x => !x.isNan && bound.lt (x.div s).abs

/-- At most three raises of the scale (R123). -/
def raiseScale (xs : List ExactNum) (bound : ExactNum) : Nat → ExactNum → ExactNum
  | 0, s => s
  | n + 1, s => raiseScale xs bound n (if exceeds xs s bound then (ExactNum.fin false 2 1).mul s else s)

/-- The scale of R123, and whether a value still exceeds the bound after the last step. -/
def stepScale (xs : List ExactNum) (s0 bound : ExactNum) : ExactNum × Bool :=
  let s := raiseScale xs bound 3 s0
  (s, exceeds xs s bound)

/-- The largest E4M3 magnitude. -/
def e4m3Max : ExactNum := .fin false 448 1

/-- The FP32 bits of a scale. The exact scale divides the elements; one that leaves FP32 (an AMAX s0 below 2^-149, a raise past the
largest value) is written rounded to nearest even, as 0 or infinity: R128 gives no other value, and the choice is the model's
(log 46). -/
def scaleBits (s : ExactNum) : W32 := BitVec.ofNat 32 (round FP32 .rne s)

/-! ### Tensor parameter records -/

/-- Bound β of a record (R128). -/
def Tpr.bound (p : Tpr) : ExactNum :=
  if p.clamp = 0 then decodeNum p.dfmt.fmt p.dfmt.fmt.maxCode else f32 p.clamp.toNat

/-- The scale that AMAX proposes (R128). -/
def amaxScale (p : Tpr) (xs : List ExactNum) : ExactNum :=
  let big := xs.foldl (fun (m : ExactNum) x => if x.isFin && m.lt x.abs then x.abs else m) (ExactNum.zero false)
  match big with
  | .fin _ n d =>
    if n = 0 then f32 p.scale.toNat
    else
      let e := floorLog2 n d - 8
      if 0 ≤ e then .fin false (2 ^ e.toNat) 1 else .fin false 1 (2 ^ (-e).toNat)
  | _ => f32 p.scale.toNat

/-- The scale of a scaling group (R128), and whether the third raise still saturates: `QSAT`, which the model sets under `OVF` too,
where the elements beyond β become NaN (log 46). -/
def Tpr.groupScale (p : Tpr) (xs : List ExactNum) : ExactNum × Bool :=
  match p.spol with
  | .fixed => (f32 p.scale.toNat, false)
  | .step => stepScale xs (f32 p.scale.toNat) p.bound
  | .amax => stepScale xs (amaxScale p xs) p.bound

/-- A quotient leaves a format without infinities: rounded in its mode, its magnitude lies beyond the largest finite value. Under `OVF`
E4M3 does not saturate there, in any mode (R110, R126, R128; log 46). -/
def Tpr.leaves (p : Tpr) (q : ExactNum) : Bool :=
  let f := p.dfmt.fmt
  p.ov && !f.inf && match q with
    | .nan => false
    | .inf _ => true
    | .fin s n d =>
      if n = 0 then false
      else
        let (i, k, r, den) := ulps f n d
        let code := i * 2 ^ f.fb + k
        decide (f.maxCode < code) ||
          (code == f.maxCode && r != 0 && overCode { f with inf := true } p.rm s (decide (den ≤ 2 * r)) != f.maxCode)

/-- Convert one element: its code, and whether it met β (R128). -/
def Tpr.elem (p : Tpr) (s : ExactNum) (coord : Nat) (x : ExactNum) : Nat × Bool :=
  let f := p.dfmt.fmt
  let c := round f p.rm (x.div s) ⟨p.seed.toNat, coord⟩
  let y := decodeNum f c
  if p.leaves (x.div s) then (f.nanCode, true)
  else if !y.isNan && p.bound.lt y.abs then
    ((if p.ov then f.nanCode else round f .rne p.bound + bnat y.sign * 2 ^ f.signBit), true)
  else (c, !y.isNan && !(y.abs.lt p.bound))

/-- An exact scale as a multiple of a power of two, and back. -/
def scalePair : ExactNum → Nat × Int
  | .fin _ n d => (n, -(d.log2 : Int))
  | _ => (0, 0)

/-- See `scalePair`. -/
def pairScale (p : Nat × Int) : ExactNum :=
  if 0 ≤ p.2 then .fin false (p.1 * 2 ^ p.2.toNat) 1 else .fin false p.1 (2 ^ (-p.2).toNat)

/-- A record of 32 bytes checked under R127. -/
def parseTpr (b : List Byte) : Option Tpr :=
  let n := natOf b
  let fmt : Option FTy := match bits n 130 128 with | 0 => some .f32 | 1 => some .f16 | 2 => some .bf16 | 5 => some .e4m3 | _ => none
  let pol : Option ScalePol := match bits n 135 134 with | 0 => some .fixed | 1 => some .step | 2 => some .amax | _ => none
  match fmt, RMode.ofCode (BitVec.ofNat 3 (bits n 133 131)), pol with
  | some f, some rm, some sp =>
    let scale : W32 := BitVec.ofNat 32 (bits n 63 32)
    let clamp : W32 := BitVec.ofNat 32 (bits n 31 0)
    let c := f32 clamp.toNat
    let exact := (decodeNum f.fmt (round f.fmt .rne c)).cmp c == .eq
    if bits n 255 138 ≠ 0 ∨ (rm = .rs ∧ f = .f32) ∨ posFinite scale = false ∨
        (clamp ≠ 0 ∧ (posFinite clamp = false ∨ exact = false)) ∨ (f = .e4m3 ∧ e4m3Max.lt c = true) then none
    else some ⟨scale, clamp, BitVec.ofNat 64 (bits n 127 64), rm, f, sp, bitAt n 137, bitAt n 136⟩
  | _, _, _ => none

end Sys2Proof.Machine
end

