-- ==== Sys2Proof/Machine/Window.lean ====
section
/-! DEFINITION. Region windows and the copy engine (R209 to R215, R282 to R285). -/
namespace Sys2Proof.Machine

/-! ### Descriptors (R210 to R212) -/

/-- A signed field. -/
def sfield (n hi lo : Nat) : Int := sext (bits n hi lo) (hi + 1 - lo)

/-- Size of a source format. -/
def srcSize (t : FTy) : Nat := t.fmt.width / 8

/-- A descriptor whose own fields pass R212. -/
def winFields (n : Nat) : Option WinDesc :=
  let tprA := bits n 447 384
  let layA := bits n 511 448
  let ez := bits n 175 174
  let esz := 2 ^ ez
  let rows := bits n 255 240
  let cols := bits n 239 224
  let pitch := bits n 223 208
  let code := bits n 173 171
  let fmt : Option FTy := match code with | 0 => some .f32 | 1 => some .f16 | 2 => some .bf16 | 5 => some .e4m3 | _ => none
  match fmt with
  | none => none
  | some f =>
    if n % 2 ^ 167 ≠ 0 ∨ ez = 3 ∨ (tprA = 0 ∧ code ≠ 0) ∨ (tprA ≠ 0 ∧ srcSize f ≠ esz) ∨ bits n 383 374 ≠ 0 ∨
        (layA ≠ 0 ∧ bits n 319 288 ≠ 0) ∨ bits n 287 256 % 128 ≠ 0 ∨ rows = 0 ∨ 4096 < rows ∨ cols = 0 ∨ 4096 < cols ∨
        pitch % 128 ≠ 0 ∨ pitch < 128 ∨ 16384 < pitch ∨ bits n 207 176 % 4 ≠ 0 ∨ 2 ^ 56 ≤ tprA ∨ 2 ^ 56 ≤ layA then none
    else some ⟨BitVec.ofNat 512 n, bits n 383 320, sfield n 319 288, bits n 287 256, rows, cols, pitch, bits n 207 176, esz, f,
      bitAt n 170, bitAt n 169, bitAt n 168, bitAt n 167, layA, tprA, none, none⟩

/-- A checked layout record of 32 bytes (R211). -/
def parseLayout (b : List Byte) : Option Layout :=
  let n := natOf b
  if n % 2 ^ 112 ≠ 0 ∨ bits n 191 176 = 0 ∨ bits n 175 160 = 0 then none
  else some ⟨sfield n 255 224, sfield n 223 192, bits n 191 176, bits n 175 160, sfield n 159 144, sfield n 143 128,
    bits n 127 120, bits n 119 112⟩

/-- Destination element size e′. -/
def WinDesc.dsz (d : WinDesc) : Nat := match d.tpr with | none => d.esz | some p => srcSize p.dfmt

/-- Tile columns of scaling groups. -/
def WinDesc.tcols (d : WinDesc) : Nat := ceilDiv d.cols 128

/-- Bytes of the scale area (R213). -/
def WinDesc.scaleBytes (d : WinDesc) : Nat :=
  match d.tpr with
  | none => 0
  | some p => 4 * ((if p.grp then ceilDiv d.rows 128 else d.rows) * d.tcols)

/-- Two runs of bytes meet. -/
def runsMeet (a n b m : Nat) : Bool := decide (a < b + m) && decide (b < a + n)

/-- The scale area lies apart from the window's own range, as a policy other than FIXED needs it (R212; log 25). -/
def WinDesc.scaleOk (d : WinDesc) : Bool := !runsMeet d.scoff d.scaleBytes d.spoff d.range

/-- The checks of R212 that need the records: BAD-RECORD. -/
def WinDesc.recordsOk (d : WinDesc) : Bool :=
  decide (d.cols * d.dsz ≤ d.pitch) &&
  (match d.layout with | some l => l.ph * l.pw == d.rows | none => true) &&
  (match d.tpr with | some p => p.spol == .fixed || d.scaleOk | none => true)

/-- `n` bytes at `o` meet the scale area, where the window converts. -/
def WinDesc.meetsScales (d : WinDesc) (o n : Nat) : Bool := d.scaleBytes != 0 && runsMeet o n d.scoff d.scaleBytes

/-- The range or the scale area runs past the scratchpad. -/
def WinDesc.outside (d : WinDesc) (size : Nat) : Bool :=
  decide (size < d.spoff + d.range) || (d.scaleBytes != 0 && decide (size < d.scoff + d.scaleBytes))

/-- A copy of a bound window will fill the empty line at a row offset: a line of its range, or of the scales it writes (R201). -/
def Team.willFill (t : Team) (o : Nat) : Bool :=
  (List.range 32).any fun k =>
    (t.win k).st == .filling && (match (t.win k).desc with
      | some d => runsMeet o 128 d.spoff d.range || d.meetsScales o 128
      | none => false)

/-- The range overlaps the range or the scale area of another bound window. -/
def Team.winClash (t : Team) (k : Nat) (d : WinDesc) : Bool :=
  (List.range 32).any fun j =>
    j != k && (t.win j).st != .unbound && (match (t.win j).desc with
      | some o => runsMeet d.spoff d.range o.spoff o.range || o.meetsScales d.spoff d.range
      | none => false)

/-- Bind window `k` to a checked descriptor: its range empty, ABSENT with arming offset 0 (R215). -/
def Team.bindWin (t : Team) (k : Nat) (d : WinDesc) (addr : W64) (armer : Nat) : Team :=
  let t := t.markEmpty d.spoff (d.range / 128)
  t.setWin k { Window.unbound with st := .absent, desc := some d, daddr := addr, armer := armer }

/-! ### WBIND, WARM, WPUT, WSTATE (R215) -/

/-- The value of `A` + sext(`IMM`, 32). -/
def Ex.winVal (x : Ex) (a : Opnd) (off : W32) : W64 := BitVec.ofInt 64 ((x.uval a 64 false 0 : Nat) + sext off.toNat 32)

def trapWindow (k : Nat) : Trap := trapE .badWindow (BitVec.ofNat 128 k)

/-- `.go` starts the copy at once. -/
def Ex.go (x : Ex) (s : State) (go : Bool) (k : Nat) : Eff :=
  .done (if go then s.startCopy x.c.ref.t k x.c.issuer else s) [] none

/-- The checked descriptor takes effect. -/
def wbindFinish (w : WinW) (addr : W64) (d : WinDesc) (x : Ex) (s : State) : Eff :=
  let k := w.k.val
  let a := addr.toNat % 2 ^ 56
  if !d.recordsOk then .trap (trapE .badRecord (BitVec.ofNat 128 a))
  else if d.outside x.c.t.spadSize then .trap (trapA .badAddress (BitVec.ofNat 56 a) .load)
  else if x.c.t.winClash k d then .trap (trapWindow k)
  else x.go (s.modTeam x.c.ref.t fun t => t.bindWin k d addr x.c.party) w.go k

/-- Read the layout record, then the tensor parameter record, that a descriptor names. -/
def wbindRecords (w : WinW) (addr : W64) (d : WinDesc) (x : Ex) (s : State) : Eff :=
  let bad (a : Nat) : Eff := .trap (trapE .badRecord (BitVec.ofNat 128 a))
  let tpr (d : WinDesc) (s : State) : Eff :=
    if d.tprAddr = 0 then wbindFinish w addr d x s
    else x.withRecord s (BitVec.ofNat 56 d.tprAddr) 32 fun b s =>
      match parseTpr b with
      | none => bad d.tprAddr
      | some p => wbindFinish w addr { d with tpr := some p } x s
  if d.layoutAddr % 32 ≠ 0 then .trap (trapA .badAddress (BitVec.ofNat 56 d.layoutAddr) .load)
  else if d.tprAddr % 32 ≠ 0 then .trap (trapA .badAddress (BitVec.ofNat 56 d.tprAddr) .load)
  else if d.layoutAddr = 0 then tpr d s
  else x.withRecord s (BitVec.ofNat 56 d.layoutAddr) 32 fun b s =>
    match parseLayout b with
    | none => bad d.layoutAddr
    | some l => tpr { d with layout := some l } s

/-- The window is FILLING or WRITING. -/
def Window.busy (w : Window) : Bool := w.st == .filling || w.st == .writing

def wbindBody (w : WinW) (x : Ex) (s : State) : Eff :=
  let k := w.k.val
  let v := x.winVal w.a w.off
  let a : Addr := BitVec.ofNat 56 v.toNat
  if (x.c.t.win k).busy || (w.go && x.c.acqPending) then .wait .engine
  else if v = 0 then
    .done (s.modTeam x.c.ref.t fun t => t.setWin k { t.win k with st := .unbound, desc := none, daddr := 0, ofs := 0, next := 0 }) [] none
  else if a.toNat % 64 ≠ 0 then .trap (trapA .badAddress a .load)
  else x.withRecord s a 64 fun b s =>
    match winFields (natOf b) with
    | none => .trap (trapE .badRecord (BitVec.ofNat 128 a.toNat))
    | some d => wbindRecords w v d x s

def warmBody (w : WinW) (x : Ex) (s : State) : Eff :=
  let k := w.k.val
  let win := x.c.t.win k
  let o := x.winVal w.a w.off
  if win.busy || (w.go && x.c.acqPending) then .wait .engine
  else match win.st, win.desc with
    | .unbound, _ => .trap (trapWindow k)
    | _, none => .trap (trapWindow k)
    | _, some d =>
      if d.layout.isSome && decide (2 ^ 16 ≤ o.toNat) then .trap (trapWindow k)
      else
        x.go (s.modTeam x.c.ref.t fun t =>
          (t.markEmpty d.spoff (d.range / 128)).setWin k { win with st := .absent, ofs := o, next := 0, armer := x.c.party }) w.go k

def wputBody (w : WputW) (x : Ex) (s : State) : Eff :=
  let k := w.k.val
  let win := x.c.t.win k
  if win.busy || x.c.acqPending then .wait .engine
  else match win.st, win.desc with
    | .unbound, _ => .trap (trapWindow k)
    | _, none => .trap (trapWindow k)
    | _, some d =>
      if x.c.mustWait [(2 ^ 64 + d.spoff, d.range)] false then .wait .engine
      else if d.tpr.isSome || d.layout.isSome then .trap (trapWindow k)
      else
        let i := x.c.issuer
        let s := s.modTeam x.c.ref.t fun t => t.setWin k { win with
          st := .writing, before := win.st, next := 0, unitDone := 0, stop := false, stopInfo := none, retries := none
          issuer := i.grp, tick := i.tick, epoch := i.epoch, vc := i.vc }
        .done (s.modCore x.c.t.core fun c => { c with copies := c.copies ++ [(x.c.ref.t, k)] }) [] none

/-- A condition of WSTATE. -/
def winCond (c : WinCond) (w : Window) : Bool :=
  match c with
  | .bound => w.st != .unbound
  | .full => w.st == .present
  | .absent => w.st == .absent
  | .idle => !w.busy

def wstateBody (w : WstateW) (x : Ex) (s : State) : Eff :=
  .done s (predWr w.d x.c.g.exec (if winCond w.cc (x.c.t.win w.k.val) then x.c.g.exec else 0)) none

/-! ### The copy engine: addresses and units (R213; log 19) -/

/-- The address of source row `r`; `none` for a row of zeros. -/
def WinDesc.rowAddr (d : WinDesc) (ofs : W64) (r : Nat) : Option Addr :=
  match d.layout with
  | none => some (BitVec.ofInt 56 ((d.gbase : Int) + ofs.toNat + r * d.rstride))
  | some l =>
    let ty := sfield ofs.toNat 15 8
    let tx := sfield ofs.toNat 7 0
    let y : Int := l.oy + ((r / l.pw : Nat) : Int) + ty
    let x : Int := l.ox + ((r % l.pw : Nat) : Int) + tx
    if 0 ≤ y ∧ y < l.ih ∧ 0 ≤ x ∧ x < l.iw then some (BitVec.ofInt 56 ((d.gbase : Int) + y * l.lstride + x * l.pstride))
    else none

/-- Elements of a unit: a scaling group of 128, or one scratchpad line. -/
def WinDesc.unitElems (d : WinDesc) : Nat := if d.tpr.isSome then 128 else 128 / d.esz

/-- Units of a row. -/
def WinDesc.units (d : WinDesc) : Nat := ceilDiv d.cols d.unitElems

/-- First element of a unit, and how many it has. -/
def WinDesc.unitSpan (d : WinDesc) (u : Nat) : Nat × Nat :=
  (u * d.unitElems, min d.unitElems (d.cols - u * d.unitElems))

/-- The party of an engine access: the group that issued the command (R351). -/
def Team.enginePty (t : Team) (l : Launch) (w : Window) : Pty where
  core := t.core
  launch := l.num
  team := t.ref
  ord := l.pkt.ord && !t.ref.shadow
  vers := t.seg.map (·.vers)
  tag := ⟨t.ref.idx, w.issuer, 0, w.epoch, w.tick, 0⟩
  vc := w.vc

/-- What a step of a copy gives. -/
inductive CopyRes where
  | moved (s : State)
  | waits
  /-- It waits for a version line for this piece (R293). -/
  | full (x : Piece)
  | fault (s : State) (t : Trap)
  | race (s : State) (va : Addr) (o : AccTag)

/-- Translate the parts of an engine access. Region 00 of this device is reached, and by a counted window (`cnt`) region 01, whose pages
must carry `TWIN` (R34, R35; log 26). -/
def State.enginePieces (s : State) (core ctx : Nat) (q : Want) (cnt : Bool) : List (Addr × Nat) → Except Trap (List Piece) × State
  | [] => (.ok [], s)
  | (va, n) :: r =>
    let twin := regionOf va == 1
    if regionOf va ≠ 0 ∧ (twin && cnt) = false then (.error (trapA .permission va q.ak), s)
    else match s.xlat (some core) ctx (primary va) { q with tw := q.tw || twin } with
      | .error t => (.error { t with va := if t.va = primary va then va else t.va }, s)
      | .ok p =>
        let s := s.tlbFill (some core) ctx (primary va) p
        if pteSystem p then (.error (trapA .permission va q.ak), s)
        else match s.enginePieces core ctx q cnt r with
          | (.error t, s) => (.error t, s)
          | (.ok ps, s) => (.ok (⟨va, paOf p va, n, p⟩ :: ps), s)

/-- Read pieces at their homes, never through an L1 (R283). -/
def State.engineRead (s : State) (p : Pty) : List Piece → Except (Addr × HomeErr) (List Byte) × State
  | [] => (.ok [], s)
  | x :: r =>
    match s.track p .glob x.pa x.n false 0 with
    | (some o, s) => (.error (x.va, .race o), s)
    | (none, s) =>
      if s.lostFor p.vers (lineOf x.pa) (wordsOf x.pa x.n) then (.error (x.va, .lost (lineOf x.pa)), s)
      else match s.engineRead p r with
        | (.error e, s) => (.error e, s)
        | (.ok b, s) => (.ok (s.homeRead p.vers x.pa x.n ++ b), s)

/-- Cut bytes into pieces. -/
def cutPieces : List Piece → List Byte → List (Piece × List Byte)
  | [], _ => []
  | p :: r, b => (p, b.take p.n) :: cutPieces r (b.drop p.n)

/-- Write bytes over pieces at their homes, if no piece races and no line that is written in part is lost; the words written leave
the L1 of the core (R285). -/
def State.engineWrite (s : State) (p : Pty) (ps : List Piece) (b : List Byte) : Except (Addr × HomeErr) State :=
  match ps.findSome? fun x => (s.track p .glob x.pa x.n true 0).1.map fun o => (x.va, o) with
  | some (va, o) => .error (va, .race o)
  | none =>
    match ps.find? fun x => x.n != 128 && s.lostFor p.vers (lineOf x.pa) (wordsOf x.pa x.n) with
    | some x => .error (x.va, .lost (lineOf x.pa))
    | none =>
      let write (s : State) (e : Piece × List Byte) : State :=
        let s := (s.track p .glob e.1.pa e.1.n true 0).2
        (s.l1Remove p.core (lineOf e.1.pa) (wordsOf e.1.pa e.1.n)).homeWrite p.vers e.1.pa e.2
      .ok ((cutPieces ps b).foldl write s)

/-- A home error of an engine access. -/
def engineErr (s : State) (e : Addr × HomeErr) : CopyRes :=
  match e with
  | (_, .lost l) => .fault s (trapE .dataLost (BitVec.ofNat 128 l))
  | (va, .race o) => .race s va o

/-- An earlier unit of this fill has read the line of `va`: it counts once per fill (R284). -/
def WinDesc.readBefore (d : WinDesc) (ofs : W64) (next unit : Nat) (va : Addr) : Bool :=
  let l := lineOf va.toNat
  let meets (r n : Nat) : Bool :=
    match d.rowAddr ofs r with
    | some a => decide (a.toNat < l + 128) && decide (l < a.toNat + n)
    | none => false
  (List.range next).any (fun r => meets r (d.cols * d.esz)) || (unit != 0 && meets next (unit * d.unitElems * d.esz))

/-- The counted lines of pieces that this fill reads for the first time. -/
def WinDesc.newLines (d : WinDesc) (w : Window) (ps : List Piece) : List Piece :=
  if d.cnt then ps.filter fun p => pteTwin p.pte && !d.readBefore w.ofs w.next w.unitDone p.va else []

/-- Count lines once each; the first that is refused. -/
def State.countLines (s : State) (v : Option Nat) : List Piece → Except Piece State
  | [] => .ok s
  | p :: r => match s.twCount v p 1 with | none => .error p | some s => s.countLines v r

/-- The values of source elements. -/
def WinDesc.elems (d : WinDesc) (b : List Byte) (n : Nat) : List ExactNum :=
  (List.range n).map fun i => decodeNum d.sfmt.fmt (numAt b (d.esz * i) d.esz)

/-- The parts of a fill's source by lines. -/
def WinDesc.sourceParts (d : WinDesc) (w : Window) : List (Addr × Nat) :=
  (List.range d.rows).flatMap fun r =>
    match d.rowAddr w.ofs r with
    | none => []
    | some a => recParts a (d.cols * d.esz)

/-- The acquire of `ACQ` at the scope of the source, before the first read: the pages of the source that a pair homes are brought to
their homes (R213, R309). -/
def State.acquireFill (s : State) (t : Team) (l : Launch) (w : Window) (d : WinDesc) : State :=
  (d.sourceParts w).foldl (fun s e =>
    match s.xlat (some t.core) l.pkt.ctx e.1 (wantLoad false .fillRead) with
    | .ok p => s.promote t.core p
    | .error _ => s) s

/-- Read the elements from `c` on of source row `r`, `n` of them: their bytes and pieces. -/
def State.readElems (s : State) (t : Team) (l : Launch) (w : Window) (d : WinDesc) (r c n : Nat) :
    Except CopyRes (List Byte × List Piece) × State :=
  match d.rowAddr w.ofs r with
  | none => (.ok (List.replicate (n * d.esz) 0, []), s)
  | some a =>
    let va := a + BitVec.ofNat 56 (c * d.esz)
    match s.enginePieces t.core l.pkt.ctx (wantLoad false .fillRead) d.cnt (recParts va (n * d.esz)) with
    | (.error e, s) => (.error (.fault s e), s)
    | (.ok ps, s) =>
      if ps.any fun x => s.far t.core x.pa then (.error .waits, s)
      else match s.engineRead (t.enginePty l w) ps with
      | (.error e, s) => (.error (engineErr s e), s)
      | (.ok b, s) => (.ok (b, ps), s)

/-! ### Writing the scratchpad -/

/-- The largest offset of the range that lies in row line `ln` under column orientation with elements of `e` bytes. -/
def lastColOff (e lo hi ln : Nat) : Nat :=
  let n := 128 / e
  let line := ln / 128
  let span := line / 128
  let b := line % 128 / n
  let k := line % n
  ((List.range n).map fun q => span * spanBytes + (b * n + q) * 128 + k * e).foldl
    (fun m o => if lo ≤ o ∧ o < hi ∧ m < o then o else m) 0

/-- Write bytes of a window's row at offset `o` in its orientation; `e` is the element size. -/
def Team.winWrite (t : Team) (d : WinDesc) (e o : Nat) (b : List Byte) : Team :=
  if d.orient then
    (b.zipIdx).foldl (fun t x => t.spadWrite (rowOff true e (o + x.2 / e * e) + x.2 % e) [x.1]) t
  else t.spadWrite o b

/-- The row lines that the bytes at `o` touch in a window's orientation. -/
def WinDesc.linesAt (d : WinDesc) (e o n : Nat) : List Nat :=
  if d.orient then
    ((List.range (n / e)).map fun i => lineOf (rowOff true e (o + i * e))).eraseDups
  else (List.range (n / 128)).map fun i => lineOf (o + 128 * i)

/-- The touched lines that are complete once the range is written up to offset `hi`. -/
def WinDesc.complete (d : WinDesc) (e o n : Nat) : List Nat :=
  (d.linesAt e o n).filter fun ln =>
    if d.orient then decide (lastColOff e d.spoff (d.spoff + d.range) ln < o + n) else true

/-- Mark a line full as a fill does, once all of it is written: it is lost no more (R213, R295). -/
def Team.fillMark (t : Team) (vc : VClock) (ln : Nat) : Team :=
  let t := (t.markFull ln vc).spadWhole ln
  { t with filled := Store.set false t.filled (ln / 128) true }

/-- Track an engine's scratchpad write. -/
def State.trackLines (s : State) (p : Pty) (t : Team) (write : Bool) : List (Nat × Nat) → Option (Addr × AccTag) × State
  | [] => (none, s)
  | (o, n) :: r =>
    match s.trackLocal p t (localVa o) n write 0 with
    | (some a, s) => (some (localVa o, a), s)
    | (none, s) => s.trackLines p t write r

/-- Runs of row bytes of an access in a window's orientation. -/
def WinDesc.runs (d : WinDesc) (e o n : Nat) : List (Nat × Nat) :=
  if d.orient then (List.range (n / e)).map fun i => (rowOff true e (o + i * e), e) else [(o, n)]

/-- Offset and length of a unit in the scratchpad; the last one of a row reaches the end of the pitch. -/
def WinDesc.unitBytes (d : WinDesc) (r u : Nat) : Nat × Nat :=
  let o := r * d.pitch + u * d.unitElems * d.dsz
  let stop := if u + 1 = d.units then (r + 1) * d.pitch else o + d.unitElems * d.dsz
  (d.spoff + o, stop - o)

/-! ### Converting (R128, R213, R284) -/

/-- A converted unit: bytes, its scale, whether an element met β, whether a third raise still saturated. -/
def convertUnit (p : Tpr) (s : ExactNum) (sat : Bool) (row col : Nat) (xs : List ExactNum) : List Byte × ExactNum × Bool × Bool :=
  let out := (xs.zipIdx).map fun e => p.elem s (row * 2 ^ 32 + col + e.2) e.1
  ((out.map fun o => bytesOf (srcSize p.dfmt) o.1).flatten, s, out.any (·.2), sat)

/-- Index of the scale of a unit. -/
def WinDesc.scaleIx (d : WinDesc) (p : Tpr) (r u : Nat) : Nat := (if p.grp then r / 128 else r) * d.tcols + u

/-- The scale of a unit: that of its test pass for a tile, or its own. -/
def Window.unitScale (w : Window) (d : WinDesc) (p : Tpr) (r u : Nat) (xs : List ExactNum) : ExactNum × Bool :=
  if p.grp && p.spol != .fixed then
    let (n, k, sat) := Store.get (0, 0, false) w.scales (d.scaleIx p r u)
    (pairScale (n, k), sat)
  else p.groupScale xs

/-- A two-pass fill makes its raise tests first (R284). -/
def WinDesc.twoPass (d : WinDesc) : Bool := match d.tpr with | some p => p.grp && p.spol != .fixed | none => false

/-- The values of a tile of scaling groups, row by row. -/
def State.readTile (s : State) (t : Team) (l : Launch) (w : Window) (d : WinDesc) (u : Nat) :
    List Nat → Except CopyRes (List ExactNum) × State
  | [] => (.ok [], s)
  | r :: rest =>
    let (c, n) := d.unitSpan u
    match s.readElems t l w d r c n with
    | (.error e, s) => (.error e, s)
    | (.ok (b, _), s) =>
      match s.readTile t l w d u rest with
      | (.error e, s) => (.error e, s)
      | (.ok xs, s) => (.ok (d.elems b n ++ xs), s)

/-- The raise-test pass: the scale of every tile. -/
def State.testPass (s : State) (t : Team) (l : Launch) (w : Window) (d : WinDesc) (p : Tpr) :
    List (Nat × Nat) → Store (Nat × Int × Bool) → Except CopyRes (Store (Nat × Int × Bool)) × State
  | [], m => (.ok m, s)
  | (tr, u) :: rest, m =>
    let rows := (List.range d.rows).filter fun r => r / 128 == tr
    match s.readTile t l w d u rows with
    | (.error e, s) => (.error e, s)
    | (.ok xs, s) =>
      let (sc, sat) := p.groupScale xs
      let (n, k) := scalePair sc
      s.testPass t l w d p rest (Store.set (0, 0, false) m (tr * d.tcols + u) (n, k, sat))

/-! ### One step of a fill -/

/-- A copy is over, with the window in state `st`; a window of a killed team is unbound, unless mesh words that have been issued
still read it: then it goes with the team (R185, R249). -/
def Team.copyEnds (t : Team) (w : Window) (st : WinSt) : Window :=
  if w.dying && t.mq.isEmpty then { w with st := .unbound, desc := none, dying := false } else { w with st := st, dying := false }

/-- A copy leaves its core's engine. -/
def State.endCopy (s : State) (t : Team) (k : Nat) : State :=
  s.modCore t.core fun c => { c with copies := c.copies.filter fun e => e != (t.ref, k) }

/-- The window after a unit. -/
def Window.advance (w : Window) (d : WinDesc) : Window :=
  if w.unitDone + 1 = d.units then { w with next := w.next + 1, unitDone := 0, retries := none, waiting := none }
  else { w with unitDone := w.unitDone + 1, retries := none, waiting := none }

/-- The flags of a conversion, in the group that armed the window. -/
def State.copyFlags (s : State) (t : Team) (i : Nat) (clamp qsat : Bool) : State :=
  s.modGroup ⟨t.ref, .grp i⟩ fun g => if g.live then (g.flag .clamp clamp).flag .qsat qsat else g

/-- Write the scale of a unit. Its line becomes full, but for a line of the window's own range, which the rows fill (R213). -/
def Team.putScale (t : Team) (d : WinDesc) (vc : VClock) (a : Nat) (x : W32) : Team :=
  let t := t.spadWrite a (bytesOf 4 x.toNat)
  if runsMeet (lineOf a) 128 d.spoff d.range then t
  else
    let t := t.markFull (lineOf a) vc
    { t with filled := Store.set false t.filled (a / 128) true }

/-- Put a unit's bytes into the scratchpad, with its scale, and advance. -/
def State.placeUnit (s : State) (t : Team) (l : Launch) (k : Nat) (w : Window) (d : WinDesc) (b : List Byte)
    (scale : Option (Nat × W32)) : CopyRes :=
  let (o, n) := d.unitBytes w.next w.unitDone
  let bytes := b ++ List.replicate (n - b.length) 0
  let p := t.enginePty l w
  let extra : List (Nat × Nat) := match scale with | some (a, _) => [(a, 4)] | none => []
  match s.trackLines p t true (d.runs d.dsz o n ++ extra) with
  | (some (va, a), s) => .race s va a
  | (none, s) =>
    match t.lostWrite extra with
    | some ln => .fault s (localLostTrap (localVa ln))
    | none =>
    let w' := w.advance d
    let filled := w'.next == d.rows
    let s := s.modTeam t.ref fun t =>
      let t := t.winWrite d d.dsz o bytes
      let t := (d.complete d.dsz o n).foldl (fun t ln => t.fillMark w.vc ln) t
      let t := match scale with | some (a, x) => t.putScale d w.vc a x | none => t
      t.setWin k (if filled then t.copyEnds w' .present else w')
    .moved (if filled then s.endCopy t k else s)

/-- One step of a fill. -/
def State.fillStep (s : State) (t : Team) (l : Launch) (k : Nat) (w0 : Window) (d : WinDesc) : CopyRes :=
  let reads := (d.twoPass && !w0.tested) || (d.rowAddr w0.ofs w0.next).isSome
  let s := if d.acq && reads && !w0.acquired then s.acquireFill t l w0 d else s
  let w : Window := { w0 with acquired := w0.acquired || reads }
  if d.twoPass && !w.tested then
    match d.tpr with
    | none => .waits
    | some p =>
      let tiles : List (Nat × Nat) :=
        ((List.range (ceilDiv d.rows 128)).map fun tr => (List.range d.tcols).map fun u => (tr, u)).flatten
      match s.testPass t l w d p tiles [] with
      | (.error e, _) => e
      | (.ok m, s) => .moved (s.modTeam t.ref fun t => t.setWin k { w with scales := m, tested := true, retries := none })
  else
    let r := w.next
    let u := w.unitDone
    let (c, n) := d.unitSpan u
    match s.readElems t l w d r c n with
    | (.error e, _) => e
    | (.ok (b, ps), s) =>
      let v := t.seg.map (·.vers)
      let new := d.newLines w ps
      if new.any fun p => s.heldElsewhere v (lineOf p.pa) then .waits
      else match new.findSome? s.hdrLost with
      | some ln => .fault s (trapE .dataLost (BitVec.ofNat 128 ln))
      | none =>
      match s.versionWaits v new with
      | some x => .full x
      | none =>
      match s.countLines v new with
        | .error p => .fault s ⟨.countOverflow, BitVec.ofNat 128 (lineOf p.pa), p.va, .fillRead, false⟩
        | .ok s =>
          match d.tpr with
          | none => s.placeUnit t l k w d b none
          | some q =>
            let xs := d.elems b n
            let (sc, sat) := w.unitScale d q r u xs
            let (out, sc, met, sat) := convertUnit q sc sat r c xs
            (s.copyFlags t w.armer met sat).placeUnit t l k w d out (some (d.scoff + 4 * d.scaleIx q r u, scaleBits sc))

/-! ### One step of a write-back (R215, R285) -/

/-- Units of a row of a write-back are scratchpad lines of its elements. -/
def State.putStep (s : State) (t : Team) (l : Launch) (k : Nat) (w : Window) (d : WinDesc) : CopyRes :=
  let (c, n) := d.unitSpan w.unitDone
  let o := d.spoff + w.next * d.pitch + c * d.esz
  let runs := d.runs d.esz o (n * d.esz)
  if runs.any fun e => !t.serves e.1 then .waits
  else match t.lostAmong (runs.map (·.1)) with
  | some ln => .fault s (localLostTrap (localVa ln))
  | none =>
    let p := t.enginePty l w
    match s.trackLines p t false runs with
    | (some (va, a), s) => .race s va a
    | (none, s) =>
      let b := (runs.map fun e => t.spadRead e.1 e.2).flatten
      match d.rowAddr w.ofs w.next with
      | none => .waits
      | some a =>
        let va := a + BitVec.ofNat 56 (c * d.esz)
        match s.enginePieces t.core l.pkt.ctx (wantStore false .drainWrite) false (recParts va b.length) with
        | (.error e, s) => .fault s e
        | (.ok ps, s) =>
          if ps.any fun x => s.far t.core x.pa then .waits
          else match s.versionWaits p.vers ps with
          | some x => .full x
          | none => match s.engineWrite p ps b with
          | .error e => engineErr s e
          | .ok s =>
            let w' := w.advance d
            if w'.next = d.rows then
              let s := if d.rel then ps.foldl (fun s x => s.release t.core x.pte) s else s
              let s := s.modTeam t.ref fun t =>
                (t.markEmpty d.spoff (d.range / 128)).setWin k (t.copyEnds { w' with next := 0 } .absent)
              .moved (s.endCopy t k)
            else .moved (s.modTeam t.ref fun t => t.setWin k w')

/-! ### The events -/

/-- The copy of a window stands among the first eight of its core's engine and is not stopped (R283). The copies of a team that is
being saved rest, once no mesh word of it is unfinished: such a word may wait for the lines that they fill (R250). A copy that goes on by
RETRY waits until its core's queue has taken its record (R384). -/
def State.copyActive (s : State) (t : Team) (k : Nat) : Bool :=
  ((s.core t.core).copies.take 8).contains (t.ref, k) && !(t.win k).stop && !((t.win k).retries.isSome && s.heldRecord t.core) &&
    (!t.saving || !t.mq.isEmpty || t.groups.any Group.inQntt)

/-- The next step of a copy. -/
def State.copyStep (s : State) (r : TeamRef) (k : Nat) : CopyRes :=
  match s.team? r, s.launch? r.launch with
  | some t, some l =>
    let w := t.win k
    if !s.copyActive t k then .waits
    else match w.desc with
      | none => .waits
      | some d =>
        match w.st with
        | .filling => s.fillStep t l k w d
        | .writing => s.putStep t l k w d
        | _ => .waits
  | _, _ => .waits

/-- The host discards a stopped copy (R214). -/
def State.discardCopy (s : State) (r : TeamRef) (k : Nat) : State :=
  match s.team? r with
  | none => s
  | some t =>
    let w := t.win k
    let w' : Window :=
      if w.st = .filling ∨ w.dying = true then { w with st := .unbound, desc := none, dying := false, stop := false, stopInfo := none }
      else { w with st := w.before, next := 0, unitDone := 0, stop := false, stopInfo := none }
    (s.setTeam (t.setWin k w')).endCopy t k

/-- A copy that goes on after a stop or a save: a fill from the first line that it has not filled, a write-back from the first row that it
has not written (R214, R388). -/
def Window.goOn (w : Window) : Window := { w with unitDone := if w.st == .writing then 0 else w.unitDone }

/-- The host resumes a stopped copy. -/
def State.resumeCopy (s : State) (r : TeamRef) (k : Nat) : State :=
  s.modTeam r fun t => t.setWin k { (t.win k).goOn with stop := false, stopInfo := none }

/-- The unit of a copy, for its records (R214). -/
def Team.copyUnit (t : Team) (k : Nat) : Unit where
  core := t.core
  src := .copyEngine
  priv := false
  shdw := t.ref.shadow
  pc := 0
  lane := 0
  group := k
  team := t.ref.idx
  launch := t.ref.launch
  taskr := 0
  kind := 5

/-- A copy meets a cause: its record, and the step of the policy table (R214, R387); a copy of a shadow stops under every entry (R356). -/
def State.stopCopy (s : State) (r : TeamRef) (k : Nat) (t : Trap) (extra : State → State := id) : State :=
  match s.team? r, s.launch? r.launch with
  | some tm, some l =>
    let w := tm.win k
    let tries := match w.retries with | some (k, n) => if k = t.cause then n else 0 | none => 0
    let act := if r.shadow then .stop else polStep (s.polEntry l.pkt.policy t.cause) t tries false
    let s := s.trapRecords (tm.copyUnit k) l.pkt.ctx t 0 false false act extra
    match act with
    | .retry => s.modTeam r fun tm => tm.setWin k { w.goOn with retries := some (t.cause, tries + 1), waiting := none }
    | .discard => s.discardCopy r k
    | a => s.modTeam r fun tm => tm.setWin k { w with stop := true, stopInfo := some (stopInfo t a false), retries := none, waiting := none }
  | _, _ => s

/-- A line, or unit, of a copy moves (R213, R283). -/
def State.copyLine (s : State) (r : TeamRef) (k : Nat) : State :=
  match s.copyStep r k with
  | .moved s => s
  | .full _ => s.modTeam r fun t =>
      let w := t.win k
      t.setWin k { w with waiting := w.waiting.or (some s.clock) }
  | _ => s

/-- The next line of a copy cannot be moved: the copy stops (R214, R293, R352). -/
def State.copyFault (s : State) (r : TeamRef) (k : Nat) : State :=
  match s.copyStep r k with
  | .fault s t => s.stopCopy r k t
  | .full x =>
    (match (s.team? r).bind fun t => (t.win k).waiting with
     | some n => if n + versionClocks ≤ s.clock then s.stopCopy r k (trapE .versionFull (BitVec.ofNat 128 (sliceNo x.pa))) else s
     | none => s)
  | .race s va o =>
    (match s.team? r with
     | none => s
     | some t => s.stopCopy r k (raceTrap va o) (raceSecond (t.copyUnit k) o (t.win k).epoch))
  | _ => s

/-! ### Meanings -/

def execWbind (x : WinW) (s : State) : Host.Outcome State Fault Refusal := runWord (.wbind x) (wbindBody x) s

def execWarm (x : WinW) (s : State) : Host.Outcome State Fault Refusal := runWord (.warm x) (warmBody x) s

def execWput (x : WputW) (s : State) : Host.Outcome State Fault Refusal := runWord (.wput x) (wputBody x) s

def execWstate (x : WstateW) (s : State) : Host.Outcome State Fault Refusal := runWord (.wstate x) (wstateBody x) s

def execCopyLine (t : TeamRef) (w : Fin 32) (s : State) : Host.Outcome State Fault Refusal := .next (s.copyLine t w.val)

def execCopyFault (t : TeamRef) (w : Fin 32) (s : State) : Host.Outcome State Fault Refusal := .next (s.copyFault t w.val)

end Sys2Proof.Machine
end

