-- ==== Sys2Proof/Machine/Slot.lean ====
section
/-! DEFINITION. The collective engine of a die (R262, R267 to R271, R416): arriving puts, the deadline, the combine, the status
record, and the stop and discard of a slot. -/
namespace Sys2Proof.Machine

/-! ### Slots -/

def DieSt.slot? (d : DieSt) (n : Nat) : Option Slot := (d.slots.find? fun e => e.1 == n).map (·.2)

def State.slot? (s : State) (die n : Nat) : Option Slot := (s.die die).slot? n

def State.setSlot (s : State) (die n : Nat) (x : Slot) : State :=
  s.modDie die fun d => { d with slots := d.slots.map fun e => if e.1 = n then (n, x) else e }

/-- A slot returns to FREE. -/
def State.freeSlot (s : State) (die n : Nat) : State :=
  s.modDie die fun d => { d with slots := d.slots.filter fun e => e.1 != n }

/-- A die source has room for `n` records in its output buffer (R384). -/
def State.srcRoomFor (s : State) (die : Nat) (k : DieSource) (n : Nat) : Bool :=
  decide (((s.die die).source k).buf.length + n ≤ 16)

/-! ### Reads and writes of the engine -/

/-- Translate an access of the engine in a slot's context; region 00 alone is reached (log 26). -/
def State.slotXlat (s : State) (x : Slot) (q : Want) (va : Addr) : Except Trap (BitVec 256) :=
  if regionOf va ≠ 0 then .error (trapA .permission va q.ak) else s.xlat none x.ctx va q

/-- Write bytes of one line. A destination may lie at a peer; the staging area and the status record may not (R263; log 26). -/
def State.slotStore (s : State) (die n : Nat) (x : Slot) (peerOk : Bool) (va : Addr) (b : List Byte) : Except Trap State :=
  match s.slotXlat x (wantStore false) va with
  | .error t => .error t
  | .ok p =>
    if pteSystem p then
      if peerOk then
        .ok (s.sendPeer (32 * die) x.launch none (ptePeer p) (lineVa va)
          (.store (b.zipIdx.map fun e => (va.toNat % 128 + e.2, e.1))) (some (die, n)))
      else .error (trapA .permission va .store)
    else
      let pa := paOf p va
      if s.isLost pa && b.length != 128 then .error (trapE .dataLost (BitVec.ofNat 128 (lineOf pa)))
      else .ok (s.homeWrite none pa b)

/-- Cut bytes into the parts of lines. -/
def cutParts : List (Addr × Nat) → List Byte → List (Addr × List Byte)
  | [], _ => []
  | (a, k) :: r, b => (a, b.take k) :: cutParts r (b.drop k)

/-- The parts of a write. -/
def writeParts (va : Addr) (b : List Byte) : List (Addr × List Byte) := cutParts (recParts va b.length) b

/-- Write parts in order: how many were written, the state, and the trap of the one that failed. -/
def State.slotWrites (s : State) (die n : Nat) (x : Slot) (peerOk : Bool) :
    List (Addr × List Byte) → Nat × State × Option Trap
  | [] => (0, s, none)
  | e :: r =>
    match s.slotStore die n x peerOk e.1 e.2 with
    | .error t => (0, s, some t)
    | .ok s =>
      let (k, s, t) := s.slotWrites die n x peerOk r
      (k + 1, s, t)

/-- Read parts in order at their homes. Staging pages need no `RD` (R264). -/
def State.slotRead (s : State) (x : Slot) : List (Addr × Nat) → Except Trap (List Byte)
  | [] => .ok []
  | (va, k) :: r =>
    match s.slotXlat x (wantNone false) va with
    | .error t => .error t
    | .ok p =>
      if pteSystem p then .error (trapA .permission va .load)
      else
        let pa := paOf p va
        if s.isLost pa then .error (trapE .dataLost (BitVec.ofNat 128 (lineOf pa)))
        else match s.slotRead x r with
          | .error t => .error t
          | .ok b => .ok (s.mem.read pa k ++ b)

/-! ### Staging (R267) -/

/-- The FP32 value staged for an element. -/
def PutPkt_stage (p : PutPkt) : List W32 :=
  (p.blocks.map fun b => b.elems.map fun e =>
    if p.comp then BitVec.ofNat 32 (round FP32 .rne ((decodeNum E4M3 (e.toNat % 256)).mul (f32 b.scale.toNat)))
    else if p.bf16 then BitVec.ofNat 32 (e.toNat % 2 ^ 16 * 2 ^ 16)
    else e).flatten

/-- Address of a staging row. -/
def Slot.row (x : Slot) (r : Nat) : Addr := BitVec.ofNat 56 (x.stage + 4 * (r * x.n))

/-- The staging writes of a put. -/
def Slot.stageParts (x : Slot) (p : PutPkt) : List (Addr × List Byte) :=
  writeParts (x.row p.rank) ((PutPkt_stage p).map fun w => bytesOf 4 w.toNat).flatten

/-- Every rank has arrived (R268). -/
def Slot.complete (x : Slot) : Bool := (List.range x.cnt).all fun r => x.arrived.getLsbD r

/-! ### Refusal and acknowledgement (R267, R444) -/

/-- `INFO` of COLL-REFUSED. -/
def refusedInfo (p : PutPkt) (why : Nat) (contributor : Bool) : W128 :=
  BitVec.ofNat 128 (p.slot.val + p.die.val * 2 ^ 8 + p.rank % 64 * 2 ^ 10 + why % 16 * 2 ^ 16 + p.tag.toNat * 2 ^ 32 +
    bnat contributor * 2 ^ 127)

/-- A put of this device is over: its group no longer waits for it (R205). -/
def State.putDone (s : State) (f : Flying) : State :=
  match f.owner with
  | none => s
  | some r => s.modParty r fun g => { g with puts := g.puts - 1 }

/-- The contributor learns that its put was refused: its record, and its launch's count of failed puts. -/
def State.putRefused (s : State) (f : Flying) (why : Nat) : State :=
  (((s.putDone f).raiseDie (dieOf f.core) .collective .collRefused (refusedInfo f.pkt why true) f.pkt.slot.val
    (match f.owner with | some r => r.t.idx | none => 0) f.launch).modLaunch f.launch fun l =>
      { l with failedPuts := l.failedPuts + 1 })

/-- Acknowledge a put: accepted, or refused for a reason. -/
def State.ackPut (s : State) (f : Flying) (why : Option Nat) : State :=
  match f.peer, why with
  | some (ep, seq), none => s.replyPeer ep seq 0 0 []
  | some (ep, seq), some w => s.replyPeer ep seq 0 Cause.collRefused.code [w]
  | none, none => s.putDone f
  | none, some w => s.putRefused f w

/-- Why a put is refused, if it is (R267, R444). -/
def refuseWhy (x : Option Slot) (p : PutPkt) (time : Nat) : Option Nat :=
  match x with
  | none => some 0
  | some x =>
    if x.tag ≠ p.tag then some 0
    else if x.op ≠ p.op ∨ x.n ≠ p.n then some 1
    else if x.cnt ≤ p.rank then some 2
    else if x.arrived.getLsbD p.rank || (match x.standing with | some (f, _) => f.pkt.rank == p.rank | none => false) then some 3
    else if x.deadline < time then some 4
    else none

/-- The hub refuses a put: its record, and the refusal count while the slot is ARMED with the put's tag or another. -/
def State.hubRefuse (s : State) (f : Flying) (why : Nat) : State :=
  let die := f.pkt.die.val
  let n := f.pkt.slot.val
  let x := s.slot? die n
  let s := s.raiseDie die .collective .collRefused (refusedInfo f.pkt why false) n
    (match x with | some x => x.team | none => 0) (match x with | some x => x.launch | none => 0)
  let s := match x with
    | some x => s.setSlot die n { x with refused := x.refused + 1 }
    | none => s
  s.ackPut f (some why)

/-- Go on with the staging write of an accepted put from part `k`; at its end the rank has arrived, and a NaN among its elements is
noted (R267, R268). -/
def State.stagePut (s : State) (die n : Nat) (x : Slot) (f : Flying) (k : Nat) : State :=
  let (done, s, t) := s.slotWrites die n x false ((x.stageParts f.pkt).drop k)
  match t with
  | some _ => s.setSlot die n { x with standing := some (f, k + done) }
  | none =>
    let nan := (PutPkt_stage f.pkt).any fun w => (f32 w.toNat).isNan
    (s.setSlot die n { x with
      standing := none, arrived := x.arrived ||| lane1 f.pkt.rank, nanSeen := x.nanSeen || nan }).ackPut f none

/-- The put in place `n` of those in flight reaches its hub (R267, R271, R416). One that an earlier write of its slot holds up is accepted
by the time of its arrival. -/
def State.putArrival (s : State) (n : Nat) : State :=
  match s.flying[n]? with
  | none => s
  | some f =>
    let die := f.pkt.die.val
    let x := s.slot? die f.pkt.slot.val
    let gone := { s with flying := s.flying.eraseIdx n }
    let came := f.stamp.getD (s.timeAt die)
    match refuseWhy x f.pkt came with
    | some w =>
      if s.srcRoomFor die .collective 2 && s.srcRoomFor (dieOf f.core) .collective 2 then gone.hubRefuse f w else s
    | none =>
      match x with
      | none => s
      | some x =>
        -- a stopped slot, or one whose earlier staging write stands, takes no put yet
        if x.stop.isSome || x.standing.isSome then
          { s with flying := modifyAt (fun f : Flying => { f with stamp := some came }) n s.flying }
        else gone.stagePut die f.pkt.slot.val x f 0

/-! ### The combine (R268, R269) -/

/-- Combine one element of a further rank into the accumulator. -/
def combine1 (op : CollOp) (acc x : W32) : W32 :=
  match op with
  | .sumF32 | .sumBf16 => BitVec.ofNat 32 (round FP32 .rne ((f32 acc.toNat).add false (f32 x.toNat)))
  | .maxF32 | .maxabsF32 =>
    if (f32 acc.toNat).isNan || (f32 x.toNat).isNan then BitVec.ofNat 32 FP32.nanCode
    else if (f32 acc.toNat).below (f32 x.toNat) then x else acc

/-- An element as the operation takes it. -/
def combineIn (op : CollOp) (x : W32) : W32 := if op = .maxabsF32 then x &&& 0x7FFFFFFF else x

/-- The results of the arrived ranks' rows, in rank order. -/
def combineRows (op : CollOp) (n : Nat) : List (List W32) → List W32
  | [] => List.replicate n 0
  | r :: rs => rs.foldl (fun acc row => (acc.zip row).map fun e => combine1 op e.1 (combineIn op e.2)) (r.map (combineIn op))

/-- The bytes of the results. -/
def resultBytes (op : CollOp) (xs : List W32) : List Byte :=
  (xs.map fun x => if op = .sumBf16 then bytesOf 2 (round BF16 .rne (f32 x.toNat)) else bytesOf 4 x.toNat).flatten

/-- The rows of the arrived ranks, in rank order. -/
def State.stagedRows (s : State) (x : Slot) : Except Trap (List (List W32)) :=
  ((List.range x.cnt).filter fun r => x.arrived.getLsbD r).foldr (fun r acc =>
    match acc, s.slotRead x (recParts (x.row r) (4 * x.n)) with
    | .error t, _ => .error t
    | _, .error t => .error t
    | .ok rows, .ok b => .ok (((List.range x.n).map fun i => BitVec.ofNat 32 (numAt b (4 * i) 4)) :: rows)) (.ok [])

/-- The status record (R269). -/
def Slot.record (x : Slot) (n stat time : Nat) : List Byte :=
  let missing := ((List.range x.cnt).filter fun r => !x.arrived.getLsbD r).foldl (fun m r => m + 2 ^ r) 0
  bytesOf 64 (1 + stat * 2 + bnat x.nanSeen * 8 + n * 2 ^ 32 + x.tag.toNat * 2 ^ 96 + x.refused % 2 ^ 32 * 2 ^ 160 +
    missing * 2 ^ 192 + time % 2 ^ 64 * 2 ^ 256)

/-- Remote writes of the slot await their acknowledgement. -/
def State.slotOwes (s : State) (die n : Nat) : Bool := s.requests.any fun r => r.slot == some (die, n)

/-- Write the status record of a combine: the slot becomes FREE, or stands at the write. -/
def State.slotStatus (s : State) (die n : Nat) (x : Slot) : State × Option Trap :=
  let stand := s.setSlot die n { x with at_ := some (4, 0) }
  if s.slotOwes die n then (stand, none)
  else match s.slotStore die n x false (BitVec.ofNat 56 x.status) (x.record n (bnat (!x.complete)) (s.timeAt die)) with
    | .error t => (stand, some t)
    | .ok s => (s.freeSlot die n, none)

/-- Write the results to the destinations from number `d` on, from part `k` of the first; a destination of 0 is none. -/
def State.slotDsts (s : State) (die n : Nat) (x : Slot) (b : List Byte) : List (Nat × Nat) → Nat → State × Option Trap
  | [], _ => s.slotStatus die n x
  | (d, a) :: r, k =>
    if a = 0 then s.slotDsts die n x b r 0
    else match s.slotWrites die n x true ((writeParts (BitVec.ofNat 56 a) b).drop k) with
      | (j, s, some t) => (s.setSlot die n { x with at_ := some (d, k + j) }, some t)
      | (_, s, none) => s.slotDsts die n x b r 0

/-- The slot combines, or goes on from the write at which it stands. -/
def State.slotCombine (s : State) (die n : Nat) (x : Slot) : State × Option Trap :=
  let (d, k) := x.at_.getD (0, 0)
  if d = 4 then s.slotStatus die n x
  else match s.stagedRows x with
    | .error t => (s.setSlot die n { x with at_ := some (d, k) }, some t)
    | .ok rows => s.slotDsts die n x (resultBytes x.op (combineRows x.op x.n rows)) ((x.dsts.zipIdx.map fun e => (e.2, e.1)).drop d) k

/-- A put that reached the slot by its deadline waits there for an earlier write (R267). -/
def State.putWaits (s : State) (die n : Nat) (x : Slot) : Bool :=
  s.flying.any fun f => f.pkt.die.val == die && f.pkt.slot.val == n && match f.stamp with
    | some t => (refuseWhy (some x) f.pkt t).isNone
    | none => false

/-- What an ARMED slot has to do now: a standing staging write, or the combine. One that goes on by RETRY waits for its record
(R384). -/
def State.slotWork (s : State) (die n : Nat) : Option (State × Option Trap) :=
  match s.slot? die n with
  | none => none
  | some x =>
    if x.stop.isSome || (x.retries.isSome && s.srcHeld die .collective) then none
    else match x.standing with
      | some (f, k) =>
        let t := (s.slotWrites die n x false ((x.stageParts f.pkt).drop k)).2.2
        some (s.stagePut die n x f k, t)
      | none => if x.complete || (x.timedOut && !s.putWaits die n x) then some (s.slotCombine die n x) else none

/-- The hub writes what it can (R268). -/
def State.hubCombine (s : State) (die n : Nat) : State :=
  match s.slotWork die n with
  | some (s, _) => s
  | none => s

/-- The deadline of an ARMED slot passes (R268). -/
def State.collDeadline (s : State) (die n : Nat) : State :=
  match s.slot? die n with
  | none => s
  | some x => if x.deadline < s.timeAt die then s.setSlot die n { x with timedOut := true } else s

/-! ### Stop and discard (R270) -/

/-- The record of a failed write of a slot. -/
def State.slotRecord (s : State) (die n : Nat) (x : Slot) (t : Trap) : State :=
  if t.isFault then s.raiseDieFault die .collective t.cause t.va t.akind x.ctx n x.team x.launch
  else s.raiseDie die .collective t.cause t.info n x.team x.launch

/-- A discarded slot writes its status record and becomes FREE; a put whose staging write stood arrives again, at a FREE
slot. -/
def State.discardSlot (s : State) (die n : Nat) : State :=
  match s.slot? die n with
  | none => s
  | some x =>
    let s := match s.slotStore die n x false (BitVec.ofNat 56 x.status) (x.record n 2 (s.timeAt die)) with
      | .error t => s.slotRecord die n x t
      | .ok s => s
    let s := s.freeSlot die n
    match x.standing with
    | some (f, _) => { s with flying := f :: s.flying }
    | none => s

/-- The next write of a slot fails: the slot stops at it, under its launch's policy (R270, R387). -/
def State.slotFault (s : State) (die n : Nat) : State :=
  match s.slot? die n, s.slotWork die n with
  | some x, some (s1, some t) =>
    if !s.srcRoomFor die .collective 2 then s
    else
      let cls := match s.launch? x.launch with | some l => l.pkt.policy | none => 0
      let tries := match x.retries with | some (k, n) => if k = t.cause then n else 0 | none => 0
      let act := polStep (s.polEntry cls t.cause) t tries false
      let seq := if t.isFault then 0 else ((s1.die die).source .collective).seq.toNat
      let s := s1.slotRecord die n x t
      let s := if act = .stop then s
        else s.raiseDie die .collective .policyStep
          (BitVec.ofNat 128 (t.cause.code + act.code * 256 + 6 * 4096 + seq * 2 ^ 32)) n x.team x.launch
      let set (f : Slot → Slot) : State := match s.slot? die n with | some y => s.setSlot die n (f y) | none => s
      match act with
      | .retry => set fun y => { y with retries := some (t.cause, tries + 1) }
      | .discard => s.discardSlot die n
      | a => set fun y => { y with stop := some (stopInfo t a false), retries := none }
  | _, _ => s

/-- The host resumes a stopped slot (R388). -/
def State.resumeSlot (s : State) (die n : Nat) : State :=
  match s.slot? die n with
  | none => s
  | some x => s.setSlot die n { x with stop := none }

/-! ### Meanings -/

def execPutArrival (n : Nat) (s : State) : Host.Outcome State Fault Refusal := .next (s.putArrival n)

def execCollDeadline (die : Fin 4) (slot : Fin 256) (s : State) : Host.Outcome State Fault Refusal :=
  .next (s.collDeadline die.val slot.val)

def execHubCombine (die : Fin 4) (slot : Fin 256) (s : State) : Host.Outcome State Fault Refusal :=
  .next (s.hubCombine die.val slot.val)

def execSlotWriteFault (die : Fin 4) (slot : Fin 256) (s : State) : Host.Outcome State Fault Refusal :=
  .next (s.slotFault die.val slot.val)

end Sys2Proof.Machine
end

