-- ==== Sys2Proof/Machine/Units.lean ====
section
/-! DEFINITION. The discard of a team and of a launch (R390), and the resumption of what a HALT stopped (R260, R388). -/
namespace Sys2Proof.Machine

/-- The versions that a team's tasks and segment hold. -/
def Team.versions (t : Team) : List Nat :=
  (t.groups.filterMap fun g => g.task.bind (·.vers)) ++ (t.seg.map (·.vers)).toList

/-- Every unit of a team is discarded: its groups end as killed groups do, its sequencer as at MEND, its copies as R214 gives,
and its segment's version is dropped (R356, R390). -/
def State.discardTeam (s : State) (r : TeamRef) : State :=
  match s.team? r, s.launch? r.launch with
  | some t, some l =>
    let s := t.liveGroups.foldl (fun s g => s.killGroup r g.idx none) s
    let s := s.modTeam r fun t => t.closeSeq l.pkt.ord
    let s := (List.range 32).foldl (fun s k => if (t.win k).busy then s.discardCopy r k else s) s
    match t.seg with
    | none => s
    | some g => (s.discardVersion g.vers).modTeam r fun t => { t with seg := none }
  | _, _ => s

/-- Launches of the device that name launch `n` as a predecessor and wait (R336). -/
def State.successors (s : State) (n : Nat) : List Launch :=
  s.launches.filter fun l => l.pkt.preds.contains n && !l.eligible && !l.discarded

/-- A waiting launch is told that its predecessor was discarded. -/
def State.predDiscarded (s : State) (l : Launch) (n : Nat) : State :=
  s.raiseDie l.die .cmdProc .predDiscarded (BitVec.ofNat 128 n) 0 0 l.num

/-- The slots that a launch armed and that are not FREE, by die. -/
def State.slotsOf (s : State) (n : Nat) : List (Nat × Nat) :=
  (List.range 4).flatMap fun d => ((s.die d).slots.filter fun e => e.2.launch == n).map fun e => (d, e.1)

/-- Room for the records that a discard of launch `n` may raise, with `extra` others of a command processor, as far as an output buffer
holds them (R384; log 22). -/
def State.discardRoom (s : State) (n extra : Nat) : Bool :=
  (List.range 4).all fun d =>
    s.srcRoomFor d .cmdProc (min 16 (1 + extra + ((s.successors n).filter fun l => l.die == d).length)) &&
    s.srcRoomFor d .collective (min 16 (1 + ((s.slotsOf n).filter fun e => e.1 == d).length))

/-- Nothing that a team has posted waits to be performed. -/
def Team.unposted (t : Team) : Bool := (t.groups.all fun g => g.posted.isEmpty) && t.conts.all fun c => c.g.posted.isEmpty

/-- A saved team whose launch is discarded: its groups have ended, and what they posted is still performed (R185, R390). -/
def Team.discardSaved (t : Team) (ord : Bool) : Team :=
  let t := t.groups.foldl (fun t g => t.endGroup ord g.idx) t
  let quiet (g : Group) : Group := { g with la := [] }
  { t with
    groups := t.groups.map quiet
    conts := t.conts.map fun c => { c with g := quiet c.g } }

/-- Discard a launch: all of its units, the tasks that wait and the teams that are saved; it places no further team and
completes under R319 (R390). -/
def State.discardLaunch (s : State) (n : Nat) : State :=
  match s.launch? n with
  | none => s
  | some l =>
    if l.discarded then s
    else
      let s := (l.saved.flatMap fun x => x.team.versions).foldl (fun s v => s.discardVersion v) s
      let s := s.setLaunch { l with
        discarded := true
        tasks := []
        places := []
        saved := (l.saved.map fun x => { x with team := x.team.discardSaved l.pkt.ord }).filter fun x => !x.team.unposted }
      let s := ((s.teams.filter fun t => t.ref.launch == n).map (·.ref)).foldl (fun s r => s.discardTeam r) s
      let s := (s.slotsOf n).foldl (fun s e => s.discardSlot e.1 e.2) s
      (s.successors n).foldl (fun s k => s.predDiscarded k n) s

/-- A group that HALT stopped goes on. -/
def Group.unhalt (g : Group) : Group :=
  match g.stop with
  | some i => if i.halted then { g with st := if g.wait.blocks then .blocked else .run, stop := none } else g
  | none => g

/-- A sequencer that HALT stopped goes on. -/
def Seq.unhalt (q : Seq) : Seq :=
  match q.stop with
  | some i => if i.halted then { q with sst := .run, stop := none } else q
  | none => q

/-- The host resumes a launch that HALT stopped: it places teams again, and exactly the units that the HALT stopped go on
(R260, R388). -/
def State.unhalt (s : State) (n : Nat) : State :=
  let s := s.modLaunch n fun l => { l with halted := false }
  { s with teams := s.teams.map fun t =>
      if t.ref.launch != n then t
      else { t with
        groups := t.groups.map Group.unhalt
        sq := t.sq.unhalt } }

end Sys2Proof.Machine
end

