-- ==== Sys2Proof/Machine/System.lean ====
section
/-! DEFINITION. Special registers (R29, R254 to R256), supervisor mode (R257, R258), EVT and HALT (R259, R260), and the removal of
translations (R261). -/
namespace Sys2Proof.Machine

/-! ### Special registers -/

/-- The special registers. -/
inductive SReg where
  | lane | group | team | coordX | coordY | coordZ | role | clock | time | prq | width | sticky
  | epc | ecode | svbase | ctx | core | evq | launch
deriving DecidableEq, Repr

/-- The register of an index (R29, R256). -/
def SReg.ofIdx (n : Nat) : Option SReg :=
  match n with
  | 0x000 => some .lane | 0x001 => some .group | 0x002 => some .team | 0x003 => some .coordX | 0x004 => some .coordY
  | 0x005 => some .coordZ | 0x006 => some .role | 0x007 => some .clock | 0x008 => some .time | 0x009 => some .prq
  | 0x00A => some .width | 0x00B => some .sticky | 0x100 => some .epc | 0x101 => some .ecode | 0x102 => some .svbase
  | 0x103 => some .ctx | 0x104 => some .core | 0x105 => some .evq | 0x106 => some .launch
  | _ => none

/-- A register reached only in supervisor mode (R256). -/
def SReg.sup : SReg → Bool
  | .epc | .ecode | .svbase | .ctx | .core | .evq | .launch => true
  | _ => false

/-- A register that SWR writes. -/
def SReg.writable : SReg → Bool
  | .sticky | .epc => true
  | _ => false

/-- The value of a special register in lane `i`. -/
def Ex.sreg (x : Ex) (s : State) (i : Nat) : SReg → W64
  | .lane => BitVec.ofNat 64 i
  | .group => BitVec.ofNat 64 x.c.g.idx
  | .team => BitVec.ofNat 64 x.c.t.ref.idx
  | .coordX => BitVec.ofNat 64 x.c.t.x
  | .coordY => BitVec.ofNat 64 x.c.t.y
  | .coordZ => BitVec.ofNat 64 x.c.t.z
  | .role => x.c.g.role.zeroExtend 64
  | .clock => BitVec.ofNat 64 (s.clock - (s.core x.c.core).base)
  | .time => BitVec.ofNat 64 (s.timeAt (dieOf x.c.core))
  | .prq => BitVec.ofNat 64 (bnat x.c.t.prq)
  | .width => BitVec.ofNat 64 x.c.g.width
  | .sticky => x.c.g.sticky.zeroExtend 64
  | .epc => x.c.g.epc
  | .ecode => x.c.g.ecode.zeroExtend 64
  | .svbase => BitVec.ofNat 64 x.c.l.pkt.svb
  | .ctx => BitVec.ofNat 64 x.c.l.pkt.ctx
  | .core => BitVec.ofNat 64 x.c.core
  | .evq => BitVec.ofNat 64 (evqSize - (s.core x.c.core).evq.length)
  | .launch => BitVec.ofNat 64 x.c.l.num

/-- The cause ILLEGAL of the executing word. -/
def Ex.illegalTrap (x : Ex) : Trap := trapE .illegal (BitVec.ofNat 128 (wordLow x.word))

/-- A check of privilege that fails (R383). -/
def Ex.privTrap (x : Ex) (check : Nat) : Trap := trapPriv (wordLow x.word) check

/-- SRD writes its lanes, or an s register once (R254). -/
def srdBody (w : SrdW) (x : Ex) (s : State) : Eff :=
  match SReg.ofIdx w.idx.toNat with
  | none => .trap x.illegalTrap
  | some r =>
    if r.sup && !x.c.g.priv then .trap (x.privTrap 2)
    else match w.d with
      | .s _ => Eff.writes s (uniWr w.d (x.sreg s (lowLane x.c.g.exec) r))
      | _ => Eff.writes s (laneWrs w.d (if srWide w.idx then 2 else 1) (x.lanes.map fun i => (i, (x.sreg s i r).toNat)))

/-- SWR (R255). -/
def swrBody (w : SwrW) (x : Ex) (s : State) : Eff :=
  match SReg.ofIdx w.idx.toNat with
  | none => .trap x.illegalTrap
  | some r =>
    if r.sup && !x.c.g.priv then .trap (x.privTrap 2)
    else if !r.writable then .trap x.illegalTrap
    else
      let v := x.uval w.a 64 false 0
      .done (s.modGroup x.c.ref fun g =>
        if r = .sticky then { g with sticky := BitVec.ofNat 16 (v % 32) } else { g with epc := BitVec.ofNat 64 v }) [] none

/-! ### Supervisor mode -/

/-- SVC (R257). -/
def svcBody (w : SvcW) (x : Ex) (s : State) : Eff :=
  if x.c.g.priv then .trap x.illegalTrap
  else if x.c.l.pkt.svb = 0 then .trap (x.privTrap 3)
  else if !(x.c.g.la.all (·.done)) then .wait .engine
  else
    let g := x.c.g.enterSupervisor (nextPc x.pc) x.c.l.pkt.svb w.code
    .done (s.modGroup x.c.ref fun h => h.enterSupervisor (nextPc x.pc) x.c.l.pkt.svb w.code) [] (some g.pc)

/-- RFE (R258). -/
def rfeBody (x : Ex) (s : State) : Eff :=
  let back : Addr := x.c.g.epc.truncate 56
  if !x.c.g.priv then .trap (x.privTrap 1)
  else if (slotOf back).isNone then .trap (trapA .badAddress back .fetch)
  else .done (s.modGroup x.c.ref Group.leaveSupervisor) [] (some back)

/-! ### TLBI (R261) -/

/-- The pieces of a pending word. -/
def PendOp.pieces : PendOp → List Piece
  | .load ls | .atomic ls _ _ | .tcons ls | .tcnt ls => (ls.map (·.ps)).flatten
  | _ => []

/-- An access of a party that `sel` selects by its piece and its clock of acceptance is not performed. -/
def Group.inFlight (g : Group) (sel : Piece → Nat → Bool) : Bool :=
  (g.la.any fun e => (!e.done || !e.answered) && e.op.pieces.any fun p => sel p e.since) ||
  g.posted.any fun q => (q.stores.any fun e => sel e.1 q.since) || (q.taccs.any fun e => sel e.1 q.since) ||
    (q.atoms.any fun e => sel e.1 q.since) || q.counts.any fun e => sel e.1 q.since

/-- An access of a team is in flight. -/
def Team.inFlight (t : Team) (sel : Piece → Nat → Bool) : Bool :=
  (t.groups.any fun g => g.inFlight sel) || t.conts.any fun c => c.g.inFlight sel

/-- An access of any team, resident or saved, is in flight; `sel` sees its context too. -/
def State.inFlight (s : State) (sel : Nat → Piece → Nat → Bool) : Bool :=
  (s.teams.any fun t => match s.launch? t.ref.launch with
    | some l => t.inFlight (sel l.pkt.ctx)
    | none => false) ||
  s.launches.any fun l => l.saved.any fun t => t.team.inFlight (sel l.pkt.ctx)

/-- The page of a piece covers an address. -/
def Piece.covers (p : Piece) (va : Addr) : Bool :=
  (regionOf p.va == 3) == (regionOf va == 3) && p.va.toNat % 2 ^ 54 / 2 ^ ptePage p.pte == va.toNat % 2 ^ 54 / 2 ^ ptePage p.pte

/-- Every L1 writes its dirty words back, as it may at any time (R287). -/
def State.l1CleanAll (s : State) : State :=
  (List.range 128).foldl (fun s k => if (s.core k).l1.any fun x => x.dirty != 0 then s.l1CleanAt k fun _ => true else s) s

/-- TLBI removes the selected translations, and the group waits until every access made with one is performed. A store is performed at its
home once its L1 has written it back (R321), so the L1s do so last. -/
def tlbiBody (drop : Ex → TlbEnt → Bool) (sel : Ex → Nat → Piece → Bool) (x : Ex) (s : State) : Eff :=
  if !x.c.g.priv then .trap (x.privTrap 1)
  else
    let first := match x.c.g.wait with | .tlbi n => some n | _ => none
    let s := if first.isSome then s else s.tlbDrop (drop x)
    let since := first.getD s.clock
    if s.inFlight fun ctx p at_ => decide (at_ ≤ since) && sel x ctx p then .waitIn s (.tlbi since) else .done s.l1CleanAll [] none

/-- The address of TLBI.va and of the collective words. -/
def Ex.baseOff (x : Ex) (a : Opnd) (off : W32) : Addr := BitVec.ofInt 56 ((x.uval a 64 false 0 : Nat) + sext off.toNat 32)

def tlbiVaBody (w : BaseOffW) : Ex → State → Eff :=
  tlbiBody (fun x e => tlbOfVa x.c.l.pkt.ctx (x.baseOff w.a w.off) e)
    (fun x ctx p => ctx == x.c.l.pkt.ctx && p.covers (x.baseOff w.a w.off))

def tlbiCtxBody (w : CtlA) : Ex → State → Eff :=
  tlbiBody (fun x e => e.ctx == x.uval w.a 16 false 0) (fun x ctx _ => ctx == x.uval w.a 16 false 0)

def tlbiAllBody : Ex → State → Eff := tlbiBody (fun _ _ => true) (fun _ _ _ => true)

/-! ### EVT and HALT (R259, R260) -/

/-- EVT raises its record; in a shadow it contributes its item only (R356). -/
def evtBody (w : EvtW) (x : Ex) (s : State) : Eff :=
  let v := x.uval w.a 64 false 0
  let s1 := s.addItem x.c.ref.t 4 (bytesOf 2 w.code.toNat ++ bytesOf 8 v)
  if x.c.t.ref.shadow then .done s1 [] none
  else if evqSize ≤ (s.core x.c.core).evq.length then .wait .evt
  else .done (s1.raise x.c.unit false .event (info2 w.code.toNat v)) [] none

/-- HALT: a release at device scope, its record, and the stop of its launch, or the step of the policy table (R260, R387). The
groups and sequencers stop as they come to issue. -/
def haltBody (w : CodeW) (x : Ex) (s : State) : Eff :=
  if !x.c.g.priv then .trap (x.privTrap 1)
  else if !x.c.quiet then .wait .engine
  else
    let act := if polAct (s.polEntry x.c.l.pkt.policy .halt) = .discard then .discard else PolAct.stop
    if act = .discard ∧ x.c.t.ref.shadow = false ∧ s.discardRoom x.c.l.num 0 = false then .wait .engine
    else
    let s := s.addItem x.c.ref.t 5 (bytesOf 2 w.code.toNat)
    if x.c.t.ref.shadow then .done s [] none
    else
      let t := trapE .halt (w.code.zeroExtend 128)
      let s := (s.releaseDev x.c.core).trapRecords { x.c.unit with kind := 0 } x.c.l.pkt.ctx t 0 false false act
      if act = .discard then .gone (s.discardLaunch x.c.l.num)
      else .done (s.modLaunch x.c.l.num fun l => { l with halted := true }) [] none

/-! ### Meanings -/

def execSrd (x : SrdW) (s : State) : Host.Outcome State Fault Refusal := runWord (.srd x) (srdBody x) s

def execSwr (x : SwrW) (s : State) : Host.Outcome State Fault Refusal := runWord (.swr x) (swrBody x) s

def execSvc (x : SvcW) (s : State) : Host.Outcome State Fault Refusal := runWord (.svc x) (svcBody x) s

def execRfe (x : Ctl0) (s : State) : Host.Outcome State Fault Refusal := runWord (.rfe x) rfeBody s

def execTlbiVa (x : BaseOffW) (s : State) : Host.Outcome State Fault Refusal := runWord (.tlbiVa x) (tlbiVaBody x) s

def execTlbiCtx (x : CtlA) (s : State) : Host.Outcome State Fault Refusal := runWord (.tlbiCtx x) (tlbiCtxBody x) s

def execTlbiAll (x : Ctl0) (s : State) : Host.Outcome State Fault Refusal := runWord (.tlbiAll x) tlbiAllBody s

def execEvt (x : EvtW) (s : State) : Host.Outcome State Fault Refusal := runWord (.evt x) (evtBody x) s

def execHalt (x : CodeW) (s : State) : Host.Outcome State Fault Refusal := runWord (.halt x) (haltBody x) s

end Sys2Proof.Machine
end

