-- ==== Sys2Proof/Machine/Task.lean ====
section
/-! DEFINITION. Tasks (R180 to R184, R342), cancel scopes and cancellation (R184 to R188). -/
namespace Sys2Proof.Machine

/-! ### Affinity (R338, R339) -/

/-- One selected bit of a coordinate. -/
def affBit (sel coord : Nat) : Nat := if sel = 96 then 0 else if sel = 97 then 1 else bits coord sel sel

/-- Die and slice of a coordinate under selectors `S0` to `S4`, `D0`, `D1`. -/
def affPlace (sel : List Nat) (coord : Nat) : Nat × Nat :=
  let b (i : Nat) : Nat := affBit (sel.getD i 96) coord
  (b 5 + 2 * b 6, b 0 + 2 * b 1 + 4 * b 2 + 8 * b 3 + 16 * b 4)

/-- `COORD` of a task record. -/
def taskCoord (rec : List Byte) : Nat := numAt rec 16 12

/-- A TNEXT on `die` passes a task over, until it has been queued for 4,096 clocks (R342). -/
def Launch.passes (l : Launch) (die clock : Nat) (k : Task) : Bool :=
  taskAff k.bytes && !k.anywhere && decide (clock < k.since + 4096) &&
    (match l.aff with | some sel => (affPlace sel (taskCoord k.bytes)).1 != die | none => false)

/-- The oldest task of the highest priority that a TNEXT on `die` may take, with its place in the queue. -/
def Launch.nextTask (l : Launch) (die clock : Nat) : Option (Nat × Task) :=
  ((l.tasks.zipIdx).filter fun e => !l.passes die clock e.1).foldl (fun (m : Option (Nat × Task)) e =>
    match m with
    | none => some (e.2, e.1)
    | some b => if b.2.prio < e.1.prio then some (e.2, e.1) else some b) none

/-- The wait of a task for its preferred die has expired (R342). -/
def State.affinityExpiry (s : State) (n : Nat) : State :=
  s.modLaunch n fun l => { l with tasks := l.tasks.map fun k =>
    if k.since + 4096 ≤ s.clock then { k with anywhere := true } else k }

/-! ### The spawn pool -/

/-- Places of a launch's spawn pool. -/
def poolPlaces : Nat := 65536

/-- The lowest free place. -/
def Launch.freePlace (l : Launch) : Option Nat :=
  (List.range (l.places.length + 1)).find? fun i => decide (i < poolPlaces) && !l.places.contains i

/-- Copy a record into the spawn pool of a launch at a place, and enqueue it. -/
def State.spawnAt (s : State) (n place : Nat) (rec : List Byte) : State :=
  match s.launch? n with
  | none => s
  | some l =>
    let va : Addr := BitVec.ofNat 56 (poolVa + n % 64 * poolBytes + 64 * place)
    ({ s with mem := s.mem.write (l.poolPa + 64 * place) rec }).modLaunch n fun l =>
      { l.enqueue ⟨va, rec, taskPrio rec, some place, s.clock, false⟩ with places := insertSorted place l.places }

/-- A record that a versioned task spawns takes a place at once; its task is queued when the version commits (R316; log 30). -/
def State.spawnHeld (s : State) (v n place : Nat) (a : Addr) (rec : List Byte) : State :=
  (s.modVersion v fun y => { y with spawns := y.spawns ++ [(place, a, rec)] }).modLaunch n fun l =>
    { l with places := insertSorted place l.places }

/-- A record names a cancelled scope: the refusal is counted before its settlement, and raises a record after it (R186). -/
def State.spawnRefused (s : State) (c : Ctx) (by_ : Scope) (scope addr : Nat) : State :=
  if by_.settled then s.raise c.unit false .spawnRefused (info2 scope addr)
  else s.modLaunch c.l.num fun l => l.modScope by_.num fun x => { x with refused := x.refused + 1 }

/-- BAD-RECORD. -/
def trapRecord (a : Nat) : Trap := trapE .badRecord (BitVec.ofNat 128 (a % 2 ^ 56))

/-- SCOPE. -/
def trapScope (n : Nat) : Trap := trapE .scope (BitVec.ofNat 128 n)

/-- A reserved bit of a task record is set (R180). -/
def taskReserved (rec : List Byte) : Bool := natOf rec / 2 ^ 310 != 0 || bits (natOf rec) 63 56 != 0

/-- Checks 4 and 5 of R183 on a record spawned under a scope. -/
def spawnTrap (l : Launch) (under addr : Nat) (rec : List Byte) : Option Trap :=
  if taskReserved rec then some (trapRecord addr)
  else if !l.inScope under (taskScope rec) then some (trapScope (taskScope rec))
  else none

/-- The scope under which a group spawns (R183). -/
def Ctx.spawnScope (c : Ctx) : Nat := match c.g.task with | some k => taskScope k.bytes | none => c.l.pkt.scope

/-! ### TNEXT -/

def tnextBody (x : Ex) (s : State) : Eff :=
  if !x.c.l.pkt.tasks then .trap (trapE .task 0)
  else if x.c.g.task.isSome then .trap (trapE .task (BitVec.ofNat 128 x.c.g.taskAddr))
  else .defer s .tnext []

/-- A task of the launch is current in some group. -/
def State.anyCurrent (s : State) (n : Nat) : Bool :=
  s.teams.any fun t => t.ref.launch == n && t.groups.any fun g => g.task.isSome

/-- A group takes a task: it is current, its version opens, and the delivery is an acquire at device scope. -/
def State.takeTask (s : State) (c : Ctx) (i : Nat) (k : Task) : State :=
  let vers := if taskVers k.bytes then some s.versNext else none
  let s := if taskVers k.bytes then
      { s with versNext := s.versNext + 1, versions := s.versions ++ [⟨s.versNext, c.l.num, c.t.ref, some c.g.idx, [], [], [], []⟩] }
    else s
  let s := s.modLaunch c.l.num fun l => { l with tasks := l.tasks.eraseIdx i }
  (s.acquireDev c.core).modGroup c.ref fun g => { g with task := some ⟨k.addr, k.bytes, k.place, vers, 0⟩ }

/-- What a waiting TNEXT is given now, if anything: the value for its register, and the state. -/
def State.serveTnext (s : State) (c : Ctx) : Option (W64 × State) :=
  match c.l.nextTask (dieOf c.core) s.clock with
  | some (i, k) => some (BitVec.ofNat 64 k.addr.toNat, s.takeTask c i k)
  | none => if c.l.tasks.isEmpty && !s.anyCurrent c.l.num &&
      !(c.l.saved.any fun x => x.team.groups.any fun g => g.task.isSome) then some (0, s) else none

/-! ### TSPAWN -/

/-- The version that the group's task runs as. -/
def Ctx.taskVersion (c : Ctx) : Option Nat := c.g.task.bind (·.vers)

/-- The record has been read: checks 4 and 5, the refusal, and the copy. -/
def spawnRecord (a : Addr) (x : Ex) (rec : List Byte) (s : State) : Eff :=
  match spawnTrap x.c.l x.c.spawnScope a.toNat rec with
  | some t => .trap t
  | none =>
    match x.c.l.dead (taskScope rec) with
    | some d => .done (s.spawnRefused x.c d (taskScope rec) a.toNat) [] none
    | none =>
      match x.c.l.freePlace with
      | none => .waitIn s (.spawn rec)
      | some p => match x.c.taskVersion with
        | some v => .done (s.spawnHeld v x.c.l.num p a rec) [] none
        | none => .done ((s.releaseDev x.c.core).spawnAt x.c.l.num p rec) [] none

def tspawnBody (w : CtlA) (x : Ex) (s : State) : Eff :=
  let a := x.addrOp w.a
  if !x.c.l.pkt.tasks then .trap (trapE .task (BitVec.ofNat 128 x.c.g.taskAddr))
  else if a.toNat % 64 ≠ 0 then .trap (trapA .badAddress a .load)
  else match x.c.g.wait with
    | .spawn rec => spawnRecord a x rec s
    | _ =>
      if !x.c.quiet then .wait .engine
      else x.withRecord s a 64 (spawnRecord a x)

/-! ### TDONE -/

/-- What TDONE finds at its successor block before it commits: the block's piece, the counter and the record in the view of
the task. -/
structure Succ where
  p : Piece
  count : Nat
  record : List Byte
deriving DecidableEq, Repr

/-- Reach the successor block of a task: an atomic's checks on the counter. A block in region 01 or 10, or on a SYSTEM page, is
refused with PERMISSION (log 26). -/
def State.succRead (s : State) (c : Ctx) (succ : Nat) : Except Trap Succ × State :=
  let a : Addr := BitVec.ofNat 56 succ
  if succ % 128 ≠ 0 then (.error (trapA .badAddress a .atomic), s)
  else if regionOf a = 1 ∨ regionOf a = 2 ∨ (regionOf a = 3 ∧ c.g.priv = false) then (.error (trapA .permission a .atomic), s)
  else match s.xlat (some c.core) c.l.pkt.ctx a (wantAtomic c.g.priv) with
    | .error t => (.error t, s)
    | .ok p =>
      let s := s.tlbFill (some c.core) c.l.pkt.ctx a p
      let pa := paOf p a
      if pteSystem p then (.error (trapA .permission a .atomic), s)
      else
        let s := s.l1Drop c.core (lineIs (lineOf pa))
        if s.isLost pa then (.error (trapE .dataLost (BitVec.ofNat 128 (lineOf pa))), s)
        else (.ok ⟨⟨a, pa, 4, p⟩, natOf (s.homeRead c.version pa 4), s.homeRead c.version (pa + 64) 64⟩, s)

/-- The place a finished task gives back. -/
def Launch.freeTask (l : Launch) (k : CurTask) : Launch :=
  match k.place with
  | some p => { l with places := l.places.filter (· != p) }
  | none => l

/-- The decrement of R182 and what it enqueues. -/
def State.decrement (s : State) (c : Ctx) (q : Succ) (scope : Nat) : State :=
  let old := s.mem.num q.p.pa 4
  if old = 0 then s.raise c.unit false .taskCount (BitVec.ofNat 128 q.p.va.toNat)
  else
    let s := { s with mem := s.mem.write q.p.pa (bytesOf 4 (old - 1)) }
    if old ≠ 1 then s
    else match s.launch? c.l.num with
      | none => s
      | some l =>
        match l.dead scope with
        | some d => s.spawnRefused c d scope (q.p.va.toNat + 64)
        | none => match l.freePlace with
          | some p => s.spawnAt c.l.num p q.record
          | none => s

/-- A committed version queues the records that its task has spawned; one whose scope has been cancelled since is refused (R183, R316). -/
def State.spawnCommitted (s : State) (c : Ctx) (xs : List (Nat × Addr × List Byte)) : State :=
  xs.foldl (fun s e =>
    match (s.launch? c.l.num).bind fun l => l.dead (taskScope e.2.2) with
    | some d => s.spawnRefused c d (taskScope e.2.2) e.2.1.toNat
    | none => s.spawnAt c.l.num e.1 e.2.2) s

/-- The task ends: commit, decrement, and the group has no current task. -/
def finishTask (k : CurTask) (q : Option Succ) (x : Ex) (s : State) : Eff :=
  let fin (s : State) : State :=
    let s := s.modLaunch x.c.l.num fun l => l.freeTask k
    let s := match q with | some q => s.decrement x.c q (taskScope q.record) | none => s
    s.modGroup x.c.ref fun g => { g with task := none }
  match k.vers with
  | none => .done (fin s) [] none
  | some v =>
    let spawns := match s.version? v with | some y => y.spawns | none => []
    let sent (s : State) : State := (s.sendCommitted x.c.ref.t).spawnCommitted x.c spawns
    match s.commitVersion v with
    | .failed c line => .trap (trapE c (BitVec.ofNat 128 line))
    | .done s none => .done (fin (sent s)) [] none
    | .done s (some line) =>
      .trapAt ((sent s).modGroup x.c.ref fun g => { g with task := some { k with vers := none } }) (trapE .twinRange (BitVec.ofNat 128 line))

def tdoneBody (x : Ex) (s : State) : Eff :=
  match x.c.g.task with
  | none => .trap (trapE .task 0)
  | some k =>
    if !x.c.quiet then .wait .engine
    else
      let s := s.releaseDev x.c.core
      if taskSucc k.bytes = 0 then finishTask k none x s
      else match s.succRead x.c (taskSucc k.bytes) with
        | (.error t, _) => .trap t
        | (.ok q, s) =>
          if q.count ≠ 1 then finishTask k (some q) x s
          else match spawnTrap x.c.l (taskScope k.bytes) (taskSucc k.bytes + 64) q.record with
            | some t => .trap t
            | none =>
              if (x.c.l.freeTask k).freePlace.isNone && (x.c.l.dead (taskScope q.record)).isNone then .waitIn s .engine
              else finishTask k (some q) x s

/-! ### Scopes -/

def tscopeBody (w : TscopeW) (x : Ex) (s : State) : Eff :=
  let parent := x.uval w.a 16 false w.imm
  let ack := x.uval w.b 64 false w.imm
  let n := x.c.l.scopes.length
  let num := ((List.range (n + 1)).find? fun i => !x.c.l.scopes.any fun y => y.num == i).getD n
  if !(x.c.l.scopes.any fun y => y.num == parent) || (x.c.l.dead parent).isSome || decide (65536 ≤ n) then
    .trap (trapScope parent)
  else if ack % 64 ≠ 0 then .trap (trapA .badAddress (BitVec.ofNat 56 ack) .store)
  else .done (s.modLaunch x.c.l.num fun l =>
    { l with scopes := l.scopes ++ [⟨num, some parent, ack, false, false, 0, 0, 0, 0, 0, 0, 0, 0⟩] })
    (uniWr w.d (BitVec.ofNat 64 num)) none

/-! ### CANCEL -/

/-- The groups that a CANCEL of scope `a` kills: those whose task is in the subtree, and every group of a grid launch whose root
is in it. -/
def Launch.kills (l : Launch) (a : Nat) (g : Group) : Bool :=
  g.live && (if l.pkt.tasks then
    (match g.task with | some k => l.inScope a (taskScope k.bytes) | none => false)
  else l.inScope a l.pkt.scope)

/-- Mark a group to be killed; the first CANCEL to reach it counts it. -/
def Group.killBy (g : Group) (clock a : Nat) (restore : Bool) : Group :=
  if g.kill.isSome then g else { g with kill := some ⟨clock, a, restore⟩ }

/-- A window of a killed team: one whose copy is in flight is unbound once it has finished (R185); the others stay for the mesh words
that have been issued, and go with the team (R249). -/
def Window.cancel (w : Window) : Window :=
  match w.st with
  | .filling | .writing => { w with dying := true }
  | _ => w

/-- A team of a grid launch whose root is cancelled: its copies finish, and its sequencer ends once its mesh words have (R249). -/
def Team.cancelTeam (t : Team) (ord : Bool) : Team :=
  let t := { t with cancelled := true, wins := t.wins.map Window.cancel }
  t.closeSeq ord

/-- CANCEL of a scope of a launch (R185, R187). -/
def State.cancelScope (s : State) (n a : Nat) : State :=
  match s.launch? n with
  | none => s
  | some l =>
    let gone := l.tasks.filter fun k => l.inScope a (taskScope k.bytes)
    let free := gone.filterMap (·.place)
    let order := (l.scopes.filter (·.cancelled)).length
    let l' := l.modScope a fun x =>
      { x with
        cancelled := true, settled := false, acking := x.acking + 1, queued := x.queued + gone.length
        order := if x.cancelled then x.order else order }
    let s := s.setLaunch { l' with
      tasks := l.tasks.filter fun k => !l.inScope a (taskScope k.bytes)
      places := l.places.filter fun p => !free.contains p }
    let whole := !l.pkt.tasks && l.inScope a l.pkt.scope
    { s with teams := s.teams.map fun t =>
        if t.ref.launch != n then t
        else
          let t := { t with groups := t.groups.map fun g => if l.kills a g then g.killBy s.clock a t.save.isSome else g }
          if whole && !t.cancelled then t.cancelTeam l.pkt.ord else t }

def cancelBody (w : NumW) (x : Ex) (s : State) : Eff :=
  let a := x.uval w.a 64 false w.imm
  if !x.c.l.scopes.any fun y => y.num == a then .trap (trapScope a)
  else .done ((s.cancelScope x.c.l.num a).modLaunch x.c.l.num fun l => l.modScope a fun y => { y with core := x.c.core }) [] none

/-- A word that waits counts as reaching its kill point. EVT is none (R259). -/
def Group.atKillPoint (g : Group) : Bool :=
  (match g.wait with
   | .rclaim _ | .ctake _ _ | .cwait _ _ | .nbarArr _ _ | .nbarWait _ | .nbarSync _ _ | .waitf _ _ _ _ _ | .check _ _ _ _
   | .mark _ _ | .segment _ _ | .tnext | .yielded => true
   | _ => false) || g.la.any fun e => !e.done && e.op == .tnext

/-- A group that a CANCEL has reached ends at a kill point where it waits, or once 4,096 clocks have passed (R185). -/
def State.groupKill (s : State) (r : GRef) : State :=
  match s.ctx? r with
  | none => s
  | some c =>
    match c.g.kill with
    | none => s
    | some k =>
      if !c.t.saving && !k.atRestore && (c.g.atKillPoint || (decide (k.since + 4096 ≤ s.clock) && c.g.wait != .evt)) then s.killNow r k else s

/-! ### Acknowledgement (R186) -/

/-- The group is killed by a CANCEL of scope `a`, or will be: its task lies in the scope, or it is marked already. -/
def Launch.killing (l : Launch) (a : Nat) (g : Group) : Bool :=
  l.kills a g || (match g.kill with | some k => l.inScope a k.scope | none => false)

/-- A group or continuation that a CANCEL of scope `a` killed, or will, is not done; in a saved team too, where the kill is applied at
the restore (R405). -/
def State.killsPending (s : State) (l : Launch) (a : Nat) : Bool :=
  let gone (g : Group) : Bool := g.st == .ended && g.outstanding
  ((s.teams.filter fun t => t.ref.launch == l.num) ++ l.saved.map (·.team)).any fun t =>
    (t.groups.any fun g => l.killing a g || gone g) || (t.conts.any fun c => gone c.g) || t.wins.any fun w => w.dying

/-- The effects of the CANCELs of scope `a` have settled. -/
def State.settled (s : State) (l : Launch) (a : Nat) : Bool :=
  !(l.tasks.any fun k => l.inScope a (taskScope k.bytes)) && !s.killsPending l a &&
    (match l.dead a with
     | some d => d.num == a || d.settled
     | none => true)

/-- The acknowledgement record. -/
def ackRecord (x : Scope) (time : Nat) : Nat :=
  1 + x.num * 2 ^ 16 + x.killed * 2 ^ 96 + x.queued * 2 ^ 128 + x.discard * 2 ^ 160 + x.refused * 2 ^ 192 +
    x.owed * 2 ^ 224 + time * 2 ^ 256

/-- Write an acknowledgement record through the launch's context; one that cannot be written is lost (log 33). -/
def State.writeAck (s : State) (l : Launch) (addr rec : Nat) : State :=
  let va : Addr := BitVec.ofNat 56 addr
  match s.xlat none l.pkt.ctx va (wantStore false) with
  | .error t => if t.isFault then s.raiseDieFault (l.num % 4) .cmdProc t.cause va .store l.pkt.ctx 0 0 l.num
      else s.raiseDie (l.num % 4) .cmdProc t.cause t.info 0 0 l.num
  | .ok p =>
    if pteSystem p then s.sendPeer 0 l.num none (ptePeer p) va (.store ((bytesOf 64 rec).zipIdx.map fun e =>
      (va.toNat % 128 + e.2, e.1)))
    else
      let pa := paOf p va
      if s.isLost pa then s.raiseDie (l.num % 4) .cmdProc .dataLost (BitVec.ofNat 128 (lineOf pa)) 0 0 l.num
      else { s with mem := s.mem.write pa (bytesOf 64 rec) }

/-- Deliver one acknowledgement of a settled scope, if its record has room; its counts start again at 0. -/
def State.cancelAck (s : State) (n a : Nat) : State :=
  match s.launch? n with
  | none => s
  | some l =>
    match l.scopes.find? fun x => x.num == a with
    | none => s
    | some x =>
      if x.acking = 0 ∨ s.settled l a = false ∨ s.srcRoom (n % 4) .cmdProc = false then s
      else
        let rec_ := ackRecord x (s.timeAt (n % 4))
        let s := s.setLaunch (l.modScope a fun x =>
          { x with settled := true, acking := x.acking - 1, killed := 0, queued := 0, discard := 0, refused := 0, owed := 0 })
        if x.ack = 0 then s.raiseDie (n % 4) .cmdProc .scopeAck (BitVec.ofNat 128 rec_) 0 0 n
        else s.writeAck l x.ack rec_

/-! ### Meanings -/

def execTnext (x : TnextW) (s : State) : Host.Outcome State Fault Refusal := runWord (.tnext x) tnextBody s

def execTdone (x : Ctl0) (s : State) : Host.Outcome State Fault Refusal := runWord (.tdone x) tdoneBody s

def execTspawn (x : CtlA) (s : State) : Host.Outcome State Fault Refusal := runWord (.tspawn x) (tspawnBody x) s

def execTscope (x : TscopeW) (s : State) : Host.Outcome State Fault Refusal := runWord (.tscope x) (tscopeBody x) s

def execCancel (x : NumW) (s : State) : Host.Outcome State Fault Refusal := runWord (.cancel x) (cancelBody x) s

def execGroupKill (g : GRef) (s : State) : Host.Outcome State Fault Refusal := .next (s.groupKill g)

def execCancelAck (launch scope : Nat) (s : State) : Host.Outcome State Fault Refusal := .next (s.cancelAck launch scope)

def execAffinityWaitExpiry (launch : Nat) (s : State) : Host.Outcome State Fault Refusal := .next (s.affinityExpiry launch)

end Sys2Proof.Machine
end

