-- ==== Sys2Proof/Machine/Coll.lean ====
section
/-! DEFINITION. COLL.ARM and COLL.PUT (R263 to R266, R356). -/
namespace Sys2Proof.Machine

/-! ### COLL.ARM -/

/-- A page check of a collective word: the first address of each 64 KiB that `n` bytes at `a` touch. -/
def pageParts (a n : Nat) : List (Addr × Nat) :=
  (List.range ((a + n - 1) / 65536 - a / 65536 + 1)).map fun i =>
    (BitVec.ofNat 56 (if i = 0 then a else (a / 65536 + i) * 65536), 1)

/-- Translate the pages of a range for an engine; `peerOk` lets the range lie at a peer (log 26). -/
def State.rangeCheck (s : State) (core ctx : Nat) (q : Want) (peerOk : Bool) : List (Addr × Nat) → Option Trap × State
  | [] => (none, s)
  | (va, _) :: r =>
    if regionOf va ≠ 0 then (some (trapA .permission va q.ak), s)
    else match s.xlat (some core) ctx va q with
      | .error t => (some t, s)
      | .ok p =>
        let s := s.tlbFill (some core) ctx va p
        if pteSystem p && !peerOk then (some (trapA .permission va q.ak), s) else s.rangeCheck core ctx q peerOk r

/-- The operation of a code (R263). -/
def collOpOf (n : Nat) : CollOp := match n with | 0 => .sumF32 | 1 => .sumBf16 | 2 => .maxF32 | _ => .maxabsF32

/-- The fields of an arm descriptor. -/
structure ArmDesc where
  dsts : List Nat
  stage : Nat
  status : Nat
  tag : W32
  tmo : Nat
  slot : Nat
  cnt : Nat
  op : CollOp
  n : Nat
deriving DecidableEq, Repr

/-- Read an arm descriptor; a reserved bit, a field out of range or a misaligned address refuses it (R264). -/
def parseArm (b : List Byte) : Option ArmDesc :=
  let d := natOf b
  let a : ArmDesc := ⟨[bits d 319 256, bits d 383 320, bits d 447 384, bits d 511 448], bits d 255 192, bits d 191 128,
    BitVec.ofNat 32 (bits d 127 96), bits d 95 64, bits d 39 32, bits d 31 25, collOpOf (bits d 24 23), bits d 16 0⟩
  if bits d 63 40 ≠ 0 ∨ bits d 22 17 ≠ 0 ∨ a.cnt = 0 ∨ 64 < a.cnt ∨ a.n = 0 ∨ 65536 < a.n ∨ a.tmo = 0 ∨ a.stage % 128 ≠ 0 ∨
      a.status % 64 ≠ 0 ∨ a.dsts.any (fun x => x % 128 != 0) = true then none
  else some a

/-- Bytes of a result. -/
def ArmDesc.outBytes (a : ArmDesc) : Nat := a.n * (if a.op = .sumBf16 then 2 else 4)

/-- The page checks of COLL.ARM, in the order staging area, destinations, status record. -/
def State.armPages (s : State) (core ctx : Nat) (a : ArmDesc) : Option Trap × State :=
  let q := wantStore false
  match s.rangeCheck core ctx q false (pageParts a.stage (4 * a.cnt * a.n)) with
  | (some t, s) => (some t, s)
  | (none, s) =>
    match s.rangeCheck core ctx q true ((a.dsts.filter (· != 0)).flatMap fun d => pageParts d a.outBytes) with
    | (some t, s) => (some t, s)
    | (none, s) => s.rangeCheck core ctx q false (pageParts a.status 64)

/-- The slot that an arm makes. -/
def Ex.armed (x : Ex) (s : State) (a : ArmDesc) : Slot where
  tag := a.tag
  cnt := a.cnt
  op := a.op
  n := a.n
  stage := a.stage
  dsts := a.dsts
  status := a.status
  arrived := 0
  deadline := s.timeAt (dieOf x.c.core) + 1000 * a.tmo
  refused := 0
  launch := x.c.l.num
  team := x.c.t.ref.idx
  ctx := x.c.l.pkt.ctx
  at_ := none
  timedOut := false
  nanSeen := false
  stop := none
  standing := none
  retries := none
  core := x.c.core

/-- The end of COLL.ARM: its result, noted for the shadow (R356). -/
def Ex.armDone (x : Ex) (s : State) (d : Opnd) (b : List Byte) (v : W64) : Eff :=
  let s := s.addItem x.c.ref.t 2 b
  .done (if x.c.t.seg.isSome then s.modGroup x.c.ref fun g => { g with arms := g.arms ++ [v] } else s) (uniWr d v) none

/-- The value that the primary's COLL.ARM of the same place wrote: none while it has not got there and its segment goes on. -/
def State.primaryArm (s : State) (c : Ctx) : Option W64 :=
  let k := c.g.arms.length
  match (s.team? { c.t.ref with shadow := false }).bind fun t => t.grp? c.g.idx with
  | none => some 1
  | some g =>
    match g.arms[k]? with
    | some v => some v
    | none => if g.st == .ended || (match g.wait with | .segment _ _ => true | _ => false) then some 1 else none

def collArmBody (w : CollArmW) (x : Ex) (s : State) : Eff :=
  let addr := x.baseOff w.a w.off
  if addr.toNat % 64 ≠ 0 then .trap (trapA .badAddress addr .load)
  else x.withRecord s addr 64 fun b s =>
    match parseArm b with
    | none => .trap (trapRecord addr.toNat)
    | some a =>
      match s.armPages x.c.core x.c.l.pkt.ctx a with
      | (some t, _) => .trap t
      | (none, s) =>
        if x.c.t.ref.shadow then
          (match s.primaryArm x.c with
           | some v => x.armDone s w.d b v
           | none => .waitIn s .collArm)
        else
          let die := dieOf x.c.core
          if (s.slot? die a.slot).isSome then x.armDone s w.d b 1
          else x.armDone (s.modDie die fun d => { d with slots := d.slots ++ [(a.slot, x.armed s a)] }) w.d b 0

/-! ### COLL.PUT -/

/-- The fields of a put descriptor (R265). -/
structure PutDesc where
  res : Nat
  src : Nat
  tag : W32
  seed : Nat
  hub : Nat
  loc : Bool
  hdie : Fin 4
  slot : Fin 256
  rank : Nat
  op : CollOp
  comp : Bool
  bf16 : Bool
  acq : Bool
  n : Nat
deriving DecidableEq, Repr

/-- A legal combination of operation, format and compression (R265). -/
def PutDesc.legal (p : PutDesc) : Bool :=
  match p.op with
  | .sumF32 => !p.bf16
  | .sumBf16 => p.bf16 && !p.comp
  | .maxF32 | .maxabsF32 => !p.bf16 && !p.comp

/-- Read a put descriptor; a reserved bit, a field out of range or an illegal combination refuses it. -/
def parsePut (b : List Byte) : Option PutDesc :=
  let d := natOf b
  let p : PutDesc := ⟨bits d 511 448, bits d 447 384, BitVec.ofNat 32 (bits d 383 352), bits d 319 256, bits d 63 56,
    bitAt d 55, Fin.ofNat 4 (bits d 54 53), Fin.ofNat 256 (bits d 52 45), bits d 44 39, collOpOf (bits d 38 37), bitAt d 36,
    bitAt d 35, bitAt d 34, bits d 33 17⟩
  if bits d 351 320 ≠ 0 ∨ bits d 255 64 ≠ 0 ∨ bits d 16 0 ≠ 0 ∨ p.n = 0 ∨ 65536 < p.n ∨ (p.res ≠ 0 ∧ p.comp = false) ∨
      (p.loc = true ∧ p.hub ≠ 0) ∨ p.legal = false then none
  else some p

/-- Bytes of a source element. -/
def PutDesc.esz (p : PutDesc) : Nat := if p.bf16 then 2 else 4

/-- The scale of a compressed block (R266). -/
def blockScale (ys : List ExactNum) : ExactNum :=
  let amax := ys.foldl (fun (m : ExactNum) y => if y.isFin && m.lt y.abs then y.abs else m) (ExactNum.zero false)
  match amax with
  | .fin _ n d =>
    if n = 0 then .fin false 1 1
    else
      let k := floorLog2 n d
      -- the mantissa exceeds 1.75: one power more
      let beyond := if 0 ≤ k then decide (7 * (d * 2 ^ k.toNat) < 4 * n) else decide (7 * d < 4 * (n * 2 ^ (-k).toNat))
      let e := max (k - 8 + bnat beyond) (-126)
      if 0 ≤ e then .fin false (2 ^ e.toNat) 1 else .fin false 1 (2 ^ (-e).toNat)
  | _ => .fin false 1 1

/-- A formed block and its residuals. -/
structure Formed where
  block : PutBlock
  resid : List W32

/-- Form one compressed block from its values and residuals; `base` is the index of its first element (R266). -/
def formBlock (p : PutDesc) (base : Nat) (xs rs : List W32) : Formed :=
  let ys : List ExactNum := if p.res = 0 then xs.map fun x => f32 x.toNat
    else (xs.zip rs).map fun e => f32 (round FP32 .rne ((f32 e.1.toNat).add false (f32 e.2.toNat)))
  let sc := blockScale ys
  let qs := ys.zipIdx.map fun e => round E4M3 .rne (e.1.div sc) ⟨p.seed, base + e.2⟩
  ⟨⟨BitVec.ofNat 32 (round FP32 .rne sc), qs.map (BitVec.ofNat 32)⟩,
    (ys.zip qs).map fun e =>
      if e.1.isFin then BitVec.ofNat 32 (round FP32 .rne (e.1.add false ((decodeNum E4M3 e.2).mul sc).neg)) else 0⟩

/-- Cut a list into blocks of 128. -/
def blocks128 {α : Type} : Nat → List α → List (List α)
  | 0, _ => []
  | f + 1, l => if l.isEmpty then [] else l.take 128 :: blocks128 f (l.drop 128)

/-- The words of a list of bytes. -/
def wordsIn (sz n : Nat) (b : List Byte) : List W32 := (List.range n).map fun i => BitVec.ofNat 32 (numAt b (sz * i) sz)

/-- Form the blocks of a put from its source and its residual area. -/
def PutDesc.form (p : PutDesc) (src res : List Byte) : List Formed :=
  let xs := blocks128 513 (wordsIn p.esz p.n src)
  let rs := blocks128 513 (if p.res = 0 then List.replicate p.n 0 else wordsIn 4 p.n res)
  (xs.zip rs).zipIdx.map fun e =>
    if p.comp then formBlock p (128 * e.2) e.1.1 e.1.2 else ⟨⟨0, e.1.1⟩, []⟩

/-- The payload bytes of a block (R356). -/
def PutDesc.payload (p : PutDesc) (b : PutBlock) : List Byte :=
  if p.comp then (b.elems.map fun e => BitVec.ofNat 8 e.toNat) ++ bytesOf 4 b.scale.toNat
  else (b.elems.map fun e => bytesOf p.esz e.toNat).flatten

/-- A packet on its way: to a hub of this device, or to a peer. A peer without a valid entry cannot be reached (R266). -/
def Ex.sendPut (x : Ex) (s : State) (p : PutDesc) (pkt : PutPkt) : State :=
  let waits (s : State) : State := s.modGroup x.c.ref fun g => { g with puts := g.puts + 1 }
  if p.loc then waits { s with flying := s.flying ++ [⟨pkt, none, some x.c.ref, x.c.l.num, x.c.core, none⟩] }
  else if peerValid (s.peerEntry p.hub) then waits (s.sendPeer x.c.core x.c.l.num (some x.c.ref) p.hub 0 (.put pkt))
  else (s.raise x.c.unit false .remoteFail (remoteFailInfo 0 p.hub 0)).modLaunch x.c.l.num fun l =>
    { l with failedPuts := l.failedPuts + 1 }

/-- A race, or a lost line, that an engine access of a word meets. -/
def Ex.engineFail (x : Ex) (s : State) (e : Addr × HomeErr) : Eff :=
  match e with
  | (_, .lost l) => .trap (trapE .dataLost (BitVec.ofNat 128 l))
  | (va, .race o) => .gone (s.orderRace x.c va o x.c.g.epoch x.pc)

/-- Form the packet of a put, after the acquire of `ACQ` at the scope of every page of the source: every element is read first, then
the residuals are written and the packet leaves (R266). A version without lines left for the residuals waits for them, and fails as R293
gives. -/
def Ex.formPut (x : Ex) (s : State) (desc : List Byte) (p : PutDesc) (ps rs : List Piece) : Eff :=
  let q := x.pty
  let s := if p.acq then ((ps.map (·.pte)).eraseDups).foldl (fun s y => (s.promote x.c.core y).acquire x.c.core y) s else s
  match s.versionWaits q.vers rs with
  | some y =>
    let since := match x.c.g.wait with | .vline n => n | _ => s.clock
    if since + versionClocks ≤ s.clock then .trap (trapE .versionFull (BitVec.ofNat 128 (sliceNo y.pa))) else .waitIn s (.vline since)
  | none =>
  match s.engineRead q ps with
  | (.error e, s) => x.engineFail s e
  | (.ok src, s) =>
    match s.engineRead q rs with
    | (.error e, s) => x.engineFail s e
    | (.ok res, s) =>
      let fs := p.form src res
      match (if p.res = 0 then .ok s else s.engineWrite q rs ((fs.map fun f => (f.resid.map fun w => bytesOf 4 w.toNat).flatten).flatten)) with
      | .error e => x.engineFail s e
      | .ok s =>
        let pkt : PutPkt := ⟨p.hdie, p.slot, p.tag, p.rank, p.op, p.n, p.bf16, p.comp, fs.map (·.block)⟩
        let s := s.addItem x.c.ref.t 3 (desc ++ (pkt.blocks.map p.payload).flatten)
        .done (if x.c.t.ref.shadow then s else x.sendPut s p pkt) [] none

def collPutBody (w : BaseOffW) (x : Ex) (s : State) : Eff :=
  let addr := x.baseOff w.a w.off
  if addr.toNat % 64 ≠ 0 then .trap (trapA .badAddress addr .load)
  else x.withRecord s addr 64 fun b s =>
    match parsePut b with
    | none => .trap (trapRecord addr.toNat)
    | some p =>
      let parts (a n : Nat) : List (Addr × Nat) := lineParts (n / 128 + 2) (BitVec.ofNat 56 a) n
      match s.enginePieces x.c.core x.c.l.pkt.ctx (wantLoad false .fillRead) false (parts p.src (p.n * p.esz)) with
      | (.error t, _) => .trap t
      | (.ok ps, s) =>
        match (if p.res = 0 then (.ok [], s) else
            s.enginePieces x.c.core x.c.l.pkt.ctx (wantAtomic false) false (parts p.res (4 * p.n))) with
        | (.error t, _) => .trap t
        | (.ok rs, s) => if (ps ++ rs).any fun y => s.far x.c.core y.pa then .waitIn s .engine else x.formPut s b p ps rs

/-! ### Meanings -/

def execCollArm (x : CollArmW) (s : State) : Host.Outcome State Fault Refusal := runWord (.collArm x) (collArmBody x) s

def execCollPut (x : BaseOffW) (s : State) : Host.Outcome State Fault Refusal := runWord (.collPut x) (collPutBody x) s

end Sys2Proof.Machine
end

