-- ==== Sys2Proof/Machine/Twin.lean ====
section
/-! DEFINITION. The twin instructions at issue (R216 to R219): TACC, TCONS, TCNT, TRESET, and the timeout of a consuming read. -/
namespace Sys2Proof.Machine

/-- Checks 1 and 2 of a twin word (R192). -/
def Ex.twinCheck (x : Ex) (as : List Addr) : Option Trap :=
  (as.find? fun a => a.toNat % 2 != 0).map (fun a => trapA .badAddress a .twin) |>.or
    (as.findSome? fun a => x.c.t.regionCheck a 2 true x.c.g.priv .twin)

/-- Check 3 of a twin word, in every lane before any is performed: translation, and the element size of the page. -/
def State.twinPieces (s : State) (c : Ctx) (w : Bool) : List (Nat × Addr) → Except Trap (List LaneAddr) × State
  | [] => (.ok [], s)
  | (i, a) :: r =>
    match s.xlat (some c.core) c.l.pkt.ctx (primary a) (wantTwin c.g.priv w) with
    | .error t => (.error { t with va := if t.va = primary a then a else t.va }, s)
    | .ok p =>
      let s := s.tlbFill (some c.core) c.l.pkt.ctx (primary a) p
      if a.toNat % pteTwSize p ≠ 0 then (.error (trapA .badAddress a .twin), s)
      else match s.twinPieces c w r with
        | (.error t, s) => (.error t, s)
        | (.ok ls, s) => (.ok (⟨i, a, [⟨primary a, paOf p (primary a), pteTwSize p, p⟩]⟩ :: ls), s)

/-- Lines on which an undelivered entry acts at the twin. -/
def LaEnt.twinLines (e : LaEnt) : List Addr :=
  if e.done then []
  else match e.op with
    | .tcons ls | .tcnt ls => laneLineVas ls
    | .load ls => if isCounted e.word then laneLineVas ls else []
    | _ => []

/-- An earlier twin operation of the party on one of the lines has not been performed: they are applied in program order
(log 6). -/
def Ctx.twinWait (c : Ctx) (lines : List Addr) : Bool :=
  c.acqPending ||
  c.family.any fun g =>
    (g.posted.any fun p => p.taccs.any fun e => lines.contains (lineVa e.1.va)) ||
    (g.la.any fun e => e.twinLines.any lines.contains)

/-- The checks of a twin word over lanes; then the body on its lanes. -/
def Ex.twinLanes (x : Ex) (s : State) (m : MemOp) (w : Bool) (f : List LaneAddr → State → Eff) : Eff :=
  let as := x.laneAddrs m
  match x.twinCheck (as.map (·.2)) with
  | some t => .trap t
  | none =>
    match s.twinPieces x.c w as with
    | (.error t, _) => .trap t
    | (.ok ls, s) => if x.c.twinWait (laneLineVas ls) then .waitIn s .engine else f ls s

/-- The posted contributions of a word, one entry for each line in order of first touch. -/
def Ex.postTaccs (x : Ex) (s : State) (d : Opnd) (ls : List LaneAddr) : List Posted :=
  let ps : List (Nat × Piece) := (ls.map fun l => l.ps.map fun p => (l.lane, p)).flatten
  (byLine ps).map fun b =>
    ⟨x.pc, x.word, x.act, maskOf (b.2.map (·.1)), [], b.2.map fun e => (e.2, BitVec.ofNat 32 (x.val d 32 false 0 e.1)), [], [], false, none,
      s.clock, x.c.version, x.c.g.epoch, x.c.tick, x.c.g.vc⟩

def taccBody (w : TaccW) (x : Ex) (s : State) : Eff :=
  x.twinLanes s w.mem true fun ls s =>
    .done (s.modGroup x.c.ref fun g => { g with posted := g.posted ++ x.postTaccs s w.d ls }) [] none

def tconsBody (w : TconsW) (x : Ex) (s : State) : Eff := x.twinLanes s w.mem false fun ls s => .defer s (.tcons ls) []

def tcntBody (w : RegMemW) (x : Ex) (s : State) : Eff := x.twinLanes s w.mem false fun ls s => .defer s (.tcnt ls) []

/-! ### TRESET (R219) -/

/-- The pieces of `n` lines from the line of `a`, or the trap of the first that cannot be reset. -/
def State.resetLines (s : State) (c : Ctx) : Nat → Addr → Except Trap (List Piece) × State
  | 0, _ => (.ok [], s)
  | n + 1, a =>
    match s.xlat (some c.core) c.l.pkt.ctx a (wantTwin c.g.priv true) with
    | .error t => (.error t, s)
    | .ok p =>
      let s := s.tlbFill (some c.core) c.l.pkt.ctx a p
      if pteSystem p then (.error (trapA .permission a .twin), s)
      else match s.resetLines c n (a + 128) with
        | (.error t, s) => (.error t, s)
        | (.ok ps, s) => (.ok (⟨a, paOf p a, 128, p⟩ :: ps), s)

/-- `VER` of the header of a piece's line. -/
def State.verSet (s : State) (p : Piece) : Bool := bitAt (s.mem.num p.hdr 4) 16

def tresetBody (w : RegMemW) (x : Ex) (s : State) : Eff :=
  let a := x.uaddr w.mem
  let m := x.uval w.d 32 false 0
  match x.twinCheck [a] with
  | some t => .trap t
  | none =>
    match s.twinPieces x.c true (if m = 0 then [] else [(0, a)]) with
    | (.error t, _) => .trap t
    | (.ok _, s) =>
      match s.resetLines x.c m (lineVa (primary a)) with
      | (.error t, _) => .trap t
      | (.ok ps, s) =>
        if x.c.twinWait (ps.map fun p => lineVa p.va) || ps.any fun p => s.heldElsewhere x.c.version (lineOf p.pa) then
          .waitIn s .engine
        else match ps.findSome? fun p => (s.hdrLost p).map fun n => trapE .dataLost (BitVec.ofNat 128 n) with
          | some t => .trap t
          | none => match ps.find? fun p => s.verSet p with
          | some p => .trap (trapE .twinBusy (BitVec.ofNat 128 (lineOf p.pa)))
          | none => .done (ps.foldl (fun s p => s.twReset p) s) [] none

/-! ### The consuming read, line by line (R218) -/

/-- The format of a page's twin elements (R43). -/
def pteTwFmt (p : BitVec 256) : Fmt := match pteBits p 26 25 with | 1 => BF16 | 2 => FP16 | _ => FP32

/-- A line of a pending twin read: its address, its lanes with their pieces, and its first piece. -/
structure TwLine where
  va : Addr
  lanes : List (Nat × Piece)
  p : Piece
deriving DecidableEq, Repr

/-- The lines of lanes, ascending. -/
def twLines (ls : List LaneAddr) : List TwLine :=
  let ps : List (Nat × Piece) := (ls.map fun l => l.ps.map fun p => (l.lane, p)).flatten
  let keys := (ps.map fun e => (lineVa e.2.va).toNat).foldl (fun m k => insertSorted k m) []
  keys.filterMap fun k =>
    let mine := ps.filter fun e => (lineVa e.2.va).toNat == k
    match mine with
    | [] => none
    | e :: _ => some ⟨BitVec.ofNat 56 k, mine, e.2⟩

/-- What one line of a consuming read gives. -/
inductive TwRead where
  | vals (vs : List (Nat × Nat)) (s : State)
  | waits
  | early
  | lost (line : Nat)

/-- A consuming read of one line at its home (R218); `nb` is `.nb`. -/
def State.consumeLine (s : State) (v : Option Nat) (nb : Bool) (k : TwLine) : TwRead :=
  let x := k.p
  if s.heldElsewhere v (lineOf x.pa) then .waits
  else match s.twLost x with
  | some n => .lost n
  | none => match (s.twView v x).st with
    | 0 => .vals (k.lanes.map fun e => (e.1, 0)) s
    | 2 =>
      .vals (k.lanes.map fun e =>
        (e.1, round (pteTwFmt e.2.pte) .rne (let a := s.accView v e.2 e.2.acc
                                             if a = 0 then ExactNum.zero false else accNum a)))
        (s.twConsume v x)
    | _ => if nb || pteTwFault x.pte then .early else .waits

/-- The first line of a blocking consuming read whose wait has run out (R218). -/
def State.twinLate (s : State) (e : LaEnt) : Option TwLine :=
  match e.op with
  | .tcons ls =>
    match twLines ls with
    | [] => none
    | k :: _ =>
      if !pteSystem k.p.pte && (s.twView e.vers k.p).st == 1 && !s.heldElsewhere e.vers (lineOf k.p.pa) &&
          decide (e.since + pteTwTime k.p.pte ≤ s.clock) then some k
      else none
  | _ => none

/-- The failure of a line of a consuming read. -/
def earlyFail (k : TwLine) : LateFail := ⟨.twinEarly, k.p.va, BitVec.ofNat 128 k.p.va.toNat, none⟩

/-- The blocking wait of entry `i` has run out: the word fails with TWIN-EARLY. -/
def State.twinEarly (s : State) (r : GRef) (i : Nat) : State :=
  match s.ctx? r with
  | none => s
  | some c =>
    match c.g.la[i]? with
    | none => s
    | some e =>
      if e.done then s
      else match s.twinLate e with
        | none => s
        | some k => s.modGroup r fun g =>
            { g with la := modifyAt (fun e => { e with done := true, fail := some (earlyFail k) }) i g.la }

/-! ### Meanings -/

def execTacc (x : TaccW) (s : State) : Host.Outcome State Fault Refusal := runWord (.tacc x) (taccBody x) s

def execTcons (x : TconsW) (s : State) : Host.Outcome State Fault Refusal := runWord (.tcons x) (tconsBody x) s

def execTwinEarlyTimeout (g : GRef) (i : Nat) (s : State) : Host.Outcome State Fault Refusal := .next (s.twinEarly g i)

def execTcnt (x : RegMemW) (s : State) : Host.Outcome State Fault Refusal := runWord (.tcnt x) (tcntBody x) s

def execTreset (x : RegMemW) (s : State) : Host.Outcome State Fault Refusal := runWord (.treset x) (tresetBody x) s

end Sys2Proof.Machine
end

