-- ==== Sys2Proof/Machine/Deliver.lean ====
section
/-! DEFINITION. When a long-latency word is delivered (R93, R191, R194, R197, R198, R203, R218), when it fails after acceptance (R95),
and when a posted store or contribution reaches its home (R195, R217, R293). -/
namespace Sys2Proof.Machine

/-! ### Settling an entry -/

/-- An ended continuation leaves its team once no access of it is outstanding. -/
def State.reap (s : State) (r : GRef) : State :=
  match r.who with
  | .grp _ => s
  | .cont n => s.modTeam r.t fun t =>
      match t.cont? n with
      | none => t
      | some c => if c.g.st == .ended && !c.g.outstanding then { t with conts := t.conts.filter fun k => k.id != n } else t

/-- Change entry `i` of a party. -/
def State.modEntry (s : State) (r : GRef) (i : Nat) (f : LaEnt → LaEnt) : State :=
  s.modGroup r fun g => { g with la := modifyAt f i g.la }

/-- An ended party's result is discarded, and its entry goes (R185). -/
def State.dropEntry (s : State) (r : GRef) (i : Nat) : State :=
  (s.modGroup r fun g => { g with la := g.la.eraseIdx i }).reap r

/-- An entry has delivered its result (R93): it is free once its window is closed (R94). -/
def laSettled (i : Nat) (la : List LaEnt) : List LaEnt :=
  modifyAt (fun e => { e with done := true, again := false, owed := [], early := [], got := [], counted := [] }) i la

/-- The entry has delivered its result. -/
def State.settleEntry (s : State) (c : Ctx) (i : Nat) (ws : List Wr) : State :=
  if c.g.st = .ended then s.dropEntry c.ref i
  else ((s.wrs c.ref ws).modGroup c.ref fun g => { g with la := laSettled i g.la }).regsWhole c.ref
    (match c.g.la[i]? with | some e => wholeRegs c.g.width e.act e.dests | none => [])

/-- The entry has failed after acceptance, with the lanes performed so far and the values that wait for its success; it waits for its
boundary (R95). -/
def State.failEntry (s : State) (c : Ctx) (i : Nat) (ws : List Wr) (pcm : Mask) (f : LateFail) (got : List (Nat × Nat) := []) : State :=
  if c.g.st = .ended then s.dropEntry c.ref i
  else (s.wrs c.ref ws).modEntry c.ref i fun e => { e with done := true, fail := some f, pcm := e.pcm ||| pcm, got := got }

/-- A trap as a failure after acceptance. -/
def Trap.late (t : Trap) (va : Addr) (race : Option AccTag) : LateFail := ⟨t.cause, va, t.info, race⟩

/-- A home error as a failure after acceptance. -/
def HomeErr.late (e : HomeErr) (va : Addr) : LateFail :=
  match e with
  | .lost _ => (e.trap va).late va none
  | .race o => (e.trap va).late va (some o)

/-- The failure of a request at a peer (R414). -/
def peerLate (c : Cause) (va : Addr) : LateFail := ⟨c, va, BitVec.ofNat 128 va.toNat, none⟩

/-! ### The destination of a load or atomic -/

/-- A loaded value extended to its destination (R191). -/
def ldExt (ty : ITy) (w n : Nat) (x : Nat) : Nat :=
  match ty with
  | .i8 | .i16 | .i32 | .i64 => wrap (sext x (8 * n)) w
  | _ => x

/-- The destination field of a word. -/
def wordDest : Instr → Opnd
  | .ld x => x.d
  | .lds x => x.d
  | .atom x => x.d
  | .atoms x => x.d
  | .tcons x => x.d
  | .tcnt x => x.d
  | .tnext x => x.d
  | _ => .zero

/-- The register writes of the lanes' values. -/
def entryWrs (e : LaEnt) (vals : List (Nat × Nat)) : List Wr :=
  let d := wordDest e.word
  let n := wordBytes e.word
  let ty : ITy := match e.word with | .ld x => x.ty | .lds x => x.ty | _ => .b32
  match d with
  | .s _ => (vals.take 1).flatMap fun v => uniWr d (BitVec.ofNat 64 (ldExt ty 64 n v.2))
  | .q _ => laneWrs d 1 (vals.map fun v => (v.1, ldExt ty 32 n v.2))
  | _ => laneWrs d (if n ≤ 4 then 1 else n / 4) (vals.map fun v => (v.1, if n ≤ 4 then ldExt ty 32 n v.2 else v.2))

/-- The queue that a write pushes, with the entries it adds. -/
def Wr.push? : Wr → Option (Nat × Nat)
  | .push q xs => some (q, xs.length)
  | _ => none

/-- The queue that the result of an entry is pushed on, with the entries it adds. -/
def LaEnt.push (e : LaEnt) : Option (Nat × Nat) :=
  match e.op with
  | .write ws => ws.findSome? Wr.push?
  | _ => match wordDest e.word with
    | .q k => some (k.val, (lanes (e.act &&& ~~~e.pcm) 64).length + e.got.length)
    | _ => none

/-- The result of an entry is a push. -/
def isPush (e : LaEnt) : Bool := e.push.isSome

/-- A group of the party has performed everything. -/
def Group.quiet (g : Group) : Bool := g.posted.isEmpty && g.puts == 0 && g.la.all fun e => e.done || !e.op.isMem

/-- The queue has no room for the push of an entry (R18). -/
def Team.pushFull (t : Team) (e : LaEnt) : Bool :=
  match e.push with
  | some (k, n) => decide (256 < (t.queues.getD k []).length + n)
  | none => false

/-- The push of entry `i` waits for room, or, as a release, for the party's earlier words (R18, R305, R313). -/
def Ctx.pushHeld (c : Ctx) (i : Nat) (e : LaEnt) : Bool :=
  isPush e && (c.t.pushFull e || !c.g.posted.isEmpty || c.g.puts != 0 || ((c.g.la.take i).any fun x => !x.done) ||
    c.family.any fun g => g.idx != c.g.idx && !g.quiet)

/-- An earlier load of the party that touches the same bytes is not delivered: the reads of a location come in order (R302). -/
def Ctx.loadBehind (c : Ctx) (i : Nat) (e : LaEnt) : Bool := (c.g.la.take i).any fun x => spansMeet x.spans e.spans

/-! ### Lanes (R194) -/

/-- What the lanes performed so far give: the state, the values, and the first failure. -/
structure LaneRun where
  s : State
  vals : List (Nat × Nat)
  fail : Option LateFail

/-- The access orders of an entry: an acquire, or a counted load, is served at the home (R288). -/
def LaEnt.atHome (e : LaEnt) : Bool := isAcq e.word || isCounted e.word

/-- Read the pieces of one lane. -/
def State.lanePull (s : State) (p : Pty) (e : LaEnt) (lane : Nat) : List Piece → Except LateFail (List Byte) × State
  | [] => (.ok [], s)
  | x :: r =>
    let one : Except LateFail (List Byte) × State :=
      if pteSystem x.pte then
        (match s.sysBytes e lane x with
         | .ok b => (.ok b, if isAcq e.word then s.acquire p.core x.pte else s)
         | .error c => (.error (peerLate c x.va), s))
      else
        let s := if isAcq e.word then s.promote p.core x.pte else s
        match s.loadPiece p x e.atHome with
        | (.error h, s) => (.error (h.late x.va), s)
        | (.ok b, s) => (.ok b, if isAcq e.word then s.acquire p.core x.pte else s)
    match one with
    | (.error f, s) => (.error f, s)
    | (.ok b, s) =>
      match s.lanePull p e lane r with
      | (.error f, s) => (.error f, s)
      | (.ok c, s) => (.ok (b ++ c), s)

/-- The team of a party in a state. -/
def State.teamOf (s : State) (c : Ctx) : Team := (s.team? c.ref.t).getD c.t

/-- DATA-LOST for a local lane that touches a lost line (R295). -/
def State.localFail (s : State) (c : Ctx) (n : Nat) (va : Addr) : Option LateFail :=
  ((s.teamOf c).lostLine n [va]).map fun a => (localLostTrap a).late va none

/-- A lane's bytes with those that were read before the rest (R279). -/
def LaEnt.overlay (e : LaEnt) (lane : Nat) (b : List Byte) : List Byte :=
  b.zipIdx.map fun x => match e.early.find? fun y => y.1 == lane && y.2.1 == x.2 with | some y => y.2.2 | none => x.1

/-- One lane of a load. -/
def State.loadLane (s : State) (c : Ctx) (p : Pty) (e : LaEnt) (l : LaneAddr) : Except LateFail Nat × State :=
  if l.ps.isEmpty then
    match s.localFail c (wordBytes e.word) l.va with
    | some f => (.error f, s)
    | none => match s.trackLocal p c.t l.va (wordBytes e.word) false 0 with
    | (some o, s) => (.error ((raceTrap l.va o).late l.va (some o)), s)
    | (none, s) => (.ok (natOf (e.overlay l.lane ((s.teamOf c).localRead l.va (wordBytes e.word)))), s)
  else match s.lanePull p e l.lane l.ps with
    | (.error f, s) => (.error f, s)
    | (.ok b, s) => (.ok (natOf (e.overlay l.lane b)), s)

/-- One lane of an atomic on a SYSTEM page in a version: it acts on the version's view of the peer's bytes, and what it leaves goes to
the peer at the commit (R292, R316). -/
def State.atomHeld (s : State) (c : Ctx) (e : LaEnt) (v : Nat) (op : AtomOp) (lane : Nat) (x : Piece) (arg new : Nat) :
    Except LateFail Nat × State :=
  let item (ws : List (Piece × List Byte)) (os : List (Piece × AtomOp × W64)) : Posted :=
    ⟨e.pc, e.word, e.act, lane1 lane, ws, [], os, [], false, none, e.since, none, e.epoch, e.tick, e.vc⟩
  let g := c.t.groupOf c.ref.who
  if holdsOperand op (wordDest e.word == .zero) then (.ok 0, s.holdRemote v g (item [] [(x, op, BitVec.ofNat 64 arg)]))
  else match s.sysBytes e lane x with
    | .error k => (.error (peerLate k x.va), s)
    | .ok b =>
      let old := natOf b
      (.ok old, s.holdRemote v g (item [(x, bytesOf x.n (atomNew op (8 * x.n) old arg new))] []))

/-- One lane of an atomic. -/
def State.atomLane (s : State) (c : Ctx) (p : Pty) (e : LaEnt) (op : AtomOp) (l : LaneAddr) (arg new : Nat) :
    Except LateFail Nat × State :=
  let n := wordBytes e.word
  let free := wordDest e.word == .zero
  match l.ps with
  | [] =>
    (match s.localFail c n l.va with
     | some f => (.error f, s)
     | none => match s.trackLocal p c.t l.va n true (atomKind op free) with
     | (some o, s) => (.error ((raceTrap l.va o).late l.va (some o)), s)
     | (none, s) =>
       let old := natOf ((s.teamOf c).localRead l.va n)
       (.ok old, s.modTeam c.ref.t fun t => t.localWrite l.va (bytesOf n (atomNew op (8 * n) old arg new))))
  | x :: _ =>
    let (r, s) : Except LateFail Nat × State :=
      if pteSystem x.pte then
        (match e.vers with
         | some v => s.atomHeld c e v op l.lane x arg new
         | none => match e.sysVal l.lane x with
           | .ok v => (.ok v, s)
           | .error k => (.error (peerLate k x.va), s))
      else
        let s := if isAcq e.word then s.promote p.core x.pte else s
        match s.atomPiece p x op arg new free with
        | (.error h, s) => (.error (h.late l.va), s)
        | (.ok v, s) => (.ok v, s)
    match r with
    | .error f => (.error f, s)
    | .ok v => (.ok v, if isAcq e.word then s.acquire p.core x.pte else s)

/-- Collect one lane. -/
def LaneRun.add (a : LaneRun) (lane : Nat) (r : Except LateFail Nat × State) : LaneRun :=
  match r with
  | (.ok v, s) => { a with s := s, vals := a.vals ++ [(lane, v)] }
  | (.error f, s) => { a with s := s, fail := a.fail.or (some f) }

/-- A lane after the first that failed is not performed where the order of results matters, in a queue (R18). -/
def LaneRun.go (a : LaneRun) (e : LaEnt) (lane : Nat) (f : State → Except LateFail Nat × State) : LaneRun :=
  if a.fail.isSome && isPush e then a else a.add lane (f a.s)

/-! ### Counted loads (R197, R198) -/

/-- The lines of a counted load on TWIN pages of this device, with the lanes that touch each. -/
def countedLines (e : LaEnt) (ls : List LaneAddr) : List TwLine :=
  if isCounted e.word then
    twLines (ls.map fun l => { l with ps := l.ps.filter fun p => pteTwin p.pte && !pteSystem p.pte })
  else []

/-- The lines of a counted load on TWIN pages of peers. -/
def countedRemote (e : LaEnt) (ls : List LaneAddr) : List TwLine :=
  if isCounted e.word then
    twLines (ls.map fun l => { l with ps := l.ps.filter fun p => pteTwin p.pte && pteSystem p.pte })
  else []

/-- The peer has answered an entry's request for a line, and so has counted lanes that it had not counted before (R375, R376). -/
def LaEnt.peerCounted (e : LaEnt) (k : TwLine) : Bool :=
  (k.lanes.any fun l => !e.counted.contains (l.1, k.va.toNat)) && match e.reply (match k.lanes with | l :: _ => l.1 | [] => 0) k.va with
    | .replied _ => true
    | _ => false

/-- Why a line does not take its increase: its header is lost, or its count would pass 65,535 (R198, R295). -/
def State.countBad (s : State) (v : Option Nat) (k : TwLine) : Option LateFail :=
  match s.hdrLost k.p with
  | some n => some ⟨.dataLost, k.p.va, BitVec.ofNat 128 n, none⟩
  | none => if 65535 < (s.twView v k.p).count + (k.lanes.map (·.1)).eraseDups.length then
      some ⟨.countOverflow, k.p.va, BitVec.ofNat 128 (lineOf k.p.pa), none⟩ else none

/-- Lanes that touch a refused line. -/
def refusedLanes (bad : List TwLine) : List Nat := (bad.map fun k => k.lanes.map (·.1)).flatten

/-- Raise the counts by the performed lanes. -/
def State.countLanes (s : State) (v : Option Nat) (did : List Nat) (ks : List TwLine) : State :=
  ks.foldl (fun s k =>
    let n := ((k.lanes.map (·.1)).eraseDups.filter did.contains).length
    if n = 0 then s else (s.twCount v k.p n).getD s) s

/-- Line increases of an unversioned task, a continuation's among those of its group; the cancelled scope of a group that has been
killed counts them (R169, R186, R376). -/
def State.noteLines (s : State) (c : Ctx) (n : Nat) : State :=
  let r : GRef := ⟨c.ref.t, .grp (c.t.groupOf c.ref.who)⟩
  if n = 0 then s
  else match (c.t.who? r.who).bind (·.owing) with
  | some sc => s.modLaunch c.l.num fun l => l.modScope sc fun x => { x with owed := x.owed + n }
  | none => s.modGroup r fun g =>
    match g.task with
    | some k => if k.vers.isNone then { g with task := some { k with lines := k.lines + n } } else g
    | none => g

/-- The line increases of a version's LD.U on peers' pages, held until its commit (R316). -/
def State.holdCounts (s : State) (c : Ctx) (e : LaEnt) (v : Nat) (did : List Nat) (ks : List TwLine) : State :=
  ks.foldl (fun s k =>
    let n := ((k.lanes.map (·.1)).eraseDups.filter did.contains).length
    if n = 0 then s
    else s.holdRemote v (c.t.groupOf c.ref.who)
      ⟨e.pc, e.word, e.act, maskOf (k.lanes.map (·.1)), [], [], [], [(k.p, n)], false, none, e.since, none, e.epoch, e.tick, e.vc⟩) s

/-! ### Delivering a load or an atomic -/

/-- Every local line the entry reads was full at the start of the clock (R201, R281). -/
def Ctx.linesFull (c : Ctx) (e : LaEnt) (ls : List LaneAddr) : Bool := (spadLines c.t (wordBytes e.word) ls).all c.t.serves

/-- The party of an entry, after the fills it waited for (R351). -/
def Ctx.delivered (c : Ctx) (e : LaEnt) (ls : List LaneAddr) : Pty :=
  { c.entPty e with vc := c.t.fullJoin (spadLines c.t (wordBytes e.word) ls) e.vc }

/-- What a failed word keeps of the lanes it has performed (R95). -/
inductive Keep where
  /-- Nothing: every lane is performed again. -/
  | none
  /-- The lanes are in `PCM`, and the destination holds their values (R198). -/
  | written
  /-- The lanes are in `PCM`; the destination is unchanged, and takes their values when the word succeeds. -/
  | held
deriving DecidableEq, Repr

/-- Values by ascending lane. -/
def byLane (vs : List (Nat × Nat)) : List (Nat × Nat) := (List.range 64).filterMap fun i => vs.find? fun v => v.1 == i

/-- The push of a result whose word is performed: as a release of the team (R305, R313), or later, once its queue has room and the
party's earlier words are performed. -/
def State.pushOr (s : State) (c : Ctx) (i : Nat) (e : LaEnt) (ws : List Wr) : State :=
  if c.pushHeld i e then s.modEntry c.ref i fun e => { e with op := .write ws, got := [] }
  else (if isPush e then s.releaseTeam c.t c.core else s).settleEntry c i ws

/-- The end of a load or atomic: results, or the failure with what was performed. A word that fails leaves its destination
unchanged, but for a counted load (R95, R198, R352). -/
def LaneRun.finish (a : LaneRun) (c : Ctx) (i : Nat) (e : LaEnt) (keep : Keep) : State :=
  let vals := byLane a.vals
  let ws := entryWrs e vals
  match a.fail with
  | none => a.s.pushOr c i e ws
  | some f =>
    let did := maskOf (a.vals.map (·.1))
    match keep with
    | .none => a.s.failEntry c i [] 0 f
    | .written => a.s.failEntry c i ws did f
    | .held => a.s.failEntry c i [] did f vals

/-- Order the group after the fills that the entry waited for. -/
def State.joinFull (s : State) (c : Ctx) (p : Pty) : State := s.modGroup c.ref fun g => { g with vc := g.vc.join p.vc }

/-- A version line that a write of these lanes needs is not to be had yet: each new line of the word needs one (R293). -/
def State.slicesFull (s : State) (v : Option Nat) (ps : List Piece) : Bool :=
  match v with
  | some v => s.linesFull v ((ps.filter fun p => !pteSystem p.pte).map (·.pa))
  | none => false

/-- The lanes of a load, in order, but those that touch a line in `bad`. -/
def State.loadLanes (s : State) (c : Ctx) (p : Pty) (e : LaEnt) (bad : List (TwLine × LateFail)) (ls : List LaneAddr)
    (got : List (Nat × Nat)) : LaneRun :=
  ls.foldl (fun (a : LaneRun) l =>
    a.go e l.lane fun s => match bad.find? fun b => b.1.lanes.any fun k => k.1 == l.lane with
      | some b => (.error b.2, s)
      | none => s.loadLane c p e l) ⟨s, got, none⟩

/-- The acquire of lanes at local addresses (R305, R313). -/
def State.localAcquire (s : State) (c : Ctx) (e : LaEnt) (ls : List LaneAddr) : State :=
  if isAcq e.word && ls.any (fun l => l.ps.isEmpty) then s.acquireTeam c.t c.core else s

/-- A counted line with why it does not take its increase. -/
def State.badLine (s : State) (v : Option Nat) (k : TwLine) : Option (TwLine × LateFail) := (s.countBad v k).map fun f => (k, f)

def State.deliverLoad (s : State) (c : Ctx) (i : Nat) (e : LaEnt) (ls : List LaneAddr) : State :=
  let ks := countedLines e ls
  if !c.linesFull e ls || c.loadBehind i e || (ks.any fun k => s.heldElsewhere e.vers (lineOf k.p.pa)) ||
      s.slicesFull e.vers (ks.map (·.p)) then s
  else
    let p := c.delivered e ls
    let bad := ks.filterMap fun k => s.badLine e.vers k
    let a := (s.joinFull c p).loadLanes c p e bad ls e.got
    let did := a.vals.map (·.1)
    let good := ks.filter fun k => !(bad.any fun b => b.1.va == k.va) && (k.lanes.any fun e => did.contains e.1)
    let far := countedRemote e ls
    let s := a.s.countLanes e.vers did good
    let s := match e.vers with
      | some v => s.holdCounts c e v did (far.filter fun k => k.lanes.any fun e => did.contains e.1)
      | none =>
        let new : List TwLine := far.filter fun k => e.peerCounted k
        let s := s.noteLines c (good.length + new.length)
        if new.isEmpty then s
        else s.modEntry c.ref i fun e =>
          { e with counted := e.counted ++ new.flatMap fun k : TwLine => k.lanes.map fun l : Nat × Piece => (l.1, k.va.toNat) }
    ({ a with s := s.localAcquire c e ls }).finish c i e (if isCounted e.word then .written else .none)

/-- `.fadd` that makes a NaN from operands that are none sets `INV` (R106, R202). -/
def faddInv (op : AtomOp) (old arg : Nat) : Bool := op == .fadd && invMet ((f32 old).add false (f32 arg)) [f32 old, f32 arg]

/-- The operation of an atomic word. -/
def atomOp : Instr → AtomOp
  | .atom w => w.op
  | .atoms w => w.op
  | _ => .add

/-- The lanes of an atomic, in order, with the flag `INV` of what they computed. -/
def State.atomLanes (s : State) (c : Ctx) (p : Pty) (e : LaEnt) (xs : List (LaneAddr × W64 × W64)) (got : List (Nat × Nat)) : LaneRun :=
  let op := atomOp e.word
  let a := xs.foldl (fun (a : LaneRun) x => a.go e x.1.lane fun s => s.atomLane c p e op x.1 x.2.1.toNat x.2.2.toNat) ⟨s, got, none⟩
  let inv := a.vals.any fun v =>
    match xs.find? fun x => x.1.lane == v.1 with
    | some x => faddInv op v.2 x.2.1.toNat
    | none => false
  { a with s := if c.g.st = .ended then a.s else a.s.modGroup c.ref fun g => g.flag .inv inv }

/-- The pieces of lanes. -/
def piecesOf (ls : List LaneAddr) : List Piece := ls.flatMap (·.ps)

def State.deliverAtomic (s : State) (c : Ctx) (i : Nat) (e : LaEnt) (ls : List LaneAddr) (args news : List W64) : State :=
  if !c.linesFull e ls || s.slicesFull e.vers (piecesOf ls) then s
  else
    let p := c.delivered e ls
    let a := (s.joinFull c p).atomLanes c p e (ls.zip (args.zip news)) e.got
    ({ a with s := a.s.localAcquire c e ls }).finish c i e .held

/-! ### Lanes performed apart (R279, R301) -/

/-- An entry whose lanes may be performed apart: its lines are full, no earlier load stands before it, and it neither counts on a TWIN
page nor goes to a peer. -/
def Ctx.parts (c : Ctx) (i : Nat) (e : LaEnt) (ls : List LaneAddr) : Bool :=
  !e.done && c.linesFull e ls && !c.loadBehind i e &&
  !(piecesOf ls).any fun p => pteSystem p.pte || (isCounted e.word && pteTwin p.pte)

/-- Keep what a part of an entry has given: the other lanes are performed later. -/
def LaneRun.part (a : LaneRun) (c : Ctx) (i : Nat) (p : Pty) (op : PendOp) (keep : Keep) : State :=
  match a.fail with
  | none => a.s.modEntry c.ref i fun e => { e with op := op, got := a.vals, vc := p.vc }
  | some f => match keep with
    | .held => a.s.failEntry c i [] (maskOf (a.vals.map (·.1))) f (byLane a.vals)
    | _ => a.s.failEntry c i [] 0 f

/-- The lanes of `m` of an entry are performed alone; a choice of all its lanes, of none, or of some that touch bytes of the others
performs nothing. -/
def State.deliverLanes (s : State) (r : GRef) (i : Nat) (m : Mask) : State :=
  match s.ctx? r with
  | none => s
  | some c =>
    match c.g.la[i]? with
    | none => s
    | some e =>
      let n := wordBytes e.word
      match e.op with
      | .load ls =>
        let mine : List LaneAddr := ls.filter fun l => m.getLsbD l.lane
        let rest : List LaneAddr := ls.filter fun l => !m.getLsbD l.lane
        if mine.isEmpty || rest.isEmpty || !c.parts i e ls || spansMeet (laneSpans n mine) (laneSpans n rest) then s
        else
          let p := c.delivered e ls
          let a := (s.joinFull c p).loadLanes c p e [] mine e.got
          ({ a with s := a.s.localAcquire c e mine }).part c i p (.load rest) .none
      | .atomic ls args news =>
        let xs := ls.zip (args.zip news)
        let mine : List (LaneAddr × W64 × W64) := xs.filter fun x => m.getLsbD x.1.lane
        let rest : List (LaneAddr × W64 × W64) := xs.filter fun x => !m.getLsbD x.1.lane
        if mine.isEmpty || rest.isEmpty || !c.parts i e ls || s.slicesFull e.vers (piecesOf ls) ||
            spansMeet (laneSpans n (mine.map (·.1))) (laneSpans n (rest.map (·.1))) then s
        else
          let p := c.delivered e ls
          let a : LaneRun := (s.joinFull c p).atomLanes c p e mine e.got
          let later : PendOp := .atomic (rest.map fun x : LaneAddr × W64 × W64 => x.1) (rest.map fun x => x.2.1) (rest.map fun x => x.2.2)
          LaneRun.part { a with s := a.s.localAcquire c e (mine.map fun x : LaneAddr × W64 × W64 => x.1) } c i p later .held
      | _ => s

/-- The bytes of one aligned 4-byte word of a lane's global access, with their places in the lane's bytes. -/
def wordPieces (w : Nat) : Nat → List Piece → List (Nat × Piece)
  | _, [] => []
  | o, x :: r =>
    let lo := max x.pa (4 * w) - x.pa
    let hi := min (x.pa + x.n) (4 * w + 4) - x.pa
    (if hi ≤ lo then [] else [(o + lo, { x with va := x.va + BitVec.ofNat 56 lo, pa := x.pa + lo, n := hi - lo })]) ++
      wordPieces w (o + x.n) r

/-- Read one word of a lane's access, if it can be read now: its bytes with their places in the lane's bytes. -/
def State.wordRead (s : State) (c : Ctx) (p : Pty) (e : LaEnt) (l : LaneAddr) (w : Nat) : List (Nat × Byte) × State :=
  let n := wordBytes e.word
  if l.ps.isEmpty then
    let a := l.va.toNat % 2 ^ 32
    let lo := max a (4 * w) - a
    let k := min (a + n) (4 * w + 4) - a - lo
    let va := l.va + BitVec.ofNat 56 lo
    if k = 0 ∨ (s.localFail c k va).isSome then ([], s)
    else match s.trackLocal p c.t va k false 0 with
      | (some _, _) => ([], s)
      | (none, s) => (((s.teamOf c).localRead va k).zipIdx.map fun b => (lo + b.2, b.1), s)
  else (wordPieces w 0 l.ps).foldl (fun (a : List (Nat × Byte) × State) x =>
    let u := if isAcq e.word then a.2.promote p.core x.2.pte else a.2
    match u.loadPiece p x.2 e.atHome with
    | (.error _, _) => a
    | (.ok b, u) => (a.1 ++ b.zipIdx.map fun y => (x.1 + y.2, y.1), u)) ([], s)

/-- The word at word address `w` of lane `lane` of entry `i` is read before the rest (R279, R301). -/
def State.deliverWord (s : State) (r : GRef) (i lane w : Nat) : State :=
  match s.ctx? r with
  | none => s
  | some c =>
    match c.g.la[i]? with
    | none => s
    | some e =>
      match e.op with
      | .load ls =>
        (match ls.find? fun l => l.lane == lane with
         | none => s
         | some l =>
           if !c.parts i e ls then s
           else
             let p := c.delivered e ls
             let (bs, u) := (s.joinFull c p).wordRead c p e l w
             let bs := bs.filter fun b => !e.early.any fun y => y.1 == lane && y.2.1 == b.1
             if bs.isEmpty then s
             else u.modEntry r i fun e => { e with early := e.early ++ bs.map fun b => (lane, b.1, b.2) })
      | _ => s

/-! ### Delivering TCONS and TCNT (R218) -/

/-- The lanes of SYSTEM lines by their replies. -/
def LaEnt.sysLanes (e : LaEnt) (k : TwLine) : Except Cause (List (Nat × Nat)) :=
  k.lanes.foldr (fun l r =>
    match r, e.sysVal l.1 l.2 with
    | .error c, _ => .error c
    | _, .error c => .error c
    | .ok vs, .ok v => .ok ((l.1, v) :: vs)) (.ok [])

/-- A consuming read line by line, ascending, until a line that must wait: what was read, the failure, and whether it waits. -/
def State.consume (s : State) (e : LaEnt) (nb : Bool) : List TwLine → LaneRun × Bool
  | [] => (⟨s, [], none⟩, false)
  | k :: r =>
    let more (vs : List (Nat × Nat)) (s : State) : LaneRun × Bool :=
      let (a, w) := s.consume e nb r
      ({ a with vals := vs ++ a.vals }, w)
    if pteSystem k.p.pte then
      (match e.owed.find? fun o => o.va == k.va with
       | none | some ⟨_, _, _, .sent⟩ => (⟨s, [], none⟩, true)
       | _ => match e.sysLanes k with
         | .ok vs => more vs s
         | .error c => (⟨s, [], some (peerLate c k.p.va)⟩, false))
    else if s.slicesFull e.vers [k.p] then (⟨s, [], none⟩, true)
    else match s.consumeLine e.vers nb k with
      | .vals vs s => more vs s
      | .waits => (⟨s, [], none⟩, true)
      | .early => (⟨s, [], some (earlyFail k)⟩, false)
      | .lost n => (⟨s, [], some ⟨.dataLost, k.p.va, BitVec.ofNat 128 n, none⟩⟩, false)

/-- The lanes of an entry without those in a mask. -/
def dropLanes (m : Mask) (ls : List LaneAddr) : List LaneAddr := ls.filter fun l => !m.getLsbD l.lane

def State.deliverTcons (s : State) (c : Ctx) (i : Nat) (e : LaEnt) (ls : List LaneAddr) : State :=
  let nb := match e.word with | .tcons w => w.nb | _ => false
  let (a, waits) := s.consume e nb (twLines ls)
  let did := maskOf (a.vals.map (·.1))
  let ws := entryWrs e a.vals
  match a.fail with
  | some f => a.s.failEntry c i ws did f
  | none =>
    if !waits then a.s.settleEntry c i ws
    else if a.vals.isEmpty then s
    else
      let s := if c.g.st = .ended then a.s else a.s.wrs c.ref ws
      s.modEntry c.ref i fun e => { e with pcm := e.pcm ||| did, op := .tcons (dropLanes did ls), owed := [] }

/-- The header that TCNT reads: count, state, `NANF`, `RANGE` and `VER` (R44, R218). -/
def State.tcntVal (s : State) (v : Option Nat) (x : Piece) : Nat :=
  let h := s.twView v x
  h.count + bits (s.mem.num x.hdr 4) 16 16 * 2 ^ 16 + h.st * 2 ^ 17 + bnat h.nanf * 2 ^ 19 + bnat h.range * 2 ^ 20

def State.deliverTcnt (s : State) (c : Ctx) (i : Nat) (e : LaEnt) (ls : List LaneAddr) : State :=
  if ls.any fun l => l.ps.any fun p => !pteSystem p.pte && s.heldElsewhere e.vers (lineOf p.pa) then s
  else
    let a := ls.foldl (fun (a : LaneRun) l =>
      a.add l.lane (match l.ps with
        | [] => (.ok 0, a.s)
        | x :: _ =>
          if pteSystem x.pte then (match e.sysVal l.lane x with
            | .ok v => (.ok v, a.s)
            | .error k => (.error (peerLate k x.va), a.s))
          else match a.s.hdrLost x with
            | some n => (.error ⟨.dataLost, x.va, BitVec.ofNat 128 n, none⟩, a.s)
            | none => (.ok (a.s.tcntVal e.vers x), a.s))) ⟨s, [], none⟩
    a.finish c i e .none

/-! ### The event -/

/-- Send the entry's peer requests if it has some, once no earlier load of its bytes is undelivered (R302); `none` once every one is
answered. A consuming read goes on line by line. -/
def State.asked (s : State) (c : Ctx) (i : Nat) (e : LaEnt) : Option State :=
  if e.unsent && c.loadBehind i e then some s
  else if e.unsent then
    let (os, s) := s.sendAsks c.core c.l.num c.ref e.asks
    some (s.modEntry c.ref i fun e => { e with owed := os })
  else if e.answered || (match e.op with | .tcons _ => true | _ => false) then none
  else some s

/-- Entry `i` of a party is delivered, as far as it can be now (R93). -/
def State.deliver (s : State) (r : GRef) (i : Nat) : State :=
  match s.ctx? r with
  | none => s
  | some c =>
    match c.g.la[i]? with
    | none => s
    | some e =>
      if e.done then s
      else match s.asked c i e with
        | some s => s
        | none =>
          match e.op with
            | .write ws => if c.pushHeld i e then s else s.pushOr c i e ws
            | .tnext =>
              (match s.serveTnext c with
               | none => s
               | some (v, s) => s.settleEntry c i (uniWr (wordDest e.word) v))
            | .load ls => s.deliverLoad c i e ls
            | .atomic ls args news => s.deliverAtomic c i e ls args news
            | .tcons ls => s.deliverTcons c i e ls
            | .tcnt ls => s.deliverTcnt c i e ls

def execLongLatencyDelivery (g : GRef) (i : Nat) (s : State) : Host.Outcome State Fault Refusal := .next (s.deliver g i)

/-! ### Failures after acceptance (R95) -/

/-- The access kind of a word. -/
def wordAkind : Instr → AKind
  | .ld x => if x.u then .counted else .load
  | .atom _ | .atoms _ => .atomic
  | .st _ | .sts _ => .store
  | .tacc _ | .tcons _ | .tcnt _ => .twin
  | _ => .load

/-- The trap of a failure. -/
def LateFail.trap (f : LateFail) (w : Instr) : Trap := ⟨f.cause, f.info, f.va, wordAkind w, false⟩

/-- A failed word that is not executed again: a TACC (R217), or what a committed version has sent to a peer (R316). -/
def LaEnt.once (e : LaEnt) : Bool :=
  match e.word with
  | .tacc _ => true
  | .ld _ | .atom _ => e.op == .load []
  | _ => false

/-- The word of entry `i` failed after acceptance: the party stops at its boundary and keeps the word for replay, but for
TACC, which is not repeated (R95, R217). -/
def State.lateFail (s : State) (r : GRef) (i : Nat) : State :=
  match s.ctx? r with
  | none => s
  | some c =>
    match c.g.la[i]? with
    | none => s
    | some e =>
      match e.fail with
      | none => s
      | some f =>
        if !c.g.lateReady then s
        else
          let again : Option Replay := if e.once then none else some ⟨e.pc, e.word, e.pcm, e.got, e.counted⟩
          let pcm0 := c.g.pcm
          -- a window that is still open goes on counting; the entry is that of the replay word (R93, R94)
          let s := s.modGroup r fun g => { g with
            la := if e.window = 0 then g.la.eraseIdx i
              else modifyAt (fun e => { e with fail := none, owed := [], again := again.isSome, early := [], got := [], counted := [] }) i g.la
            pcm := e.pcm }
          let extra : State → State := match f.race with
            | some o => raceSecond { c.unit with pc := e.pc } o e.epoch
            | none => id
          let s := s.modGroup r fun g => { g with replay := again }
          (s.takeTrap r (f.trap e.word) extra (pcAt := some e.pc)).modGroup r fun g =>
            if g.live && (g.task.isSome || c.g.task.isNone) then { g with pcm := pcm0 } else g

def execLateFailure (g : GRef) (i : Nat) (s : State) : Host.Outcome State Fault Refusal := .next (s.lateFail g i)

/-! ### Posted stores and contributions (R195, R217) -/

/-- An earlier posted line of the party, not a part of the same word's, lies at the same line. -/
def Ctx.postBehind (c : Ctx) (i : Nat) (p : Posted) : Bool :=
  (c.g.posted.take i).any fun q => q.line == p.line && !(q.tick == p.tick && q.pc == p.pc)

/-- A posted line leaves its party. -/
def State.dropPosted (s : State) (c : Ctx) (i : Nat) : State :=
  (s.modGroup c.ref fun g => { g with posted := g.posted.eraseIdx i }).reap c.ref

/-- The entry that a failed posted line leaves. -/
def Posted.failEnt (p : Posted) (f : LateFail) : LaEnt :=
  ⟨p.pc, p.word, 0, true, [], p.act, p.act &&& ~~~p.lanes, .load [], [], some f, [], p.since, p.vers, p.epoch, p.tick, p.vc, false, [], []⟩

/-- A posted line fails: its party stops at its boundary, and replays only the lanes of this line (R95, R193). -/
def State.failPosted (s : State) (c : Ctx) (i : Nat) (p : Posted) (f : LateFail) : State :=
  let s := s.dropPosted c i
  if c.g.st = .ended then s
  else
    s.modGroup c.ref fun g => { g with la := g.la ++ [p.failEnt f] }

/-- Write the pieces of a posted line. -/
def State.postWrite (s : State) (p : Pty) (whole : Bool) : List (Piece × List Byte) → Option LateFail × State
  | [] => (none, s)
  | (x, b) :: r =>
    match s.storePiece p x b whole with
    | (.error e, s) => (some (e.late x.va), s)
    | (.ok _, s) => s.postWrite p whole r

/-- The word releases. -/
def isRel : Instr → Bool
  | .st x => x.rel
  | _ => false

/-- A posted store reaches its home. -/
def State.ackStore (s : State) (c : Ctx) (i : Nat) (p : Posted) (x : Piece) : State :=
  if (match p.vers with | some v => s.sliceFull v x.pa | none => false) then s
  else
    let ty := c.postPty p
    match s.postWrite ty p.covers p.stores with
    | (some f, s) => s.failPosted c i p f
    | (none, s) =>
      let s := if isRel p.word then s.release c.core x.pte else s
      s.dropPosted c i

/-- The numeric value of a contribution in its format. -/
def taccVal (ft : TwFmt) (x : W32) : ExactNum :=
  match ft with
  | .f32 => f32 x.toNat
  | .f16 => decodeNum FP16 (x.toNat % 65536)
  | .bf16 => decodeNum BF16 (x.toNat % 65536)

/-- Posted contributions reach their line's home (R217). -/
def State.ackTacc (s : State) (c : Ctx) (i : Nat) (p : Posted) (x : Piece) : State :=
  let line := lineOf x.pa
  if s.heldElsewhere p.vers line || s.slicesFull p.vers [x] then s
  else match s.twLost x with
  | some n => s.failPosted c i p ⟨.dataLost, x.va, BitVec.ofNat 128 n, none⟩
  | none => match s.twContribute p.vers x (p.taccs.map fun e => (e.1.acc, taccVal (taccFmt p.word) e.2)) with
    | .underflow => s.failPosted c i p ⟨.adjointUnderflow, x.va, BitVec.ofNat 128 line, none⟩
    | .applied s range nan =>
      let s := if c.g.st = .ended then s else s.modGroup c.ref fun g => g.flag .twnan nan
      if range then s.failPosted c i p ⟨.twinRange, x.va, BitVec.ofNat 128 line, none⟩ else s.dropPosted c i

/-- The version of a task that holds what a posted line says to a peer; a segment's stores to peers are made at once (R316, R356). -/
def State.remoteVersion (s : State) (p : Posted) : Option Nat :=
  p.vers.filter fun v => p.stores.isEmpty || match s.version? v with | some y => y.grp.isSome | none => false

/-- A posted line on a SYSTEM page: into the party's version, or to the peer. -/
def State.postRemote (s : State) (c : Ctx) (i : Nat) (p : Posted) : State :=
  match s.remoteVersion p with
  | some v => (s.holdRemote v (c.t.groupOf c.ref.who) p).dropPosted c i
  | none => s.postPeer c.core c.l.num c.ref i p

/-- Posted line `i` of a party is written at its home and acknowledged, or its request goes to its peer. -/
def State.acknowledge (s : State) (r : GRef) (i : Nat) : State :=
  match s.ctx? r with
  | none => s
  | some c =>
    match c.g.posted[i]? with
    | none => s
    | some p =>
      if c.postBehind i p || p.sent.isSome then s
      else match p.piece with
        | none => s.dropPosted c i
        | some x =>
          if pteSystem x.pte then s.postRemote c i p
          else if p.stores.isEmpty then s.ackTacc c i p x else s.ackStore c i p x

/-- What a party of a team does for a saved team: it acts as the team's group, and what it leaves in the L1 of the core that the team
has left is written back (R321, R395; log 27). -/
def State.asResident (s : State) (r : TeamRef) (f : State → State) : State :=
  if (s.team? r).isSome then f s
  else match s.saved? r with
    | none => s
    | some x =>
      let u := f { s with teams := s.teams ++ [x.team] }
      match u.team? r with
      | none => u
      | some t =>
        let v := ({ u with teams := u.teams.filter fun y => y.ref != r } : State).releaseDev t.core
        (if t.pair then v.releaseDev (t.core + 1) else v).modSaved r fun _ => t

/-- A posted store on a page of this device is cut at word `w` of its line: the parts are written apart (R303). A store of the whole of a
lost line stays whole, so that the mark goes with all of it (R295). -/
def Posted.cut (p : Posted) (w : Nat) : List Posted :=
  let at_ (e : Piece × List Byte) : Nat := min e.2.length (4 * w - e.1.pa % 128)
  let lo := p.stores.filterMap fun e => if at_ e = 0 then none else some ({ e.1 with n := at_ e }, e.2.take (at_ e))
  let hi := p.stores.filterMap fun e => if at_ e = e.2.length then none
    else some (⟨e.1.va + BitVec.ofNat 56 (at_ e), e.1.pa + at_ e, e.1.n - at_ e, e.1.pte⟩, e.2.drop (at_ e))
  if lo.isEmpty || hi.isEmpty then [p] else [{ p with stores := lo, covers := false }, { p with stores := hi, covers := false }]

/-- See `Posted.cut`. -/
def State.cutStore (s : State) (r : GRef) (i w : Nat) : State :=
  s.modGroup r fun g =>
    match g.posted[i]? with
    | none => g
    | some p => if p.sent.isSome || p.stores.any fun e => pteSystem e.1.pte || (p.covers && s.isLost e.1.pa) then g
      else { g with posted := g.posted.take i ++ p.cut w ++ g.posted.drop (i + 1) }

def execStoreAcknowledged (g : GRef) (i : Nat) (s : State) : Host.Outcome State Fault Refusal := .next (s.asResident g.t fun s => s.acknowledge g i)

end Sys2Proof.Machine
end

