-- ==== Sys2Proof/Machine/Fathom.lean ====
section
/-! DEFINITION. Fathom (R359 to R372): the pages of a range, the start of timetable entries, protection and victims, and the
move of one page between the tiers. -/
namespace Sys2Proof.Machine

/-! ### The leaf of a page -/

/-- Physical address and contents of the leaf entry that a walk meets; a lost line of a table gives none (R8). -/
def State.leafFrom (s : State) (va : Nat) : Nat → Nat → Option (Nat × BitVec 256)
  | 0, _ => none
  | n + 1, base =>
    let lvl := 3 - n
    let ea := base + 32 * tableIndex va lvl
    let p := s.pteAt ea
    if s.isLost ea then none
    else match pteBits p 65 64 with
    | 1 => if tableBad p lvl then none else State.leafFrom s va n (pteFrame p)
    | 2 => if leafBad p lvl then none else some (ea, p)
    | _ => none

/-- The leaf of a region-00 address in a context. -/
def State.leaf (s : State) (ctx va : Nat) : Option (Nat × BitVec 256) :=
  let root := s.rootOf ctx false
  if root = 0 then none else s.leafFrom (va % 2 ^ 54) 4 root

/-- A page of a range: its virtual address, and its leaf if it is mapped. -/
structure Page where
  va : Nat
  pte : Option (BitVec 256)
deriving DecidableEq, Repr

/-- The pages that hold any byte of a range, ascending; an unmapped 64 KiB counts as one page (R364). -/
def State.pages (s : State) (ctx : Nat) : Nat → Nat → Nat → List Page
  | 0, _, _ => []
  | n + 1, va, stop =>
    if stop ≤ va then []
    else match s.leaf ctx va with
      | none => ⟨va, none⟩ :: State.pages s ctx n (va + 65536) stop
      | some (_, p) =>
        let size := 2 ^ ptePage p
        ⟨va / size * size, some p⟩ :: State.pages s ctx n (va / size * size + size) stop

/-- The pages of a timetable entry. -/
def State.entPages (s : State) (ctx : Nat) (e : TtEnt) : List Page := s.pages ctx (e.len / 65536) e.base (e.base + e.len)

/-- A started entry of the timetable skipped a page that begins in these bytes (R370). -/
def Timetable.skips (t : Timetable) (va size : Nat) : Bool :=
  t.ents.any fun e => e.skipped.any fun a => decide (va ≤ a) && decide (a < va + size)

/-- The page is resident (R366): mapped in the near tier; a page that a started entry skipped is not, for any check (R370). -/
def Timetable.resident (t : Timetable) (p : Page) : Bool :=
  match p.pte with
  | none => false
  | some x => pteTier x == 0 && !t.skips p.va (2 ^ ptePage x)

/-- An entry asks for residency at a marker. -/
def TtEnt.due_ (e : TtEnt) (k : Nat) : Bool := e.due == k && (e.op == .fetch || e.op == .retain)

/-- The page that holds an address. -/
def State.pageAt (s : State) (ctx va : Nat) : Page :=
  match s.leaf ctx va with
  | none => ⟨va, none⟩
  | some (_, p) => ⟨va / 2 ^ ptePage p * 2 ^ ptePage p, some p⟩

/-- The set M of a marker (R366): its pages that are not resident, each with the index of its entry, in ascending order. -/
def State.misses (s : State) (l : Launch) (k : Nat) : List (Nat × Nat) :=
  match l.tt with
  | none => []
  | some t => (t.ents.zipIdx).flatMap fun e =>
      if e.1.due_ k then ((s.entPages l.pkt.ctx e.1).filter fun p => !t.resident p).map fun p => (e.2, p.va) else []

/-- The pages of a set M that are still not resident. -/
def State.still (s : State) (l : Launch) (m : List (Nat × Nat)) : List (Nat × Nat) :=
  match l.tt with
  | none => []
  | some t => m.filter fun e => !t.resident (s.pageAt l.pkt.ctx e.2)

/-! ### Starting entries (R366, R369, R370) -/

/-- The number of entries of a timetable that have started. -/
def Timetable.count (t : Timetable) : Nat := (t.ents.filter fun e => e.started.isSome).length

/-- The page is skipped by an entry that starts (R370). -/
def Page.skipped (p : Page) : Bool := match p.pte with | none => true | some x => ptePin x

/-- The die whose Fathom handles a page of a launch; that of an unmapped page is the model's choice (log 31). -/
def Page.die (p : Page) (n : Nat) : Nat := match p.pte with | none => n % 4 | some x => pteFrame x / 2 ^ 46

/-- Fathom of a die looks at the pages of started entries in order: it reports a skipped page, once its buffer has room, and puts a
move for each page of a FETCH or EVICT entry behind the moves of the die. The move acts as it is reached (R370, R377, R384). -/
def State.fathomLook (s : State) (die : Nat) : Nat → State
  | 0 => s
  | f + 1 =>
    match (s.die die).starting with
    | [] => s
    | (n, i, va, pte) :: rest =>
      let take (s : State) : State := s.modDie die fun d => { d with starting := rest }
      if Page.skipped ⟨va, pte⟩ then
        (if s.srcRoom die .fathom then
          State.fathomLook (take (s.raiseDie die .fathom .tierSkip (info2 va i) 0 0 n)) die f
         else s)
      else
        let op := ((s.launch? n).bind (·.tt)).bind fun t => (t.ents[i]?).map (·.op)
        let ctx := match s.launch? n with | some l => l.pkt.ctx | none => 0
        let move (near : Bool) : State := s.modDie die fun d => { d with moves := d.moves ++ [⟨n, i, ctx, va, near⟩] }
        let s := match op with | some .fetch => move true | some .evict => move false | _ => s
        State.fathomLook (take s) die f

/-- See `State.fathomLook`: every page that it can look at. -/
def State.fathomScan (s : State) (die : Nat) : State := s.fathomLook die (s.die die).starting.length

/-- Start entry `i` of a launch: every page of its range is translated now (R370). -/
def State.startEntry (s : State) (n i : Nat) : State :=
  match s.launch? n with
  | none => s
  | some l =>
    match l.tt with
    | none => s
    | some t =>
      match t.ents[i]? with
      | none => s
      | some e =>
        if e.started.isSome then s
        else
          let ps := s.entPages l.pkt.ctx e
          let out := (ps.filter Page.skipped).map (·.va)
          let t' := { t with ents := modifyAt (fun e => { e with started := some t.count, skipped := out }) i t.ents }
          let s := s.setLaunch { l with tt := some t' }
          let s := ps.foldl (fun s p =>
            s.modDie (p.die n) fun d => { d with starting := d.starting ++ [(n, i, p.va, p.pte)] }) s
          (List.range 4).foldl (fun s d => s.fathomScan d) s

/-- Start the entries that `sel` selects, in ascending index. -/
def State.startEntries (s : State) (n : Nat) (sel : TtEnt → Bool) : State :=
  match s.launch? n with
  | none => s
  | some l =>
    match l.tt with
    | none => s
    | some t => (t.ents.zipIdx).foldl (fun s e => if sel e.1 then s.startEntry n e.2 else s) s

/-- Marker `k` is reached: protections due at it end, and the entries that it leads start (R366, R370). -/
def State.reachMarker (s : State) (n k : Nat) : State :=
  let s := s.modLaunch n fun l =>
    { l with
      reached := if l.reached.contains k then l.reached else l.reached ++ [k]
      tt := match l.tt with
        | none => none
        | some t => some { t with ents := t.ents.map fun e => if e.due = k then { e with ended := true } else e } }
  s.startEntries n fun e => e.lead == k && !e.start

/-! ### Protection and victims (R370, R371) -/

/-- An entry's range holds a byte of the page. -/
def TtEnt.covers (e : TtEnt) (va size : Nat) : Bool := decide (va < e.base + e.len) && decide (e.base < va + size)

/-- The last of the started RETAIN entries still in force and DROP entries over a page. -/
def Timetable.decider (t : Timetable) (va size : Nat) : Option TtEnt :=
  (t.ents.filter fun e => e.started.isSome && e.covers va size && (e.op == .drop || (e.op == .retain && !e.ended))).foldl
    (fun m e => match m with
      | none => some e
      | some b => if b.started.getD 0 ≤ e.started.getD 0 then some e else some b) none

/-- The page is protected. -/
def Timetable.protects (t : Timetable) (va size : Nat) : Bool :=
  match t.decider va size with | some e => e.op == .retain | none => false

/-- The started DROP entries, oldest first. -/
def Timetable.drops (t : Timetable) : List TtEnt :=
  (List.range t.ents.length).filterMap fun n =>
    t.ents.find? fun e => e.op == .drop && e.started == some n

/-- The victim of a launch on a die for a page size: its virtual address (R371). -/
def State.victim (s : State) (l : Launch) (die bits : Nat) : Option Nat :=
  match l.tt with
  | none => none
  | some t => t.drops.findSome? fun e =>
      (s.entPages l.pkt.ctx e).findSome? fun p =>
        match p.pte with
        | none => none
        | some x =>
          if pteTier x = 0 ∧ ptePin x = false ∧ ptePage x = bits ∧ pteFrame x / 2 ^ 46 = die ∧
              t.protects p.va (2 ^ bits) = false then some p.va else none

/-! ### The move of one page (R372) -/

/-- The map of an address by which `n` bytes at `old` go to `new`. -/
def rebase (old new n a : Nat) : Nat := if old ≤ a ∧ a < old + n then a - old + new else a

/-- Copy `n` keys at `old` of a sparse array to `new`, over what stood there. -/
def Store.copyTo {α : Type} [DecidableEq α] (d : α) (m : Store α) (old new n : Nat) : Store α :=
  let src := m.filter fun e => decide (old ≤ e.1) && decide (e.1 < old + n)
  let kept : Store α := m.filter fun e => !(decide (new ≤ e.1) && decide (e.1 < new + n))
  src.foldl (fun m e => Store.set d m (e.1 - old + new) e.2) kept

/-- Move the keys at `old` of a sparse array to `new`. -/
def Store.shift {α : Type} [DecidableEq α] (d : α) (m : Store α) (old new n : Nat) : Store α :=
  let src := m.filter fun e => decide (old ≤ e.1) && decide (e.1 < old + n)
  let kept : Store α := m.filter fun e => !(decide (old ≤ e.1) && decide (e.1 < old + n))
  src.foldl (fun m e => Store.set d m (e.1 - old + new) e.2) kept

/-- The number of 64 KiB frames of a page's twin backing; 0 without `TWIN`. -/
def backingFrames (p : BitVec 256) : Nat := if pteTwin p then ceilDiv (backingBytes p) 65536 else 0

/-- The first free frame of a tier and size. -/
def DieSt.frame (d : DieSt) (tier size : Nat) : Option Nat :=
  (d.frames.find? fun f => f.1 == tier && f.2.1 == size).map fun f => f.2.2

/-- The lowest run of `n` consecutive free 64 KiB frames of a tier. -/
def DieSt.run (d : DieSt) (tier n avoid : Nat) : Option Nat :=
  let free : List Nat := (d.frames.filter fun f => f.1 == tier && f.2.1 == 0 && f.2.2 != avoid).map fun f => f.2.2
  let ok : List Nat := free.filter fun a => (List.range n).all fun i => free.contains (a + 65536 * i)
  ok.foldl (fun (m : Option Nat) a => match m with | none => some a | some b => some (min a b)) none

/-- Size code of a page (R41). -/
def sizeCode (p : BitVec 256) : Nat := pteBits p 16 15

/-- Take frames off the free lists, and put others on. -/
def DieSt.exchange (d : DieSt) (gone : List (Nat × Nat × Nat)) (back : List (Nat × Nat × Nat)) : DieSt :=
  { d with frames := (d.frames.filter fun f => !gone.contains f) ++ back }

/-- A leaf with a new frame, tier and twin base. -/
def movedPte (p : BitVec 256) (frame tier tw : Nat) : BitVec 256 :=
  let x := p.toNat
  let x := x - bits x 127 90 * 2 ^ 90 + frame / 1024 * 2 ^ 90
  let x := x - bits x 22 22 * 2 ^ 22 + tier * 2 ^ 22
  let x := x - bits x 191 160 * 2 ^ 160 + tw / 65536 * 2 ^ 160
  BitVec.ofNat 256 x

/-- A piece after the move of its page. -/
def Piece.moved (x : Piece) (old new n : Nat) (pte : BitVec 256) : Piece :=
  if old ≤ x.pa ∧ x.pa < old + n then { x with pa := x.pa - old + new, pte := pte } else x

/-- The lanes of a pending word after a move. -/
def PendOp.moved (op : PendOp) (f : Piece → Piece) : PendOp :=
  let ls (l : List LaneAddr) : List LaneAddr := l.map fun a => { a with ps := a.ps.map f }
  match op with
  | .load l => .load (ls l)
  | .atomic l a b => .atomic (ls l) a b
  | .tcons l => .tcons (ls l)
  | .tcnt l => .tcnt (ls l)
  | o => o

/-- A posted write after a move. -/
def Posted.moved (p : Posted) (f : Piece → Piece) : Posted :=
  { p with
    stores := p.stores.map fun e => (f e.1, e.2)
    taccs := p.taccs.map fun e => (f e.1, e.2)
    atoms := p.atoms.map fun e => (f e.1, e.2)
    counts := p.counts.map fun e => (f e.1, e.2) }

/-- A group's outstanding accesses after a move. -/
def Group.moved (g : Group) (f : Piece → Piece) : Group :=
  { g with
    la := g.la.map fun e => { e with op := e.op.moved f }
    posted := g.posted.map fun p => p.moved f }

/-- A version after a move of a page and of its backing. -/
def Version.moved (v : Version) (f : Piece → Piece) (fp fb : Nat → Nat) (old new n : Nat) : Version :=
  { v with
    words := Store.shift none v.words old new n
    remote := v.remote.map fun e => (e.1, e.2.moved f)
    lines := v.lines.map fun l =>
      { l with line := fp l.line, hdr := fb l.hdr, acc0 := fb l.acc0, accs := l.accs.map fun e => (fb e.1, e.2) } }

/-- Move a page to frames that have been chosen (R372). -/
def State.movePage (s : State) (ctx va ea : Nat) (p : BitVec 256) (frame tw : Nat) : State :=
  let old := pteFrame p
  let n := 2 ^ ptePage p
  let otw := pteTwBase p
  let nb := if pteTwin p then backingBytes p else 0
  let oldTier := pteTier p
  let newTier := 1 - oldTier
  let q := movedPte p frame newTier tw
  -- L1 write-back
  let s := (List.range 128).foldl (fun s c => s.l1Drop c fun x => x.page == old) s
  -- copy
  let mem := Store.copyTo memDefault (Store.copyTo memDefault s.mem old frame n) otw tw nb
  let f (x : Piece) : Piece := x.moved old frame n q
  let tm (t : Team) : Team :=
    { t with
      groups := t.groups.map fun g => g.moved f
      conts := t.conts.map fun c => { c with g := c.g.moved f } }
  let tr (l : Launch) : Launch :=
    { l with
      saved := l.saved.map fun x => { x with team := tm x.team }
      track := Store.shift Track.none l.track (old / 4) (frame / 4) (n / 4)
      uncounted := Store.shift false l.uncounted (old / 4) (frame / 4) (n / 4)
      adds := Store.shift [] l.adds (addKey (old / 4) 0) (addKey (frame / 4) 0) (addKey (n / 4) 0) }
  let vm (v : Version) : Version := v.moved f (rebase old frame n) (rebase otw tw nb) old frame n
  let s : State :=
    { s with
      mem := mem
      lost := Store.copyTo false (Store.copyTo false s.lost old frame n) otw tw nb
      versions := s.versions.map vm
      launches := s.launches.map tr
      teams := s.teams.map tm }
  -- remap
  let s := { s with mem := s.mem.write ea (bytesOf 32 q.toNat) }
  let s := s.tlbDrop (tlbOfVa ctx (BitVec.ofNat 56 va))
  let size := sizeCode p
  let bf := backingFrames p
  let frames (tier base t : Nat) : List (Nat × Nat × Nat) :=
    (tier, size, base) :: (List.range bf).map fun i => (tier, 0, t + 65536 * i)
  s.modDie (old / 2 ^ 46) fun d => d.exchange (frames newTier frame tw) (frames oldTier old otw)

/-- Move the page of `va` to the other tier if frames are free. -/
def State.tryMove (s : State) (ctx va : Nat) : Option State :=
  match s.leaf ctx va with
  | none => none
  | some (ea, p) =>
    let d := s.die (pteFrame p / 2 ^ 46)
    let tier := 1 - pteTier p
    match d.frame tier (sizeCode p) with
    | none => none
    | some f =>
      if pteTwin p then
        match d.run tier (backingFrames p) f with
        | none => none
        | some tw => some (s.movePage ctx va ea p f tw)
      else some (s.movePage ctx va ea p f 0)

/-- Attempt one move: `none` where it must wait; a move that has nothing left to do is over. -/
def State.attemptMove (s : State) (m : Move) : Option State :=
  match s.leaf m.ctx m.va with
  | none => some s
  | some (_, p) =>
    if ptePin p ∨ (pteTier p = 0) = (m.toNear = true) then some s
    else match s.tryMove m.ctx m.va with
      | some s => some s
      | none =>
        if m.toNear then
          match s.launch? m.launch with
          | none => none
          | some l =>
            match s.victim l (pteFrame p / 2 ^ 46) (ptePage p) with
            | none => none
            | some v => (s.tryMove l.pkt.ctx v).bind fun s => s.tryMove m.ctx m.va
        else none

/-- Two moves name one page. -/
def State.samePage (s : State) (a b : Move) : Bool :=
  match s.leaf a.ctx a.va, s.leaf b.ctx b.va with
  | some x, some y => pteFrame x.2 == pteFrame y.2
  | _, _ => false

/-- Move `i` of a die is made, if it can be: one that waits for a frame holds back the later moves of its page (R370, R371; log 31). -/
def State.moveAt (s : State) (die i : Nat) : Option State :=
  let ms := (s.die die).moves
  ms[i]?.bind fun m => if (ms.take i).any (s.samePage m) then none else s.attemptMove m

/-- The first move of a die that can be made, with its place. -/
def State.firstMove (s : State) (die : Nat) : Option (Nat × State) :=
  (List.range (s.die die).moves.length).findSome? fun i => (s.moveAt die i).map fun s => (i, s)

/-- A die's Fathom makes its next move (R370 to R372; log 31), after the pages that it can look at now; while one of them waits for room
for its record, no page moves (R384). -/
def State.fathomMove (s : State) (die : Nat) : State :=
  let s := s.fathomScan die
  if !(s.die die).starting.isEmpty then s
  else match s.firstMove die with
  | none => s
  | some (i, s) => s.modDie die fun d => { d with moves := d.moves.eraseIdx i }

/-! ### Meanings -/

def execPageMove (die : Fin 4) (s : State) : Host.Outcome State Fault Refusal := .next (s.fathomMove die.val)

/-- A move that waits for a frame is tried again (R371). -/
def execVictimRetry (die : Fin 4) (s : State) : Host.Outcome State Fault Refusal := .next (s.fathomMove die.val)

end Sys2Proof.Machine
end

