-- ==== Sys2Proof/Machine/Mark.lean ====
section
/-! DEFINITION. Progress markers: MARK in ordinary and in ordered mode (R179, R350, R355, R366 to R368) and its timeouts. -/
namespace Sys2Proof.Machine

/-- Number of teams of a launch (R335). -/
def Launch.teamCount (l : Launch) : Nat := if l.pkt.tasks then l.pkt.gy else l.pkt.gx * l.pkt.gy * l.pkt.gz

/-- The declared count N(k); 0 for an undeclared marker (R363). -/
def Launch.markCount (l : Launch) (k : Nat) : Nat :=
  match l.tt with
  | none => 0
  | some t =>
    let n := t.counts.getD k 0
    if n = 0xFFFFFFFF then l.pkt.groups * l.teamCount else n

/-- Clocks of the STALL timeout (R362). -/
def Launch.stallClocks (l : Launch) : Nat := match l.tt with | some t => 2 ^ (16 + t.sto) | none => 0

def Launch.trapsMiss (l : Launch) : Bool := match l.tt with | some t => t.trap | none => false

/-- `INFO` of SCHEDULE-MISS (R447). -/
def missInfo (k ent : Nat) (ps : List Nat) (stalled : Bool) : W128 :=
  let low := match ps with | [] => 0 | p :: r => r.foldl min p
  BitVec.ofNat 128 (k % 2 ^ 16 + ent % 2 ^ 16 * 2 ^ 16 + ps.length % 2 ^ 32 * 2 ^ 32 + low % 2 ^ 56 * 2 ^ 64 +
    bnat stalled * 2 ^ 127)

/-- The pages of a set M that entry `i` misses. -/
def missOf (m : List (Nat × Nat)) (i : Nat) : List Nat := (m.filter fun e => e.1 == i).map (·.2)

/-- The class E trap of `check`: it names the first entry that misses pages (R367). -/
def missTrap (k : Nat) (m : List (Nat × Nat)) : Trap :=
  match m with
  | [] => trapE .scheduleMiss (BitVec.ofNat 128 k)
  | e :: _ => trapE .scheduleMiss (missInfo k e.1 (missOf m e.1) false)

/-- Record the misses of marker `k` that have no record yet (R366, R367). -/
def State.recordMisses (s : State) (c : Ctx) (k : Nat) (m : List (Nat × Nat)) : State :=
  (m.map (·.1)).eraseDups.foldl (fun s i =>
    let old := match (s.launch? c.l.num).bind (·.tt) with
      | some t => (match t.ents[i]? with | some x => x.missed | none => true)
      | none => true
    if old then s
    else (s.raise c.unit false .scheduleMiss (missInfo k i (missOf m i) (!c.l.trapsMiss))).modLaunch c.l.num fun l =>
      { l with tt := l.tt.map fun t => { t with ents := modifyAt (fun x => { x with missed := true }) i t.ents } }) s

/-- What `check` comes to (R366). -/
inductive Check where
  | returns
  | traps (s : State) (t : Trap)
  | waits (s : State) (w : Wait)

/-- `check(k)`: M is fixed and recorded as the check begins; it returns once every page of M is resident, and traps at once under
TRAP, or when the STALL timeout has run (R366, R367). -/
def State.check (s : State) (c : Ctx) (l : Launch) (k : Nat) (counted : Bool) : Check :=
  match c.g.wait with
  | .check _ since _ m =>
    let left := s.still l m
    if left.isEmpty then .returns
    else if since + l.stallClocks ≤ s.clock then .traps s (missTrap k left)
    else .waits s (.check k since counted m)
  | _ =>
    let m := s.misses l k
    if m.isEmpty then .returns
    else if l.trapsMiss then .traps (s.recordMisses c k m) (missTrap k m)
    else .waits (s.recordMisses c k m) (.check k s.clock counted m)

/-- One arrival at marker `k` in ordinary mode; the last one reaches the marker (R366). -/
def State.arriveMarker (s : State) (n k : Nat) : State :=
  match s.launch? n with
  | none => s
  | some l =>
    let a := Store.get 0 l.arrivals k + 1
    let s := s.setLaunch { l with arrivals := Store.set 0 l.arrivals k a }
    if a = l.markCount k ∧ l.reached.contains k = false then s.reachMarker n k else s

/-- MARK in ordinary mode. -/
def markPlain (k : Nat) (x : Ex) (s : State) : Eff :=
  if x.c.l.markCount k = 0 then .done s [] none
  else
    match s.check x.c x.c.l k false with
    | .returns => .done (s.arriveMarker x.c.l.num k) [] none
    | .traps s t => .trapAt s t
    | .waits s w => .waitIn s w

/-! ### Ordered mode -/

/-- A group has arrived at marker `k`, or has left its count. -/
def Launch.arrivedAt (l : Launch) (t g k : Nat) : Bool :=
  l.arrivedBy.any fun e => e.1.idx == t && !e.1.shadow && e.2.1 == g && (e.2.2 == k || e.2.2 == goneMarker)

/-- Every group of the launch has arrived at marker `k` or has left its count (R350, R353). -/
def Launch.allArrived (l : Launch) (k : Nat) : Bool :=
  (List.range l.teamCount).all fun t => (List.range l.pkt.groups).all fun g => l.arrivedAt t g k

/-- Count a group's arrival. -/
def State.arriveOrd (s : State) (r : TeamRef) (g k : Nat) : State :=
  s.modLaunch r.launch fun l => { l with arrivedBy := l.arrivedBy ++ [(r, g, k)] }

/-- Withdraw it: a trapped MARK has made no arrival. -/
def State.withdraw (s : State) (r : TeamRef) (g k : Nat) : State :=
  s.modLaunch r.launch fun l => { l with arrivedBy := l.arrivedBy.filter fun e => e != (r, g, k) }

/-- Clocks after which an ordered MARK traps (R350). -/
def markClocks : Nat := 2 ^ 26

/-- MARK-TIMEOUT. -/
def markTrap (k : Nat) : Trap := trapE .markTimeout (BitVec.ofNat 128 k)

/-- The group that makes the one `check` of marker `k`: the one whose arrival came last, of those that have not left the count
(R368). -/
def Launch.checker (l : Launch) (k : Nat) : Option (TeamRef × Nat) :=
  ((l.arrivedBy.filter fun e => e.2.2 == k && !l.arrivedBy.contains (e.1, e.2.1, goneMarker)).getLast?).map fun e => (e.1, e.2.1)

/-- A completed MARK of an ordered launch ends the group's epoch (R179); it acts on the L1 as an acquire (log 32). -/
def markDone (k : Nat) (x : Ex) (s : State) : Eff :=
  .done ((s.acquireDev x.c.core).modGroup x.c.ref fun g => { g with epoch := g.epoch + 1, lastMark := some k }) [] none

/-- An ordered MARK after its arrival: it completes, waits, makes the check, or times out. -/
def markAfter (k since : Nat) (x : Ex) (s : State) : Eff :=
  let g := x.c.g.idx
  let r := x.c.ref.t
  if r.shadow then
    -- a shadow counts no arrival, and goes on when the marker is reached (R355; log 28)
    (if x.c.l.reached.contains k then markDone k x s
     else if since + markClocks ≤ s.clock then .trap (markTrap k) else .wait (.mark k since))
  else match s.launch? r.launch with
    | none => .wait .engine
    | some l =>
      if l.reached.contains k then markDone k x s
      else if l.allArrived k && l.checker k == some (r, g) then
        match s.check x.c l k true with
        | .returns => markDone k x (s.reachMarker l.num k)
        | .traps s t => .trapAt (s.withdraw r g k) t
        | .waits s w => .waitIn s w
      else if since + markClocks ≤ s.clock then .trapAt (s.withdraw r g k) (markTrap k)
      else .waitIn s (.mark k since)

/-- A copy or write-back that the group issued has not ended. -/
def Ctx.copying (c : Ctx) : Bool :=
  c.t.wins.any fun w => (w.st == .filling || w.st == .writing) && w.issuer == c.party

/-- MARK in ordered mode. -/
def markOrdered (k : Nat) (x : Ex) (s : State) : Eff :=
  match x.c.g.wait with
  | .mark _ since => markAfter k since x s
  | .check _ since true _ => markAfter k since x s
  | .segment _ since => if since + markClocks ≤ s.clock then .trap (markTrap k) else .wait (.segment k since)
  | _ =>
    if (match x.c.g.lastMark with | some m => decide (k ≤ m) | none => false) then
      .trap (trapE .illegal (BitVec.ofNat 128 (wordLow x.word)))
    else if !x.c.quiet || x.c.copying then .wait .engine
    else
      let s := s.releaseDev x.c.core
      if x.c.t.seg.isSome then .waitIn s (.segment k s.clock)
      else markAfter k s.clock x (s.arriveOrd x.c.ref.t x.c.g.idx k)

def markBody (w : CodeW) (x : Ex) (s : State) : Eff :=
  if x.c.l.pkt.ord then markOrdered w.code.toNat x s else markPlain w.code.toNat x s

/-- A group that goes on waiting: none has stopped or parked it, and its team is not being saved. -/
def Ctx.awaits (c : Ctx) : Bool := (c.g.st == .run || c.g.st == .blocked) && !c.t.saving

/-- The STALL timeout of a group in `check` (R366). -/
def State.scheduleMiss (s : State) (r : GRef) : State :=
  match s.ctx? r with
  | none => s
  | some c =>
    match c.g.wait with
    | .check k since counted m =>
      let m := s.still c.l m
      if s.clock < since + c.l.stallClocks ∨ m.isEmpty = true ∨ c.awaits = false then s
      else (if counted then s.withdraw r.t c.g.idx k else s).takeTrap r (missTrap k m)
    | _ => s

/-- An ordered MARK that has waited 2^26 clocks traps (R350). -/
def State.markTimeout (s : State) (r : GRef) : State :=
  match s.ctx? r with
  | none => s
  | some c =>
    match c.g.wait with
    | .mark k since =>
      if s.clock < since + markClocks ∨ c.l.reached.contains k = true ∨ c.awaits = false then s
      else (s.withdraw r.t c.g.idx k).takeTrap r (markTrap k)
    | .segment k since => if s.clock < since + markClocks ∨ c.awaits = false then s else s.takeTrap r (markTrap k)
    | _ => s

/-! ### Meanings -/

def execMark (x : CodeW) (s : State) : Host.Outcome State Fault Refusal := runWord (.mark x) (markBody x) s

def execScheduleMissTimeout (g : GRef) (s : State) : Host.Outcome State Fault Refusal := .next (s.scheduleMiss g)

def execMarkTimeout (g : GRef) (s : State) : Host.Outcome State Fault Refusal := .next (s.markTimeout g)

end Sys2Proof.Machine
end

