-- ==== Sys2Proof/Machine/Shadow.lean ====
section
/-! DEFINITION. A versioned store that waits too long (R293), and the segments of a shadowed team: their digests, comparison, commit
and continuation (R294, R355, R356). -/
namespace Sys2Proof.Machine

/-! ### VERSION-FULL (R293) -/

/-- A version line that the write at a piece needs has not been had since 2^20 clocks. -/
def State.fullPiece (s : State) (v : Option Nat) (since : Nat) (ps : List Piece) : Option Piece :=
  if since + versionClocks ≤ s.clock then s.versionWaits v (ps.filter fun x => !pteSystem x.pte) else none

/-- The pieces for which an entry that is not delivered needs version lines: of a consuming read, those of the line that it waits at. -/
def LaEnt.versPieces (e : LaEnt) : List Piece :=
  if e.done then []
  else match e.op with
    | .load ls => (countedLines e ls).map (·.p)
    | .atomic ls _ _ => piecesOf ls
    | .tcons ls => (twLines ls).head?.toList.map (·.p)
    | _ => []

/-- The failure of a write that has waited too long for a version line. -/
def fullFail (x : Piece) : LateFail := ⟨.versionFull, x.va, BitVec.ofNat 128 (sliceNo x.pa), none⟩

/-- The first such write of a party: its task, or its segment, fails at the boundary before the next word. -/
def State.versionFull (s : State) (r : GRef) : State :=
  match s.ctx? r with
  | none => s
  | some c =>
    match c.g.posted.zipIdx.findSome? fun e => (s.fullPiece e.1.vers e.1.since e.1.piece.toList).map fun x => (e.2, e.1, x) with
    | some (i, p, x) => s.failPosted c i p (fullFail x)
    | none =>
      match c.g.la.zipIdx.findSome? fun e => (s.fullPiece e.1.vers e.1.since e.1.versPieces).map fun x => (e.2, e.1, x) with
      | some (i, e, x) => s.failEntry c i [] (maskOf (e.got.map (·.1))) (fullFail x) (byLane e.got)
      | none => s

/-! ### Digests (R294) -/

/-- The mask of the words of a line that a version holds. -/
def Version.lineMask (v : Version) (line : Nat) : W32 :=
  (List.range 32).foldl (fun m w => if (Store.get none v.words (line + 4 * w)).isSome then m ||| BitVec.ofNat 32 (2 ^ w) else m) 0

/-- The sum of the slices' digests of a version. -/
def State.digest (s : State) (n : Nat) : Nat :=
  match s.version? n with
  | none => 0
  | some v => (v.lineList.foldl (fun a l => a + lineItem l (s.homeRead (some n) l 128) (v.lineMask l)) 0) % 2 ^ 256

/-- A side's sum: the digests and the items of the primary-only words. -/
def State.sideSum (s : State) (g : Segment) : Nat := (s.digest g.vers + g.items) % 2 ^ 256

/-! ### The end of a segment -/

/-- A group stands at the end of its team's segment. -/
def Group.atSegEnd (g : Group) : Bool :=
  match g.st, g.wait with
  | .ended, _ => !g.outstanding
  | .run, .segment _ _ | .blocked, .segment _ _ => true
  | _, _ => false

/-- No unit of a team can change memory any more. -/
def Team.idle (t : Team) : Bool :=
  t.groups.all (fun g => g.st == .ended && !g.outstanding) && t.conts.isEmpty && t.sq.sst == .ended && t.mq.isEmpty &&
    !((List.range 32).any fun k => (t.win k).busy)

/-- A team has reached the end of its segment: every group waits at its MARK, or the team has ended. -/
def Team.segEnd (t : Team) : Bool :=
  t.groups.all Group.atSegEnd && ((t.groups.any fun g => g.st != .ended) || t.idle)

/-- A stop is a trap's own, not that of a HALT or of the segment's end. -/
def StopInfo.trapped (i : StopInfo) : Bool := !i.halted && !i.segment

/-- A trap has stopped a unit of the shadow: its segment ends unequal. -/
def Team.segDead (t : Team) : Bool :=
  let dead (i : Option StopInfo) : Bool := match i with | some i => i.trapped | none => false
  (t.groups.any fun g => g.st == .stopped && dead g.stop) || (t.conts.any fun c => c.g.st == .stopped && dead c.g.stop) ||
    (t.sq.sst == .stopped && dead t.sq.stop) || (List.range 32).any fun k => (t.win k).stop

/-- Primary and shadow have come to the same end of the segment: each group waits at the same MARK as its peer, or has ended as it has
(R355). -/
def Team.sameEnd (t u : Team) : Bool :=
  t.groups.all fun g => match u.grp? g.idx with
    | none => false
    | some h => match g.wait, h.wait with
      | .segment k _, .segment j _ => k == j
      | .segment _ _, _ | _, .segment _ _ => false
      | _, _ => g.st == h.st

/-- A group is STOPPED at its segment's end; one that a trap has stopped stays so. -/
def Group.segStop (c : Cause) (g : Group) : Group :=
  if g.live && g.st != .stopped then { g with st := .stopped, stop := some ⟨c, .stop, none, false, false, true⟩ } else g

/-- Primary and shadow stand STOPPED at the segment's end for a cause. -/
def State.segFail (s : State) (r : TeamRef) (c : Cause) : State :=
  let f (t : Team) : Team := { t with
    groups := t.groups.map (Group.segStop c)
    seg := t.seg.map fun g => { g with failed := some c, atEnd := true } }
  (s.modAny r f).modAny { r with shadow := true } f

/-- A group goes on from its segment's end: its MARK counts as arrived from now. -/
def Group.segGo (g : Group) : Group :=
  let g := { g with arms := [] }
  match g.wait with
  | .segment k since => { g with wait := .mark k since, st := .run, stop := none }
  | _ => g

/-- The team and its shadow go on: the next segment runs in new versions, or both teams may end; what is left of a stopped shadow
is discarded then. -/
def State.segNext (s : State) (r : TeamRef) : State :=
  match s.team? r with
  | none => s
  | some t =>
    let last := t.idle
    let marks := t.groups.filterMap fun g => match g.wait with | .segment k _ => some (g.idx, k) | _ => none
    let n := s.versNext
    let go (v : Nat) (t : Team) : Team := { t with
      groups := t.groups.map Group.segGo
      seg := if last then none else t.seg.map fun g => ⟨g.idx + 1, v, 0, false, none⟩ }
    let s := (s.modTeam r (go n)).modTeam { r with shadow := true } (go (n + 1))
    let s := if last then s.discardTeam { r with shadow := true } else
      { s with versNext := n + 2
               versions := s.versions ++ [⟨n, r.launch, r, none, [], [], [], []⟩,
                 ⟨n + 1, r.launch, { r with shadow := true }, none, [], [], [], []⟩] }
    marks.foldl (fun s e => s.arriveOrd r e.1 e.2) s

/-- A record of the command processor on a team (R356). -/
def State.segRecord (s : State) (l : Launch) (r : TeamRef) (c : Cause) (info : W128) (aux : W32) (vdisc : Bool) : State :=
  s.raiseDie l.die .cmdProc c info 0 r.idx l.num aux false vdisc

/-- A cause at the end of a team's segment: its record, and the step of the policy table for the team; one that is neither STOP nor
DISCARD is taken as STOP (R7, R356, R386, R387). -/
def State.segCause (s : State) (l : Launch) (r : TeamRef) (c : Cause) (info : W128) (aux : W32) (vdisc : Bool) : State :=
  let seq := ((s.die l.die).source .cmdProc).seq.toNat
  let s := s.segRecord l r c info aux vdisc
  if polAct (s.polEntry l.pkt.policy c) = .discard then
    (s.segRecord l r .policyStep (BitVec.ofNat 128 (c.code + PolAct.discard.code * 256 + 1 * 4096 + seq * 2 ^ 32)) 0 vdisc).discardLaunch
      l.num
  else s.segFail r c

/-- Commit the primary's version and drop the shadow's: both go on; a failed check drops both, a saturated sum holds them. What the
version holds for peers goes to them now (R316). -/
def State.segCommit (s : State) (l : Launch) (r : TeamRef) (p q : Segment) : State :=
  match s.commitVersion p.vers with
  | .failed c line => ((s.discardVersion p.vers).discardVersion q.vers).segCause l r c (BitVec.ofNat 128 line) 0 true
  | .done s none => ((s.discardVersion q.vers).sendCommitted r).segNext r
  | .done s (some line) => ((s.discardVersion q.vers).sendCommitted r).segCause l r .twinRange (BitVec.ofNat 128 line) 0 false

/-- SHADOW-MISMATCH of a segment whose sums are `a` and `b` (R356). -/
def State.mismatch (s : State) (l : Launch) (r : TeamRef) (a b : Nat) (p : Segment) : State :=
  s.segCause l r .shadowMismatch (info2 a b) (BitVec.ofNat 32 p.idx) false

/-- An uncorrectable error has met a line of a segment's version: the version is gone, a record of the line's slice names the team, and
the step of the policy table for the team follows; one that is neither STOP nor DISCARD is taken as STOP (R8, R295, R387). -/
def State.segLost (s : State) (l : Launch) (v : Version) (line : Nat) : State :=
  let r : TeamRef := { v.team with shadow := false }
  let k : DieSource := .slice (sliceOf line).2
  let d := (sliceOf line).1
  let seq := ((s.die d).source k).seq.toNat
  let s := (s.discardVersion v.id).raiseDie d k .dataLost (BitVec.ofNat 128 line) 0 r.idx l.num 0 v.team.shadow true
  if polAct (s.polEntry l.pkt.policy .dataLost) = .discard then
    (s.raiseDie d k .policyStep (BitVec.ofNat 128 (Cause.dataLost.code + PolAct.discard.code * 256 + 1 * 4096 + seq * 2 ^ 32))
      0 r.idx l.num 0 v.team.shadow true).discardLaunch l.num
  else s.segFail r .dataLost

/-- The segment of a shadowed team ends: the sums are compared (R356). -/
def State.segmentResolve (s : State) (r : TeamRef) : State :=
  match s.team? r, s.team? { r with shadow := true }, s.launch? r.launch with
  | some t, some u, some l =>
    match t.seg, u.seg with
    | some p, some q =>
      if r.shadow || p.failed.isSome || !t.segEnd || !((u.segEnd && t.sameEnd u) || u.segDead) || t.save.isSome ||
          !s.discardRoom l.num 2 then s
      else
        let a := s.sideSum p
        let b := s.sideSum q
        if a = b ∧ u.segDead = false then s.segCommit l r p q else s.mismatch l r a b p
    | _, _ => s
  | _, _, _ => s

/-- The host resumes a team held at its segment's end: a mismatch commits the primary's version, a saturated commit goes on; a
failed commit has nothing left to resume (R356). -/
def State.segResume (s : State) (r : TeamRef) : Option State :=
  match s.team? r, s.team? { r with shadow := true }, s.launch? r.launch with
  | some t, some u, some l =>
    match t.seg, u.seg with
    | some p, some q =>
      match p.failed with
      | some .shadowMismatch => some (s.segCommit l r p q)
      | some .twinRange => some (s.segNext r)
      | _ => none
    | _, _ => none
  | _, _, _ => none

/-! ### Meanings -/

def execVersionFull (g : GRef) (s : State) : Host.Outcome State Fault Refusal := .next (s.versionFull g)

def execSegmentResolve (t : TeamRef) (s : State) : Host.Outcome State Fault Refusal := .next (s.segmentResolve t)

end Sys2Proof.Machine
end

