-- ==== Sys2Proof/Machine/Launch.lean ====
section
/-! DEFINITION. The acceptance of a launch (R334, R335, R338, R346, R362 to R365) and the checks of the records it names. -/
namespace Sys2Proof.Machine

/-! ### The packet (R334) -/

/-- The fields of a packet of 512 bytes. -/
def parsePacket (b : List Byte) : Packet where
  wtab := (List.range 32).map fun k => numAt b (256 + 8 * k) 8
  pg := numAt b 119 1
  ps := numAt b 118 1
  policy := bits (natOf b) 943 940
  prio := bits (natOf b) 939 936
  tasks := bitAt (natOf b) 935
  ord := bitAt (natOf b) 934
  fuse := bitAt (natOf b) 933
  pair := bitAt (natOf b) 932
  queues := bits (natOf b) 931 927
  spans := bits (natOf b) 926 919
  pool := bits (natOf b) 918 907
  regs := bits (natOf b) 906 901
  groups := bits (natOf b) 900 894
  width := 16 * 2 ^ bits (natOf b) 893 892
  svb := bits (natOf b) 871 816
  ctx := bits (natOf b) 815 800
  sbm := BitVec.ofNat 16 (bits (natOf b) 799 784)
  scope := bits (natOf b) 783 768
  govr := bits (natOf b) 767 704
  seed := BitVec.ofNat 64 (bits (natOf b) 703 640)
  ttbl := bits (natOf b) 639 576
  affr := bits (natOf b) 575 512
  preds := (List.range 4).map fun k => numAt b (48 + 4 * k) 4
  preempt := bits (natOf b) 383 352
  gz := bits (natOf b) 351 320
  gy := bits (natOf b) 319 288
  gx := bits (natOf b) 287 256
  trec := bits (natOf b) 255 192
  arg := BitVec.ofNat 64 (bits (natOf b) 191 128)
  mentry := bits (natOf b) 127 64
  entry := bits (natOf b) 63 0

/-- A reserved bit or code of a packet. -/
def packetReserved (b : List Byte) : Bool :=
  let n := natOf b
  bits n 2047 960 != 0 || bits n 891 872 != 0 || bits n 893 892 == 3

/-- A field out of its range, or more than 1,024 lanes (R334, R335). -/
def Packet.outOfRange (p : Packet) : Bool :=
  p.groups == 0 || decide (64 < p.groups) || decide (1024 < p.groups * p.width) || p.regs == 0 || decide (32 < p.regs) ||
  decide (16 < p.queues) || decide (128 < p.spans) || p.preempt == 0 ||
  (if p.tasks then p.gy == 0 || decide (65536 < p.gy) || p.gz != 0 || p.trec % 64 != 0
   else p.gx == 0 || p.gy == 0 || p.gz == 0 || p.trec != 0)

/-- Groups of a team that run on the even core of its pair, or on the odd one (R341). -/
def Packet.groupsOn (p : Packet) (odd : Bool) : Nat :=
  if p.pair then ((List.range p.groups).filter fun g => (g / 4 % 2 == 1) == odd).length
  else if odd then 0 else p.groups

/-- Chunks of the pool part of a core (R448). -/
def Packet.poolOn (p : Packet) (odd : Bool) : Nat :=
  if p.pair then (if odd then p.pool / 2 else ceilDiv p.pool 2) else if odd then 0 else p.pool

/-- The pool is too small (R23, R448). -/
def Packet.poolBad (p : Packet) : Bool :=
  decide (p.pool < p.regs * p.groups) || decide (p.poolOn false < p.regs * p.groupsOn false) ||
  decide (p.poolOn true < p.regs * p.groupsOn true)

/-- The core partition is not one of R273. -/
def Packet.partBad (p : Packet) : Bool :=
  decide (144 < p.ps + p.pg) || decide (p.ps < 32) || decide (128 < p.ps) || decide (p.pg < 16)

/-- Teams of a launch. -/
def Packet.teams (p : Packet) : Nat := if p.tasks then p.gy else p.gx * p.gy * p.gz

/-! ### Reads of the command processor -/

/-- Read parts of a record at their homes in a context, in region 00 of this device. -/
def State.cpParts (s : State) (ctx : Nat) (q : Want) : List (Addr × Nat) → Option (List Byte)
  | [] => some []
  | (va, k) :: r =>
    if regionOf va ≠ 0 then none
    else match s.xlat none ctx va q with
      | .error _ => none
      | .ok p =>
        if pteSystem p || s.isLost (paOf p va) then none
        else (s.cpParts ctx q r).map fun b => s.mem.read (paOf p va) k ++ b

/-- Read a record aligned to `al`; `none` where it cannot be read. -/
def State.cpRead (s : State) (ctx a n al : Nat) : Option (List Byte) :=
  if a % al ≠ 0 ∨ 2 ^ 56 ≤ a then none else s.cpParts ctx (wantLoad false) (lineParts (n / 128 + 2) (BitVec.ofNat 56 a) n)

/-- A code address whose slot carries a `TGT` bit (R89). -/
def State.cpEntry (s : State) (ctx a : Nat) : Bool :=
  let va : Addr := BitVec.ofNat 56 a
  match slotOf va with
  | none => false
  | some k =>
    match s.cpParts ctx (wantFetch false) [(BitVec.ofNat 56 (a / 64 * 64), 64)] with
    | some l => bitAt (lineWord l) (5 + k)
    | none => false

/-! ### The records of a launch -/

/-- A governor record that passes R346. -/
def State.cpGovernor (s : State) (p : Packet) : Option GovRec := do
  let b ← s.cpRead p.ctx p.govr 32 32
  let n := natOf b
  let g : GovRec := ⟨bitAt n 163, bits n 162 155, bits n 154 149, BitVec.ofNat 8 (bits n 148 141), BitVec.ofNat 8 (bits n 140 133),
    Fin.ofNat 32 (bits n 132 128), bits n 127 96, bits n 95 64, BitVec.ofNat 56 (bits n 63 0)⟩
  if bits n 255 164 ≠ 0 ∨ 32 < g.chunks ∨ g.maxn = 0 ∨ g.time = 0 ∨ (g.en = true ∧ s.cpEntry p.ctx (bits n 63 0) = false) then none
  else some g

/-- An affinity record that passes R338: its selectors `S0` to `S4`, `D0`, `D1`. -/
def State.cpAffinity (s : State) (p : Packet) : Option (List Nat) := do
  let b ← s.cpRead p.ctx p.affr 8 8
  let n := natOf b
  let sel := (List.range 7).map fun i => bits n (7 * i + 6) (7 * i)
  if bits n 63 49 ≠ 0 ∨ sel.any (fun x => decide (97 < x)) = true then none else some sel

/-- The tensor parameter record of a descriptor is read and checked, then the checks that need both records (R212). -/
def State.cpTpr (s : State) (p : Packet) (d : WinDesc) : Option WinDesc := do
  let d ← if d.tprAddr = 0 then some d else do
    let b ← s.cpRead p.ctx d.tprAddr 32 32
    let t ← parseTpr b
    some { d with tpr := some t }
  if d.recordsOk && !d.outside (16384 * p.spans) then some d else none

/-- An initial window's descriptor with its records (R33, R212). -/
def State.cpWindow (s : State) (p : Packet) (a : Nat) : Option WinDesc := do
  let b ← s.cpRead p.ctx a 64 64
  let d ← winFields (natOf b)
  if d.layoutAddr = 0 then s.cpTpr p d
  else do
    let y ← s.cpRead p.ctx d.layoutAddr 32 32
    let l ← parseLayout y
    s.cpTpr p { d with layout := some l }

/-- The range of a window meets the range or scale area of an earlier one. -/
def winMeets (d : WinDesc) (os : List (Option WinDesc)) : Bool :=
  os.any fun o => match o with
    | some o => runsMeet d.spoff d.range o.spoff o.range || o.meetsScales d.spoff d.range
    | none => false

/-- The initial windows, none where a check of R212 fails. -/
def State.cpWindows (s : State) (p : Packet) : Option (List (Option WinDesc)) :=
  p.wtab.foldl (fun (acc : Option (List (Option WinDesc))) a =>
    match acc with
    | none => none
    | some os =>
      if a = 0 then some (os ++ [none])
      else match s.cpWindow p a with
        | none => none
        | some d => if winMeets d os then none else some (os ++ [some d])) (some [])

/-- An entry of a timetable of `nm` markers (R364, R365). -/
def parseTtEnt (counts : List Nat) (b : List Byte) : Option TtEnt :=
  let n := natOf b
  let op : TtOp := match bits n 1 0 with | 0 => .fetch | 1 => .evict | 2 => .retain | _ => .drop
  let e : TtEnt := ⟨bits n 255 192, bits n 191 128, bits n 127 112, bits n 111 96, bitAt n 2, op, none, false, false, []⟩
  let hold := op = .fetch ∨ op = .retain
  if bits n 95 3 ≠ 0 ∨ e.base % 65536 ≠ 0 ∨ e.len = 0 ∨ e.len % 65536 ≠ 0 ∨ 2 ^ 54 < e.base + e.len ∨ e.due < e.lead ∨
      counts.length ≤ e.due ∨ (¬ hold ∧ (e.lead ≠ e.due ∨ e.start = true)) ∨ (hold ∧ e.start = true ∧ e.lead ≠ 0) ∨
      (hold ∧ counts.getD e.due 0 = 0) then none
  else some e

/-- Some count of a timetable at `a` that can be read is not ALL: it breaks R350 in an ordered launch. -/
def State.countsBad (s : State) (p : Packet) (a : Nat) : Bool :=
  match s.cpRead p.ctx a 64 64 with
  | none => false
  | some b =>
    let nm := min (bits (natOf b) 31 15) 65536
    match s.cpRead p.ctx (bits (natOf b) 127 64) (4 * nm) 4 with
    | none => false
    | some cb => (List.range nm).any fun k => numAt cb (4 * k) 4 != 0xFFFFFFFF

/-- A timetable that passes R362 to R365. An `ENTS` that no entry uses is aligned too. -/
def State.cpTimetable (s : State) (p : Packet) (a : Nat) : Option Timetable := do
  let b ← s.cpRead p.ctx a 64 64
  let n := natOf b
  let nent := bits n 47 32
  let nm := bits n 31 15
  if bits n 511 192 ≠ 0 ∨ bits n 63 48 ≠ 0 ∨ n % 2 ^ 10 ≠ 0 ∨ nm = 0 ∨ 65536 < nm then none
  else do
    let cb ← s.cpRead p.ctx (bits n 127 64) (4 * nm) 4
    let counts := (List.range nm).map fun k => numAt cb (4 * k) 4
    let ea := bits n 191 128
    let eb ← if nent = 0 then (if ea % 32 ≠ 0 ∨ 2 ^ 56 ≤ ea then none else some []) else s.cpRead p.ctx (bits n 191 128) (32 * nent) 32
    let ents ← (List.range nent).foldr (fun i acc =>
      match acc, parseTtEnt counts (sub eb (32 * i) 32) with
      | some es, some e => some (e :: es)
      | _, _ => none) (some [])
    some ⟨counts, bits n 14 11, bitAt n 10, ents⟩

/-- The initial task records, in address order. -/
def State.cpTasks (s : State) (p : Packet) : Option (List (List Byte)) :=
  if !p.tasks then some []
  else (List.range p.gx).foldr (fun i acc =>
    match acc, s.cpRead p.ctx (p.trec + 64 * i) 64 64 with
    | some rs, some r => some (r :: rs)
    | _, _ => none) (some [])

/-! ### Acceptance (R335) -/

/-- The device has issued a launch number. -/
def State.issued (s : State) (n : Nat) : Bool := (s.launch? n).isSome || s.past.any fun e => e.1 == n

/-- What the checks of a launch read. -/
structure Accepted where
  wins : List (Option WinDesc)
  gov : Option GovRec
  aff : Option (List Nat)
  tt : Option Timetable
  tasks : List (List Byte)
deriving DecidableEq, Repr

/-- An optional record: read if its address is not 0. -/
def optRec {α : Type} (a : Nat) (r : Option α) : Option (Option α) := if a = 0 then some none else r.map some

/-- The records of a launch, or the number of the first check that fails: 1 to 11 in the order of R335, 12 affinity record, 13
timetable, 14 initial records, 15 no policy table installed (log 28). -/
def State.launchChecks (s : State) (b : List Byte) (p : Packet) : Except Nat Accepted :=
  if s.policy.isNone then .error 15
  else if packetReserved b then .error 1
  else if p.outOfRange then .error 2
  else if p.poolBad then .error 3
  else if p.partBad then .error 4
  else if p.fuse && !p.pair then .error 5
  else if p.ord && (p.tasks || (p.ttbl != 0 && s.countsBad p p.ttbl)) then .error 6
  else match s.cpWindows p with
    | none => .error 7
    | some ws =>
      match optRec p.govr (s.cpGovernor p) with
      | none => .error 8
      | some gov =>
        if p.svb % 64 ≠ 0 then .error 9
        else if 2 ^ 32 - 2 < p.teams * p.groups then .error 10
        else if p.preds.any fun n => n != 0 && !s.issued n then .error 11
        else match optRec p.affr (s.cpAffinity p), optRec p.ttbl (s.cpTimetable p p.ttbl), s.cpTasks p with
          | none, _, _ => .error 12
          | _, none, _ => .error 13
          | _, _, none => .error 14
          | some aff, some tt, some tasks => .ok ⟨ws, gov, aff, tt, tasks⟩

/-- The root cancel scope (R184). -/
def rootScope (n : Nat) : Scope := ⟨n, none, 0, false, false, 0, 0, 0, 0, 0, 0, 0, 0⟩

/-- An accepted launch. -/
def newLaunch (num die : Nat) (tag : W32) (p : Packet) (a : Accepted) : Launch where
  num := num
  die := die
  tag := tag
  pkt := p
  wins := a.wins
  gov := a.gov
  aff := a.aff
  tt := a.tt
  initial := a.tasks
  eligible := false
  eligibleAt := 0
  nextTeam := 0
  halted := false
  preempted := false
  buffer := 0
  saved := []
  discarded := false
  tasks := []
  places := []
  scopes := [rootScope p.scope]
  arrivals := []
  reached := []
  failedStores := 0
  failedPuts := 0
  track := []
  uncounted := []
  adds := []
  arrivedBy := []

/-- Check a packet that a command processor receives: the number of the first failing check, with its record, or the new launch's
number (R335). -/
def State.acceptLaunch (s : State) (die : Nat) (tag : W32) (b : List Byte) : Except Nat Nat × State :=
  let p := parsePacket b
  match s.launchChecks b p with
  | .error n => (.error n, s.raiseDie die .cmdProc .launchRefused (BitVec.ofNat 128 n) 0 0 0)
  | .ok a =>
    let num := 4 * s.launchNext + die
    let l := newLaunch num die tag p a
    let s := { s with launchNext := s.launchNext + 1, launches := s.launches ++ [l] }
    -- a predecessor that was discarded before is reported as one that is discarded while this launch waits
    let bad := p.preds.filter fun n => n != 0 && ((s.past.any fun e => e == (n, true)) ||
      (match s.launch? n with | some k => k.discarded | none => false))
    (.ok num, bad.foldl (fun s n => s.predDiscarded l n) s)

/-! ### Eligibility (R336, R369) -/

/-- A launch becomes eligible: its initial records are enqueued and its `START` entries start. -/
def State.makeEligible (s : State) (n : Nat) : State :=
  match s.launch? n with
  | none => s
  | some l =>
    let tasks : List Task := l.initial.zipIdx.map fun e =>
      ⟨BitVec.ofNat 56 (l.pkt.trec + 64 * e.2), e.1, taskPrio e.1, none, s.clock, false⟩
    (s.setLaunch { l with eligible := true, eligibleAt := s.clock, tasks := tasks }).startEntries n fun e => e.start

/-- A launch whose predecessors are all reported complete becomes eligible. -/
def State.launchEligible (s : State) (n : Nat) : State :=
  match s.launch? n with
  | none => s
  | some l =>
    if l.eligible || l.discarded || !(l.pkt.preds.all fun k => k == 0 || s.past.contains (k, false)) then s else s.makeEligible n

def execLaunchEligible (n : Nat) (s : State) : Host.Outcome State Fault Refusal := .next (s.launchEligible n)

end Sys2Proof.Machine
end

