-- ==== Sys2Proof/Machine/Place.lean ====
section
/-! DEFINITION. Placement of teams on cores (R337, R339 to R341, R354), the state of a new team (R14, R26, R32, R33, R223), and the
completion of a launch (R319, R357, R424). -/
namespace Sys2Proof.Machine

/-! ### Teams that have ended (R168) -/

/-- A team has ended with all its effects: nothing of it holds its core any more. -/
def Team.finished (t : Team) : Bool := t.idle && t.seg.isNone

/-- A team has groups on a core. -/
def Team.on (t : Team) (c : Nat) : Bool := t.core == c || (t.pair && t.core + 1 == c)

/-- The cores of a team. -/
def Team.cores (t : Team) : List Nat := if t.pair then [t.core, t.core + 1] else [t.core]

/-- The pool part of a team on a core. -/
def Team.partOn (t : Team) (c : Nat) : PoolPart := if t.core = c then t.pool else t.poolOdd

/-! ### Lost lines of spans (R8, R295) -/

/-- A team on core `c` with line `n` of the core's spans marked lost, where the line is one of its scratchpad or of its chunks: the
lines of the `ps` scratchpad spans come first, then those of the register spans (R273; log 28). -/
def Team.markSpan (t : Team) (c ps n : Nat) : Option Team :=
  if n < 128 * ps then
    (if t.core = c ∧ 128 * t.spanBase ≤ n ∧ n < 128 * (t.spanBase + t.spans) then
      some { t with spLost := Store.set false t.spLost (n - 128 * t.spanBase) true }
     else none)
  else
    let w := t.width
    let b := 128 * (n - 128 * ps)
    let ch := b / (32 * w)
    let p := t.partOn c
    if t.on c ∧ p.base ≤ ch ∧ ch < p.base + p.size then
      let key (k : Nat) : Nat :=
        let x := (b - 32 * w * ch) / 4 + k
        16 * ((if t.core = c then 0 else 4096) + ch) + 2 * (x / w) + x % w / 32
      some { t with rLost := (List.range 32).foldl (fun m k => Store.set false m (key k) true) t.rLost }
    else none

/-- The lines of a core's spans that a team on it holds as lost. -/
def Team.lostSpans (t : Team) (c ps : Nat) : List Nat :=
  (if t.core = c then t.spLost.map fun e => 128 * t.spanBase + e.1 else []) ++
  (t.rLost.filter fun e => (e.1 / 65536 == 0) == (t.core == c)).map fun e =>
    128 * ps + (32 * t.width * (e.1 / 16 % 4096) + 4 * t.width * (e.1 % 16 / 2) + 128 * (e.1 % 2)) / 128

/-- A team takes the marks of the span lines that it is placed on. -/
def State.takeMarks (s : State) (t : Team) : Team × State :=
  t.cores.foldl (fun a c => (s.core c).lostSp.foldl (fun a e =>
    match a.1.markSpan c (s.core c).ps e.1 with
    | some t => (t, a.2.modCore c fun k => { k with lostSp := Store.set false k.lostSp e.1 false })
    | none => a) a) (t, s)

/-- A team leaves its marks with the locations: a lost line stays lost until it is written whole. -/
def State.leaveMarks (s : State) (t : Team) : State :=
  if t.spLost.isEmpty && t.rLost.isEmpty then s
  else t.cores.foldl (fun s c => s.modCore c fun k =>
    { k with lostSp := (t.lostSpans c k.ps).foldl (fun m n => Store.set false m n true) k.lostSp }) s

/-- Teams that have ended leave their cores. -/
def State.sweep (s : State) : State :=
  { (s.teams.filter Team.finished).foldl (fun s t => s.leaveMarks t) s with teams := s.teams.filter fun t => !t.finished }

/-! ### What a core holds (R340) -/

/-- The teams resident on a core. -/
def State.residents (s : State) (c : Nat) : List Team := s.teams.filter fun t => t.on c

/-- The lowest start of a run of `n` units below `size` that meets none of the runs in use. -/
def freeRun (size n unit : Nat) (used : List (Nat × Nat)) : Option Nat :=
  if size < n * unit then none
  else ((List.range ((size - n * unit) / unit + 1)).find? fun b =>
    used.all fun u => !runsMeet (b * unit) (n * unit) u.1 u.2)

/-- Bytes of a chunk of a team (R23). -/
def chunkBytes (width : Nat) : Nat := 32 * width

/-- A core without residents may take another partition; in a fused pair both cores keep theirs until both are idle (R275, R290). -/
def State.idleCore (s : State) (c : Nat) : Bool :=
  (s.residents c).isEmpty && (!(s.core c).fused || (s.residents (if c % 2 = 0 then c + 1 else c - 1)).isEmpty)

/-- Groups of a team on partition `p` of a core. -/
def Team.onPart (t : Team) (c p : Nat) : Nat := (t.groups.filter fun g => t.coreOf g.idx == c && partOf g.idx == p).length

/-- Where a team would lie on a core: its spans' start, if the core is the one that holds its scratchpad, and its chunks' start. -/
structure Fit where
  span : Nat
  chunk : Nat
deriving DecidableEq, Repr

/-- Groups of a packet's team on a partition of a core of its pair. -/
def Packet.onPart (p : Packet) (odd : Bool) (q : Nat) : Nat :=
  ((List.range p.groups).filter fun g => g % 4 == q && (!p.pair || (g / 4 % 2 == 1) == odd)).length

/-- Whether a core fits a team, or its part of a paired team (R340, R448). -/
def State.fits (s : State) (p : Packet) (c : Nat) (odd : Bool) : Option Fit :=
  let rs := s.residents c
  let k := s.core c
  if 4 ≤ rs.length then none
  else if !s.idleCore c && !(k.ps == p.ps && k.pg == p.pg) then none
  else if p.fuse && !rs.isEmpty then none
  else if (List.range 4).any fun q => decide (32 < (rs.foldl (fun a t => a + t.onPart c q) 0) + p.onPart odd q) then none
  else
    let chunk := freeRun (16384 * p.pg) (p.poolOn odd) (chunkBytes p.width)
      (rs.map fun t => ((t.partOn c).base * chunkBytes t.width, (t.partOn c).size * chunkBytes t.width))
    if odd then chunk.map fun b => ⟨0, b⟩
    else if 16 < (rs.foldl (fun a t => a + (if t.core = c then t.queues.length else 0)) 0) + p.queues then none
    else
      match freeRun p.ps p.spans 1 ((rs.filter fun t => t.core == c).map fun t => (t.spanBase, t.spans)), chunk with
      | some a, some b => some ⟨a, b⟩
      | _, _ => none

/-- Where a team goes: its even core and its runs. -/
structure Spot where
  core : Nat
  span : Nat
  chunk : Nat
  chunkOdd : Nat
deriving DecidableEq, Repr

/-- A core, or the pair that starts at it, fits a team. -/
def State.spotAt (s : State) (p : Packet) (c : Nat) : Option Spot :=
  match s.fits p c false with
  | none => none
  | some f =>
    if p.pair then (s.fits p (c + 1) true).map fun g => ⟨c, f.span, f.chunk, g.chunk⟩
    else some ⟨c, f.span, f.chunk, 0⟩

/-- Numbers below `n` by increasing distance from `a`, the lower first on a tie. -/
def nearFirst (n a : Nat) : List Nat :=
  (List.range n).flatMap fun k =>
    if k = 0 then [a] else (if k ≤ a then [a - k] else []) ++ (if a + k < n then [a + k] else [])

/-- The preferred die and slice of a team (R339). -/
def Launch.prefer (l : Launch) (t x y z : Nat) : Nat × Nat :=
  match l.aff with
  | some sel => affPlace sel (z * 2 ^ 64 + y * 2 ^ 32 + x)
  | none => (t % 4, t / 4 % 32)

/-- The cores, or even cores of pairs, in the order of R340 from die `d` and slice `sl`. -/
def placeOrder (pair : Bool) (d sl : Nat) : List Nat :=
  [d, d ^^^ 1, d ^^^ 2, d ^^^ 3].flatMap fun e =>
    if pair then (nearFirst 16 (sl / 2)).map fun q => 32 * e + 2 * q else (nearFirst 32 sl).map fun c => 32 * e + c

/-- The first core that fits, the cores of `avoid` left out. -/
def State.findSpot (s : State) (p : Packet) (d sl : Nat) (avoid : List Nat) : Option Spot :=
  ((placeOrder p.pair d sl).filter fun c => !avoid.contains c).findSome? fun c => s.spotAt p c

/-! ### A new team -/

/-- Group `g` of a new team: its chunks are the next N of its core's part (R23), and it is ready from now (R343). -/
def newGroup (l : Launch) (g base k clock : Nat) : Group where
  idx := g
  width := l.pkt.width
  pc := BitVec.ofNat 56 l.pkt.entry
  exec := laneMask l.pkt.width
  pcm := 0
  role := 0
  st := .run
  priv := false
  sticky := 0
  v := []
  chunks := (List.range l.pkt.regs).map fun i => base + l.pkt.regs * k + i
  s := (Vector.replicate 64 (0 : W64)).setIfInBounds 0 l.pkt.arg
  p := Vector.replicate 7 0
  l := Vector.replicate 3 none
  j := Vector.replicate 8 Token.free
  pend := []
  arv := 0
  aph := 0
  seed := 0
  ctr := 0
  la := []
  replay := none
  epc := 0
  ecode := 0
  epoch := 0
  lastMark := none
  task := none
  posted := []
  wait := .none
  entry := true
  retries := none
  stop := none
  kill := none
  arms := []
  arrSeq := Vector.replicate 16 0
  last := 0
  vc := []
  puts := 0
  owedHold := false
  tokVc := []
  owing := none
  readyAt := clock
  parted := []

/-- The pool part of a new team on a core: the chunks that no group takes are free. -/
def newPart (p : Packet) (odd : Bool) (base : Nat) : PoolPart :=
  let used := p.regs * p.groupsOn odd
  ⟨base, p.poolOn odd, (List.range (p.poolOn odd - used)).map fun i => base + used + i, []⟩

/-- An empty latch set. -/
def LatchSet.empty : LatchSet := ⟨false, .e4m3, .dense, 0, 0, 0, none, []⟩

/-- An initial window: bound and ABSENT (R33). R128 gives CLAMP and QSAT of a conversion to the group whose WBIND or WARM armed the
window; an initial window has none, and group 0 receives them, which is the model's choice (log 46). -/
def initialWindow (a : Nat) (d : Option WinDesc) : Window :=
  match d with
  | none => Window.unbound
  | some d => { Window.unbound with st := .absent, desc := some d, daddr := BitVec.ofNat 64 a }

/-- A team as it becomes resident for the first time. -/
def newTeam (l : Launch) (idx : Nat) (shadow : Bool) (q : Spot) (clock : Nat) : Team :=
  let p := l.pkt
  let x := if p.tasks then idx else idx % p.gx
  let y := if p.tasks then 0 else idx / p.gx % p.gy
  let z := if p.tasks then 0 else idx / (p.gx * p.gy)
  let odd (g : Nat) : Bool := p.pair && g / 4 % 2 == 1
  let place (g : Nat) : Nat := ((List.range g).filter fun h => odd h == odd g).length
  { ref := ⟨l.num, idx, shadow⟩
    core := q.core, pair := p.pair, x := x, y := y, z := z, width := p.width
    groups := (List.range p.groups).map fun g => newGroup l g (if odd g then q.chunkOdd else q.chunk) (place g) clock
    conts := [], contNext := 0
    queues := List.replicate p.queues []
    ctrs := Vector.replicate 32 ⟨0, [], []⟩
    nb := Vector.replicate 16 ⟨p.groups, 0, false, 0, [], []⟩
    pool := newPart p false q.chunk
    poolOdd := newPart p true q.chunkOdd
    claims := []
    spans := p.spans, spanBase := q.span
    spad := [], full := [], fullVc := [], newFull := [], spLost := [], rLost := [], filled := []
    wins := Vector.ofFn fun k : Fin 32 => initialWindow (p.wtab.getD k.val 0) (l.wins.getD k.val none)
    code := Vector.replicate 256 0, loaded := false
    acc := [], owner := Vector.replicate 8 64, tileVc := Vector.replicate 8 []
    dwin := Vector.replicate 2 DrainWin.none
    sets := Vector.replicate 4 LatchSet.empty
    sq := {
      spc := BitVec.ofNat 56 p.mentry
      sst := if p.mentry = 0 then .ended else .run
      sbm := if p.mentry = 0 then 0 else p.sbm
      sarv := 0, saph := 0, m := Vector.replicate 16 0, entry := true, arrived := false, stop := none, retries := none
      blocked := .none, ending := false, vc := [] }
    mq := [], scope := p.scope, gov := ⟨0, false, 0⟩, prq := false, save := none, seg := none, cancelled := false, late := []
    owedArea := none }

/-! ### Making a core ready (R275, R290) -/

/-- A core that is idle takes a partition and a state of fusion; its L1 writes back and keeps nothing where either changes. -/
def State.prepareCore (s : State) (p : Packet) (c : Nat) : State :=
  let k := s.core c
  let s := if s.idleCore c && !(k.ps == p.ps && k.pg == p.pg) then
      (s.l1Drop c fun _ => true).modCore c fun k => { k with ps := p.ps, pg := p.pg }
    else s
  let even := c / 2 * 2
  if (s.residents even).isEmpty && (s.residents (even + 1)).isEmpty && (s.core c).fused != p.fuse then
    let s := (s.l1Drop even fun _ => true).l1Drop (even + 1) fun _ => true
    let f (k : CoreSt) : CoreSt := { k with fused := p.fuse }
    (s.modCore even f).modCore (even + 1) f
  else s

/-- A team becomes resident at a spot, with the marks of the lost lines there. What the host and the launch's predecessors wrote happens before its accesses: its cores act as
at an acquire (R319, R332). -/
def State.addTeam (s : State) (p : Packet) (t : Team) : State :=
  let s := t.cores.foldl (fun s c => ((s.prepareCore p c).acquireDev c).modCore c fun k => { k with took := k.took ++ [t.ref] }) s
  let (t, s) := s.takeMarks t
  { s with teams := s.teams ++ [t] }

/-! ### Placing a launch's next team (R337, R354) -/

/-- Team `t` of an ordered launch is shadowed (R354). -/
def Launch.shadowed (l : Launch) (t : Nat) : Bool := l.pkt.ord && mix l.pkt.seed.toNat t % 1024 == 0

/-- The segment that starts at launch. -/
def firstSegment (v : Nat) : Segment := ⟨0, v, 0, false, none⟩

/-- The cores of a spot. -/
def Spot.cores (q : Spot) (pair : Bool) : List Nat := if pair then [q.core, q.core + 1] else [q.core]

/-- The state as the offers of this clock see it: without the teams that the cores have taken in this clock (R337). -/
def State.untaken (s : State) : State :=
  { s with teams := s.teams.filter fun t => !(s.core t.core).took.contains t.ref }

/-- The core to which a team is offered; an offer to a core that has taken another in this clock is lost, and is repeated in the
next (R337). -/
def State.offerSpot (s : State) (p : Packet) (d sl : Nat) (avoid : List Nat) : Option Spot :=
  (s.untaken.findSpot p d sl avoid).filter fun q => (q.cores p.pair).all fun c => (s.core c).took.isEmpty

/-- Place team `idx` of a launch, with its shadow if it has one. A grid launch whose root scope is cancelled kills its groups as they
are placed (R185). -/
def State.placeTeam (s : State) (l : Launch) (idx : Nat) : Option State :=
  let p := l.pkt
  let t0 := newTeam l idx false ⟨0, 0, 0, 0⟩ s.clock
  let (d, sl) := l.prefer idx t0.x t0.y t0.z
  match s.offerSpot p d sl [] with
  | none => none
  | some q =>
    let dead := if p.tasks then none else l.dead p.scope
    let kill (t : Team) : Team := match dead with
      | some y => ({ t with groups := t.groups.map fun g : Group => g.killBy s.clock y.num false } : Team).cancelTeam p.ord
      | none => t
    let t := kill (newTeam l idx false q s.clock)
    if !l.shadowed idx then some (s.addTeam p t)
    else
      let s1 := s.addTeam p { t with seg := some (firstSegment s.versNext) }
      (s1.offerSpot p (d ^^^ 1) sl (q.cores p.pair)).map fun u =>
        let s2 := s1.addTeam p { kill (newTeam l idx true u s.clock) with seg := some (firstSegment (s.versNext + 1)) }
        { s2 with
          versNext := s.versNext + 2
          versions := s2.versions ++ [⟨s.versNext, l.num, ⟨l.num, idx, false⟩, none, [], [], [], []⟩,
            ⟨s.versNext + 1, l.num, ⟨l.num, idx, true⟩, none, [], [], [], []⟩] }

/-- A launch that has teams to place; it is considered from the clock after the one in which it became eligible (R358). -/
def Launch.offers (l : Launch) (die clock : Nat) : Bool :=
  l.die == die && l.eligible && decide (l.eligibleAt < clock) && !l.halted && !l.preempted && !l.discarded && decide (l.nextTeam < l.pkt.teams)

/-! ### Completion (R319, R424) -/

/-- A page of a started entry of the launch that Fathom has still to look at, or a move of one that it can make: a move in progress
(R369; log 31). -/
def State.moving (s : State) (n : Nat) : Bool :=
  (List.range 4).any fun d => ((s.die d).starting.any fun e => e.1 == n) ||
    (s.die d).moves.zipIdx.any fun m => m.1.launch == n && (s.moveAt d m.2).isSome

/-- Everything the launch did has been performed, its slots are FREE, and no move of it is in progress. Of a discarded launch, what its
saved teams posted is performed too (R185, R390). -/
def State.finished (s : State) (l : Launch) : Bool :=
  (l.discarded || (l.eligible && l.nextTeam == l.pkt.teams && !l.halted)) &&
  !(s.teams.any fun t => t.ref.launch == l.num) && (l.saved.isEmpty || (l.discarded && l.saved.all fun x => x.team.unposted)) && (s.slotsOf l.num).isEmpty &&
  !(s.requests.any fun r => r.launch == l.num) && !(s.flying.any fun f => f.launch == l.num) &&
  !(l.scopes.any fun x => x.acking != 0) && !s.moving l.num

/-- The body of COMPLETE. -/
def completeBody (l : Launch) : List Byte :=
  bytesOf 4 l.num ++ bytesOf 4 (bnat l.discarded) ++ bytesOf 4 l.failedStores ++ bytesOf 4 l.failedPuts

/-- Drop the translations of a context that `sel` selects by virtual address. -/
def State.dropPool (s : State) (ctx lo n : Nat) : State :=
  s.tlbDrop fun e => e.ctx == ctx && !e.sup && runsMeet (e.vpn * 2 ^ e.bits) (2 ^ e.bits) lo n

/-- Send a message to the host: it carries the next sequence number (R411). -/
def State.tellHost (s : State) (opc : Nat) (tag : W32) (die : Nat) (dev rpl : Bool) (stat : Nat) (body : List Byte) (dest : W128) : State :=
  { s with
    seqNext := s.seqNext + 1
    toHost := s.toHost ++ [⟨opc, tag, die, dev, rpl, stat, body, dest, s.seqNext, 0⟩] }

/-- The host is told that a launch is over; its entries not yet started, and its moves that wait for a frame, are dropped (R369). -/
def State.complete (s : State) (l : Launch) : State :=
  let s := (List.range 128).foldl (fun s c => s.releaseDev c) s
  let s := (s.versions.filter fun v => v.launch == l.num).foldl (fun s v => s.discardVersion v.id) s
  let s := if l.pkt.tasks then s.dropPool l.pkt.ctx (poolVa + l.num % 64 * poolBytes) poolBytes else s
  let s : State :=
    { s with
      launches := s.launches.filter fun k => k.num != l.num
      past := s.past ++ [(l.num, l.discarded)]
      dies := s.dies.map fun d => { d with moves := d.moves.filter fun m => m.launch != l.num } }
  s.tellHost 0x80 l.tag l.die true false 0 (completeBody l) (s.host.getD 0)

/-- A launch is reported complete once it has finished. -/
def State.launchCompletion (s : State) (n : Nat) : State :=
  let s := s.sweep
  match s.launch? n with
  | none => s
  | some l => if s.finished l then s.complete l else s

/-! ### Meanings -/

def execLaunchCompletion (n : Nat) (s : State) : Host.Outcome State Fault Refusal := .next (s.launchCompletion n)

end Sys2Proof.Machine
end

