-- ==== Sys2Proof/Machine/Integer.lean ====
section
/-! DEFINITION. The integer, logic and bit instructions (R133 to R141), vector and uniform forms. -/
namespace Sys2Proof.Machine

/-- The low n bits of a source (R134). -/
def Ex.ival (x : Ex) (t : ITy) (o : Opnd) (imm : W32) (i : Nat) : Nat := x.val o t.bits t.signed imm i

/-- An n-bit pattern as the number its type reads: signed for `.i` (R134). -/
def intNum (t : ITy) (y : Nat) : Int := if t.signed then sext y t.bits else ((y % 2 ^ t.bits : Nat) : Int)

/-- An exact result wrapped modulo 2^n (R137). -/
def intWrap (t : ITy) (r : Int) : Nat := wrap r t.bits

/-- An exact result clamped to the range of its type (R137). -/
def intClamp (t : ITy) (r : Int) : Nat :=
  let lo : Int := if t.signed then -((2 ^ (t.bits - 1) : Nat) : Int) else 0
  let hi : Int := if t.signed then ((2 ^ (t.bits - 1) : Nat) : Int) - 1 else ((2 ^ t.bits : Nat) : Int) - 1
  wrap (if r < lo then lo else if hi < r then hi else r) t.bits

/-- Wrapped, or clamped under `.sat`. -/
def intFit (t : ITy) (sat : Bool) (r : Int) : Nat := if sat then intClamp t r else intWrap t r

/-- An n-bit result extended to its whole destination (R134). -/
def intOut (uni : Bool) (t : ITy) (y : Nat) : Nat :=
  if t.signed then wrap (sext y t.bits) (if uni then 64 else max 32 t.bits) else y % 2 ^ t.bits

/-- Write the results of an integer word: in each active lane, or once (R135). -/
def intBody (uni : Bool) (t : ITy) (d : Opnd) (f : Ex → Nat → Nat) (x : Ex) (s : State) : Eff :=
  if uni then Eff.writes s (uniWr d (BitVec.ofNat 64 (intOut true t (f x (lowLane x.c.g.exec)))))
  else Eff.writes s (laneWrs d (regsOf t.bits) (x.lanes.map fun i => (i, intOut false t (f x i))))

/-- A one-source integer word. -/
def int1Body (w : Int1) (f : Nat → Nat) : Ex → State → Eff :=
  intBody w.uni w.ty w.d fun x i => f (x.ival w.ty w.a w.imm i)

/-- A two-source integer word. -/
def int2Body (w : Int2) (f : Nat → Nat → Nat) : Ex → State → Eff :=
  intBody w.uni w.ty w.d fun x i => f (x.ival w.ty w.a w.imm i) (x.ival w.ty w.b w.imm i)

/-- IADD (R138). -/
def iaddVal (t : ITy) (sat : Bool) (a b : Nat) : Nat := intFit t sat (intNum t a + intNum t b)
/-- ISUB (R138). -/
def isubVal (t : ITy) (sat : Bool) (a b : Nat) : Nat := intFit t sat (intNum t a - intNum t b)
/-- IMUL: the low n bits of the product (R138). -/
def imulVal (t : ITy) (a b : Nat) : Nat := intWrap t (intNum t a * intNum t b)
/-- IMULH: bits 2n−1:n of the exact product (R138). -/
def imulhVal (t : ITy) (a b : Nat) : Nat := intWrap t (intNum t a * intNum t b / ((2 ^ t.bits : Nat) : Int))
/-- IMAD (R138). -/
def imadVal (t : ITy) (sat : Bool) (a b c : Nat) : Nat := intFit t sat (intNum t a * intNum t b + intNum t c)
/-- IMIN and IMAX (R138). -/
def iminVal (t : ITy) (a b : Nat) : Nat := if intNum t b < intNum t a then b else a
def imaxVal (t : ITy) (a b : Nat) : Nat := if intNum t a < intNum t b then b else a
/-- IABS (R138). -/
def iabsVal (t : ITy) (sat : Bool) (a : Nat) : Nat := intFit t sat ((intNum t a).natAbs : Int)
/-- SHL, SHR and SAR by k = b modulo 256 (R138). -/
def shlVal (t : ITy) (a b : Nat) : Nat := if t.bits ≤ b % 256 then 0 else a * 2 ^ (b % 256) % 2 ^ t.bits
def shrVal (t : ITy) (a b : Nat) : Nat := if t.bits ≤ b % 256 then 0 else a / 2 ^ (b % 256)
def sarVal (t : ITy) (a b : Nat) : Nat := wrap (sext a t.bits / ((2 ^ min (b % 256) t.bits : Nat) : Int)) t.bits

/-- Field extract (R139). -/
def bfxVal (t : ITy) (a b : Nat) : Nat :=
  let start := b % 256
  let len := min (b / 256 % 256) t.bits
  if len = 0 then 0
  else
    let f := wrap (intNum t a / ((2 ^ start : Nat) : Int)) len
    if t.signed then wrap (sext f len) t.bits else f

/-- Field insert (R139): bits of `a` into `b` under the descriptor `c`. -/
def bfiVal (t : ITy) (a b c : Nat) : Nat :=
  let start := c % 256
  let len := min (c / 256 % 256) t.bits
  (List.range len).foldl (fun r k =>
    if start + k < t.bits then
      (if bitAt r (start + k) then r - 2 ^ (start + k) else r) + bnat (bitAt a k) * 2 ^ (start + k)
    else r) b

/-- POPC and CLZ (R138). -/
def popcVal (t : ITy) (a : Nat) : Nat := popcount a t.bits
def clzVal (t : ITy) (a : Nat) : Nat := t.bits - bitLen (a % 2 ^ t.bits)

/-- A comparison of ICMP (R140). -/
def icmpVal (c : ICond) (t : ITy) (a b : Nat) : Bool :=
  let x := intNum t a
  let y := intNum t b
  match c with
  | .eq => x == y
  | .ne => x != y
  | .lt => decide (x < y)
  | .le => decide (x ≤ y)
  | .gt => decide (y < x)
  | .ge => decide (y ≤ x)

def execIadd (x : Int2) (s : State) : Host.Outcome State Fault Refusal :=
  runWord (.iadd x) (int2Body x (iaddVal x.ty x.sat)) s

def execIsub (x : Int2) (s : State) : Host.Outcome State Fault Refusal :=
  runWord (.isub x) (int2Body x (isubVal x.ty x.sat)) s

def execImul (x : Int2) (s : State) : Host.Outcome State Fault Refusal :=
  runWord (.imul x) (int2Body x (imulVal x.ty)) s

def execImulh (x : Int2) (s : State) : Host.Outcome State Fault Refusal :=
  runWord (.imulh x) (int2Body x (imulhVal x.ty)) s

def execImad (x : Int3) (s : State) : Host.Outcome State Fault Refusal :=
  runWord (.imad x) (intBody x.uni x.ty x.d fun e i =>
    imadVal x.ty x.sat (e.ival x.ty x.a x.imm i) (e.ival x.ty x.b x.imm i) (e.ival x.ty x.c x.imm i)) s

def execImin (x : Int2) (s : State) : Host.Outcome State Fault Refusal :=
  runWord (.imin x) (int2Body x (iminVal x.ty)) s

def execImax (x : Int2) (s : State) : Host.Outcome State Fault Refusal :=
  runWord (.imax x) (int2Body x (imaxVal x.ty)) s

def execIabs (x : Int1) (s : State) : Host.Outcome State Fault Refusal :=
  runWord (.iabs x) (int1Body x (iabsVal x.ty x.sat)) s

def execAnd (x : Int2) (s : State) : Host.Outcome State Fault Refusal :=
  runWord (.and x) (int2Body x fun a b => a &&& b) s

def execOr (x : Int2) (s : State) : Host.Outcome State Fault Refusal :=
  runWord (.or x) (int2Body x fun a b => a ||| b) s

def execXor (x : Int2) (s : State) : Host.Outcome State Fault Refusal :=
  runWord (.xor x) (int2Body x fun a b => a ^^^ b) s

def execShl (x : Int2) (s : State) : Host.Outcome State Fault Refusal :=
  runWord (.shl x) (int2Body x (shlVal x.ty)) s

def execShr (x : Int2) (s : State) : Host.Outcome State Fault Refusal :=
  runWord (.shr x) (int2Body x (shrVal x.ty)) s

def execSar (x : Int2) (s : State) : Host.Outcome State Fault Refusal :=
  runWord (.sar x) (int2Body x (sarVal x.ty)) s

def execBfx (x : Int2) (s : State) : Host.Outcome State Fault Refusal :=
  runWord (.bfx x) (int2Body x (bfxVal x.ty)) s

def execBfi (x : Int3) (s : State) : Host.Outcome State Fault Refusal :=
  runWord (.bfi x) (intBody x.uni x.ty x.d fun e i =>
    bfiVal x.ty (e.ival x.ty x.a x.imm i) (e.ival x.ty x.b x.imm i) (e.ival x.ty x.c x.imm i)) s

def execPopc (x : Int1) (s : State) : Host.Outcome State Fault Refusal :=
  runWord (.popc x) (int1Body x (popcVal x.ty)) s

def execClz (x : Int1) (s : State) : Host.Outcome State Fault Refusal :=
  runWord (.clz x) (int1Body x (clzVal x.ty)) s

/-- ICMP: a bit in each active lane, or one result into every lane of `EXEC` (R140). -/
def execIcmp (x : IcmpW) (s : State) : Host.Outcome State Fault Refusal :=
  runWord (.icmp x) (fun e s =>
    let f (i : Nat) : Bool := icmpVal x.cc x.ty (e.ival x.ty x.a x.imm i) (e.ival x.ty x.b x.imm i)
    if x.uni then
      Eff.writes s (predWr x.d e.c.g.exec (if f (lowLane e.c.g.exec) then e.c.g.exec else 0))
    else Eff.writes s (predWr x.d e.act (maskOf (e.lanes.filter f)))) s

/-- SEL: the predicate is read per lane, or in the lowest lane of `EXEC` (R138). -/
def execSel (x : Int3) (s : State) : Host.Outcome State Fault Refusal :=
  runWord (.sel x) (intBody x.uni x.ty x.d fun e i =>
    if e.val x.c 1 false 0 i = 1 then e.ival x.ty x.a x.imm i else e.ival x.ty x.b x.imm i) s

def execMov (x : Int1) (s : State) : Host.Outcome State Fault Refusal :=
  runWord (.mov x) (int1Body x id) s

/-- MOVI: the immediate, extended by its type (R141). -/
def execMovi (x : MoviW) (s : State) : Host.Outcome State Fault Refusal :=
  runWord (.movi x) (intBody x.uni x.ty x.d fun _ _ => extImm x.imm x.ty.signed x.ty.bits) s

/-- MOVI.hi: bits 63:32 of its destination (R141). -/
def execMoviHi (x : MoviHiW) (s : State) : Host.Outcome State Fault Refusal :=
  runWord (.moviHi x) (fun e s =>
    Eff.writes s (uniWr x.d (match x.d with
      | .s n => BitVec.ofNat 64 ((e.c.g.sreg n.val).toNat % 2 ^ 32 + x.imm.toNat * 2 ^ 32)
      | _ => 0))) s

end Sys2Proof.Machine
end

