-- ==== Sys2Proof/Machine/LaneX.lean ====
section
/-! DEFINITION. The cross-lane instructions SHFL, VOTE, GRED and PRMT (R154 to R157). -/
namespace Sys2Proof.Machine

/-! ### SHFL (R154) -/

/-- The segment width of SHFL from `c` and the group width. -/
def shflSeg (v w : Nat) : Nat := if v = 0 then w else 2 ^ Nat.log2 (min v w)

/-- The lane that lane `i` reads. -/
def shflLane (mode : ShflMode) (w i t : Nat) : Nat :=
  let base := i - i % w
  match mode with
  | .idx => base + t % w
  | .up => if t ≤ i - base then i - t else i
  | .down => if i + t < base + w then i + t else i
  | .xor => i ^^^ (t % w)

def shflBody (w : ShflW) (x : Ex) (s : State) : Eff :=
  let n := if w.wide then 64 else 32
  let seg := shflSeg (x.uval w.c n false w.imm) x.w
  Eff.writes s (laneWrs w.d (regsOf n) (x.lanes.map fun i =>
    (i, x.val w.a n false 0 (shflLane w.mode seg i (x.val w.b n false w.imm i)))))

/-! ### VOTE (R155) -/

def voteBody (w : VoteW) (x : Ex) (s : State) : Eff :=
  let yes := x.lanes.filter fun i => x.val w.a 1 false 0 i == 1
  let put (b : Bool) : Eff := Eff.writes s (predWr w.d x.act (if b then x.act else 0))
  match w.mode with
  | .all => put (yes == x.lanes)
  | .any => put (!yes.isEmpty)
  | .uni => put (yes.isEmpty || yes == x.lanes)
  | .ballot => Eff.writes s (uniWr w.d (maskOf yes))

/-! ### GRED (R156) -/

/-- One level of the fixed tree: nodes pair, an absent input passes the other through. -/
def treeLevel {α : Type} (f : α → α → α) : List (Option α) → List (Option α)
  | [] => []
  | [a] => [a]
  | a :: b :: r =>
    (match a, b with
     | none, y => y
     | x, none => x
     | some x, some y => some (f x y)) :: treeLevel f r

/-- The root of a tree of `n` levels. -/
def treeRoot {α : Type} (f : α → α → α) : Nat → List (Option α) → Option α
  | 0, l => (l.head?).join
  | n + 1, l => treeRoot f n (treeLevel f l)

/-- A node of `.fadd`: FP32 bits, and whether a node made a NaN from operands that are none. -/
def gredFadd (rm : RMode) (a b : Nat × Bool) : Nat × Bool :=
  let x := f32 a.1
  let y := f32 b.1
  let r := x.add (rm == .rdn) y
  (round FP32 rm r, a.2 || b.2 || invMet r [x, y])

/-- FMIN or FMAX of two FP32 bit patterns (R144). -/
def f32Pick (max : Bool) (a b : Nat) : Nat :=
  let x := f32 a
  let y := f32 b
  if x.isNan && y.isNan then FP32.nanCode
  else if x.isNan then b
  else if y.isNan then a
  else if (if max then x.below y else y.below x) then b else a

/-- The combination of two values, with the mark of `INV`. -/
def gredNode (op : GredOp) (a b : Nat × Bool) : Nat × Bool :=
  match op with
  | .add t => (iaddVal t false a.1 b.1, false)
  | .min t => (iminVal t a.1 b.1, false)
  | .max t => (imaxVal t a.1 b.1, false)
  | .and _ => (a.1 &&& b.1, false)
  | .or _ => (a.1 ||| b.1, false)
  | .xor _ => (a.1 ^^^ b.1, false)
  | .fadd rm => gredFadd rm a b
  | .fmin => (f32Pick false a.1 b.1, false)
  | .fmax => (f32Pick true a.1 b.1, false)

/-- The type by which a destination receives the result (R134). -/
def gredTy : GredOp → ITy
  | .add t | .min t | .max t | .and t | .or t | .xor t => t
  | .fadd _ | .fmin | .fmax => .b32

/-- The reduction over the active lanes; a NaN among the operand values leaves `INV` alone (R106). -/
def gredVal (w : GredW) (x : Ex) : Nat × Bool :=
  let n := w.op.bits
  let r := (treeRoot (gredNode w.op) 6 ((List.range 64).map fun i =>
    if i < x.w ∧ x.act.getLsbD i = true then some (x.val w.a n false 0 i, false) else none)).getD (0, false)
  (r.1, r.2 && !x.lanes.any fun i => (f32 (x.val w.a n false 0 i)).isNan)

def gredBody (w : GredW) (x : Ex) (s : State) : Eff :=
  let (r, inv) := gredVal w x
  let ws := match w.d with
    | .s _ => uniWr w.d (BitVec.ofNat 64 (intOut true (gredTy w.op) r))
    | d => laneWrs d (regsOf w.op.bits) (x.lanes.map fun i => (i, r))
  .done (s.modGroup x.c.ref fun g => g.flag .inv inv) ws none

/-! ### PRMT (R157) -/

/-- Byte `k` of the result. -/
def prmtByte (a b c k : Nat) : Nat :=
  let nib := c / 16 ^ k % 16
  let byte := (a + b * 2 ^ 32) / 256 ^ (nib % 8) % 256
  if 8 ≤ nib then (if 128 ≤ byte then 0xFF else 0) else byte

def prmtVal (a b c : Nat) : Nat :=
  prmtByte a b c 0 + prmtByte a b c 1 * 2 ^ 8 + prmtByte a b c 2 * 2 ^ 16 + prmtByte a b c 3 * 2 ^ 24

def prmtBody (w : PrmtW) (x : Ex) (s : State) : Eff :=
  Eff.writes s (laneWrs w.d 1 (x.lanes.map fun i =>
    (i, prmtVal (x.val w.a 32 false w.imm i) (x.val w.b 32 false w.imm i) (x.val w.c 32 false w.imm i))))

/-! ### Meanings -/

def execShfl (x : ShflW) (s : State) : Host.Outcome State Fault Refusal := runWord (.shfl x) (shflBody x) s

def execVote (x : VoteW) (s : State) : Host.Outcome State Fault Refusal := runWord (.vote x) (voteBody x) s

def execGred (x : GredW) (s : State) : Host.Outcome State Fault Refusal := runWord (.gred x) (gredBody x) s

def execPrmt (x : PrmtW) (s : State) : Host.Outcome State Fault Refusal := runWord (.prmt x) (prmtBody x) s

end Sys2Proof.Machine
end

