-- ==== Sys2Proof/Machine/Stream.lean ====
section
/-! DEFINITION. The matrix sequencer: the issue and the checks of stream words (R223 to R230, R235, R240, R241, R243, R247), and the
words that the sequencer performs itself. What a mesh word does is in `Mesh`. -/
namespace Sys2Proof.Machine

/-! ### A stream word at issue -/

/-- What the body of a stream word answers. -/
inductive SEff where
  /-- The word is performed: the state it leaves, and the next address if it transfers. -/
  | done (s : State) (pc : Option Addr)
  /-- The word waits; `on` says for what where that is no engine work (R175, R226). -/
  | wait (s : State) (on : SeqWait)
  /-- The sequencer stops before the word (R226). -/
  | stop (t : Trap)
  /-- A mesh word goes to the mesh queue with its operand values. -/
  | issue (d a b : W32)
  /-- The sequencer ends. -/
  | gone (s : State)

/-- A stream word being issued: its launch, team, and itself. -/
structure Sx where
  l : Launch
  t : Team
  word : Instr
deriving DecidableEq, Repr

/-- The address of the word. -/
def Sx.pc (x : Sx) : Addr := x.t.sq.spc

/-- A sequencer operand. -/
def Sx.val (x : Sx) (o : SOp) (imm : W32) : W32 :=
  match o with
  | .m n => x.t.sq.m.getD n.val 0
  | .zero => 0
  | .imm => imm

/-- Write a sequencer register; `zero` discards the value. -/
def State.setM (s : State) (r : TeamRef) (o : SOp) (v : W32) : State :=
  match o with
  | .m n => s.modTeam r fun t => { t with sq := { t.sq with m := t.sq.m.setIfInBounds n.val v } }
  | _ => s

/-- The sequencer's clocks at its next word. -/
def Seq.clock (q : Seq) : VClock := q.vc.bump seqParty

/-- The sequencer after a word, at `pc`. -/
def Seq.retired (q : Seq) (pc : Addr) : Seq :=
  { q with spc := pc, sst := .run, entry := false, arrived := false, retries := none, blocked := .none, vc := q.clock }

/-- Carry out what the body of a stream word answered. -/
def Sx.finish (x : Sx) (s : State) (e : SEff) : State :=
  let r := x.t.ref
  match e with
  | .stop t => s.stopSeq r t
  | .gone s => s
  | .wait s b => s.modTeam r fun t => { t with sq := { t.sq with sst := if b = .none then .run else .wait, blocked := b } }
  | .done s pc => s.modTeam r fun t => { t with sq := t.sq.retired (pc.getD (nextPc x.pc)) }
  | .issue d a b =>
    s.modTeam r fun t => { t with
      mq := t.mq ++ [⟨x.word, x.pc, d, a, b, 0, Store.get 0 t.sq.clock seqParty, t.sq.clock, false, [], none, none⟩]
      sq := t.sq.retired (nextPc x.pc) }

/-- Execute a stream word for the sequencer that issues it; a group traps on it (R86); a word that no party issues has no
meaning. -/
def runStream (i : Instr) (body : Sx → State → SEff) (s : State) : Host.Outcome State Fault Refusal :=
  match s.cur with
  | .idle => .refused .noIssuer
  | .grp r =>
    match s.ctx? r with
    | none => .fault .noParty
    | some _ => .next (s.takeTrap r (trapE .illegal (BitVec.ofNat 128 (wordLow i))))
  | .sq r =>
    match s.team? r, s.launch? r.launch with
    | some t, some l =>
      let x : Sx := ⟨l, t, i⟩
      if i.legalErr.isSome then .next (s.stopSeq r (trapE .illegal (BitVec.ofNat 128 (wordLow i))))
      else .next (x.finish s (body x s))
    | _, _ => .fault .noParty

/-! ### Operands of mesh words (R228, R229) -/

/-- `KB` of a row operand. -/
def rowKB (b : W32) : Nat := bits b.toNat 12 8
/-- `CLR`. -/
def rowClr (b : W32) : Bool := bitAt b.toNat 16
/-- `KV`, `NV`, `KB` and `WS` of an extent operand. -/
def extKV (b : W32) : Nat := b.toNat % 256
def extNV (b : W32) : Nat := bits b.toNat 15 8
def extKB (b : W32) : Nat := bits b.toNat 20 16
def extWS (b : W32) : Bool := bitAt b.toNat 24

/-- A row operand outside the limits of R228. -/
def rowBad (b : W32) (drain : Bool) : Bool :=
  bits b.toNat 15 13 != 0 || bits b.toNat 31 17 != 0 || (bitAt b.toNat 16 && !drain) || rowN b == 0 || decide (128 < rowN b)

/-- An extent operand outside them. -/
def extBad (b : W32) : Bool :=
  bits b.toNat 23 21 != 0 || bits b.toNat 31 25 != 0 || extKV b == 0 || decide (128 < extKV b) || extNV b == 0 ||
  decide (128 < extNV b)

/-- The trap BAD-STREAM with the failing operand value. -/
def trapStream (v : W32) : Trap := trapE .badStream (v.zeroExtend 128)

/-- The trap BAD-SPARSE with the window and its row, in the 12 bits of the item (R447). -/
def trapSparse (win row : Nat) : Trap := trapE .badSparse (info2 win (row % 4096))

/-- Element size of a mesh format. -/
def mfmtSize : MFmt → Nat
  | .e4m3 => 1
  | .bf16 => 2

/-- The factor h of R231; 1 for a dense source. -/
def sparseH : Sparsity → Nat
  | .dense => 1
  | .sp16 => 2
  | .sp8 => 4

/-- The descriptor of a bound window whose elements have `es` bytes; `none` takes any size. -/
def Team.meshWin (t : Team) (k : Nat) (es : Option Nat) : Except Trap WinDesc :=
  let w := t.win k
  match (if w.st = .unbound then none else w.desc) with
  | none => .error (trapWindow k)
  | some d => if (match es with | some n => d.dsz != n | none => false) then .error (trapWindow k) else .ok d

/-- A window block exceeds the pitch, or the rows run past the window: the value that fails. -/
def WinDesc.blockBad (d : WinDesc) (kb : Nat) (b start : W32) (rows : Nat) : Option Trap :=
  if d.pitch < (kb + 1) * 128 * d.dsz then some (trapStream b)
  else if d.rows < start.toNat + rows then some (trapStream start)
  else none

/-! ### Checks at issue, in the order of their entries (R226) -/

/-- Index of latch set `L` of the mesh of a tile. -/
def setIx (tile l : Nat) : Nat := 2 * (tile / 4) + l

/-- The mode that a latch set has once the mesh words before have finished; `none` where it is empty. -/
def Team.setMode (t : Team) (ix : Nat) : Option Sparsity :=
  let now : Option Sparsity := match t.sets[ix]? with | some l => if l.full then some l.sp else none | none => none
  t.mq.foldl (fun (m : Option Sparsity) e =>
    match e.word with
    | .mlatch w => if setIx (if w.second then 4 else 0) w.l.val = ix then some (if w.exp then .dense else w.sp) else m
    | _ => m) now

/-- ACC-OWNER and ACC-WINDOW of the rows from `a` of tiles (R235). -/
def Team.rowsTrap (t : Team) (a n : Nat) (tiles : List Nat) : Option Trap :=
  (tiles.findSome? fun k => if t.ownerOf k ≠ 64 then some (trapOwner t k) else none).or
    (tiles.findSome? fun k => (t.drainMeets k a (a + n - 1)).map (trapDrain k))

/-- A row operand with its first accumulator row. -/
def rowsBad (d b : W32) (drain : Bool) : Option Trap :=
  if rowBad b drain then some (trapStream b) else if 128 < d.toNat + rowN b then some (trapStream d) else none

/-- The tiles of MSTREAM. -/
def meshTiles (w : MstreamW) : List Nat := if w.both then [w.t.val, w.t.val + 4] else [w.t.val]

/-- ILLEGAL of a mesh word in its team: a tile of an absent mesh, `BOTH` without a pair, `MOD` of MDRAIN with a record. -/
def Sx.illegalTrap (x : Sx) : Trap := trapE .illegal (BitVec.ofNat 128 (wordLow x.word))

/-- A condition that stops. -/
def stopIf (b : Bool) (t : Trap) : Option Trap := if b then some t else none

/-- A window whose checks go on in `f`. -/
def withWin (e : Except Trap WinDesc) (f : WinDesc → Option Trap) : Option Trap :=
  match e with
  | .error t => some t
  | .ok d => f d

/-- Rows of the window that MLATCH reads. -/
def latchRows (w : MlatchW) (b : W32) : Nat :=
  if w.sp ≠ .dense then 128 / sparseH w.sp else if w.col then extNV b else extKV b

/-- The checks of MLATCH. -/
def Sx.latchTrap (x : Sx) (w : MlatchW) (d b : W32) : Option Trap :=
  (stopIf (w.second && !x.t.pair) x.illegalTrap).or <| (stopIf (extBad b) (trapStream b)).or <|
    withWin (x.t.meshWin w.win.val (some (mfmtSize w.wf))) fun q =>
      (q.blockBad (extKB b) b d (latchRows w b)).or
        (stopIf (w.sp != .dense && decide (q.range < (d.toNat + latchRows w b) * q.pitch + 2048))
          (trapSparse w.win.val (d.toNat + latchRows w b)))

/-- The checks of MSTREAM; `back` is MSTREAM.B. -/
def Sx.streamTrap (x : Sx) (w : MstreamW) (back : Bool) (d a b : W32) : Option Trap :=
  (stopIf ((decide (4 ≤ w.t.val) || w.both) && !x.t.pair) x.illegalTrap).or <| (rowsBad d b false).or <|
    withWin (x.t.meshWin w.win.val (some (mfmtSize w.af))) fun q =>
      (q.blockBad (rowKB b) b a (if w.col then 128 else rowN b)).or <|
      ((meshTiles w).findSome? fun k =>
        match x.t.setMode (setIx k w.l.val) with
        | none => some (trapE .latchEmpty (BitVec.ofNat 128 (setIx k w.l.val)))
        | some m => stopIf (back && m != .dense) (trapSparse w.win.val a.toNat)).or
      (x.t.rowsTrap d.toNat (rowN b) (meshTiles w))

/-- The checks of MZERO and MSCALE. -/
def Sx.zeroTrap (x : Sx) (t : Nat) (d b : W32) : Option Trap :=
  (stopIf (decide (4 ≤ t) && !x.t.pair) x.illegalTrap).or <| (rowsBad d b false).or (x.t.rowsTrap d.toNat (rowN b) [t])

/-- `MOD` of an MDRAIN into a window with a record is not 0 (R237). -/
def Team.drainModBad (t : Team) (w : MdrainW) : Bool :=
  (match t.meshWin w.win.val none with | .ok q => q.tpr.isSome | .error _ => false) && (w.ft != .f32 || w.rm != .rne)

/-- The window checks of MDRAIN. -/
def drainWinTrap (q : WinDesc) (d a b : W32) : Option Trap :=
    (q.blockBad (rowKB b) b a (rowN b)).or <|
    match q.tpr with
    | none => none
    | some p =>
      if !p.grp then none
      else (stopIf (rowN b != 128) (trapStream b)).or <| (stopIf (d != 0) (trapStream d)).or
        (stopIf (a.toNat % 128 != 0) (trapStream a))

/-- The element size MDRAIN asks of its window: that of `FT`, or the record's. -/
def Team.drainWin (t : Team) (w : MdrainW) : Except Trap WinDesc :=
  match t.meshWin w.win.val none with
  | .error e => .error e
  | .ok q => if q.tpr.isNone && q.dsz != srcSize w.ft then .error (trapWindow w.win.val) else .ok q

/-- The checks of MDRAIN: ILLEGAL comes first (R101). -/
def Sx.drainTrap (x : Sx) (w : MdrainW) (d a b : W32) : Option Trap :=
  (stopIf ((decide (4 ≤ w.t.val) && !x.t.pair) || x.t.drainModBad w) x.illegalTrap).or <| (rowsBad d b true).or <|
    withWin (x.t.drainWin w) fun q =>
      (drainWinTrap q d a b).or (x.t.rowsTrap d.toNat (rowN b) [w.t.val])

/-- The window of MDRAIN.T. -/
def Team.twinWin (t : Team) (w : MdrainTW) : Except Trap WinDesc :=
  match t.meshWin w.win.val none with
  | .error e => .error e
  | .ok q => if q.tpr.isSome || q.layout.isSome then .error (trapWindow w.win.val) else .ok q

/-! ### The pages of MDRAIN.T (R239) -/

/-- What an element of MDRAIN.T asks of its page. -/
def wantDrainT : Want := ⟨false, true, false, true, false, .drainWrite⟩

/-- An element of MDRAIN.T: its address, and its accumulator row and column. -/
structure TwElem where
  va : Addr
  r : Nat
  c : Nat
deriving DecidableEq, Repr

/-- The elements that MDRAIN.T reaches, with elements of `z` bytes. -/
def WinDesc.twElems (q : WinDesc) (z : Nat) (d a b : W32) : List TwElem :=
  ((List.range (rowN b)).map fun j =>
    if q.rows ≤ a.toNat + j then []
    else ((List.range 128).filter fun c => decide (128 * rowKB b + c < q.cols)).map fun c =>
      (⟨BitVec.ofInt 56 ((q.gbase : Int) + (a.toNat + j : Nat) * q.rstride + ((128 * rowKB b + c) * z : Nat)), d.toNat + j, c⟩ :
        TwElem)).flatten

/-- The element size of the page that holds `GBASE`. -/
def State.drainSize (s : State) (t : Team) (l : Launch) (q : WinDesc) : Except Trap Nat :=
  let va : Addr := BitVec.ofNat 56 q.gbase
  match s.xlat (some t.core) l.pkt.ctx va { wantNone false with ak := .drainWrite } with
  | .error e => .error e
  | .ok p => .ok (pteTwSize p)

/-- A line of MDRAIN.T: its leaf with the element addresses and their accumulators, in word order. -/
structure DrainLine where
  p : Piece
  elems : List TwElem
deriving DecidableEq, Repr

/-- The elements of each line, lines ascending. -/
def drainLines (es : List TwElem) : List (Nat × List TwElem) :=
  let keys := es.foldl (fun m e => insertSorted (lineOf e.va.toNat) m) []
  keys.map fun k => (k, es.filter fun e => lineOf e.va.toNat == k)

/-- Check every page of MDRAIN.T; the lines, or the trap. -/
def State.drainPages (s : State) (t : Team) (l : Launch) (z : Nat) : List (Nat × List TwElem) → Except Trap (List DrainLine) × State
  | [] => (.ok [], s)
  | (k, es) :: r =>
    let va : Addr := BitVec.ofNat 56 k
    match s.enginePieces t.core l.pkt.ctx wantDrainT false [(va, 128)] with
    | (.error e, s) => (.error e, s)
    | (.ok ps, s) =>
      match ps with
      | [] => (.ok [], s)
      | p :: _ =>
        if pteTwSize p.pte ≠ z then (.error (trapA .permission va .drainWrite), s)
        else match s.drainPages t l z r with
          | (.error e, s) => (.error e, s)
          | (.ok ls, s) => (.ok (⟨p, es⟩ :: ls), s)

/-- The lines of an MDRAIN.T with operand values `d`, `a`, `b`. -/
def State.drainTLines (s : State) (t : Team) (l : Launch) (q : WinDesc) (d a b : W32) : Except Trap (List DrainLine) × State :=
  match s.drainSize t l q with
  | .error e => (.error e, s)
  | .ok z => s.drainPages t l z (drainLines (q.twElems z d a b))

/-- The checks of MDRAIN.T. -/
def Sx.drainTTrap (x : Sx) (s : State) (w : MdrainTW) (d a b : W32) : Option Trap :=
  (stopIf (decide (4 ≤ w.t.val) && !x.t.pair) x.illegalTrap).or <| (rowsBad d b true).or <|
    withWin (x.t.twinWin w) fun q =>
      (x.t.rowsTrap d.toNat (rowN b) [w.t.val]).or
        (match (s.drainTLines x.t x.l q d a b).1 with | .error e => some e | .ok _ => none)

/-! ### Mesh words at issue (R224) -/

/-- Issue a mesh word once its checks pass and the mesh queue has room. -/
def Sx.mesh (x : Sx) (s : State) (t : Option Trap) (d a b : W32) : SEff :=
  if 8 ≤ x.t.mq.length then .wait s .none
  else match t with
    | some t => .stop t
    | none => .issue d a b

/-- Who touches for the sequencer (R351). -/
def Seq.issuer (q : Seq) : Issuer := ⟨seqParty, Store.get 0 q.clock seqParty, 0, q.clock⟩

/-- Touch lines as the feed port reads them (R229). -/
def State.feedTouch (s : State) (r : TeamRef) (i : Issuer) (ls : List Nat) : State := ls.foldl (fun s o => s.touch r o i) s

/-- The mask words of a sparse source (R231): offset and length. -/
def WinDesc.masksAt (q : WinDesc) (sp : Sparsity) (d : W32) : Nat := q.spoff + (d.toNat + 128 / sparseH sp) * q.pitch

/-- The mask of group `g` and column `n`. -/
def Team.maskWord (t : Team) (at_ g n : Nat) : Nat := natOf (t.spadRead (at_ + 4 * (g * 128 + n)) 4)

/-- The first group of masks that holds one with a wrong number of ones. -/
def Team.maskBad (t : Team) (w : MlatchW) (at_ : Nat) : Option Nat :=
  (List.range 4).find? fun g => (List.range 128).any fun n => popcount (t.maskWord at_ g n) 32 != 32 / sparseH w.sp

/-- The masks of a sparse source are read before its word issues, once their lines are full (R226, R231). -/
def Sx.sparse (x : Sx) (s : State) (w : MlatchW) (q : WinDesc) (d a b : W32) : SEff :=
  let at_ := q.masksAt w.sp d
  let ls := (List.range 16).map fun i => at_ + 128 * i
  let s := s.feedTouch x.t.ref x.t.sq.issuer ls
  if ls.any fun o => !x.t.serves o then .wait s (.lines ls)
  else match (x.t.lostAmong ls).map fun o => localLostTrap (localVa o) with
  | some t => .stop t
  | none =>
  match x.t.maskBad w at_ with
    | some g => .stop (trapSparse w.win.val (d.toNat + g * (32 / sparseH w.sp)))
    | none => .issue d a b

def mlatchBody (w : MlatchW) (x : Sx) (s : State) : SEff :=
  let d := x.val w.d w.imm
  let a := x.val w.a w.imm
  let b := x.val w.b w.imm
  match x.mesh s (x.latchTrap w d b) d a b with
  | .issue d a b =>
    if w.sp = .dense then .issue d a b
    else match x.t.meshWin w.win.val (some (mfmtSize w.wf)) with
      | .error t => .stop t
      | .ok q => x.sparse s w q d a b
  | e => e

def mstreamBody (w : MstreamW) (back : Bool) (x : Sx) (s : State) : SEff :=
  let d := x.val w.d w.imm
  let a := x.val w.a w.imm
  let b := x.val w.b w.imm
  x.mesh s (x.streamTrap w back d a b) d a b

def mzeroBody (w : MzeroW) (x : Sx) (s : State) : SEff :=
  let d := x.val w.d w.imm
  let b := x.val w.b w.imm
  x.mesh s (x.zeroTrap w.t.val d b) d 0 b

def mscaleBody (w : MscaleW) (x : Sx) (s : State) : SEff :=
  let d := x.val w.d w.imm
  let b := x.val w.b w.imm
  x.mesh s (x.zeroTrap w.t.val d b) d (x.val w.a w.imm) b

def mdrainBody (w : MdrainW) (x : Sx) (s : State) : SEff :=
  let d := x.val w.d w.imm
  let a := x.val w.a w.imm
  let b := x.val w.b w.imm
  x.mesh s (x.drainTrap w d a b) d a b

def mdrainTBody (w : MdrainTW) (x : Sx) (s : State) : SEff :=
  let d := x.val w.d w.imm
  let a := x.val w.a w.imm
  let b := x.val w.b w.imm
  x.mesh s (x.drainTTrap s w d a b) d a b

/-! ### Ownership and windows (R243, R247) -/

/-- The sequencer is ordered after what a synchronisation releases (R351). -/
def State.seqJoin (s : State) (r : TeamRef) (vc : VClock) : State :=
  s.modTeam r fun t => { t with sq := { t.sq with vc := t.sq.vc.join vc } }

def mtakeBody (w : MtakeW) (x : Sx) (s : State) : SEff :=
  let t := w.t.val
  if decide (4 ≤ t) && !x.t.pair then .stop x.illegalTrap
  else if x.t.ownerOf t = 64 then .done (s.seqJoin x.t.ref (x.t.tileVc.getD t [])) none
  else .wait s (.tile t)

def mgiveBody (w : MgiveW) (x : Sx) (s : State) : SEff :=
  let t := w.t.val
  let g := (x.val w.a w.imm).toNat
  if decide (4 ≤ t) && !x.t.pair then .stop x.illegalTrap
  else if 63 < g ∨ x.t.isLive g = false ∨ x.t.ownerOf t ≠ 64 then .stop (trapOwner x.t t)
  else match x.t.drainMeets t 0 127 with
    | some k => .stop (trapDrain t k)
    | none =>
      if x.t.meshOn t 0 127 then .wait s .none
      else .done (s.modTeam x.t.ref fun u => u.setOwner t g u.sq.clock) none

def mwinBody (w : MwinW) (x : Sx) (s : State) : SEff :=
  let a := x.val w.a w.imm
  if 1 < a.toNat then .stop (trapStream a)
  else if (x.t.drain a.toNat).pub then .wait s (.drain a.toNat)
  else .done s none

/-! ### Barriers (R241) -/

/-- An unfinished mesh word still reads scratchpad. -/
def Team.feeding (t : Team) : Bool :=
  t.mq.any fun m => match m.word with | .mlatch _ | .mstreamF _ | .mstreamB _ => true | _ => false

/-- Unfinished mesh words that come before an arrival; those alone that read scratchpad for `rd` (R241). -/
def Team.meshBefore (t : Team) (rd : Bool) : Bool := if rd then t.feeding else !t.mq.isEmpty

/-- The sequencer has arrived in the phase that runs. -/
def Team.seqInPhase (t : Team) (k : Nat) : Bool := t.sq.sarv.getLsbD k && t.sq.saph.getLsbD k == (t.bar k).phase

/-- What the sequencer's arrival releases: its finished words (R242; log 23). -/
def Team.seqRelease (t : Team) : VClock :=
  match t.mq with
  | [] => t.sq.clock
  | m :: _ => Store.set 0 t.sq.clock seqParty (m.tick - 1)

def barrierBit (k : Nat) : BitVec 16 := BitVec.ofNat 16 (2 ^ k)

/-- `sarrive(k)` once it may be made. -/
def Team.sarrive (t : Team) (ord : Bool) (k : Nat) : Team :=
  let b := t.bar k
  let q := { t.sq with
    sarv := t.sq.sarv ||| barrierBit k
    saph := if b.phase then t.sq.saph ||| barrierBit k else t.sq.saph &&& ~~~barrierBit k
    arrived := true }
  ({ t with sq := q }.setBar k { b with vc := b.vc.join t.seqRelease }).openBar ord k

/-- The end of the sequencer's wait at barrier `k`. -/
def State.seqLeave (s : State) (r : TeamRef) (k : Nat) : State :=
  s.modTeam r fun t => { t with sq := { t.sq with sarv := t.sq.sarv &&& ~~~barrierBit k, vc := t.sq.vc.join (t.bar k).openVc } }

/-- What an arrival meets before it may be made. -/
def Sx.arriveWait (x : Sx) (s : State) (k : Nat) (rd : Bool) : Option SEff :=
  if x.t.meshBefore rd then some (.wait s (.mesh rd)) else if x.t.seqInPhase k then some (.wait s (.bar k)) else none

def trapBarrier (k : Nat) : Trap := trapE .barrier (BitVec.ofNat 128 k)

/-- Barrier `k` of a team in a state still holds the sequencer in its phase. -/
def State.seqHeld (s : State) (r : TeamRef) (k : Nat) : Bool := match s.team? r with | some t => t.seqInPhase k | none => false

def mbarArrBody (w : MbarW) (x : Sx) (s : State) : SEff :=
  let k := w.k.val
  if (x.t.bar k).parts = 0 then .stop (trapBarrier k)
  else match x.arriveWait s k w.rd with
    | some e => e
    | none => .done (s.modTeam x.t.ref fun t => t.sarrive x.l.pkt.ord k) none

def mbarWaitBody (w : MbarWaitW) (x : Sx) (s : State) : SEff :=
  let k := w.k.val
  if x.t.sq.sarv.getLsbD k = false ∨ (x.t.bar k).parts = 0 then .stop (trapBarrier k)
  else if x.t.seqInPhase k then .wait s (.bar k)
  else .done (s.seqLeave x.t.ref k) none

def mbarSyncBody (w : MbarW) (x : Sx) (s : State) : SEff :=
  let k := w.k.val
  if x.t.sq.arrived then
    (if !x.t.seqInPhase k then .done (s.seqLeave x.t.ref k) none
     else if (x.t.bar k).parts = 0 then .stop (trapBarrier k)
     else .wait s (.bar k))
  else if (x.t.bar k).parts = 0 then .stop (trapBarrier k)
  else match x.arriveWait s k w.rd with
    | some e => e
    | none =>
      let s := s.modTeam x.t.ref fun t => t.sarrive x.l.pkt.ord k
      if s.seqHeld x.t.ref k then .wait s (.bar k) else .done (s.seqLeave x.t.ref k) none

/-! ### Control words (R240) -/

def msetBody (w : MsetW) (x : Sx) (s : State) : SEff := .done (s.setM x.t.ref w.d (x.val w.a w.imm)) none

def maddBody (w : MaddW) (x : Sx) (s : State) : SEff :=
  .done (s.setM x.t.ref w.d (x.val w.a w.imm + x.val w.b w.imm)) none

/-- A taken transfer is an entry (R89). -/
def Sx.jump (x : Sx) (s s' : State) (disp : W32) : SEff :=
  let a := dispPc x.pc disp
  match s.entryTrap x.t.core x.l.pkt.ctx false a with
  | some t => .stop t
  | none => .done s' (some a)

def mloopBody (w : MloopW) (x : Sx) (s : State) : SEff :=
  let v := x.val w.d 0 - 1
  let s' := s.setM x.t.ref w.d v
  if v = 0 then .done s' none else x.jump s s' w.disp

def mjmpBody (w : MjmpW) (x : Sx) (s : State) : SEff := x.jump s s w.disp

/-- MEND: the sequencer ends, with `SPC` at the word. -/
def mendState (x : Sx) (s : State) : State := s.modTeam x.t.ref fun t => t.endSeq x.l.pkt.ord

/-! ### Meanings -/

def execMlatch (x : MlatchW) (s : State) : Host.Outcome State Fault Refusal := runStream (.mlatch x) (mlatchBody x) s

def execMstreamF (x : MstreamW) (s : State) : Host.Outcome State Fault Refusal := runStream (.mstreamF x) (mstreamBody x false) s

def execMstreamB (x : MstreamW) (s : State) : Host.Outcome State Fault Refusal := runStream (.mstreamB x) (mstreamBody x true) s

def execMzero (x : MzeroW) (s : State) : Host.Outcome State Fault Refusal := runStream (.mzero x) (mzeroBody x) s

def execMscale (x : MscaleW) (s : State) : Host.Outcome State Fault Refusal := runStream (.mscale x) (mscaleBody x) s

def execMdrain (x : MdrainW) (s : State) : Host.Outcome State Fault Refusal := runStream (.mdrain x) (mdrainBody x) s

def execMdrainT (x : MdrainTW) (s : State) : Host.Outcome State Fault Refusal := runStream (.mdrainT x) (mdrainTBody x) s

def execMtake (x : MtakeW) (s : State) : Host.Outcome State Fault Refusal := runStream (.mtake x) (mtakeBody x) s

def execMgive (x : MgiveW) (s : State) : Host.Outcome State Fault Refusal := runStream (.mgive x) (mgiveBody x) s

def execMwin (x : MwinW) (s : State) : Host.Outcome State Fault Refusal := runStream (.mwin x) (mwinBody x) s

def execMbarArr (x : MbarW) (s : State) : Host.Outcome State Fault Refusal := runStream (.mbarArr x) (mbarArrBody x) s

def execMbarSync (x : MbarW) (s : State) : Host.Outcome State Fault Refusal := runStream (.mbarSync x) (mbarSyncBody x) s

def execMbarWait (x : MbarWaitW) (s : State) : Host.Outcome State Fault Refusal := runStream (.mbarWait x) (mbarWaitBody x) s

def execMset (x : MsetW) (s : State) : Host.Outcome State Fault Refusal := runStream (.mset x) (msetBody x) s

def execMadd (x : MaddW) (s : State) : Host.Outcome State Fault Refusal := runStream (.madd x) (maddBody x) s

def execMloop (x : MloopW) (s : State) : Host.Outcome State Fault Refusal := runStream (.mloop x) (mloopBody x) s

def execMjmp (x : MjmpW) (s : State) : Host.Outcome State Fault Refusal := runStream (.mjmp x) (mjmpBody x) s

/-- MEND waits until the mesh queue is empty. -/
def mendBody (x : Sx) (s : State) : SEff :=
  if x.t.mq.isEmpty then .gone (mendState x s) else .wait s .none

def execMend (s : State) : Host.Outcome State Fault Refusal := runStream .mend mendBody s

end Sys2Proof.Machine
end

