-- ==== Sys2Proof/Machine/Mesh.lean ====
section
/-! DEFINITION. What a mesh word does (R229 to R239): latching, streaming through a latch set by the fixed tree of R119, clearing,
scaling and draining. Mesh words are performed in the order of the mesh queue but for R232; single lines of one may be read or written
before the rest (R279; log 20). -/
namespace Sys2Proof.Machine

/-! ### Window elements (R229) -/

/-- Row offset in the scratchpad of element (r, c) of a window. -/
def WinDesc.elemOff (q : WinDesc) (r c : Nat) : Nat := rowOff q.orient q.dsz (q.spoff + r * q.pitch + c * q.dsz)

/-- The code at an offset. -/
def Team.elemCode (t : Team) (o n : Nat) : Nat := natOf (t.spadRead o n)

/-- The lines of offsets, ascending. -/
def offLines (os : List Nat) : List Nat := (os.foldl (fun (m : Store Bool) o => Store.set false m (o / 128) true) []).map fun e => 128 * e.1

/-- The storage format of a mesh operand. -/
def mfmt : MFmt → Fmt
  | .e4m3 => E4M3
  | .bf16 => BF16

/-- The party of a mesh word. -/
def Team.meshPty (t : Team) (l : Launch) (m : MeshWord) : Pty where
  core := t.core
  launch := l.num
  team := t.ref
  ord := l.pkt.ord && !t.ref.shadow
  vers := t.seg.map (·.vers)
  tag := ⟨t.ref.idx, seqParty, m.pc, 0, m.tick, 0⟩
  vc := m.vc

/-- What performing a mesh word gives. -/
inductive MeshRes where
  | done (s : State)
  /-- It waits; touches may have started copies. -/
  | waits (s : State)
  /-- It fails before any effect. -/
  | stop (t : Trap)
  /-- It fails after its effects (R239). -/
  | after (s : State) (t : Trap)
  | race (s : State) (va : Addr) (o : AccTag)
  /-- It waits for a version line for this line (R293). -/
  | full (pa : Nat)

/-- The word has read or written the line before the rest. -/
def MeshWord.did (m : MeshWord) (o : Nat) : Bool := m.early.any fun e => e.1 == o

/-- The scratchpad as the reads of a mesh word see it: the lines that it has read before the rest hold what they held then (R279,
R435). -/
def Team.seenBy (t : Team) (m : MeshWord) : Team :=
  { t with spad := m.early.foldl (fun x e => Store.setRange 0 x e.1 e.2) t.spad }

/-- A team with lines of its scratchpad as `u` has them. -/
def Team.takeLines (t u : Team) (ls : List Nat) : Team :=
  ls.foldl (fun t o => { t with
    spad := Store.setRange 0 t.spad o (u.spadRead o 128)
    full := Store.set false t.full (o / 128) (Store.get false u.full (o / 128))
    newFull := Store.set false t.newFull (o / 128) (Store.get false u.newFull (o / 128))
    fullVc := Store.set [] t.fullVc (o / 128) (Store.get [] u.fullVc (o / 128))
    filled := Store.set false t.filled (o / 128) (Store.get false u.filled (o / 128))
    spLost := Store.set false t.spLost (o / 128) (Store.get false u.spLost (o / 128)) }) t

/-- Read scratchpad lines through the feed port: touches, the wait for empty lines, and the tracking of `os`, elements of `n`
bytes (R201, R229, R352). -/
def State.feed (s : State) (t : Team) (l : Launch) (m : MeshWord) (os : List Nat) (n : Nat) (f : State → VClock → MeshRes) : MeshRes :=
  let ls := (offLines os).filter fun o => !m.did o
  let s := s.feedTouch t.ref ⟨seqParty, m.tick, 0, m.vc⟩ ls
  if ls.any fun o => !t.serves o then .waits s
  else match t.lostAmong ls with
  | some o => .stop (localLostTrap (localVa o))
  | none =>
    let vc := t.fullJoin ls m.vc
    let p := { t.meshPty l m with vc := vc }
    if !p.ord then f s vc
    else match s.trackLines p t false (os.map fun o => (o, n)) with
      | (some (va, a), s) => .race s va a
      | (none, s) => f s vc

/-! ### MLATCH (R230 to R232) -/

/-- The offset of the conversion scale of tile row `r` and column block `kb`, where the window converts (R213, R234). -/
def WinDesc.scaleAt (q : WinDesc) (r kb : Nat) : Option Nat :=
  q.tpr.map fun p => q.scoff + 4 * ((if p.grp then r / 128 else r) * q.tcols + kb)

/-- The weights of a dense source: key `128 * k + n` with its offset. -/
def denseCells (col : Bool) (q : WinDesc) (d b : W32) : List (Nat × Nat) :=
  ((List.range (extKV b)).map fun k => (List.range (extNV b)).map fun n =>
    (128 * k + n, if col then q.elemOff (d.toNat + n) (128 * extKB b + k)
                  else q.elemOff (d.toNat + k) (128 * extKB b + n))).flatten

/-- The weights of a sparse source: the kept positions in ascending t, each with the offset of its value (R231). -/
def sparseCells (sp : Sparsity) (q : WinDesc) (t : Team) (d b : W32) : List (Nat × Nat) :=
  let h := sparseH sp
  let at_ := q.masksAt sp d
  ((List.range 4).map fun g => (List.range (extNV b)).map fun n =>
    let mask := t.maskWord at_ g n
    let kept := ((List.range 32).filter fun i => bitAt mask i).take (32 / h)
    ((kept.zipIdx).filter fun e => decide (32 * g + e.1 < extKV b)).map fun e =>
      (128 * (32 * g + e.1) + n, q.elemOff (d.toNat + g * (32 / h) + e.2) (128 * extKB b + n))).flatten.flatten

/-- Put the weights into a set. -/
def latchWeights (t : Team) (n : Nat) (cells : List (Nat × Nat)) : Store W16 :=
  (cells.foldr (fun c (m : List (Nat × W16)) => (c.1, BitVec.ofNat 16 (t.elemCode c.2 n)) :: m) []).foldl
    (fun m e => Store.set 0 m e.1 e.2) []

def State.doLatch (s : State) (t : Team) (l : Launch) (m : MeshWord) (w : MlatchW) : MeshRes :=
  let n := mfmtSize w.wf
  match t.meshWin w.win.val (some n) with
  | .error e => .stop e
  | .ok q =>
    let seen := t.seenBy m
    let cells := if w.sp = .dense then denseCells w.col q m.d m.b else sparseCells w.sp q seen m.d m.b
    let masks := if w.sp = .dense then [] else (List.range 512).map fun i => q.masksAt w.sp m.d + 4 * i
    let scaleO := if extWS m.b then q.scaleAt m.d.toNat (extKB m.b) else none
    let os := cells.map (·.2) ++ masks ++ scaleO.toList
    s.feed t l m os n fun s vc =>
      let scale : W32 := if extWS m.b then
          (match scaleO with | some o => BitVec.ofNat 32 (seen.elemCode o 4) | none => 0x3F800000)
        else m.a
      let win := t.win w.win.val
      let prov : Option Prov :=
        if (offLines os).all (fun o => Store.get false t.filled (o / 128)) && m.early.all fun e => t.spadRead e.1 128 == e.2 then
          some ⟨q.gbase, q.rstride, win.ofs, q.tprAddr, m.d.toNat, m.b, w.sp, w.col, w.exp, q⟩
        else none
      let set : LatchSet := ⟨true, w.wf, if w.exp then .dense else w.sp, extKV m.b, extNV m.b, scale, prov, latchWeights seen n cells⟩
      .done ((s.seqJoin t.ref vc).modTeam t.ref fun u =>
        { u with sets := u.sets.setIfInBounds (setIx (if w.second then 4 else 0) w.l.val) set })

/-! ### MSTREAM (R119, R122, R230, R233, R234) -/

/-- A sum rounded to odd in XF48. -/
def xfSum (x y : ExactNum) : ExactNum := decodeNum XF48 (round XF48 .rto (x.add false y))

/-- The chunk sum over the present products, which come first (R119, R122). -/
def chunkSum (xs ys : List ExactNum) : ExactNum :=
  let ps := (xs.zip ys).map fun e => some (e.1.mul e.2)
  (treeRoot xfSum 7 (ps ++ List.replicate (128 - ps.length) none)).getD (ExactNum.zero false)

/-- Promotion of a chunk into an accumulator element; `sc` is the exact scale product. -/
def promoteInto (acc : W48) (za : Bool) (c sc : ExactNum) : W48 :=
  let p := decodeNum XF48 (round XF48 .rto (c.mul sc))
  let old := if za then ExactNum.zero false else decodeNum XF48 acc.toNat
  BitVec.ofNat 48 (round XF48 .rto (old.add false p))

/-- The values of a latch set: `ws[k]` lists W[k][n] for n below `NV`. -/
def LatchSet.values (x : LatchSet) : List (List ExactNum) :=
  (List.range x.kv).map fun k => (List.range x.nv).map fun n => decodeNum (mfmt x.fmt) (Store.get 0 x.w (128 * k + n)).toNat

/-- Columns from rows; every row has `n` elements. -/
def transposeOf (n : Nat) (m : List (List ExactNum)) : List (List ExactNum) :=
  (List.range n).map fun i => m.map fun r => r.getD i (ExactNum.zero false)

/-- The offsets of operand row `j` (R230). -/
def streamCells (w : MstreamW) (q : WinDesc) (a b : W32) (j : Nat) : List Nat :=
  (List.range 128).map fun k =>
    if w.col then q.elemOff (a.toNat + k) (128 * rowKB b + j) else q.elemOff (a.toNat + j) (128 * rowKB b + k)

/-- Tile row of element X[j][0]. -/
def streamRow (w : MstreamW) (a : W32) (j : Nat) : Nat := if w.col then a.toNat else a.toNat + j

/-- One operand row through a set into a row of a tile. -/
def Team.streamInto (t : Team) (back za : Bool) (tile r : Nat) (set : LatchSet) (vs : List (List ExactNum)) (xs : List ExactNum) (sa : ExactNum) : Team :=
  let sc := sa.mul (f32 set.scale.toNat)
  let vecs := if back then vs else transposeOf set.nv vs
  (vecs.zipIdx).foldl (fun t e =>
    t.accSet tile r e.2 (promoteInto (t.accGet tile r e.2) za (chunkSum xs e.1) sc)) t

def State.doStream (s : State) (t : Team) (l : Launch) (m : MeshWord) (w : MstreamW) (back : Bool) : MeshRes :=
  let n := mfmtSize w.af
  match t.meshWin w.win.val (some n) with
  | .error e => .stop e
  | .ok q =>
    let rows := (List.range (rowN m.b)).filter fun j => !m.rows.getLsbD j
    let cells := rows.map fun j => (j, streamCells w q m.a m.b j)
    let scales := rows.filterMap fun j => q.scaleAt (streamRow w m.a j) (rowKB m.b)
    match (meshTiles w).find? fun k => (match t.sets[setIx k w.l.val]? with | some x => !x.full | none => true) with
    | some k => .stop (trapE .latchEmpty (BitVec.ofNat 128 (setIx k w.l.val)))
    | none =>
      s.feed t l m ((cells.map (·.2)).flatten ++ scales) n fun s vc =>
        let sets := (meshTiles w).filterMap fun k => (t.sets[setIx k w.l.val]?).map fun x => (k, x, x.values)
        let seen := t.seenBy m
        let step (u : Team) (e : Nat × List Nat) : Team :=
          let xs := e.2.map fun o => decodeNum (mfmt w.af) (seen.elemCode o n)
          let sa := match q.scaleAt (streamRow w m.a e.1) (rowKB m.b) with
            | some o => f32 (seen.elemCode o 4)
            | none => ExactNum.ofInt 1
          sets.foldl (fun u z => u.streamInto back w.za z.1 (m.d.toNat + e.1) z.2.1 z.2.2 xs sa) u
        .done ((s.seqJoin t.ref vc).modTeam t.ref fun u => cells.foldl step u)

/-! ### MZERO and MSCALE (R236) -/

/-- Change every element of rows from `a`. -/
def Team.mapRows (t : Team) (tile a n : Nat) (f : W48 → W48) : Team :=
  (List.range (128 * n)).foldl (fun t i =>
    t.accSet tile (a + i / 128) (i % 128) (f (t.accGet tile (a + i / 128) (i % 128)))) t

/-- A scaled element. -/
def scaled (sc : W32) (x : W48) : W48 :=
  BitVec.ofNat 48 (round XF48 .rto ((decodeNum XF48 x.toNat).mul (f32 sc.toNat)))

def State.doRows (s : State) (t : Team) (m : MeshWord) (tile : Nat) (f : W48 → W48) : MeshRes :=
  .done (s.modTeam t.ref fun u => u.mapRows tile m.d.toNat (rowN m.b) f)

/-! ### MDRAIN (R237, R238) -/

/-- The values of an accumulator row. -/
def Team.accRow (t : Team) (tile r : Nat) : List ExactNum := (List.range 128).map fun c => decodeNum XF48 (t.accGet tile r c).toNat

/-- The bytes of a drained row without a record. -/
def drainBytes (w : MdrainW) (row kb : Nat) (xs : List ExactNum) : List Byte :=
  ((xs.zipIdx).map fun e => bytesOf (srcSize w.ft) (round w.ft.fmt w.rm e.1 ⟨0, row * 2 ^ 32 + 128 * kb + e.2⟩)).flatten

/-- A drained row: its bytes, the scale it writes, and the flags it meets. -/
structure DrainedRow where
  row : Nat
  b : List Byte
  scale : Option (Nat × W32)
  met : Bool
  sat : Bool

/-- The rows of a drain, converted. -/
def Team.drained (t : Team) (w : MdrainW) (q : WinDesc) (m : MeshWord) : List DrainedRow :=
  let rows := (List.range (rowN m.b)).map fun j => (m.a.toNat + j, t.accRow w.t.val (m.d.toNat + j))
  match q.tpr with
  | none => rows.map fun e => ⟨e.1, drainBytes w e.1 (rowKB m.b) e.2, none, false, false⟩
  | some p =>
    let tile := p.groupScale (rows.map (·.2)).flatten
    rows.map fun e =>
      let (sc, sat) := if p.grp then tile else p.groupScale e.2
      let (b, sc, met, sat) := convertUnit p sc sat e.1 (128 * rowKB m.b) e.2
      ⟨e.1, b, (q.scaleAt e.1 (rowKB m.b)).map fun o => (o, scaleBits sc), met, sat⟩

/-- Clear the drained rows (`CLR`). -/
def Team.drainClear (t : Team) (m : MeshWord) (tile : Nat) : Team :=
  if rowClr m.b then t.mapRows tile m.d.toNat (rowN m.b) (fun _ => 0) else t

/-- Write a drained row: its lines, and the line of its scale, become full (R238). -/
def Team.drainRow (t : Team) (q : WinDesc) (kb : Nat) (vc : VClock) (r : DrainedRow) : Team :=
  let o := q.spoff + r.row * q.pitch + 128 * kb * q.dsz
  let t := t.winWrite q q.dsz o r.b
  let t := (q.linesAt q.dsz o r.b.length).foldl (fun t ln => t.markFull ln vc) t
  match r.scale with
  | some (a, x) => (t.spadWrite a (bytesOf 4 x.toNat)).markFull (lineOf a) vc
  | none => t

/-- The runs of bytes that drained rows write. -/
def drainRuns (q : WinDesc) (kb : Nat) (out : List DrainedRow) : List (Nat × Nat) :=
  (out.map fun r =>
    q.runs q.dsz (q.spoff + r.row * q.pitch + 128 * kb * q.dsz) r.b.length ++
      (match r.scale with | some (a, _) => [(a, 4)] | none => [])).flatten

def State.doDrain (s : State) (t : Team) (l : Launch) (m : MeshWord) (w : MdrainW) : MeshRes :=
  match t.drainWin w with
  | .error e => .stop e
  | .ok q =>
    if (t.win w.win.val).busy then .waits s
    else
      let out := t.drained w q m
      let runs := drainRuns q (rowKB m.b) out
      match t.lostWrite runs with
      | some ln => .stop (localLostTrap (localVa ln))
      | none =>
      match s.trackLines (t.meshPty l m) t true runs with
      | (some (va, a), s) => .race s va a
      | (none, s) =>
        let s := s.modTeam t.ref fun u =>
          ((out.foldl (fun u r => u.drainRow q (rowKB m.b) m.vc r) (u.wholeWrite runs)).takeLines u (m.early.map (·.1))).drainClear m w.t.val
        .done (s.copyFlags t 0 (out.any (·.met)) (out.any (·.sat)))

/-! ### MDRAIN.T (R239) -/

/-- The lines of the accumulators that the elements of a line reach. -/
def DrainLine.accLines (x : DrainLine) : List Nat :=
  (x.elems.map fun e => lineOf ({ x.p with va := e.va } : Piece).acc).eraseDups

/-- One line: its effect, or the cause and the line that the record names. -/
def State.drainLine (s : State) (t : Team) (v : Option Nat) (tile : Nat) (x : DrainLine) : Option (Cause × Nat) × State :=
  match (s.hdrLost x.p).or (x.accLines.find? s.isLost) with
  | some ln => (some (.dataLost, ln), s)
  | none =>
    let h := s.twView v x.p
    if h.count = 0 then (some (.adjointUnderflow, lineOf x.p.pa), s)
    else
      let vals := x.elems.map fun e =>
        (({ x.p with va := e.va } : Piece).acc, decodeNum XF48 (t.accGet tile e.r e.c).toNat)
      let nan := vals.any fun e => (contribution e.2).isNone
      let (s, sat) := vals.foldl (fun (a : State × Bool) e =>
        let (s', b) := a.1.accPut v x.p e.1 (contribution e.2)
        (s', a.2 || b)) (s, false)
      let s := match v with
        | none =>
          { s with mem := s.mem.setHdr x.p.hdr ⟨h.count - 1, if h.count = 1 then 2 else h.st, h.nanf || nan, h.range || sat⟩ }
        | some n => s.modVLine n x.p fun k =>
          { k with delta := k.delta - 1, touched := true, nanf := k.nanf || nan, range := k.range || sat }
      (if sat then some (.twinRange, lineOf x.p.pa) else none, s)

def State.doDrainT (s : State) (t : Team) (l : Launch) (m : MeshWord) (w : MdrainTW) : MeshRes :=
  match t.twinWin w with
  | .error e => .stop e
  | .ok q =>
    match s.drainTLines t l q m.d m.a m.b with
    | (.error e, _) => .stop e
    | (.ok ls, s) =>
      let v := t.seg.map (·.vers)
      let ls := ls.filter fun x => !m.did x.p.va.toNat
      if ls.any fun x => s.heldElsewhere v (lineOf x.p.pa) || s.far t.core x.p.pa then .waits s
      else match v.bind fun n => (if s.linesFull n (ls.map fun x => x.p.pa) then ls.head? else none) with
      | some x => .full x.p.pa
      | none =>
        let (fail, s) := ls.foldl (fun (a : Option (Cause × Nat) × State) x =>
          let (c, s) := a.2.drainLine t v w.t.val x
          (a.1.or c, s)) (m.late, s)
        let s := s.modTeam t.ref fun u => u.drainClear m w.t.val
        match fail with
        | none => .done s
        | some (c, line) => .after s (trapE c (BitVec.ofNat 128 line))

/-! ### The head of the mesh queue -/

/-- Perform a mesh word. -/
def State.doMesh (s : State) (t : Team) (l : Launch) (m : MeshWord) : MeshRes :=
  match m.word with
  | .mlatch w => s.doLatch t l m w
  | .mstreamF w => s.doStream t l m w false
  | .mstreamB w => s.doStream t l m w true
  | .mzero w => s.doRows t m w.t.val fun _ => 0
  | .mscale w => s.doRows t m w.t.val (scaled m.a)
  | .mdrain w => s.doDrain t l m w
  | .mdrainT w => s.doDrainT t l m w
  | _ => .done s

/-- The latch sets that a mesh word names. -/
def MeshWord.setsOf (m : MeshWord) : List Nat :=
  match m.word with
  | .mlatch w => [setIx (if w.second then 4 else 0) w.l.val]
  | .mstreamF w | .mstreamB w => (meshTiles w).map fun k => setIx k w.l.val
  | _ => []

/-- A mesh word that a later MLATCH of set `ix` need not follow: it writes no scratchpad and does not name the set (R232). -/
def MeshWord.passes (m : MeshWord) (ix : Nat) : Bool :=
  !m.failed && !m.setsOf.contains ix && match m.word with | .mdrain _ | .mdrainT _ => false | _ => true

/-- The places of the mesh words that may be performed: the first of the queue, and an MLATCH into a set that no word before it names
(R232). A word that stopped the sequencer before its effect holds the words behind it, until the sequencer goes on (log 20). -/
def Team.meshTurns (t : Team) : List Nat :=
  (List.range t.mq.length).filter fun i =>
    match t.mq[i]? with
    | none => false
    | some m => !m.failed && (i == 0 || match m.word with
      | .mlatch _ => (t.mq.take i).all fun e => m.setsOf.all e.passes
      | _ => false)

/-- A mesh word leaves the queue. -/
def State.meshPop (s : State) (r : TeamRef) (ord : Bool) (i : Nat) : State :=
  s.modTeam r fun u => Team.seqOver { u with mq := u.mq.eraseIdx i } ord

/-- A mesh word meets a cause before its effect: it stays in its place, and a resumed sequencer executes it again; of a sequencer that
ends, or has ended, it is given up (R226, R239). -/
def State.meshFail (s : State) (r : TeamRef) (ord : Bool) (i : Nat) (m : MeshWord) (t : Trap) (extra : State → State := id) : State :=
  let s := s.stopSeq r t extra (pcAt := some m.pc)
  match s.team? r with
  | none => s
  | some u =>
    if u.sq.sst == .ended || u.sq.ending then s.meshPop r ord i
    else s.setTeam { u with mq := modifyAt (fun m => { m with failed := u.sq.sst == .stopped, since := none }) i u.mq }

/-- The first of the mesh words at places `is` that does not wait finishes, or fails; the touches of the others are made (R229). -/
def State.meshTry (s : State) (r : TeamRef) : List Nat → State
  | [] => s
  | i :: rest =>
    match s.team? r, s.launch? r.launch with
    | some t, some l =>
      let ord := l.pkt.ord
      match t.mq[i]? with
      | none => s
      | some m =>
        match s.doMesh t l m with
        | .done s => s.meshPop r ord i
        | .waits s => s.meshTry r rest
        | .full pa =>
          let since := m.since.getD s.clock
          if since + versionClocks ≤ s.clock then s.meshFail r ord i m (trapE .versionFull (BitVec.ofNat 128 (sliceNo pa)))
          else (s.modTeam r fun u => { u with mq := modifyAt (fun m => { m with since := some since }) i u.mq }).meshTry r rest
        | .stop e => s.meshFail r ord i m e
        | .after s e => (s.meshPop r ord i).stopSeq r e (pcAt := some m.pc)
        | .race s va a => s.meshFail r ord i m (raceTrap va a) (raceSecond { State.seqUnit l t with pc := m.pc } a 0)
    | _, _ => s

/-- A mesh word of a team finishes, or fails (R226, R239). -/
def State.meshFinish (s : State) (r : TeamRef) : State :=
  match s.team? r with
  | some t => s.meshTry r t.meshTurns
  | none => s

def execMeshWordFinish (t : TeamRef) (s : State) : Host.Outcome State Fault Refusal := .next (s.meshFinish t)

/-! ### Mesh words that nothing will finish (R175, R226, R250) -/

/-- The scratchpad lines a mesh word reads. -/
def Team.meshLines (t : Team) (m : MeshWord) : List Nat :=
  match m.word with
  | .mlatch w =>
    (match t.meshWin w.win.val (some (mfmtSize w.wf)) with
     | .error _ => []
     | .ok q =>
       let cells := if w.sp = .dense then denseCells w.col q m.d m.b else sparseCells w.sp q (t.seenBy m) m.d m.b
       let masks := if w.sp = .dense then [] else (List.range 512).map fun i => q.masksAt w.sp m.d + 4 * i
       offLines (cells.map (·.2) ++ masks ++ (if extWS m.b then q.scaleAt m.d.toNat (extKB m.b) else none).toList))
  | .mstreamF w => rows w m
  | .mstreamB w => rows w m
  | _ => []
where
  rows (w : MstreamW) (m : MeshWord) : List Nat :=
    match t.meshWin w.win.val (some (mfmtSize w.af)) with
    | .error _ => []
    | .ok q =>
      let js := (List.range (rowN m.b)).filter fun j => !m.rows.getLsbD j
      offLines ((js.map fun j => streamCells w q m.a m.b j).flatten ++
        js.filterMap fun j => q.scaleAt (streamRow w m.a j) (rowKB m.b))

/-- A line is empty, no window that is ABSENT will start its copy by a touch, and no copy will fill it. -/
def Team.deadLine (t : Team) (o : Nat) : Bool :=
  !t.isFull o && !t.willFill o && (match t.winAt o with | some k => (t.win k).st != .absent | none => true)

/-- No mesh word moves: each that may be performed waits on an empty line that no copy of a bound window will fill, and the others
stand behind such words, or behind one that stopped the sequencer. -/
def Team.meshStuck (t : Team) : Bool :=
  t.meshTurns.all fun i => match t.mq[i]? with | some m => (t.meshLines m).any (fun o => !m.did o && t.deadLine o) | none => true

/-! ### One line of a mesh word (R279, R435, R436) -/

/-- Mesh word `n` notes a line that it has read or written before the rest. -/
def Team.noteLine (t : Team) (n : Nat) (f : MeshWord → MeshWord) : Team := { t with mq := modifyAt f n t.mq }

/-- The part of a run of bytes that lies in the line at `o`. -/
def clipRun (o : Nat) (e : Nat × Nat) : Option (Nat × Nat) :=
  let lo := max e.1 o
  let hi := min (e.1 + e.2) (o + 128)
  if lo < hi then some (lo, hi - lo) else none

/-- An MDRAIN that can be performed writes the scratchpad line at `o` before the rest. -/
def State.drainOne (s : State) (t : Team) (l : Launch) (n : Nat) (m : MeshWord) (w : MdrainW) (o : Nat) : State :=
  match t.drainWin w, s.doDrain t l m w with
  | .ok q, .done u =>
    let runs := (drainRuns q (rowKB m.b) (t.drained w q m)).filterMap (clipRun o)
    (match u.team? t.ref, s.trackLines (t.meshPty l m) t true runs with
     | some x, (none, s) => if runs.isEmpty then s
       else s.modTeam t.ref fun y => (y.takeLines x [o]).noteLine n fun m => { m with early := m.early ++ [(o, [])] }
     | _, _ => s)
  | _, _ => s

/-- An MDRAIN.T adds to the next line alone. -/
def State.drainTOne (s : State) (t : Team) (l : Launch) (n : Nat) (m : MeshWord) (w : MdrainTW) (o : Nat) : State :=
  match t.twinWin w with
  | .error _ => s
  | .ok q =>
    match s.drainTLines t l q m.d m.a m.b with
    | (.error _, _) => s
    | (.ok ls, _) =>
      let v := t.seg.map (·.vers)
      match ls.find? fun x => !m.did x.p.va.toNat with
      | none => s
      | some x =>
        if x.p.va.toNat ≠ o ∨ s.heldElsewhere v (lineOf x.p.pa) = true ∨ s.far t.core x.p.pa = true ∨
            (match v with | some k => s.linesFull k [x.p.pa] | none => false) = true then s
        else
          let (c, s) := s.drainLine t v w.t.val x
          s.modTeam t.ref fun y => y.noteLine n fun m => { m with early := m.early ++ [(o, [])], late := m.late.or c }

/-- Mesh word `n` of a team, if its turn has come, reads or writes the line at `o` before the rest. -/
def State.meshLine (s : State) (r : TeamRef) (n o : Nat) : State :=
  match s.team? r, s.launch? r.launch with
  | some t, some l =>
    (match t.mq[n]? with
     | none => s
     | some m =>
       if !t.meshTurns.contains n || m.did o then s
       else match m.word with
         | .mdrain w => s.drainOne t l n m w o
         | .mdrainT w => s.drainTOne t l n m w o
         | _ =>
           if (t.meshLines m).contains o && t.serves o && !t.spadLost o then
             (s.feedTouch r ⟨seqParty, m.tick, 0, m.vc⟩ [o]).modTeam r fun y =>
               y.noteLine n fun m => { m with early := m.early ++ [(o, t.spadRead o 128)], vc := t.fullJoin [o] m.vc }
           else s)
  | _, _ => s

/-- The mesh queue has settled (R250). -/
def Team.meshSettled (t : Team) : Bool := t.meshStuck

end Sys2Proof.Machine
end

