-- ==== Sys2Proof/Machine/Sync.lean ====
section
/-! DEFINITION. Numbered barriers (R170, R171), slot counters (R172) and waiting on memory (R173), with the release and
acquire that each carries (R305, R306, R313). -/
namespace Sys2Proof.Machine

/-- Order the group after what a wait acquires, and act on the L1 as a team-scope acquire (R305, R313). -/
def State.teamAcquire (s : State) (c : Ctx) (vc : VClock) : State :=
  (s.acquireTeam c.t c.core).modGroup c.ref fun g => { g with vc := g.vc.join vc }

/-! ### Numbered barriers -/

/-- Bit of barrier `k`. -/
def barBit (k : Nat) : BitVec 16 := BitVec.ofNat 16 (2 ^ k)

/-- The group has arrived in the phase that runs and has not seen the barrier open. -/
def Group.inPhase (g : Group) (t : Team) (k : Nat) : Bool := g.arv.getLsbD k && g.aph.getLsbD k == (t.bar k).phase

/-- `arrive(k)` of R170, once it may be made. -/
def Team.arrive (t : Team) (ord : Bool) (g : Group) (k : Nat) : Team :=
  let b := t.bar k
  let g := { g with
    arv := g.arv ||| barBit k
    aph := if b.phase then g.aph ||| barBit k else g.aph &&& ~~~barBit k
    arrSeq := g.arrSeq.setIfInBounds k (b.count + 1)
    last := g.last &&& ~~~barBit k }
  ((t.setGrp g).setBar k { b with arrived := b.arrived + 1, count := b.count + 1, vc := b.vc.join g.vc }).openBar ord k

/-- The arrival of a group with its release (R305, R313). -/
def State.arrive (s : State) (c : Ctx) (k : Nat) : State :=
  (s.releaseTeam c.t c.core).modTeam c.ref.t fun t => t.arrive c.l.pkt.ord c.g k

/-- The predicate of R171 in a team, for a group by index. -/
def Team.delivers (t : Team) (i k : Nat) : Bool := match t.grp? i with | some g => g.last.getLsbD k | none => false

/-- `deliver(k)`: written only where `D` names a predicate. -/
def deliverWr (d : Opnd) (x : Ex) (s : State) (k : Nat) : List Wr :=
  let yes := match s.team? x.c.ref.t with | some t => t.delivers x.c.g.idx k | none => false
  predWr d x.c.g.exec (if yes then x.c.g.exec else 0)

/-- The end of a wait at barrier `k`: `ARV[k]` := 0, and the acquire. -/
def State.leaveWait (s : State) (c : Ctx) (k : Nat) : State :=
  let vc := match s.team? c.ref.t with | some t => (t.bar k).openVc | none => []
  (s.teamAcquire c vc).modGroup c.ref fun g => { g with arv := g.arv &&& ~~~barBit k }

/-- What an arrival meets before it may be made. -/
def Ex.arriveWait (x : Ex) (k : Nat) (w : Wait) : Option Eff :=
  if (x.c.t.bar k).parts = 0 then some (.trap (trapE .barrier (BitVec.ofNat 128 k)))
  else if x.c.g.inPhase x.c.t k then some (.wait w)
  else if !x.c.quiet then some (.wait .engine)
  else none

/-- The barrier has opened since the group's arrival, in the state `s`. -/
def State.opened (s : State) (c : Ctx) (k : Nat) : Bool :=
  match s.team? c.ref.t with
  | none => false
  | some t => match t.grp? c.g.idx with | some g => !g.inPhase t k | none => false

/-- NBAR.ARR. In ordinary mode it does not wait: its predicate is 1 where its own arrival opens the barrier, and 0 where the barrier opens
later, also where it opens without a group's arrival, of which R171 does not say what such a word has written: the model's choice
(log 47). -/
def nbarArrBody (w : NbarW) (x : Ex) (s : State) : Eff :=
  let k := w.k.val
  let waits := x.c.l.pkt.ord && w.d != .zero
  if x.c.g.wait = .nbarArr k true then
    (if s.opened x.c k then .done (s.teamAcquire x.c (x.c.t.bar k).openVc) (deliverWr w.d x s k) none
     else .wait (.nbarArr k true))
  else match x.arriveWait k (.nbarArr k false) with
    | some e => e
    | none =>
      let s := s.arrive x.c k
      if waits && !s.opened x.c k then .waitIn s (.nbarArr k true)
      else .done s (deliverWr w.d x s k) none

def nbarWaitBody (w : NbarWaitW) (x : Ex) (s : State) : Eff :=
  let k := w.k.val
  if !x.c.g.arv.getLsbD k then .trap (trapE .barrier (BitVec.ofNat 128 k))
  else if x.c.g.inPhase x.c.t k then .wait (.nbarWait k)
  else .done (s.leaveWait x.c k) [] none

def nbarSyncBody (w : NbarW) (x : Ex) (s : State) : Eff :=
  let k := w.k.val
  if x.c.g.wait = .nbarSync k true then
    (if s.opened x.c k then .done (s.leaveWait x.c k) (deliverWr w.d x s k) none else .wait (.nbarSync k true))
  else match x.arriveWait k (.nbarSync k false) with
    | some e => e
    | none =>
      let s := s.arrive x.c k
      if s.opened x.c k then .done (s.leaveWait x.c k) (deliverWr w.d x s k) none
      else .waitIn s (.nbarSync k true)

/-- The group waits at barrier `k`, and the phase it waits for has ended. -/
def Group.barReady (g : Group) (t : Team) (k : Nat) : Bool :=
  (g.wait == .nbarArr k true || g.wait == .nbarArr k false || g.wait == .nbarWait k || g.wait == .nbarSync k true ||
    g.wait == .nbarSync k false) && !g.inPhase t k

/-- A barrier that has opened releases the groups that wait at it (R171): they run again and complete their words. -/
def State.barrierRelease (s : State) (r : TeamRef) (k : Nat) : State :=
  s.modTeam r fun t => { t with groups := t.groups.map fun g =>
    if g.st = .blocked ∧ g.barReady t k = true then { g with st := .run } else g }

/-! ### Slot counters -/

def Ex.num (x : Ex) (o : Opnd) (imm : W32) : Nat := x.uval o 32 false imm

def cgiveBody (w : CtrW) (x : Ex) (s : State) : Eff :=
  let k := w.k.val
  let n := x.num w.a w.imm
  let c := x.c.t.ctr k
  if 2 ^ 32 - 1 < c.c.toNat + n then .trap (trapE .counter (info2 k n))
  else if !x.c.quiet then .wait .engine
  else .done ((s.releaseTeam x.c.t x.c.core).modTeam x.c.ref.t fun t =>
    t.setCtr k { t.ctr k with c := BitVec.ofNat 32 (c.c.toNat + n), vc := c.vc.join x.c.g.vc }) [] none

/-- A take is complete: its amount is off the counter and the group is out of the queue. -/
def takeDone (x : Ex) (s : State) (k : Nat) : Eff := .done (s.teamAcquire x.c (x.c.t.ctr k).vc) [] none

def ctakeBody (w : CtrW) (x : Ex) (s : State) : Eff :=
  let k := w.k.val
  let n := x.num w.a w.imm
  let c := x.c.t.ctr k
  if n = 0 then takeDone x s k
  else if x.c.g.wait = .ctake k n then
    (if c.takes.any fun e => e.1 == x.c.g.idx then .wait (.ctake k n) else takeDone x s k)
  else if c.takes.isEmpty && decide (n ≤ c.c.toNat) then
    takeDone x (s.modTeam x.c.ref.t fun t => t.setCtr k { c with c := BitVec.ofNat 32 (c.c.toNat - n) }) k
  else .waitIn (s.modTeam x.c.ref.t fun t => t.setCtr k { c with takes := c.takes ++ [(x.c.g.idx, n)] }) (.ctake k n)

def cwaitBody (w : CtrW) (x : Ex) (s : State) : Eff :=
  let k := w.k.val
  let n := x.num w.a w.imm
  if n ≤ (x.c.t.ctr k).c.toNat then takeDone x s k else .wait (.cwait k n)

/-- Serve the head of a take queue that the counter covers (R172). -/
def State.takeServe (s : State) (r : TeamRef) (k : Nat) : State :=
  s.modTeam r fun t =>
    let c := t.ctr k
    match c.takes with
    | (g, n) :: rest =>
      if n ≤ c.c.toNat then
        let t := t.setCtr k { c with c := BitVec.ofNat 32 (c.c.toNat - n), takes := rest }
        match t.grp? g with
        | some x => t.setGrp { x with st := if x.st = .blocked then .run else x.st }
        | none => t
      else t
    | [] => t

/-! ### WAITF (R173) -/

/-- A condition of WAITF on natural numbers. -/
def wcHolds : WCond → Nat → Nat → Bool
  | .eq, x, v => x == v
  | .ne, x, v => x != v
  | .ge, x, v => decide (v ≤ x)
  | .lt, x, v => decide (x < v)

/-- What one read of a WAITF gives. -/
inductive WfRead where
  /-- The word, and the piece of a global one. -/
  | value (n : Nat) (p : Option Piece) (s : State)
  /-- The word cannot be read yet. -/
  | notYet (s : State)
  | trap (t : Trap)
  | race (o : AccTag) (s : State)

/-- The word with a tracker key is counted (R350): the launch has written it with value-free 32-bit `.add` alone. -/
def Ctx.countedWord (c : Ctx) (key : Nat) : Bool := c.l.pkt.ord && !Store.get false c.l.uncounted key

/-- The key of the word at a local address. -/
def localWordKey (t : Team) (va : Addr) : Nat := (localSpace t va).1.key ((localSpace t va).2 / 4)

/-- The party of the reads of a WAITF; those of a counted one are not tracked. -/
def Ctx.waitfPty (c : Ctx) (cc : WCond) (pc : Addr) (key : Nat) : Pty :=
  let p := c.pty pc
  if cc == .ge && c.countedWord key then { p with ord := false } else p

/-- The word that a WAITF reads at a peer: the answer to its last request, or a new request. -/
def State.waitfPeer (s : State) (c : Ctx) (word : Instr) (pc : Addr) (l : LaneAddr) : WfRead :=
  match c.g.la.find? fun e => e.word == word && !e.owed.isEmpty with
  | some e =>
    let rest (s : State) : State := s.modGroup c.ref fun g => { g with la := g.la.filter fun y => y != e }
    (match e.owed with
     | o :: _ =>
       (match o.st with
        | .sent => .notYet s
        | .replied _ =>
          (match l.ps with
           | p :: _ => (match s.sysBytes e l.lane p with
             | .ok b => .value (natOf b) (some p) (rest s)
             | .error cause => .trap (trapA cause l.va .load))
           | [] => .notYet s)
        | .failed cause => .trap (trapA cause l.va .load))
     | [] => .notYet s)
  | none =>
    let e : LaEnt := ⟨pc, word, 0, true, [], 1, 0, .load [l], [], none, [], s.clock, c.version, c.g.epoch, c.tick, c.g.vc, false, [], []⟩
    let (os, s) := s.sendAsks c.core c.l.num c.ref e.asks
    .notYet (s.modGroup c.ref fun g => { g with la := g.la ++ [{ e with owed := os }] })

/-- One read of the word of a WAITF, as an acquiring read at the scope of its page. -/
def State.waitfRead (s : State) (c : Ctx) (word : Instr) (cc : WCond) (pc a : Addr) : WfRead :=
  if misaligned a 4 true then .trap (trapA .badAddress a .load)
  else match c.t.regionCheck a 4 false c.g.priv .load with
    | some t => .trap t
    | none =>
      if regionOf a = 2 then
        (if c.mustWait [(localKey a, 4)] true then .notYet s
         else if isSpad c.t a && !c.t.serves (a.toNat % 2 ^ 32) then .notYet (s.touchAll c [a.toNat % 2 ^ 32])
         else match c.t.lostLine 4 [a] with
         | some l => .trap (localLostTrap l)
         | none => match s.trackLocal (c.waitfPty cc pc (localWordKey c.t a)) c.t a 4 false 0 with
           | (some o, s) => .race o s
           | (none, s) => .value (natOf (c.t.localRead a 4)) none s)
      else match s.lanePieces c (wantLoad c.g.priv) 0 a 4 with
        | (.error t, _) => .trap t
        | (.ok l, s) =>
          match l.ps with
          | [] => .notYet s
          | p :: _ =>
            if c.mustWait [(p.pa, 4)] true || s.far c.core p.pa then .notYet s
            else if pteSystem p.pte then s.waitfPeer c word pc l
            else
              match (s.promote c.core p.pte).loadPiece (c.waitfPty cc pc (p.pa / 4)) p true with
              | (.error (.lost n), _) => .trap (trapE .dataLost (BitVec.ofNat 128 n))
              | (.error (.race o), s) => .race o s
              | (.ok b, s) => .value (natOf b) (some p) s

/-- The key of the word that a WAITF has read. -/
def Ctx.waitfKey (c : Ctx) (a : Addr) (p : Option Piece) : Nat :=
  match p with
  | some p => p.pa / 4
  | none => localWordKey c.t a

/-- The acquire of the read that satisfies a WAITF, at the scope of its word; a counted one is ordered after the `.add` atomics of its
team that its word has received (R350, R351). -/
def State.waitfAcquire (s : State) (c : Ctx) (cc : WCond) (a : Addr) (p : Option Piece) : State :=
  let s := match p with
    | none => s.acquireTeam c.t c.core
    | some p => s.acquire c.core p.pte
  let k := c.waitfKey a p
  if cc == .ge && c.countedWord k then
    s.modGroup c.ref fun g => { g with vc := g.vc.join (Store.get [] c.l.adds (addKey k c.t.ref.idx)) }
  else s

/-- WAIT-TIMEOUT (R173, R447). -/
def waitTrap (a : Addr) (v : W32) : Trap := trapE .waitTimeout (info2 a.toNat v.toNat)

def waitfBody (w : WaitfW) (x : Ex) (s : State) : Eff :=
  let sd := x.uval w.d 64 false 0
  let v : W32 := BitVec.ofNat 32 sd
  let tmo := sd / 2 ^ 32
  let a := x.uaddr w.mem
  let since := match x.c.g.wait with | .waitf n _ _ _ _ => n | _ => s.clock
  let wait := Wait.waitf since tmo w.cc v a
  match x.ownLook [(lowLane x.c.g.exec, a)] with
  | some e => e
  | none => match s.waitfRead x.c x.word w.cc x.pc a with
  | .trap t => .trap t
  | .race o s => .gone (s.orderRace x.c a o x.c.g.epoch x.pc)
  | .notYet s => if tmo ≠ 0 ∧ since + tmo ≤ s.clock then .trapAt s (waitTrap a v) else .waitIn s wait
  | .value n p s' =>
    if wcHolds w.cc n v.toNat then .done (s'.waitfAcquire x.c w.cc a p) [] none
    else if since + tmo ≤ s.clock then .trap (waitTrap a v)
    else .waitIn s' wait

/-- The time of a waiting WAITF has run out and its condition does not hold: WAIT-TIMEOUT. -/
def State.waitTimeout (s : State) (r : GRef) : State :=
  match s.ctx? r with
  | none => s
  | some c =>
    match c.g.wait with
    | .waitf since tmo cc v a =>
      if s.clock < since + tmo ∨ c.g.st ≠ .run ∨ c.t.saving = true then s
      else
        let word := (c.g.la.find? fun e => match e.word with | .waitf _ => true | _ => false).map (·.word)
        match s.waitfRead c (word.getD .mend) cc c.g.pc a with
        | .value n _ _ => if wcHolds cc n v.toNat then s else s.takeTrap r (waitTrap a v)
        | _ => s.takeTrap r (waitTrap a v)
    | _ => s

/-! ### Meanings -/

def execNbarArr (x : NbarW) (s : State) : Host.Outcome State Fault Refusal := runWord (.nbarArr x) (nbarArrBody x) s

def execNbarWait (x : NbarWaitW) (s : State) : Host.Outcome State Fault Refusal :=
  runWord (.nbarWait x) (nbarWaitBody x) s

def execNbarSync (x : NbarW) (s : State) : Host.Outcome State Fault Refusal := runWord (.nbarSync x) (nbarSyncBody x) s

def execBarrierRelease (t : TeamRef) (k : Fin 16) (s : State) : Host.Outcome State Fault Refusal :=
  .next (s.barrierRelease t k.val)

def execCtake (x : CtrW) (s : State) : Host.Outcome State Fault Refusal := runWord (.ctake x) (ctakeBody x) s

def execCgive (x : CtrW) (s : State) : Host.Outcome State Fault Refusal := runWord (.cgive x) (cgiveBody x) s

def execCwait (x : CtrW) (s : State) : Host.Outcome State Fault Refusal := runWord (.cwait x) (cwaitBody x) s

def execTakeQueueServe (t : TeamRef) (k : Fin 32) (s : State) : Host.Outcome State Fault Refusal :=
  .next (s.takeServe t k.val)

def execWaitf (x : WaitfW) (s : State) : Host.Outcome State Fault Refusal := runWord (.waitf x) (waitfBody x) s

def execWaitTimeout (g : GRef) (s : State) : Host.Outcome State Fault Refusal := .next (s.waitTimeout g)

end Sys2Proof.Machine
end

