-- ==== Sys2Proof/Machine/Pool.lean ====
section
/-! DEFINITION. The register pool (R174, R448), roles (R178) and the role governor (R346, R347). -/
namespace Sys2Proof.Machine

/-! ### Giving and claiming chunks -/

/-- The trap POOL with its items (R447). -/
def trapPool (n chunks : Nat) : Trap := trapE .pool (info2 n chunks)

/-- A long-latency word still writes a register of an entry from `e` up. -/
def Group.writesFrom (g : Group) (e : Nat) : Bool :=
  g.la.any fun x => !x.done && x.dests.any fun d => match d with | .v r => decide (8 * e ≤ r) | _ => false

/-- The group without the registers of entries from `keep` up. -/
def Group.below (g : Group) (keep : Nat) : Group :=
  { g with
    v := g.v.filter fun e => decide (e.1 < vKey (8 * keep) 0) }

/-- Unmap the last `n` entries: their registers are discarded, their chunks join the free list 4 clocks later (R174). -/
def Team.give (t : Team) (g : Group) (n clock : Nat) : Team :=
  let keep := g.chunks.length - n
  let p := t.poolOf g.idx
  (t.setGrp { g.below keep with chunks := g.chunks.take keep }).setPool g.idx { p with returning := p.returning ++ (g.chunks.drop keep).map fun c => (c, clock + 4) }

/-- The live groups on the core of a group (R448). -/
def Team.liveOn (t : Team) (i : Nat) : Nat := ((t.liveGroups).filter fun g => t.coreOf g.idx == t.coreOf i).length

/-- A claim of `n` chunks breaks the bound of R174. -/
def Team.claimBad (t : Team) (g : Group) (n : Nat) : Bool :=
  let have_ := g.chunks.length
  decide (32 < have_ + n) || decide ((t.poolOf g.idx).size + 1 < n + have_ + t.liveOn g.idx)

/-- Map the `n` lowest-numbered free chunks at the end of the chunk map; every register in them reads 0. -/
def Team.claim (t : Team) (i n : Nat) : Team :=
  match t.grp? i with
  | none => t
  | some g =>
    let p := t.poolOf i
    (t.setGrp { g.below g.chunks.length with chunks := g.chunks ++ p.free.take n }).setPool i { p with free := p.free.drop n }

/-- The claim queue of the part on a core, head first (R448). -/
def Team.claimsOn (t : Team) (core : Nat) : List (Nat × Nat) := t.claims.filter fun e => t.coreOf e.1 == core

/-- The group stands in its claim queue. -/
def Team.claiming (t : Team) (i : Nat) : Bool := t.claims.any fun e => e.1 == i

/-- Join the claim queue. -/
def Team.joinClaim (t : Team) (i n : Nat) : Team := { t with claims := t.claims ++ [(i, n)] }

/-- A claim can be met at once. -/
def Team.claimNow (t : Team) (i n : Nat) : Bool :=
  (t.claimsOn (t.coreOf i)).isEmpty && decide (n ≤ (t.poolOf i).free.length)

def rgiveBody (w : NumW) (x : Ex) (s : State) : Eff :=
  let n := x.num w.a w.imm
  let have_ := x.c.g.chunks.length
  if have_ ≤ n then .trap (trapPool n have_)
  else if x.c.g.writesFrom (have_ - n) then .wait .engine
  else .done (s.modTeam x.c.ref.t fun t => t.give x.c.g n s.clock) [] none

def rclaimBody (w : NumW) (x : Ex) (s : State) : Eff :=
  let n := x.num w.a w.imm
  let i := x.c.g.idx
  if x.c.g.wait = .rclaim n then (if x.c.t.claiming i then .wait (.rclaim n) else .done s [] none)
  else if x.c.t.claimBad x.c.g n then .trap (trapPool n x.c.g.chunks.length)
  else if n = 0 then .done s [] none
  else if x.c.t.claimNow i n then .done (s.modTeam x.c.ref.t fun t => t.claim i n) [] none
  else .waitIn (s.modTeam x.c.ref.t fun t => t.joinClaim i n) (.rclaim n)

/-- Chunks given up 4 clocks ago join the free list of their part (R174). -/
def PoolPart.collect (p : PoolPart) (clock : Nat) : PoolPart :=
  { p with
    free := (p.returning.filter fun e => decide (e.2 ≤ clock)).foldl (fun f e => insertSorted e.1 f) p.free
    returning := p.returning.filter fun e => !decide (e.2 ≤ clock) }

/-- See `PoolPart.collect`, in both parts. -/
def Team.collect (t : Team) (clock : Nat) : Team := { t with pool := t.pool.collect clock, poolOdd := t.poolOdd.collect clock }

/-- The chunks whose 4 clocks have passed join the free list; a clock that passes does the same (R174). -/
def State.chunkReturn (s : State) (r : TeamRef) : State := s.modTeam r fun t => t.collect s.clock

/-- Serve the head of a claim queue that the free list covers (R174). -/
def State.claimServe (s : State) (r : TeamRef) (odd : Bool) : State :=
  s.modTeam r fun t =>
    match t.claimsOn (if odd then t.core + 1 else t.core) with
    | (g, n) :: _ =>
      if n ≤ (t.poolOf g).free.length then
        let t := { t with claims := t.claims.filter fun e => e.1 != g }.claim g n
        match t.grp? g with
        | some x => t.setGrp { x with st := if x.st = .blocked then .run else x.st }
        | none => t
      else t
    | [] => t

/-! ### RSWITCH and RPOINT -/

/-- Change the group's role: drain, chunks, role, lanes, transfer (R178). `f` marks the choice of the governor. -/
def Ex.switchTo (x : Ex) (s : State) (role : Byte) (b : Nat) (target : Addr) : Eff :=
  let g := x.c.g
  let i := g.idx
  let have_ := g.chunks.length
  let last (s : State) : Eff :=
    .gone (s.modGroup x.c.ref fun g =>
      let g := x.retired false target g
      { g with l := Vector.replicate 3 none, role := role, exec := g.liveLanes })
  if !g.drained then .wait .engine
  else if b = 0 ∨ b = have_ then last s
  else if b < have_ then last (s.modTeam x.c.ref.t fun t => t.give g (have_ - b) s.clock)
  else
    let n := b - have_
    if x.c.t.claiming i then .waitIn s (.rclaim n)
    else if x.c.t.claimBad g n then .trap (trapPool n have_)
    else if x.c.t.claimNow i n then last (s.modTeam x.c.ref.t fun t => t.claim i n)
    else .waitIn (s.modTeam x.c.ref.t fun t => t.joinClaim i n) (.rclaim n)

/-- The TOKEN and target checks of a role switch (R178). -/
def Ex.switchTrap (x : Ex) (s : State) (target : Addr) : Option Trap :=
  match x.c.g.topTok with
  | some k => some (trapTok k)
  | none => match x.c.g.pend with
    | e :: _ => some (trapTok e.tok.val)
    | [] => x.entryTrap s target

def rswitchBody (w : RswitchW) (x : Ex) (s : State) : Eff :=
  let target := dispPc x.pc w.disp
  match x.switchTrap s target with
  | some t => .trap t
  | none => x.switchTo s (BitVec.ofNat 8 (x.uval w.a 8 false 0)) (x.uval w.b 64 false 0) target

/-- The armed governor chooses this group (R347). -/
def Ex.chosen (x : Ex) : Option GovRec :=
  match x.c.l.gov with
  | none => none
  | some r =>
    let g := x.c.g
    let n := r.chunks - g.chunks.length
    if r.en && !x.c.l.pkt.ord && x.c.t.gov.armed && g.role == r.frm && g.topTok.isNone && g.pend.isEmpty &&
      decide (x.c.t.gov.conv < r.maxn) && !(n != 0 && x.c.t.claimBad g n) then some r else none

def rpointBody (x : Ex) (s : State) : Eff :=
  let waiting := match x.c.g.wait with | .rclaim _ => true | _ => false
  match (if waiting then x.c.l.gov else x.chosen) with
  | none => .done s [] none
  | some r =>
    if waiting then x.switchTo s r.into r.chunks r.entry
    else match x.switchTrap s r.entry with
      | some t => .trap t
      | none =>
        if !x.c.g.drained then .wait .engine
        else
          let s := s.modTeam x.c.ref.t fun t => { t with gov := ⟨0, false, t.gov.conv + 1⟩ }
          x.switchTo (s.raise x.c.unit false .roleChange (BitVec.ofNat 128 (x.c.g.role.toNat + r.into.toNat * 256)))
            r.into r.chunks r.entry

/-- The governor of a team becomes armed once its counter has been below the level for `TIME` clocks (R347). -/
def State.governorArm (s : State) (r : TeamRef) : State :=
  match s.launch? r.launch with
  | none => s
  | some l =>
    match l.gov with
    | none => s
    | some q => s.modTeam r fun t =>
      if q.en ∧ q.time ≤ t.gov.below then { t with gov := { t.gov with armed := true } } else t

/-- The governor's count over the starts of `dt` clocks; it becomes armed with the count that `TIME` asks for (R347). -/
def Team.govern (t : Team) (q : GovRec) (dt : Nat) : Team :=
  if (t.ctr q.ctr.val).c.toNat < q.level then
    let n := t.gov.below + dt
    { t with gov := { t.gov with below := n, armed := t.gov.armed || (q.en && decide (q.time ≤ n)) } }
  else { t with gov := { t.gov with below := 0 } }

/-! ### Meanings -/

def execRgive (x : NumW) (s : State) : Host.Outcome State Fault Refusal := runWord (.rgive x) (rgiveBody x) s

def execChunkReturn (t : TeamRef) (s : State) : Host.Outcome State Fault Refusal := .next (s.chunkReturn t)

def execRclaim (x : NumW) (s : State) : Host.Outcome State Fault Refusal := runWord (.rclaim x) (rclaimBody x) s

def execClaimQueueServe (t : TeamRef) (odd : Bool) (s : State) : Host.Outcome State Fault Refusal :=
  .next (s.claimServe t odd)

def execRswitch (x : RswitchW) (s : State) : Host.Outcome State Fault Refusal := runWord (.rswitch x) (rswitchBody x) s

def execRpoint (x : Ctl0) (s : State) : Host.Outcome State Fault Refusal := runWord (.rpoint x) rpointBody s

def execGovernorArm (t : TeamRef) (s : State) : Host.Outcome State Fault Refusal := .next (s.governorArm t)

end Sys2Proof.Machine
end

