-- ==== Sys2Proof/Machine/Stall.lean ====
section
/-! DEFINITION. TEAM-STALL (R175, R176, R226): blocked groups, engine work, and the stop of a team in which nothing can move. -/
namespace Sys2Proof.Machine

/-- The first empty scratchpad line, that nothing will fill, on which a long-latency word waits (R201). -/
def LaEnt.deadLine (t : Team) (e : LaEnt) : Option Nat :=
  if e.done then none
  else match e.op with
    | .load ls => (spadLines t (wordBytes e.word) ls).find? t.deadLine
    | .atomic ls _ _ => (spadLines t (wordBytes e.word) ls).find? t.deadLine
    | _ => none

/-- The kind of the word a group is blocked on, and its resource (R176, R447). -/
def Group.blockedOn (g : Group) (t : Team) : Option (Nat × Nat) :=
  if g.st != .run && g.st != .blocked then none
  else match g.wait with
    | .rclaim _ => some (1, 0)
    | .ctake k _ => some (2, k)
    | .cwait k _ => some (3, k)
    | .nbarArr k _ => some (4, k)
    | .nbarWait k => some (5, k)
    | .nbarSync k _ => some (6, k)
    | .push q _ => some (7, q)
    | .pop q _ => some (8, q)
    | .resume k => some (9, k)
    | .atake k => some (10, k)
    | .emptyLine o | .qntt _ _ _ (some o) => if t.deadLine o then some (11, o) else none
    | .engine => (g.la.findSome? fun e => e.deadLine t).map fun o => (11, o)
    | .spawn _ => some (12, 0)
    | _ => none

/-- What a group waits for has come: its word goes on when the group next issues, so that it waits no longer (R18, R170 to R172, R174;
log 29). Chunks given up come back by themselves and meet a claim (R174, R442). -/
def Group.released (g : Group) (l : Launch) (t : Team) : Bool :=
  match g.wait with
  | .rclaim n =>
    (match t.claimsOn (t.coreOf g.idx) with
     | [] => true
     | e :: _ => !t.claiming g.idx || (e.1 == g.idx && decide (n ≤ (t.poolOf g.idx).free.length + (t.poolOf g.idx).returning.length)))
  | .ctake k _ =>
    let c := t.ctr k
    (match c.takes with
     | [] => true
     | e :: _ => !(c.takes.any fun e => e.1 == g.idx) || (e.1 == g.idx && decide (e.2 ≤ c.c.toNat)))
  | .cwait k n => decide (n ≤ (t.ctr k).c.toNat)
  | .nbarArr k _ | .nbarWait k | .nbarSync k _ => !g.inPhase t k
  | .push q n => decide ((t.queues.getD q []).length ≤ n)
  | .pop q n => decide (n ≤ (t.queues.getD q []).length)
  | .resume _ => g.st != .blocked
  | .atake k => t.ownerOf k == g.idx
  | .spawn b => l.freePlace.isSome || (l.dead (taskScope b)).isSome
  | _ => false

/-- The sequencer waits, and what it waits for has not come. -/
def Team.seqBlocked (t : Team) : Bool :=
  t.sq.sst == .wait && match t.sq.blocked with
    | .none => false
    | .tile k => t.ownerOf k != 64
    | .drain k => (t.drain k).pub
    | .bar k => t.seqInPhase k && (t.bar k).parts != 0
    | .mesh rd => t.meshBefore rd
    | .lines os => os.any fun o => !t.isFull o

/-- Engine work of a team (R175). -/
def Team.engineWork (t : Team) : Bool :=
  (t.groups.any fun g => g.la.any fun e => !e.done && (e.deadLine t).isNone) ||
  ((List.range 32).any fun k => (t.win k).busy) ||
  (t.conts.any fun c => c.g.st == .run || c.g.st == .blocked) ||
  (t.sq.sst == .run && !t.sq.ending) || (t.sq.sst == .wait && !t.seqBlocked) ||
  (!t.mq.isEmpty && !t.meshStuck)

/-- Every live group is blocked and nothing of the engine can move. -/
def Team.stalled (l : Launch) (t : Team) : Bool :=
  t.save.isNone && !t.liveGroups.isEmpty && t.liveGroups.all (fun g => (g.blockedOn t).isSome && !g.released l t) && !t.engineWork

/-- Stop one group of a stalled team; it keeps its wait and its places in queues (log 29). -/
def State.stallGroup (s : State) (r : TeamRef) (g : Group) (k : Nat × Nat) : State :=
  (s.takeTrap ⟨r, .grp g.idx⟩ (trapE .teamStall (info2 k.1 k.2))).modGroup ⟨r, .grp g.idx⟩ fun h =>
    if h.st == .stopped then { h with wait := g.wait } else h

/-- Every group of a stalled team stops, with one record each. -/
def State.teamStall (s : State) (r : TeamRef) : State :=
  match s.team? r, s.launch? r.launch with
  | some t, some l =>
    if !t.stalled l then s
    else t.liveGroups.foldl (fun s g =>
      match g.blockedOn t with
      | some k => s.stallGroup r g k
      | none => s) s
  | _, _ => s

def execTeamStall (t : TeamRef) (s : State) : Host.Outcome State Fault Refusal := .next (s.teamStall t)

end Sys2Proof.Machine
end

