-- ==== Sys2Proof/Machine/Area.lean ====
section
/-! DEFINITION. The save area of a team (R397 to R399): where each piece of state lies, as blocks that a save writes and a restore reads
back, checks and takes (R400). Layouts that the spec leaves open are those of log 27. -/
namespace Sys2Proof.Machine

/-! ### Blocks -/

/-- A block of the area: its offset and length, the bytes of a team, and the team with bytes taken back, if they pass the check. -/
structure Blk where
  off : Nat
  len : Nat
  get : Team → List Byte
  put : List Byte → Team → Option Team

/-- A block that holds a number. -/
def numBlk (off len : Nat) (get : Team → Nat) (put : Nat → Team → Option Team) : Blk :=
  ⟨off, len, fun t => bytesOf len (get t), fun b t => put (natOf b) t⟩

/-- A number whose field has one value, the one that the device holds. -/
def sameBlk (off len : Nat) (get : Team → Nat) : Blk := numBlk off len get fun n t => if n = get t then some t else none

/-- A number below a bound. -/
def boundBlk (off len : Nat) (bound : Nat) (get : Team → Nat) (put : Nat → Team → Team) : Blk :=
  numBlk off len get fun n t => if n < bound then some (put n t) else none

/-- A block whose bytes are taken back by a reader of its own (see `areaTakes`). -/
def outBlk (off len : Nat) (get : Team → List Byte) : Blk := ⟨off, len, get, fun _ t => some t⟩

/-- See `outBlk`, for a number. -/
def outNum (off len : Nat) (get : Team → Nat) : Blk := outBlk off len fun t => bytesOf len (get t)

/-- Offset of the record of group `i` (R397). -/
def grpOff (i : Nat) : Nat := 0x10000 + 4096 * i

/-- A number of group `i`'s record, taken back by a reader (R398). -/
def gout (i off len : Nat) (get : Group → Nat) : Blk :=
  outNum (grpOff i + off) len fun t => match t.grp? i with | some g => get g | none => 0

/-- A number of a group below a bound. -/
def gnum (i off len : Nat) (bound : Nat) (get : Group → Nat) (put : Nat → Group → Group) : Blk :=
  numBlk (grpOff i + off) len (fun t => match t.grp? i with | some g => get g | none => 0) fun n t =>
    match t.grp? i with
    | none => none
    | some g => if n < bound then some (t.setGrp (put n g)) else none

/-- What a restore reads: bytes of the area, words of the code and bytes of records that the area names by their addresses. -/
structure AreaIn where
  bytes : Nat → Nat → Option (List Byte)
  word : Addr → Option Instr
  record : Nat → Nat → Option (List Byte)

/-- A number of the area. -/
def AreaIn.num (e : AreaIn) (off len : Nat) : Option Nat := (e.bytes off len).map natOf

/-- A part of a team that is taken back from the area, if it passes the check (R400). -/
abbrev Take := AreaIn → Team → Option Team

/-- Reserved bytes. -/
def zeroTake (off len : Nat) : Take := fun e t => (e.bytes off len).bind fun b => if b.all (· == 0) then some t else none

/-- A part of a group. -/
def grpTake (i : Nat) (f : AreaIn → Team → Group → Option Group) : Take := fun e t =>
  match t.grp? i with
  | none => none
  | some g => (f e t g).map t.setGrp

/-! ### Codes -/

/-- `STATE` (R26). -/
def RunSt.code : RunSt → Nat
  | .run => 0 | .blocked => 1 | .parked => 2 | .stopped => 3 | .ended => 3

/-- The group waits in TNEXT for a task not yet delivered. -/
def Group.inTnext (g : Group) : Bool := g.wait == .tnext || (g.wait == .engine && g.la.any fun e => !e.done && e.op == .tnext)

/-- The group is at a yield point (R393). -/
def Group.atYield (g : Group) (t : Team) : Bool :=
  (match g.st with | .ended | .parked | .stopped => true | _ => false) ||
  (match g.wait with | .yielded | .waitf _ _ _ _ _ | .evt | .check _ _ _ _ => true | _ => false) ||
  (g.blockedOn t).isSome || g.inTnext

/-- The way a group is saved (R394). -/
def Group.way (g : Group) (t : Team) : Nat :=
  if g.st = .parked ∨ g.st = .stopped then 2 else if g.wait = .yielded then 0 else if g.atYield t then 1 else 3

/-- State of a lookahead entry in the area (R398). -/
def LaEnt.code (e : LaEnt) : Nat :=
  if e.done then 1
  else if e.owed.isEmpty then 0
  else if !e.answered then 2
  else if e.owed.any fun o => match o.st with | .failed _ => true | _ => false then 4 else 3

def WinSt.code : WinSt → Nat
  | .unbound => 0 | .absent => 1 | .filling => 2 | .present => 3 | .writing => 4

def WinSt.ofCode : Nat → Option WinSt
  | 0 => some .unbound | 1 => some .absent | 2 => some .filling | 3 => some .present | 4 => some .writing
  | _ => none

def SeqSt.code : SeqSt → Nat
  | .run => 0 | .wait => 1 | .stopped => 2 | .ended => 3

def SeqSt.ofCode : Nat → Option SeqSt
  | 0 => some .run | 1 => some .wait | 2 => some .stopped | 3 => some .ended
  | _ => none

/-- The list of a queue of groups: indices head first, 0xFF after the last. -/
def queueBytes (q : List (Nat × Nat)) : List Byte :=
  (List.range 64).map fun i => match q[i]? with | some e => BitVec.ofNat 8 e.1 | none => 0xFF

/-- Take such a list back; each group keeps the amount it waits for, `amount`. -/
def queueOf (old : List (Nat × Nat)) (groups : Nat) (amount : Nat → Nat) (b : List Byte) : Option (List (Nat × Nat)) :=
  let xs := b.map (·.toNat)
  let ids := xs.takeWhile (· != 255)
  if (ids.all fun i => decide (i < groups)) && ids.eraseDups.length == ids.length && ((xs.drop ids.length).all (· == 255)) then
    some (ids.map fun i => match old.find? fun e => e.1 == i with | some e => e | none => (i, amount i))
  else none

/-! ### Group records (R398) -/

/-- `STATE` of a group: it is BLOCKED where it counts as blocked (R26, R176, R201). -/
def Group.stateCode (g : Group) (t : Team) : Nat := if (g.blockedOn t).isSome then 1 else g.st.code

/-- Bits of the word at 0x018. -/
def Group.stateWord (g : Group) (t : Team) : Nat :=
  g.stateCode t + bnat g.priv * 2 ^ 2 + g.way t * 2 ^ 3 + bnat g.task.isSome * 2 ^ 5 + bnat g.versioned * 2 ^ 6 +
    bnat g.replay.isSome * 2 ^ 7 + g.role.toNat * 2 ^ 8 + g.sticky.toNat * 2 ^ 16 + g.arv.toNat * 2 ^ 32 + g.aph.toNat * 2 ^ 48

/-- The stop of a unit that the area says is stopped or parked, and the device does not hold one for (log 27). -/
def areaStop (act : PolAct) : StopInfo := ⟨.halt, act, none, false, false, false⟩

/-- The group in the state of a code: one that is to wait and holds no wait executes its word again. -/
def Group.inState (g : Group) (t : Team) (n : Nat) : Group :=
  if n = g.stateCode t then g
  else if n = 0 then { g with st := .run, stop := none, wait := .none }
  else if n = 1 then { g with st := if g.wait.blocks then .blocked else .run, stop := none }
  else if n = 2 then { g with st := .parked, stop := some (g.stop.getD (areaStop .park)) }
  else { g with st := .stopped, stop := some (g.stop.getD (areaStop .stop)) }

/-- The replay word of an address: the one held, or the word at another address. -/
def Group.takeReplay (g : Group) (e : AreaIn) (held : Bool) (a : Nat) : Option (Option Replay) :=
  if !held then some none
  else
    let other := (e.word (BitVec.ofNat 56 a)).map fun w => some (Replay.mk (BitVec.ofNat 56 a) w 0 [] [])
    match g.replay with
    | some r => if r.pc.toNat = a then some (some r) else other
    | none => other

/-- The task of an address: the one held, or the record at another address. A version is one that the device holds (R395). -/
def Group.takeTask (g : Group) (e : AreaIn) (cur vers : Bool) (a : Nat) : Option (Option CurTask) :=
  if !cur then some none
  else
    let old := g.task.getD ⟨0, [], none, none, 0⟩
    let k : Option CurTask := if g.task.isSome && old.addr.toNat == a then some old
      else (e.record a 64).map fun b => { old with addr := BitVec.ofNat 56 a, bytes := b }
    if vers && old.vers.isNone then none else k.map fun k => some { k with vers := if vers then k.vers else none }

/-- Take the state word, the replay word and the task back. -/
def Group.takeState (g : Group) (e : AreaIn) (t : Team) : Option Group := do
  let n ← e.num (grpOff g.idx + 0x018) 8
  let ra ← e.num (grpOff g.idx + 0x020) 8
  let ta ← e.num (grpOff g.idx + 0x028) 8
  if 2 ^ 56 ≤ ra ∨ 2 ^ 56 ≤ ta ∨ bits n 31 21 ≠ 0 then none
  else
    let replay ← g.takeReplay e (bitAt n 7) ra
    let task ← g.takeTask e (bitAt n 5) (bitAt n 6) ta
    some { g.inState t (n % 4) with
      priv := bitAt n 2, role := BitVec.ofNat 8 (bits n 15 8), sticky := BitVec.ofNat 16 (bits n 31 16)
      arv := BitVec.ofNat 16 (bits n 47 32), aph := BitVec.ofNat 16 (bits n 63 48), replay := replay, task := task }

/-- The head of a group record. -/
def groupHead (i w : Nat) : List Blk :=
  [gnum i 0x000 8 (2 ^ 56) (fun g => g.pc.toNat) fun n g => { g with pc := BitVec.ofNat 56 n },
   gnum i 0x008 8 (2 ^ w) (fun g => g.exec.toNat) fun n g => { g with exec := BitVec.ofNat 64 n },
   gnum i 0x010 8 (2 ^ w) (fun g => g.pcm.toNat) fun n g => { g with pcm := BitVec.ofNat 64 n },
   outNum (grpOff i + 0x018) 8 fun t => match t.grp? i with | some g => g.stateWord t | none => 0,
   gout i 0x020 8 fun g => match g.replay with | some r => r.pc.toNat | none => 0,
   gout i 0x028 8 fun g => match g.task with | some k => k.addr.toNat | none => 0,
   gnum i 0x030 8 (2 ^ 64) (fun g => g.epc.toNat) fun n g => { g with epc := BitVec.ofNat 64 n },
   gnum i 0x038 1 256 (fun g => g.ecode.toNat) fun n g => { g with ecode := BitVec.ofNat 8 n },
   gnum i 0x040 8 (2 ^ 64) (fun g => g.seed.toNat) fun n g => { g with seed := BitVec.ofNat 64 n },
   gnum i 0x048 4 (2 ^ 32) (fun g => g.ctr.toNat) fun n g => { g with ctr := BitVec.ofNat 32 n },
   gout i 0x04C 4 fun g => g.chunks.length,
   gnum i 0x618 4 (2 ^ 32) (fun g => g.epoch) fun n g => { g with epoch := n }]

/-- Entry `e` of the chunk map (R23). -/
def chunkBlk (i e : Nat) : Blk := gout i (0x050 + 2 * e) 2 fun g => match g.chunks[e]? with | some c => 4096 + c | none => 0

/-- Take the chunk count and map back: each chunk lies in the group's part of the pool. -/
def Group.takeChunks (g : Group) (e : AreaIn) (t : Team) : Option Group := do
  let n ← e.num (grpOff g.idx + 0x04C) 4
  let m ← e.bytes (grpOff g.idx + 0x050) 64
  let ent (k : Nat) : Nat := numAt m (2 * k) 2
  let p := t.poolOf g.idx
  if n ≤ 32 && (List.range 32).all fun k =>
      if k < n then decide (4096 + p.base ≤ ent k) && decide (ent k < 4096 + p.base + p.size) else ent k == 0 then
    some { g with chunks := (List.range n).map fun k => ent k - 4096 }
  else none

/-! ### The lookahead (R396, R398) -/

/-- The lanes of a pending word with their pieces on SYSTEM pages. -/
def PendOp.sysLanes (op : PendOp) : List (Nat × List Piece) :=
  match op with
  | .load ls | .atomic ls _ _ | .tcons ls | .tcnt ls => ls.map fun l => (l.lane, l.sys)
  | _ => []

/-- Offset of an owed slot. -/
def slotOff (i k lane : Nat) : Nat := 0x50000 + 8192 * i + 512 * k + 8 * lane

/-- The bytes that a line's reply gives a piece, before a version's own are laid over them. -/
def LaEnt.replyBytes (e : LaEnt) (lane : Nat) (p : Piece) : Option (List Byte) :=
  match e.reply lane p.va with
  | .replied d => some (((d.map fun x => BitVec.ofNat 8 x).drop (p.va.toNat % 128 - e.loadOff lane p.va)).take p.n)
  | _ => none

/-- A pending atomic reads its old value by a load of a line (R316). -/
def LaEnt.byLoad (e : LaEnt) : Bool :=
  match e.op with
  | .load _ => true
  | .atomic _ _ _ => e.vers.isSome
  | _ => false

/-- The bytes that the replies of an entry leave in its owed slots, 8 per lane. -/
def LaEnt.owedSlots (e : LaEnt) : List (Nat × List Byte) :=
  e.op.sysLanes.filterMap fun x =>
    if x.2.isEmpty then none
    else if e.byLoad then (x.2.mapM (e.replyBytes x.1)).map fun b => (x.1, (b.flatten ++ List.replicate 8 0).take 8)
    else match x.2 with
      | [] => none
      | p :: _ => (match e.sysVal x.1 p with | .ok v => some (x.1, bytesOf 8 v) | .error _ => none)

/-- The pieces of a lane with their places in its slot. -/
def slotPieces (o : Nat) : List Piece → List (Nat × Piece)
  | [] => []
  | p :: r => (o, p) :: slotPieces (o + p.n) r

/-- The data of a line's load, with what the slots hold of it. -/
def LaEnt.lineData (e : LaEnt) (slot : Nat → Option (List Byte)) (q : OwedReq) (n : Nat) : Option (List Nat) :=
  let off := match q.lanes with | l :: _ => e.loadOff l q.va | [] => 0
  let old : List Byte := match q.st with | .replied d => d.map fun x => BitVec.ofNat 8 x | _ => List.replicate n 0
  let put (b : List Byte) (l : Nat) : Option (List Byte) := (slot l).map fun x =>
    ((e.op.sysLanes.filter fun y => y.1 == l).flatMap fun y => (slotPieces 0 y.2).filter fun z => lineVa z.2.va == lineVa q.va).foldl
      (fun b z => Sys2Proof.Machine.overlay off (z.2.va.toNat % 128) ((x.drop z.1).take z.2.n) b) b
  (q.lanes.foldl (fun (o : Option (List Byte)) l => o.bind fun b => put b l) (some old)).map fun b => b.map (·.toNat)

/-- The replies of an entry as its owed slots hold them (R396). -/
def LaEnt.takeSlots (e : LaEnt) (slot : Nat → Option (List Byte)) : Option LaEnt := do
  let owed ← e.owed.mapM fun q => do
    let d ←
      if e.byLoad then
        e.lineData slot q (match e.asks.find? fun a => a.va == q.va && a.lanes == q.lanes with | some ⟨_, _, _, .load _ n _ _⟩ => n | _ => 8)
      else match e.op with
        | .tcons _ => q.lanes.mapM fun l => (slot l).map natOf
        | _ => (match q.lanes with | l :: _ => (slot l).map fun b => [natOf b] | [] => some [])
    some { q with st := .replied d }
  some { e with owed := owed }

/-- An entry whose requests have failed. -/
def LaEnt.allFailed (e : LaEnt) : LaEnt :=
  if e.owed.any fun o => match o.st with | .failed _ => true | _ => false then e
  else { e with owed := e.owed.map fun o => { o with st := .failed .dataLost } }

/-- The entry of a word at an address. -/
def LaEnt.at_ (x : LaEnt) (e : AreaIn) (w : Nat) (a : Addr) : Option LaEnt :=
  if a = x.pc then some x
  else (e.word a).map fun i => { x with pc := a, word := i, dests := match i.view w with | some v => v.dests | none => [] }

/-- A delivered entry whose word the device does not hold. -/
def newEntry (w : Instr) : LaEnt := ⟨0, w, 0, true, [], 0, 0, .write [], [], none, [], 0, none, 0, 0, [], false, [], []⟩

/-- Entry `k` of the lookahead of a group as the area holds it; the outer `none` fails the check. -/
def Group.takeEntry (g : Group) (e : AreaIn) (k : Nat) : Option (Option LaEnt) := do
  let n ← e.num (grpOff g.idx + 0x100 + 16 * k) 16
  let m ← e.num (grpOff g.idx + 0xE00 + 8 * k) 8
  let a := n % 2 ^ 64
  let win := bits n 71 64
  let code := bits n 79 72
  if 2 ^ 56 ≤ a ∨ 15 < win ∨ 4 < code ∨ n / 2 ^ 88 ≠ 0 ∨ 2 ^ g.width ≤ m ∨ (code ≠ 0 ∧ bits n 87 80 ≠ k) then none
  else
    let set (x : LaEnt) : Option LaEnt :=
      (x.at_ e g.width (BitVec.ofNat 56 a)).map fun x => { x with window := win, act := BitVec.ofNat 64 m }
    match g.la[k]?, code with
    | some x, 0 => if x.code = 0 then (set x).map some else some none
    | none, 0 => some none
    | some x, 1 => (set x).map fun x => some { x with done := true, owed := if x.done then x.owed else [] }
    | none, 1 => (e.word (BitVec.ofNat 56 a)).bind fun i => (set (newEntry i)).map some
    | none, _ => none
    | some x, c =>
      if x.owed.isEmpty || x.done then none
      else (set x).bind fun x =>
        if c = 2 then some (some x)
        else if c = 3 then (x.takeSlots fun l => e.bytes (slotOff g.idx k l) 8).map some
        else some (some x.allFailed)

/-- Take the lookahead back. -/
def Group.takeLa (g : Group) (e : AreaIn) : Option Group :=
  ((List.range 16).mapM (g.takeEntry e)).map fun xs => { g with la := xs.filterMap id }

/-- An entry of the lookahead, and the lane mask of its word. -/
def laBlks (i k : Nat) : List Blk :=
  let ent (g : Group) (f : LaEnt → Nat) : Nat := match g.la[k]? with | some e => f e | none => 0
  [gout i (0x100 + 16 * k) 8 fun g => ent g fun e => e.pc.toNat,
   gout i (0x108 + 16 * k) 3 fun g => ent g fun e => e.window + e.code * 2 ^ 8 + k * 2 ^ 16,
   gout i (0xE00 + 8 * k) 8 fun g => ent g fun e => e.act.toNat]

/-! ### Tokens, pending list, latches, registers -/

/-- The four masks and addresses of a token. -/
def tokBlks (i k w : Nat) : List Blk :=
  [gnum i (0x400 + 32 * k) 8 (2 ^ w) (fun g => (g.tok k).mem.toNat) fun n g => g.setTok k { g.tok k with mem := BitVec.ofNat 64 n },
   gnum i (0x408 + 32 * k) 8 (2 ^ w) (fun g => (g.tok k).arr.toNat) fun n g => g.setTok k { g.tok k with arr := BitVec.ofNat 64 n },
   gnum i (0x410 + 32 * k) 8 (2 ^ 56) (fun g => (g.tok k).ja.toNat) fun n g => g.setTok k { g.tok k with ja := BitVec.ofNat 56 n },
   gnum i (0x418 + 32 * k) 8 (2 ^ w) (fun g => (g.tok k).ej.toNat) fun n g => g.setTok k { g.tok k with ej := BitVec.ofNat 64 n }]

/-- Entry `k` of the pending list, entry 0 at the bottom; `g.pend` has the top entry first. -/
def pendBlks (i k : Nat) : List Blk :=
  let ent (g : Group) (f : Pend → Nat) : Nat :=
    if k < g.pend.length then (match g.pend[g.pend.length - 1 - k]? with | some e => f e | none => 0) else 0
  [gout i (0x500 + 16 * k) 8 fun g => ent g fun e => e.pc.toNat + e.tok.val * 2 ^ 56, gout i (0x508 + 16 * k) 8 fun g => ent g fun e => e.mask.toNat]

/-- Take the pending list back: the entries that the device holds, and those with a lane. -/
def Group.takePend (g : Group) (e : AreaIn) : Option Group := do
  let xs ← (List.range 16).mapM fun k => do
    let a ← e.num (grpOff g.idx + 0x500 + 16 * k) 8
    let m ← e.num (grpOff g.idx + 0x508 + 16 * k) 8
    if 2 ^ 59 ≤ a ∨ 2 ^ g.width ≤ m then none
    else some (if k < g.pend.length ∨ m ≠ 0 then
      some (Pend.mk (BitVec.ofNat 56 a) (BitVec.ofNat 64 m) (Fin.ofNat 8 (a / 2 ^ 56))) else none)
  some { g with pend := (xs.filterMap id).reverse }

/-- The width byte of a latch: 4 or 8; of a wider value the area holds 8 bytes of each lane (log 27). -/
def Latch.width (l : Latch) : Nat := if l.bytes ≤ 4 then 4 else 8

/-- A latch: its head and its values, 8 bytes per lane. -/
def latchBlks (i k w : Nat) : List Blk :=
  let head (g : Group) : Nat := match g.latch k with
    | some l => 1 + l.life * 2 ^ 8 + l.width * 2 ^ 16 + bnat l.uniform * 2 ^ 24
    | none => 0
  let val (g : Group) (j : Nat) : Nat := match g.latch k with | some l => (l.vals.getD j 0).toNat % 2 ^ 64 | none => 0
  gout i (0x600 + 8 * k) 4 head :: (List.range w).map fun j => gout i (0x800 + 512 * k + 8 * j) 8 fun g => val g j

/-- A latch of the area, where the device holds `old`. -/
def takeLatch (old : Option Latch) (life width : Nat) (uniform : Bool) (vals : List Nat) : Latch :=
  match old with
  | some l =>
    let more (j : Nat) : Nat := if l.width = width then (l.vals.getD j 0).toNat / 2 ^ (8 * width) * 2 ^ (8 * width) else 0
    ⟨vals.zipIdx.map fun v => BitVec.ofNat 128 (v.1 % 2 ^ (8 * width) + more v.2), uniform, if l.width = width then l.bytes else width, life⟩
  | none => ⟨vals.map fun v => BitVec.ofNat 128 (v % 2 ^ (8 * width)), uniform, width, life⟩

/-- Take latch `k` back. -/
def Group.takeLatch (g : Group) (e : AreaIn) (k : Nat) : Option Group := do
  let n ← e.num (grpOff g.idx + 0x600 + 8 * k) 8
  let b := bits n 23 16
  if 2 ^ 25 ≤ n ∨ 1 < n % 256 ∨ 2 < bits n 15 8 ∨ (n % 256 = 1 ∧ b ≠ 4 ∧ b ≠ 8) then none
  else if n % 256 = 0 then some { g with l := g.l.setIfInBounds k none }
  else
    let vs ← (List.range g.width).mapM fun j => e.num (grpOff g.idx + 0x800 + 512 * k + 8 * j) 8
    some { g with l := g.l.setIfInBounds k (some (Sys2Proof.Machine.takeLatch (g.latch k) (bits n 15 8) b (bitAt n 24) vs)) }

/-- The pool index of a physical chunk: the even core's part first (R448). -/
def Team.poolIx (t : Team) (i c : Nat) : Nat := if t.coreOf i = t.core then c - t.pool.base else t.pool.size + (c - t.poolOdd.base)

/-- A chunk's registers. -/
def chunkData (i e w : Nat) (t : Team) : Blk :=
  let c := match t.grp? i with | some g => g.chunks.getD e 0 | none => 0
  outBlk (0x300000 + 32 * w * t.poolIx i c) (32 * w) fun t => match t.grp? i with
    | some g => ((List.range 8).flatMap fun r => (List.range w).flatMap fun j => bytesOf 4 (g.vreg (8 * e + r) j).toNat)
    | none => []

/-- Take the registers of the mapped chunks back. -/
def Group.takeRegs (g : Group) (e : AreaIn) (t : Team) : Option Group :=
  let w := g.width
  g.chunks.zipIdx.foldl (fun (o : Option Group) c => o.bind fun g =>
    (e.bytes (0x300000 + 32 * w * t.poolIx g.idx c.1) (32 * w)).map fun b =>
      (List.range 8).foldl (fun g r => { g with
        v := Store.setRange 0 g.v (vKey (8 * c.2 + r) 0) ((List.range w).map fun j => BitVec.ofNat 32 (numAt b (4 * (w * r + j)) 4)) }) g)
    (some { g with v := [] })

/-- The blocks of a live group. -/
def groupBlks (t : Team) (g : Group) : List Blk :=
  let i := g.idx
  let w := g.width
  groupHead i w ++ (List.range 32).map (chunkBlk i) ++
  ((List.range 7).map fun k => gnum i (0x090 + 8 * k) 8 (2 ^ w) (fun g => (g.p.getD k 0).toNat) fun n g =>
    { g with p := g.p.setIfInBounds k (BitVec.ofNat 64 n) }) ++
  (List.range 16).flatMap (laBlks i) ++
  ((List.range 64).map fun k => gnum i (0x200 + 8 * k) 8 (2 ^ 64) (fun g => (g.sreg k).toNat) fun n g => g.setS k (BitVec.ofNat 64 n)) ++
  ((List.range 8).flatMap fun k => tokBlks i k w) ++ ((List.range 16).flatMap fun k => pendBlks i k) ++
  ((List.range 3).flatMap fun k => latchBlks i k w) ++
  (List.range g.chunks.length).map fun e => chunkData i e w t

/-- What is taken back of a live group besides its numbers. -/
def groupTakes (i : Nat) : List Take :=
  [grpTake i fun e t g => g.takeState e t, grpTake i fun e t g => g.takeChunks e t, grpTake i fun e t g => g.takeRegs e t,
   grpTake i fun e _ g => g.takeLa e, grpTake i fun e _ g => g.takePend e] ++
  (List.range 3).map fun k => grpTake i fun e _ g => g.takeLatch e k

/-! ### Team state (R399) -/

/-- The flags word. -/
def Team.flagWord (t : Team) (ord : Bool) (stream : Bool) : Nat :=
  bnat (match t.save with | some p => p.forced | none => false) + bnat t.pair * 2 + bnat ord * 4 + bnat t.ref.shadow * 8 + bnat stream * 16

/-- The head of the region, at a timestamp. -/
def teamHead (l : Launch) (time : Nat) : List Blk :=
  [sameBlk 0x00 4 (fun _ => 1), sameBlk 0x04 4 (fun t => t.ref.launch), sameBlk 0x08 4 (fun t => t.ref.idx),
   boundBlk 0x0C 4 (max 1 l.pkt.gx) (·.x) (fun n t => { t with x := n }),
   boundBlk 0x10 4 (max 1 l.pkt.gy) (·.y) (fun n t => { t with y := n }),
   boundBlk 0x14 4 (max 1 l.pkt.gz) (·.z) (fun n t => { t with z := n }),
   numBlk 0x18 4 (fun t => t.flagWord l.pkt.ord (l.pkt.mentry != 0)) fun n t =>
     if n < 32 ∧ n / 2 = t.flagWord l.pkt.ord (l.pkt.mentry != 0) / 2 then some t else none,
   numBlk 0x20 8 (fun _ => time) fun _ t => some t]

/-- Barrier `k`. -/
def barBlk (k : Nat) : Blk :=
  numBlk (0x40 + 4 * k) 4 (fun t => (t.bar k).parts + (t.bar k).arrived * 2 ^ 8 + bnat (t.bar k).phase * 2 ^ 16) fun n t =>
    if n < 2 ^ 17 ∧ n % 256 ≤ 64 ∧ bits n 15 8 ≤ 64 then
      some (t.setBar k { t.bar k with parts := n % 256, arrived := bits n 15 8, phase := bitAt n 16 })
    else none

/-- What a group takes of counter `k`, by its wait. -/
def Team.takeAmount (t : Team) (k i : Nat) : Nat :=
  match t.grp? i with
  | some g => (match g.wait with | .ctake j n => if j = k then n else 0 | _ => 0)
  | none => 0

/-- What a group claims, by its wait. -/
def Team.claimAmount (t : Team) (i : Nat) : Nat :=
  match t.grp? i with
  | some g => (match g.wait with | .rclaim n => n | _ => 0)
  | none => 0

/-- Counter `k` and its take queue. -/
def ctrBlks (k : Nat) : List Blk :=
  [boundBlk (0x80 + 4 * k) 4 (2 ^ 32) (fun t => (t.ctr k).c.toNat) fun n t => t.setCtr k { t.ctr k with c := BitVec.ofNat 32 n },
   ⟨0x100 + 64 * k, 64, fun t => queueBytes (t.ctr k).takes, fun b t =>
     (queueOf (t.ctr k).takes t.groups.length (t.takeAmount k) b).map fun q => t.setCtr k { t.ctr k with takes := q }⟩]

/-- The free bitmap of the pool. -/
def freeBlk : Blk where
  off := 0x900
  len := 512
  get t := bytesOf 512 ((t.pool.free.foldl (fun a c => a + 2 ^ (c - t.pool.base)) 0) +
    t.poolOdd.free.foldl (fun a c => a + 2 ^ (t.pool.size + (c - t.poolOdd.base))) 0)
  put b t :=
    let n := natOf b
    if n < 2 ^ (t.pool.size + t.poolOdd.size) then
      some { t with
        pool := { t.pool with free := ((List.range t.pool.size).filter fun i => bitAt n i).map (t.pool.base + ·) }
        poolOdd := { t.poolOdd with
          free := ((List.range t.poolOdd.size).filter fun i => bitAt n (t.pool.size + i)).map (t.poolOdd.base + ·) } }
    else none

/-- The claim queue: the entries of both parts in one list, in the order the groups joined (R399, R448). -/
def claimBlk : Blk where
  off := 0xB00
  len := 64
  get t := queueBytes t.claims
  put b t := (queueOf t.claims t.groups.length t.claimAmount b).map fun q => { t with claims := q }

/-- Queue `k`: its count, and its contents (R397). -/
def queueBlks (t : Team) (k : Nat) : List Blk :=
  [outNum (0xB40 + 12 * k) 4 (fun t => (t.queues.getD k []).length),
   outBlk (0xE0000 + 1024 * k) (4 * (t.queues.getD k []).length) fun t => (t.queues.getD k []).flatMap fun e => bytesOf 4 e.x.toNat]

/-- Take queue `k` back. -/
def queueTake (k : Nat) : Take := fun e t => do
  let n ← e.num (0xB40 + 12 * k) 12
  if 256 < n then none
  else
    let b ← e.bytes (0xE0000 + 1024 * k) (4 * n)
    some { t with queues := modifyAt (fun q => (List.range n).map fun i =>
      ⟨BitVec.ofNat 32 (numAt b (4 * i) 4), match q[i]? with | some x => x.vc | none => []⟩) k t.queues }

/-- The code table and `LOADED` (R151). -/
def codeBlks : List Blk :=
  [⟨0xC00, 1024, fun t => t.code.toList.flatMap fun x => bytesOf 4 x.toNat,
    fun b t => some { t with code := Vector.ofFn fun i : Fin 256 => BitVec.ofNat 32 (numAt b (4 * i.val) 4) }⟩,
   boundBlk 0x1000 4 2 (fun t => bnat t.loaded) fun n t => { t with loaded := n == 1 }]

/-- Region window `k`: the checked descriptor and the entry of R282. -/
def winBlks (k : Nat) : List Blk :=
  [outNum (0x1040 + 96 * k) 64 fun t => match (t.win k).desc with | some d => d.raw.toNat | none => 0,
   outNum (0x1080 + 96 * k) 24 fun t =>
     let w := t.win k
     bnat w.stop * 2 ^ 28 + w.st.code * 2 ^ 29 + w.next * 2 ^ 32 + w.ofs.toNat * 2 ^ 64 + w.daddr.toNat * 2 ^ 128]

/-- A descriptor of the area: the records that it names are those of the descriptor that the device holds, or are read again where the
area names others. -/
def takeDesc (e : AreaIn) (old : Option WinDesc) (n : Nat) : Option WinDesc := do
  let d ← winFields n
  let lay ← match old.filter fun o => o.layoutAddr == d.layoutAddr with
    | some o => some o.layout
    | none => if d.layoutAddr = 0 then some none else (e.record d.layoutAddr 32).bind fun b => (parseLayout b).map some
  let tpr ← match old.filter fun o => o.tprAddr == d.tprAddr with
    | some o => some o.tpr
    | none => if d.tprAddr = 0 then some none else (e.record d.tprAddr 32).bind fun b => (parseTpr b).map some
  some { d with layout := lay, tpr := tpr }

/-- Take region window `k` back. -/
def winTake (k : Nat) : Take := fun e t => do
  let m ← e.num (0x1040 + 96 * k) 64
  let n ← e.num (0x1080 + 96 * k) 32
  let st ← WinSt.ofCode (bits n 31 29)
  let w := t.win k
  let desc ← if m = 0 then some none else (takeDesc e w.desc m).map some
  if n % 2 ^ 28 = 0 ∧ bits n 63 48 = 0 ∧ bits n 47 32 ≤ 4096 ∧ n < 2 ^ 192 ∧ (st = .unbound ↔ desc = none) then
    some (t.setWin k { w.goOn with
      st := st, desc := desc, stop := bitAt n 28, next := bits n 47 32, ofs := BitVec.ofNat 64 (bits n 127 64)
      daddr := BitVec.ofNat 64 (bits n 191 128) })
  else none

/-- The sequencer (R223; log 27). -/
def seqBlks : List Blk :=
  [boundBlk 0x1C40 8 (2 ^ 56) (fun t => t.sq.spc.toNat) (fun n t => { t with sq := { t.sq with spc := BitVec.ofNat 56 n } }),
   numBlk 0x1C48 2 (fun t => t.sq.sst.code) (fun n t => (SeqSt.ofCode n).map fun c =>
     { t with sq := { t.sq with sst := c, stop := if c = .stopped then some (t.sq.stop.getD (areaStop .stop)) else none } }),
   boundBlk 0x1C4A 2 (2 ^ 16) (fun t => t.sq.sbm.toNat) (fun n t => { t with sq := { t.sq with sbm := BitVec.ofNat 16 n } }),
   boundBlk 0x1C4C 2 (2 ^ 16) (fun t => t.sq.sarv.toNat) (fun n t => { t with sq := { t.sq with sarv := BitVec.ofNat 16 n } }),
   boundBlk 0x1C4E 2 (2 ^ 16) (fun t => t.sq.saph.toNat) (fun n t => { t with sq := { t.sq with saph := BitVec.ofNat 16 n } })] ++
  (List.range 16).map fun k => boundBlk (0x1C80 + 4 * k) 4 (2 ^ 32) (fun t => (t.sq.m.getD k 0).toNat) fun n t =>
    { t with sq := { t.sq with m := t.sq.m.setIfInBounds k (BitVec.ofNat 32 n) } }

/-- Tiles of a team: those of its second core only on a pair (R20). -/
def Team.tiles (t : Team) : Nat := if t.pair then 8 else 4

/-- Owners and drain windows (log 27). -/
def ownerBlks (tiles : Nat) : List Blk :=
  ((List.range tiles).map fun k => boundBlk (0x1CC0 + k) 1 65 (fun t => t.owner.getD k 64) fun n t =>
    { t with owner := t.owner.setIfInBounds k n }) ++
  (List.range 2).map fun k => numBlk (0x1CC8 + 8 * k) 8
    (fun t => let d := t.drain k
      d.base + d.limit * 2 ^ 8 + d.tile * 2 ^ 16 + d.grp * 2 ^ 24 + bnat d.pub * 2 ^ 32)
    fun n t =>
      if n < 2 ^ 33 ∧ n % 256 ≤ bits n 15 8 ∧ bits n 15 8 < 128 ∧ bits n 23 16 < tiles ∧ bits n 31 24 < 64 then
        some { t with dwin := t.dwin.setIfInBounds k ⟨n % 256, bits n 15 8, bits n 23 16, bits n 31 24, bitAt n 32⟩ }
      else none

/-- A latch set. -/
def Team.setAt (t : Team) (i : Nat) : LatchSet := t.sets.getD i LatchSet.empty

def mfmtCode : MFmt → Nat
  | .e4m3 => 0 | .bf16 => 1

def spCode : Sparsity → Nat
  | .dense => 0 | .sp16 => 1 | .sp8 => 2

def mfmtOf : Nat → Option MFmt
  | 0 => some .e4m3 | 1 => some .bf16 | _ => none

def spOf : Nat → Option Sparsity
  | 0 => some .dense | 1 => some .sp16 | 2 => some .sp8 | _ => none

/-- The header of a latch set, with its provenance (R21; log 27), and its contents where it has none (R397). -/
def setBlks (t : Team) (i : Nat) : List Blk :=
  let o := 0x1D00 + 64 * i
  let pv (t : Team) (f : Prov → Nat) : Nat := match (t.setAt i).prov with | some p => f p | none => 0
  let head := fun t : Team => let x := t.setAt i
    bnat x.full + mfmtCode x.fmt * 2 ^ 8 + spCode x.sp * 2 ^ 16 + bnat x.prov.isSome * 2 ^ 24 + x.kv * 2 ^ 32 + x.nv * 2 ^ 48
  [outNum o 8 head, outNum (o + 8) 4 (fun t => (t.setAt i).scale.toNat),
   outNum (o + 12) 4 (fun t => pv t (·.row)), outNum (o + 16) 8 (fun t => pv t (·.gbase)),
   outNum (o + 24) 4 (fun t => pv t fun p => wrap p.rstride 32), outNum (o + 28) 4 (fun t => pv t fun p => p.ext.toNat),
   outNum (o + 32) 8 (fun t => pv t fun p => p.ofs.toNat), outNum (o + 40) 8 (fun t => pv t (·.tprAddr)),
   outNum (o + 48) 1 (fun t => pv t fun p => bnat p.col + 2 * bnat p.exp + 4 * spCode p.sp)] ++
  (if (t.setAt i).full && (t.setAt i).prov.isNone then
    [outBlk (0x100000 + 0x8000 * i) 0x8000 fun t => (List.range 16384).flatMap fun k => bytesOf 2 (Store.get 0 (t.setAt i).w k).toNat]
   else [])

/-- A provenance with the fields of the area. -/
def Prov.take (p : Prov) (e : AreaIn) (o : Nat) : Option Prov := do
  let row ← e.num (o + 12) 4
  let g ← e.num (o + 16) 8
  let r ← e.num (o + 24) 4
  let x ← e.num (o + 28) 4
  let f ← e.num (o + 32) 8
  let a ← e.num (o + 40) 8
  let k ← e.num (o + 48) 1
  let sp ← spOf (k / 4)
  if 4096 ≤ row ∨ 2 ^ 56 ≤ a then none
  else some { p with row := row, gbase := g, rstride := sext r 32, ext := BitVec.ofNat 32 x, ofs := BitVec.ofNat 64 f, tprAddr := a,
                     col := bitAt k 0, exp := bitAt k 1, sp := sp }

/-- Take a latch set back; a provenance is one that the device holds the window of (log 27). -/
def setTake (i : Nat) : Take := fun e t => do
  let o := 0x1D00 + 64 * i
  let n ← e.num o 8
  let sc ← e.num (o + 8) 4
  let fmt ← mfmtOf (bits n 15 8)
  let sp ← spOf (bits n 23 16)
  let old := t.setAt i
  if 1 < n % 256 ∨ 1 < bits n 31 24 ∨ 128 < bits n 47 32 ∨ 128 < bits n 63 48 then none
  else
    let prov ← if bitAt n 24 then old.prov.bind fun p => (p.take e o).map some else some none
    let w ← if bitAt n 0 && prov.isNone then
        (e.bytes (0x100000 + 0x8000 * i) 0x8000).map fun b =>
          Store.setRange 0 [] 0 ((List.range 16384).map fun k => BitVec.ofNat 16 (numAt b (2 * k) 2))
      else some old.w
    let x : LatchSet := ⟨bitAt n 0, fmt, sp, bits n 47 32, bits n 63 48, BitVec.ofNat 32 sc, prov, w⟩
    some { t with sets := t.sets.setIfInBounds i x }

/-- The epochs and the scope. -/
def epochBlks : List Blk :=
  [boundBlk 0x1E00 4 (2 ^ 16) (·.scope) (fun n t => { t with scope := n }),
   outNum 0x1E04 4 (fun t => t.liveGroups.foldl (fun m g => min m g.epoch) (match t.liveGroups with | g :: _ => g.epoch | [] => 0))]

/-- The full/empty bits. -/
def fullBlk : Blk where
  off := 0x2000
  len := 2048
  get t := bytesOf 2048 (t.full.foldl (fun a e => a + 2 ^ e.1) 0)
  put b t :=
    let n := natOf b
    if n < 2 ^ (t.spadSize / 128) then
      some { t with full := ((List.range (t.spadSize / 128)).filter fun i => bitAt n i).map fun i => (i, true) }
    else none

/-- The word is one that waits in the mesh queue (R224). -/
def isMeshWord : Instr → Bool
  | .mlatch _ | .mstreamF _ | .mstreamB _ | .mzero _ | .mscale _ | .mdrain _ | .mdrainT _ => true
  | _ => false

/-- A mesh word saved where it stands (R250), and whether the entry is one. -/
def meshBlks (t : Team) (k : Nat) : List Blk :=
  let o := 0x2800 + 64 * k
  outNum (o + 48) 1 (fun t => bnat (t.mq[k]?).isSome) ::
  match t.mq[k]? with
  | none => []
  | some m =>
    [outNum o 12 fun _ => match encode m.word with | some w => w.toNat | none => 0, outNum (o + 12) 8 fun _ => m.pc.toNat,
     outNum (o + 20) 4 fun _ => m.d.toNat, outNum (o + 24) 4 fun _ => m.a.toNat, outNum (o + 28) 4 fun _ => m.b.toNat,
     outNum (o + 32) 16 fun _ => m.rows.toNat]

/-- Entry `k` of the mesh queue as the area holds it. -/
def Team.takeMeshWord (t : Team) (e : AreaIn) (k : Nat) : Option (Option MeshWord) := do
  let o := 0x2800 + 64 * k
  let v ← e.num (o + 48) 1
  if v = 0 then some none
  else
    let n ← e.num o 64
    match decodeWord (BitVec.ofNat 96 (bits n 95 0)) with
    | .error _ => none
    | .ok i =>
      if n / 2 ^ 384 ≠ 1 ∨ 2 ^ 56 ≤ bits n 159 96 ∨ isMeshWord i = false then none
      else
        let old := (t.mq[k]?).getD ⟨i, 0, 0, 0, 0, 0, 0, [], false, [], none, none⟩
        some (some { old with
          word := i, pc := BitVec.ofNat 56 (bits n 159 96), d := BitVec.ofNat 32 (bits n 191 160), a := BitVec.ofNat 32 (bits n 223 192)
          b := BitVec.ofNat 32 (bits n 255 224), rows := BitVec.ofNat 128 (bits n 383 256)
          early := []
          late := none
          since := none })

/-- Take the mesh queue back. -/
def meshTake : Take := fun e t => ((List.range 8).mapM (t.takeMeshWord e)).map fun ms => { t with mq := ms.filterMap id }

/-! ### Continuations, accumulators, scratchpad -/

/-- Continuation `k` in queue order (R169, R397; log 27). -/
def contBlks (t : Team) (k : Nat) : List Blk :=
  let o := 0xD0000 + 1024 * k
  let ent (t : Team) (f : Cont → Nat) : Nat := match t.conts[k]? with | some c => f c | none => 0
  let updC (t : Team) (f : Cont → Cont) : Team := { t with conts := modifyAt f k t.conts }
  let upd (t : Team) (f : Group → Group) : Team := updC t fun c => { c with g := f c.g }
  let n := match t.conts[k]? with | some c => 8 * c.c | none => 0
  ((List.range 64).map fun j => boundBlk (o + 8 * j) 8 (2 ^ 64) (fun t => ent t fun c => (c.g.sreg j).toNat) fun n t =>
    upd t fun g => g.setS j (BitVec.ofNat 64 n)) ++
  ((List.range n).map fun r => boundBlk (o + 512 + 4 * r) 4 (2 ^ 32) (fun t => ent t fun c => (c.g.vreg r 0).toNat) fun n t =>
    upd t fun g => g.setV r 0 (BitVec.ofNat 32 n)) ++
  [boundBlk (o + 0x3C0) 1 128 (fun t => ent t fun c => (List.range 7).foldl (fun a j => a + (c.g.p.getD j 0).toNat % 2 * 2 ^ j) 0)
     (fun n t => upd t fun g => { g with p := Vector.ofFn fun j : Fin 7 => if bitAt n j.val then 1 else 0 }),
   boundBlk (o + 0x3C1) 1 t.groups.length (fun t => ent t (·.origin)) (fun n t => updC t fun c => { c with origin := n }),
   boundBlk (o + 0x3C2) 1 t.width (fun t => ent t (·.lane)) (fun n t => updC t fun c => { c with lane := n }),
   boundBlk (o + 0x3C3) 1 8 (fun t => ent t fun c => c.tok.val) (fun n t => updC t fun c => { c with tok := Fin.ofNat 8 n }),
   boundBlk (o + 0x3C4) 1 15 (fun t => ent t (·.c)) (fun n t => updC t fun c => { c with c := n }),
   boundBlk (o + 0x3C5) 1 4 (fun t => ent t fun c => c.g.stateCode t) (fun n t => upd t fun g => if g.st = .ended then g else g.inState t n),
   boundBlk (o + 0x3C8) 8 (2 ^ 56) (fun t => ent t fun c => c.g.pc.toNat) fun n t => upd t fun g => { g with pc := BitVec.ofNat 56 n }]

/-- Row `r` of a tile, 8 bytes per element in the form of R107, whose bits 63:48 a restore ignores. -/
def accBlk (tile r : Nat) : Blk :=
  ⟨0x200000 + 0x20000 * tile + 1024 * r, 1024,
    fun t => (List.range 128).flatMap fun c => bytesOf 8 (t.accGet tile r c).toNat,
    fun b t =>
      some { t with acc := Store.setRange 0 t.acc (accKey tile r 0) ((List.range 128).map fun c => BitVec.ofNat 48 (numAt b (8 * c) 6)) }⟩

/-- A span of the scratchpad. -/
def spanBlk (k : Nat) : Blk :=
  ⟨0x600000 + 16384 * k, 16384, fun t => t.spadRead (16384 * k) 16384,
    fun b t => some { t with spad := Store.setRange 0 t.spad (16384 * k) b }⟩

/-- Latch sets of a team: those of its second mesh only on a pair (R21). -/
def Team.setCount (t : Team) : Nat := if t.pair then 4 else 2

/-- Every block of a team's area; regions that the team does not use are none (R397). -/
def areaBlks (l : Launch) (t : Team) (time : Nat) : List Blk :=
  teamHead l time ++ (List.range 16).map barBlk ++ (List.range 32).flatMap ctrBlks ++ [freeBlk, claimBlk] ++
  (List.range t.queues.length).flatMap (queueBlks t) ++ codeBlks ++ (List.range 32).flatMap winBlks ++ ownerBlks t.tiles ++
  (if l.pkt.mentry = 0 then [] else
    seqBlks ++ (List.range t.setCount).flatMap (setBlks t) ++ (List.range 8).flatMap (meshBlks t)) ++
  epochBlks ++ [fullBlk] ++ t.liveGroups.flatMap (groupBlks t) ++ (List.range t.conts.length).flatMap (contBlks t) ++
  ((List.range t.tiles).flatMap fun k => (List.range 128).map (accBlk k)) ++ (List.range t.spans).map spanBlk

/-- The reserved bytes of the map (R397, R399), in parts of at most 16 KiB. -/
def reservedTakes : List Take :=
  [zeroTake 0x1C 4, zeroTake 0x28 24, zeroTake 0x1E08 8] ++ (List.range 7).map (fun i => zeroTake (0xE4000 + 0x4000 * i) 0x4000) ++
  (List.range 56).map (fun i => zeroTake (0x120000 + 0x4000 * i) 0x4000) ++ (List.range 64).map fun i => zeroTake (0x500000 + 0x4000 * i) 0x4000

/-- What is taken back of a team besides its blocks. -/
def areaTakes (l : Launch) (t : Team) : List Take :=
  reservedTakes ++ (List.range t.queues.length).map queueTake ++ (List.range 32).map winTake ++
  (if l.pkt.mentry = 0 then [] else (List.range t.setCount).map setTake ++ [meshTake]) ++ t.liveGroups.flatMap fun g => groupTakes g.idx

/-! ### The area in memory -/

/-- The physical address of a byte of an area, under the launch's context. -/
def State.areaPa (s : State) (ctx : Nat) (q : Want) (va : Nat) : Option Nat :=
  match s.xlat none ctx (BitVec.ofNat 56 va) q with
  | .ok p => if pteSystem p then none else some (paOf p (BitVec.ofNat 56 va))
  | .error _ => none

/-- The lines of `n` bytes at a physical address. -/
def paLines (pa n : Nat) : List Nat := (List.range ((pa % 128 + n + 127) / 128)).map fun i => lineOf pa + 128 * i

/-- The lost lines that bytes at an address touch and do not cover. -/
def State.lostPart (s : State) (pa n : Nat) : List Nat :=
  (paLines pa n).filter fun ln => s.isLost ln && !(decide (pa ≤ ln) && decide (ln + 128 ≤ pa + n))

/-- Bytes of a block that are written: those of a lost line that the block does not cover are not. -/
def blockWrite (m : Memory) (lost : List Nat) (pa : Nat) (b : List Byte) : Memory :=
  if lost.isEmpty then Store.setRange memDefault m pa b
  else b.zipIdx.foldl (fun m e => if lost.contains (lineOf (pa + e.2)) then m else Store.set memDefault m (pa + e.2) e.1) m

/-- Write a block: a lost line that it covers whole is lost no more, one that it touches otherwise stays as it is (R295). -/
def State.areaWrite (s : State) (ctx area : Nat) (off : Nat) (b : List Byte) : Option State :=
  (s.areaPa ctx (wantStore true) (area + off)).map fun pa =>
    let bad := s.lostPart pa b.length
    let whole := (paLines pa b.length).filter fun ln => s.isLost ln && !bad.contains ln
    { s with mem := blockWrite s.mem bad pa b, lost := whole.foldl (fun m ln => Store.set false m ln false) s.lost }

/-- The first lost line that a block meets and cannot write. -/
def State.areaLost (s : State) (ctx area off n : Nat) : Option Nat :=
  (s.areaPa ctx (wantStore true) (area + off)).bind fun pa => (s.lostPart pa n).head?

/-- Read bytes of an area; a lost line fails. -/
def State.areaRead (s : State) (ctx area off len : Nat) : Option (List Byte) :=
  if len = 0 then some []
  else (s.areaPa ctx (wantLoad true) (area + off)).bind fun pa =>
    if (paLines pa len).any fun ln => s.isLost ln then none else some (s.mem.read pa len)

/-- The parts of bytes at `p.1` that lie outside the `n` bytes at `h`. -/
def cutHole (h n : Nat) (p : Nat × List Byte) : List (Nat × List Byte) :=
  let stop := p.1 + p.2.length
  if h + n ≤ p.1 ∨ stop ≤ h then [p]
  else (if p.1 < h then [(p.1, p.2.take (h - p.1))] else []) ++ (if h + n < stop then [(h + n, p.2.drop (h + n - p.1))] else [])

/-- The places of the area, with their lengths, whose contents a save cannot read: lost lines of the team's spans (R8, R295). -/
def Team.holes (t : Team) : List (Nat × Nat) :=
  (t.spLost.map fun e => (0x600000 + 128 * e.1, 128)) ++ t.rLost.map fun e =>
    let c := e.1 / 16 % 4096
    let ix := if e.1 / 65536 = 0 then c - t.pool.base else t.pool.size + (c - t.poolOdd.base)
    (0x300000 + 32 * t.width * ix + 4 * t.width * (e.1 % 16 / 2) + 128 * (e.1 % 2), min 128 (4 * t.width))

/-- Write every block of a team; what it cannot read is not written. -/
def State.writeArea (s : State) (l : Launch) (t : Team) (area : Nat) : Option State :=
  (areaBlks l t (s.timeAt l.die)).foldl (fun (o : Option State) b =>
    (t.holes.foldl (fun ps h => ps.flatMap (cutHole h.1 h.2)) [(b.off, b.get t)]).foldl (fun o p =>
      o.bind fun s => s.areaWrite l.pkt.ctx area p.1 p.2) o) (some s)

/-- The first lost line of its area that a team's save meets and cannot write (R295). -/
def State.saveLost (s : State) (l : Launch) (t : Team) (area : Nat) : Option Nat :=
  (areaBlks l t 0).findSome? fun b => s.areaLost l.pkt.ctx area b.off b.len

/-- What a restore of an area reads. -/
def State.areaIn (s : State) (l : Launch) (t : Team) (area : Nat) : AreaIn where
  bytes off len := s.areaRead l.pkt.ctx area off len
  word a := match (s.fetchWord t.core l.pkt.ctx true true t.width a).1 with | .word i => some i | _ => none
  record va n := if 2 ^ 56 ≤ va then none else
    match s.xlat none l.pkt.ctx (BitVec.ofNat 56 va) (wantLoad true) with
    | .ok p => if pteSystem p || s.isLost (paOf p (BitVec.ofNat 56 va)) then none else some (s.mem.read (paOf p (BitVec.ofNat 56 va)) n)
    | .error _ => none

/-- Take every block back, then what is read besides: the team that the area holds, if it passes the check. -/
def State.takeArea (s : State) (l : Launch) (t : Team) (area : Nat) : Option Team :=
  let e := s.areaIn l t area
  let u := (areaBlks l t 0).foldl (fun (o : Option Team) b => o.bind fun u => (e.bytes b.off b.len).bind fun x => b.put x u) (some t)
  (areaTakes l t).foldl (fun (o : Option Team) f => o.bind (f e)) u

end Sys2Proof.Machine
end

