-- ==== Sys2Proof/Machine/Save.lean ====
section
/-! DEFINITION. Pre-emption (R392 to R396): yield points, the deadline, the save of a team; its restore (R400) and the placement of
teams (R337); owed replies; and the commands on units of a team (R388, R390, R405, R422). -/
namespace Sys2Proof.Machine

/-! ### When a save can be written (R395) -/

/-- A result that is formed and waits for room in its queue. -/
def LaEnt.pushWaits (e : LaEnt) (t : Team) : Bool :=
  match e.op with
  | .write _ => t.pushFull e
  | _ => false

/-- An entry that needs no waiting for: delivered, owed by a peer, withdrawn (TNEXT), or waiting on a line nothing will fill or on a
queue without room, where it is taken as it stands (R96, R177; log 27). -/
def LaEnt.savable (e : LaEnt) (t : Team) : Bool :=
  e.done || (!e.owed.isEmpty && !e.answered) || e.op == .tnext || (e.deadLine t).isSome || e.pushWaits t

/-- Everything of a party that a save waits for has happened: its words are drained, a failure after acceptance has stopped it, and a
QNTT has finished, unless it waits on a line that nothing will fill. Posted stores and
contributions stay posted (R395). -/
def Group.settledIn (g : Group) (t : Team) : Bool := (g.la.all fun e => e.savable t) && !g.lateReady && (!g.inQntt || (g.blockedOn t).isSome)

/-- A team has settled. -/
def Team.settledForSave (t : Team) : Bool :=
  (t.groups.all fun g => g.settledIn t) && (t.conts.all fun c => c.g.settledIn t) && t.meshSettled

/-- Every group is at a yield point. -/
def Team.allYield (t : Team) : Bool := t.groups.all fun g => g.atYield t

/-- The deadline of a team's pre-emption expires: every group that is not at a yield point stops at its word boundary (R394). -/
def State.preemptDeadline (s : State) (r : TeamRef) : State :=
  s.modTeam r fun t =>
    match t.save with
    | some p =>
      if p.started || decide (s.clock < p.deadline) then t
      else { t with save := some { p with started := true, forced := !t.allYield } }
    | none => t

/-! ### The save -/

/-- A group as it is saved: a waiting TNEXT is withdrawn and becomes its replay word, record reads at a peer are made again (R393). -/
def Group.toSave (g : Group) : Group :=
  let reads (e : LaEnt) : Bool := e.done && e.window == 0 && !e.owed.isEmpty && e.fail.isNone
  let g := { g with la := g.la.filter fun e => !reads e }
  match g.replay, g.la.find? fun e => !e.done && e.op == .tnext with
  | none, some e =>
    { g with
      la := g.la.filter fun x => x != e
      replay := some ⟨e.pc, e.word, 0, [], []⟩
      wait := if g.wait == .engine then .tnext else g.wait }
  | _, _ => g

/-- A latch set that a saved MLATCH would have written is saved as empty (R250). -/
def Team.emptySets (t : Team) : Team :=
  { t with sets := (t.mq.filterMap fun m => match m.word with
      | .mlatch w => some (setIx (if w.second then 4 else 0) w.l.val)
      | _ => none).foldl (fun v i => v.setIfInBounds i LatchSet.empty) t.sets }

/-- A team as it is saved; chunks given up have joined their free lists. -/
def Team.toSave (t : Team) : Team :=
  let all (p : PoolPart) : PoolPart :=
    { p with free := p.returning.foldl (fun f e => insertSorted e.1 f) p.free, returning := [] }
  ({ t with
     groups := t.groups.map Group.toSave
     pool := all t.pool
     poolOdd := all t.poolOdd } : Team).emptySets

/-- Nothing of a team is left on its cores: the L1 has written its words back, its continuations and copies have left (log 27), and the
marks of lost lines stay with their spans (R8). -/
def State.vacate (s : State) (t : Team) : State :=
  let s := s.leaveMarks t
  let s := t.cores.foldl (fun s c => (s.releaseDev c).modCore c fun k => { k with
    helper := k.helper.filter fun h => h.1 != t.ref
    runs := k.runs.map fun g => match g with | some g => if g.t == t.ref then none else some g | none => none
    copies := k.copies.filter fun e => e.1 != t.ref }) s
  { s with teams := s.teams.filter fun u => u.ref != t.ref }

/-- A line of an area is lost: a record of the command processor names it (R295; log 27). -/
def State.areaFault (s : State) (l : Launch) (r : TeamRef) (line : Nat) : State :=
  s.raiseDie l.die .cmdProc .dataLost (BitVec.ofNat 128 line) 0 r.idx l.num 0 r.shadow

/-- The first line of its spans that a team holds as lost, as a record names it: the byte of the spans and the core (R295; log 28). -/
def State.teamLost (s : State) (t : Team) : Option W128 :=
  t.cores.findSome? fun c => (t.lostSpans c (s.core c).ps).head?.map fun n => info2 (128 * n) c

/-- A save meets a lost line of the team's own spans (R8; log 27). -/
def State.spanFault (s : State) (l : Launch) (t : Team) : State :=
  match s.teamLost t with
  | some i => s.raiseDie l.die .cmdProc .dataLost i 0 t.ref.idx l.num 0 t.ref.shadow
  | none => s

/-- Write a settled team into its area and let it leave its core; `none` while the area cannot be written. A lost line that is not
written whole stays lost, so that a restore from the area fails its check. A lost line of the team's own spans is not copied: its place
in the area stays as it was, and a record names it (R8). -/
def State.saveTeam (s : State) (t : Team) (area : Nat) : Option State :=
  match s.launch? t.ref.launch with
  | none => none
  | some l =>
    let u := t.toSave
    let lost := s.saveLost l u area
    if (lost.isSome || (s.teamLost t).isSome) && !s.srcRoomFor l.die .cmdProc 2 then none
    else (s.writeArea l u area).map fun s =>
      let s := match lost with | some ln => s.areaFault l t.ref ln | none => s
      ((s.spanFault l t).vacate t).modLaunch l.num fun l =>
        { l with saved := l.saved ++ [⟨t.ref, area, { u with spLost := [], rLost := [] }, false⟩] }

/-- The save of a team starts when every group is at a yield point, and is written once the team has settled (R393, R395). -/
def State.teamSave (s : State) (r : TeamRef) : State :=
  match s.team? r with
  | none => s
  | some t =>
    match t.save with
    | none => s
    | some p =>
      if !p.started then (if t.allYield then s.setTeam { t with save := some { p with started := true } } else s)
      else if !t.settledForSave then s
      else (s.saveTeam t p.area).getD s

/-! ### Owed replies (R396) -/

/-- The area to which a team's owed replies go: that of a saved team, or that from which a resident one was restored while replies were
still to come. -/
def State.owedTo (s : State) (r : TeamRef) : Option Nat :=
  match s.team? r with
  | some t => t.owedArea
  | none => (s.saved? r).map (·.area)

/-- The replies owed to entry `i` of a saved or restored group have come: they go to its owed slots, and the slot's state becomes 3, or 4
where a request failed. -/
def State.owedReply (s : State) (r : GRef) (i : Nat) : State :=
  match s.launch? r.t.launch with
  | none => s
  | some l =>
    match s.owedTo r.t, r.who with
    | some area, .grp n =>
      (match s.party? r with
       | none => s
       | some g =>
         match g.la[i]? with
         | none => s
         | some e =>
           if e.code < 3 then s
           else
             let put (o : Option State) (off : Nat) (b : List Byte) : Option State := o.bind fun s => s.areaWrite l.pkt.ctx area off b
             let o := e.owedSlots.foldl (fun o k => put o (slotOff n i k.1) k.2) (some s)
             (put o (grpOff n + 0x109 + 16 * i) [BitVec.ofNat 8 e.code]).getD s)
    | _, _ => s

/-! ### Units and the host (R388, R390, R405, R422) -/

/-- A group that is stopped or parked as itself, not at its segment's end. -/
def Group.halts (g : Group) : Bool :=
  (g.st == .stopped || g.st == .parked) && (match g.stop with | some i => !i.segment | none => false)

/-- Resume the groups `sel` of a team that can be resumed; `none` if there is none. -/
def State.resumeGroups (s : State) (t : Team) : Option State :=
  let gs := t.groups.filter fun g => g.halts && s.canResume ⟨t.ref, .grp g.idx⟩
  if gs.isEmpty then none else some (gs.foldl (fun s g => s.resumeGroup ⟨t.ref, .grp g.idx⟩) s)

/-- RESUME of a team: its segment's end (R356), or every stopped or parked group of it and of its shadow. -/
def State.resumeTeam (s : State) (t : Team) : Option State :=
  match t.seg with
  | some g =>
    if g.failed.isSome then s.segResume t.ref
    else
      let a := s.resumeGroups t
      (match s.team? { t.ref with shadow := true } with
       | some u => ((a.getD s).resumeGroups u).or a
       | none => a)
  | none => s.resumeGroups t

/-- DISCARD of a team: at its segment's end both versions and the launch (R356); else the team and its shadow, if a group is stopped
or parked. -/
def State.discardTeamUnit (s : State) (t : Team) : Option State :=
  if (match t.seg with | some g => g.failed.isSome | none => false) then some (s.discardLaunch t.ref.launch)
  else
    let u := { t.ref with shadow := true }
    let halts := (t.groups.any Group.halts) || (match s.team? u with | some t => t.groups.any Group.halts | none => false)
    if halts then some ((s.discardTeam t.ref).discardTeam u) else none

/-- Whether a unit of a team is stopped or parked as the command names it: kind and index of R422. -/
def Team.unitHalts (t : Team) (kind idx : Nat) : Bool :=
  match kind with
  | 1 => (t.groups.any Group.halts) || (match t.seg with | some g => g.failed.isSome | none => false)
  | 2 => (match t.grp? idx with | some g => g.halts | none => false)
  | 3 => (match t.conts[idx]? with | some c => c.g.st == .stopped || c.g.st == .parked | none => false)
  | 4 => t.sq.sst == .stopped
  | 5 => decide (idx < 32) && (t.win idx).stop
  | _ => false

/-- RESUME or DISCARD of a unit of a resident team; `none` where it is refused. -/
def State.unitAct (s : State) (t : Team) (discard : Bool) (kind idx : Nat) : Option State :=
  let r := t.ref
  match kind with
  | 1 => if discard then s.discardTeamUnit t else s.resumeTeam t
  | 2 =>
    if !t.unitHalts 2 idx then none
    else if discard then some (s.killGroup r idx none)
    else if s.canResume ⟨r, .grp idx⟩ then some (s.resumeGroup ⟨r, .grp idx⟩) else none
  | 3 =>
    (match t.conts[idx]? with
     | some c => if !t.unitHalts 3 idx then none
       else if discard then some (s.finishCont r c.id false) else some (s.resumeGroup ⟨r, .cont c.id⟩)
     | none => none)
  | 4 =>
    (match t.unitHalts 4 idx, s.launch? r.launch with
     | true, some l =>
       some (s.modTeam r fun t => if discard then t.closeSeq l.pkt.ord else t.seqGo)
     | _, _ => none)
  | 5 => if !t.unitHalts 5 idx then none else some (if discard then s.discardCopy r idx else s.resumeCopy r idx)
  | _ => none

/-- A command on a unit of a team: at once on a resident team, after the restore on one that is being saved or is saved (R405). -/
def State.unitCommand (s : State) (r : TeamRef) (discard : Bool) (kind idx : Nat) : Option State :=
  let hold (t : Team) : Team := { t with late := t.late ++ [.unit discard kind idx] }
  match s.team? r with
  | some t =>
    if t.save.isNone then s.unitAct t discard kind idx
    else if t.unitHalts kind idx then some (s.setTeam (hold t)) else none
  | none =>
    match s.saved? r with
    | some x => if x.team.unitHalts kind idx then some (s.modSaved r hold) else none
    | none => none

/-! ### Restore (R400) -/

/-- A team at a new place: its chunks keep their order within the pool (R341). -/
def Team.relocate (t : Team) (q : Spot) : Team :=
  let mv (p : PoolPart) (b c : Nat) : Nat := c - p.base + b
  let part (p : PoolPart) (b : Nat) : PoolPart := { p with base := b, free := p.free.map (mv p b) }
  { t with
    core := q.core
    spanBase := q.span
    groups := t.groups.map fun g : Group => { g with
      chunks := g.chunks.map (if t.coreOf g.idx = t.core then mv t.pool q.chunk else mv t.poolOdd q.chunkOdd) }
    pool := part t.pool q.chunk
    poolOdd := part t.poolOdd q.chunkOdd }

/-- The wait of a restored group: blocked groups wait again in their places, `check` starts again, others execute their word again. -/
def Wait.restored (w : Wait) (clock : Nat) : Wait :=
  match w with
  | .check k _ true _ => .mark k clock
  | .mark _ _ | .segment _ _ => w
  | w => if w.blocks then w else .none

/-- A restored group. -/
def Group.restored (g : Group) (clock : Nat) : Group :=
  { g with
    wait := g.wait.restored clock
    owedHold := g.owes
    readyAt := clock
    kill := g.kill.map fun k => if k.atRestore then { k with since := clock, atRestore := false } else k }

/-- The kills of CANCELs that came while a team was saved (R405). -/
def Launch.killRestored (l : Launch) (t : Team) (clock : Nat) : Team :=
  let by_ (g : Group) : Option Scope :=
    if l.pkt.tasks then (match g.task with | some k => l.dead (taskScope k.bytes) | none => none) else l.dead l.pkt.scope
  let t := { t with groups := t.groups.map fun g : Group =>
    match g.live, by_ g with | true, some y => g.killBy clock y.num false | _, _ => g }
  if !l.pkt.tasks && (l.dead l.pkt.scope).isSome && !t.cancelled then t.cancelTeam l.pkt.ord else t

/-- A team as it becomes resident again. -/
def Launch.restoredTeam (l : Launch) (t : Team) (q : Spot) (clock : Nat) : Team :=
  let t := t.relocate q
  let held (g : Group) : Group := match t.seg.bind (·.failed) with | some c => g.segStop c | none => g
  let t := { t with groups := t.groups.map fun g => held (g.restored clock), prq := false, save := none, late := [] }
  l.killRestored t clock

/-- Fill a scratch window until it is PRESENT. -/
def State.refill (s : State) (r : TeamRef) (l : Launch) : Nat → Option Team
  | 0 => none
  | n + 1 =>
    match s.team? r with
    | none => none
    | some t =>
      let w := t.win 0
      match w.st, w.desc with
      | .present, _ => some t
      | _, none => none
      | _, some d => (match s.fillStep t l 0 w d with | .moved s => s.refill r l n | _ => none)

/-- The tensor parameter record of a provenance, read again. -/
def State.provTpr (s : State) (l : Launch) (t : Team) (p : Prov) : Option (Option Tpr) :=
  if p.desc.tpr.isNone then some none
  else match s.enginePieces t.core l.pkt.ctx (wantLoad false) false [(BitVec.ofNat 56 p.tprAddr, 32)] with
    | (.error _, _) => none
    | (.ok ps, s) =>
      match (s.engineRead { t.enginePty l Window.unbound with ord := false } ps).1 with
      | .error _ => none
      | .ok b => (parseTpr b).map some

/-- Latch a set again by its provenance alone (R250): the source window is filled into an empty scratchpad of no team, and the
weights are taken from there. -/
def State.relatchSet (s : State) (l : Launch) (t : Team) (x : LatchSet) (p : Prov) : Option LatchSet :=
  (s.provTpr l t p).bind fun tpr =>
    let d : WinDesc := { p.desc with cnt := false, acq := false, gbase := p.gbase, rstride := p.rstride, tpr := tpr }
    let l' : Launch := { l with pkt := { l.pkt with ord := false } }
    let w : Window := { Window.unbound with st := .filling, desc := some d, ofs := p.ofs, armer := 64 }
    let u : Team := { t with
      spad := [], full := [], newFull := [], spLost := [], rLost := [], filled := [], wins := (Vector.replicate 32 Window.unbound).setIfInBounds 0 w }
    (({ s with teams := [u] } : State).refill t.ref l' (d.rows * d.units + 2)).map fun u =>
      let row : W32 := BitVec.ofNat 32 p.row
      let cells := if p.sp = .dense then denseCells p.col d row p.ext else sparseCells p.sp d u row p.ext
      { x with
        w := latchWeights u (mfmtSize x.fmt) cells
        scale := if extWS p.ext then
            (match d.scaleAt p.row (extKB p.ext) with | some o => BitVec.ofNat 32 (u.elemCode o 4) | none => 0x3F800000)
          else x.scale }

/-- Latch every set with provenance again. -/
def State.relatch (s : State) (l : Launch) (t : Team) : Option Team :=
  (List.range 4).foldl (fun (o : Option Team) i => o.bind fun u =>
    match (u.setAt i).full, (u.setAt i).prov with
    | true, some p => (s.relatchSet l u (u.setAt i) p).map fun x => { u with sets := u.sets.setIfInBounds i x }
    | _, _ => some u) (some t)

/-- What a saved team is when its area passes the check and its sets are latched again. -/
def State.checked (s : State) (l : Launch) (x : SavedTeam) : Option Team := (s.takeArea l x.team x.area).bind fun t => s.relatch l t

/-- The parked units of a restored team retry (R387, R391). -/
def State.unpark (s : State) (u : Team) : State :=
  let s := (u.groups.filter fun g => g.st == .parked).foldl (fun s g =>
    if s.canResume ⟨u.ref, .grp g.idx⟩ then s.resumeGroup ⟨u.ref, .grp g.idx⟩ else s) s
  let s := (u.conts.filter fun c => c.g.st == .parked).foldl (fun s c => s.resumeGroup ⟨u.ref, .cont c.id⟩) s
  let parked (i : Option StopInfo) : Bool := match i with | some i => i.act == .park | none => false
  let s := if u.sq.sst == .stopped && parked u.sq.stop then s.modTeam u.ref Team.seqGo else s
  ((List.range 32).filter fun k => (u.win k).stop && parked (u.win k).stopInfo).foldl (fun s k => s.resumeCopy u.ref k) s

/-- DATA-LOST for a physical line. -/
def lostTrap (line : Nat) : Trap := trapE .dataLost (BitVec.ofNat 128 line)

/-- What waited for the restore of a team acts. -/
def State.lateAct (s : State) (r : TeamRef) (a : LateAct) : State :=
  match a, s.team? r with
  | .unit d kind idx, some t => (s.unitAct t d kind idx).getD s
  | .lost g line, some _ => s.takeTrap ⟨r, .grp g⟩ (lostTrap line)
  | _, none => s

/-- Make a checked team resident: its L1 starts empty, its continuations and copies go on, its parked units retry, and the
commands that waited for the restore act (R405). -/
def State.reinstate (s : State) (l : Launch) (x : SavedTeam) (t : Team) (q : Spot) : State :=
  let u := l.restoredTeam t q s.clock
  let u := { u with owedArea := if u.groups.any (·.owedHold) then some x.area else none }
  let s := s.addTeam l.pkt u
  let s := u.cores.foldl (fun s c => s.l1Drop c fun _ => true) s
  let s := u.conts.foldl (fun s c => if c.g.st = .ended then s else
    s.modCore (u.coreOf c.origin) fun k => { k with helper := k.helper ++ [(u.ref, c.id)] }) s
  let s := (List.range 32).foldl (fun s k => if (u.win k).busy then
    s.modCore u.core fun c => { c with copies := c.copies ++ [(u.ref, k)] } else s) s
  let s := s.modLaunch l.num fun l => { l with saved := l.saved.filter fun y => y.ref != x.ref }
  x.team.late.foldl (fun s a => s.lateAct u.ref a) (s.unpark u)

/-- An area fails the check: a record names the team, which stays saved. -/
def State.badArea (s : State) (l : Launch) (x : SavedTeam) : State :=
  (s.raiseDie l.die .cmdProc .badRecord (BitVec.ofNat 128 (x.area % 2 ^ 56)) 0 x.ref.idx l.num 0 x.ref.shadow).modLaunch l.num fun l =>
    { l with saved := l.saved.map fun y => if y.ref == x.ref then { y with bad := true } else y }

/-- Restore the saved team of lowest index, together with its shadow (R354); `none` where it must wait. -/
def State.restoreNext (s : State) (l : Launch) : Option State :=
  match (l.saved.filter fun x => !x.bad).foldl (fun (m : Option Nat) x =>
      match m with | none => some x.ref.idx | some k => some (min k x.ref.idx)) none with
  | none => none
  | some k =>
    let xs := l.saved.filter fun x => !x.bad && x.ref.idx == k
    let ts := xs.map fun x => (x, s.checked l x)
    if ts.any fun e => e.2.isNone then
      (if s.srcRoomFor l.die .cmdProc xs.length then
        some ((ts.filter fun e => e.2.isNone).foldl (fun s e => s.badArea l e.1) (s.modLaunch l.num fun l =>
          { l with saved := l.saved.map fun y => if y.ref.idx == k then { y with bad := true } else y }))
       else none)
    else
      (ts.foldl (fun (o : Option (State × List Nat)) e => o.bind fun a =>
        match e.2 with
        | none => none
        | some t =>
          let (d, sl) := l.prefer k t.x t.y t.z
          (a.1.offerSpot l.pkt (if e.1.ref.shadow then d ^^^ 1 else d) sl a.2).map fun q =>
            (a.1.reinstate l e.1 t q, a.2 ++ q.cores l.pkt.pair)) (some (s, []))).map (·.1)

/-! ### Placement (R337) -/

/-- A launch that has saved teams to restore. -/
def Launch.restores (l : Launch) (die : Nat) : Bool :=
  l.die == die && !l.preempted && !l.discarded && l.saved.any fun x => !x.bad

/-- The launch whose team a command processor offers: the highest priority, the first in queue order (R337). -/
def State.offered (s : State) (die : Nat) : Option Launch :=
  (s.launches.filter fun l => l.offers die s.clock || l.restores die).foldl (fun (m : Option Launch) l =>
    match m with
    | none => some l
    | some k => if k.pkt.prio < l.pkt.prio then some l else some k) none

/-- The team of an offer: the next of the launch, a saved one first. A team that fits nowhere holds back every other. -/
def State.offerTeam (s : State) (l : Launch) (die : Nat) : State :=
  if l.restores die then (s.restoreNext l).getD s
  else match s.placeTeam l l.nextTeam with
    | none => s
    | some s => s.modLaunch l.num fun l => { l with nextTeam := l.nextTeam + 1 }

/-- The cores that an offer takes. -/
def State.offerCores (s : State) (l : Launch) (die : Nat) : List Nat :=
  let u := s.offerTeam l die
  (List.range 128).filter fun c => (u.core c).took != (s.core c).took

/-- Another processor, which has not offered in this clock yet, offers a team of a launch of higher priority, or of equal priority and
from a lower die, to a core that this offer would take: this offer loses (R337, R358). -/
def State.beaten (s : State) (l : Launch) (die : Nat) : Bool :=
  (List.range 4).any fun e => e != die && !(s.die e).offered && match s.offered e with
    | none => false
    | some k => (decide (l.pkt.prio < k.pkt.prio) || (k.pkt.prio == l.pkt.prio && decide (e < die))) &&
        (s.offerCores k e).any (s.offerCores l die).contains

/-- A command processor offers the next team of the first such launch, once in a clock; an offer that loses is repeated in the next. -/
def State.teamPlace (s : State) (die : Nat) : State :=
  let s := s.sweep
  if (s.die die).offered then s
  else match s.offered die with
    | none => s
    | some l => (if s.beaten l die then s else s.offerTeam l die).modDie die fun d => { d with offered := true }

/-! ### Meanings -/

def execTeamPlace (die : Fin 4) (s : State) : Host.Outcome State Fault Refusal := .next (s.teamPlace die.val)

def execPreemptDeadline (t : TeamRef) (s : State) : Host.Outcome State Fault Refusal := .next (s.preemptDeadline t)

def execTeamSave (t : TeamRef) (s : State) : Host.Outcome State Fault Refusal := .next (s.teamSave t)

def execOwedReply (g : GRef) (i : Nat) (s : State) : Host.Outcome State Fault Refusal := .next (s.owedReply g i)

end Sys2Proof.Machine
end

