-- ==== Sys2Proof/Machine/Peer.lean ====
section
/-! DEFINITION. The device as a peer (R375, R409 to R415): requests that arrive, replies that come back, and transfers that fail; and
the errors and records of a die: replays, corrected and uncorrectable errors (R295, R408), and the event ring (R384). -/
namespace Sys2Proof.Machine

/-! ### Records of the ports -/

/-- `INFO` of a REMOTE-FAIL at a receiver: the sender's peer number, or its address where it has no valid entry (R447). -/
def State.senderInfo (s : State) (ep : W128) (va code : Nat) : W128 :=
  match s.peerOf ep with
  | some n => remoteFailInfo va n code
  | none => BitVec.ofNat 128 (va % 2 ^ 56 + code % 256 * 2 ^ 64 + 2 ^ 72 + ep.toNat % 2 ^ 48 * 2 ^ 80)

/-- Device port `n`, port `n mod 4` of die `n / 4`, raises a record (R410). Arrivals are taken to come through port 0, and what a command
processor sends leaves through the first port of its die (log 28). -/
def State.portRecord (s : State) (n : Nat) (c : Cause) (info : W128) : State := s.raiseDie (n / 4) (.port (n % 4)) c info 0 0 0

/-- Room for such a record. -/
def State.portRoom (s : State) (n : Nat) : Bool := s.srcRoom (n / 4) (.port (n % 4))

/-- The device port that a request of this device left through. -/
def Request.port (q : Request) : Nat := peerPort q.core q.req.va

/-! ### Requests of peers (R375, R414) -/

/-- The party of a peer's access: no core of this device, no version, never tracked. -/
def peerPty : Pty := ⟨128, 0, ⟨0, 0, false⟩, false, none, ⟨0, 0, 0, 0, 0, 0⟩, []⟩

/-- What a request needs of its page. -/
def peerWant : PeerKind → Want
  | .store _ => wantStore false
  | .load _ _ c _ => wantLoad false (if c then .counted else .load)
  | .atomic _ _ _ _ _ => wantAtomic false
  | .tacc _ _ => wantTwin false true
  | .tcons _ _ _ _ _ | .tcnt => wantTwin false false
  | .put _ => wantNone false

/-- What performing a request gives. -/
inductive PeerDone where
  | ok (s : State) (data : List Nat)
  | fail (s : State) (c : Cause)
  /-- It waits at its home: on a line that is OWED, or one that a version holds (R374, R375). -/
  | held (owed : Bool)

/-- A piece of the request's line. -/
def linePiece (va : Addr) (p : BitVec 256) (off n : Nat) : Piece :=
  let a := va + BitVec.ofNat 56 off
  ⟨a, paOf p a, n, p⟩

/-- A read for a peer: at the home, where the page's pair has written its words back (R309). -/
def State.peerRead (s : State) (x : Piece) : Option (List Nat × State) :=
  let s := s.promote 128 x.pte
  if s.isLost x.pa then none else some ((s.mem.read x.pa x.n).map (·.toNat), s)

/-- Perform a request on a page of this device (R413). -/
def State.peerPerform (s : State) (va : Addr) (p : BitVec 256) (k : PeerKind) : PeerDone :=
  let at_ := linePiece va p
  match k with
  | .store bs =>
    let pa := (at_ 0 128).pa
    if s.isLost pa && decide ((bs.map (·.1)).eraseDups.length < 128) then .fail s .dataLost
    else
      let s := bs.foldl (fun s b => { s with mem := s.mem.write (pa + b.1) [b.2] }) s
      .ok (if 128 ≤ (bs.map (·.1)).eraseDups.length then s.setLost pa false else s) []
  | .load off n counted c =>
    let x := at_ off n
    if counted && pteTwin p then
      (if s.heldElsewhere none (lineOf x.pa) then .held false
       else if (s.hdrLost x).isSome then .fail s .dataLost
       else match s.twCount none x c with
         | none => .fail s .countOverflow
         | some s' => (match s'.peerRead x with | some (d, s) => .ok s d | none => .fail s .dataLost))
    else match s.peerRead x with | some (d, s) => .ok s d | none => .fail s .dataLost
  | .atomic op wide off arg new =>
    let x := at_ off (if wide then 8 else 4)
    (match (s.promote 128 p).atomPiece peerPty x op arg.toNat new.toNat false with
     | (.ok v, s) => .ok s [v]
     | (.error _, s) => .fail s .dataLost)
  | .tacc fmt es =>
    let x := at_ 0 4
    if s.heldElsewhere none (lineOf x.pa) then .held false
    else if (s.twLost x).isSome then .fail s .dataLost
    else match s.twContribute none x (es.map fun e => ((at_ e.1 4).acc, taccVal fmt e.2)) with
      | .underflow => .fail s .adjointUnderflow
      | .applied s range _ => if range then .fail s .twinRange else .ok s []
  | .tcons offs nb fault _ size =>
    if size ≠ pteTwSize p then .fail s .permission
    else
      let early := nb || fault
      (match s.consumeLine none early ⟨va, offs.zipIdx.map fun e => (e.2, at_ e.1 size), at_ 0 size⟩ with
       | .vals vs s => .ok s (vs.map (·.2))
       | .waits => .held (!s.heldElsewhere none (lineOf (at_ 0 size).pa))
       | .early => if early then .fail s .twinEarly else .held true
       | .lost _ => .fail s .dataLost)
  | .tcnt =>
    let x := at_ 0 4
    if s.heldElsewhere none (lineOf x.pa) then .held false
    else if (s.hdrLost x).isSome then .fail s .dataLost
    else .ok s [s.tcntVal none x]
  | .put _ => .ok s []

/-- Refuse a request: the reply carries the cause, and a record names the address and the sender. -/
def State.peerRefuse (s : State) (m : PeerReq) (c : Cause) : State :=
  (s.portRecord 0 .remoteFail (s.senderInfo m.src m.va c.code)).replyPeer m.src m.seq m.va c.code []

/-- The request is no longer held. -/
def State.unhold (s : State) (m : PeerReq) : State :=
  { s with heldReqs := s.heldReqs.filter fun h => !(h.1.src == m.src && h.1.seq == m.seq) }

/-- Hold a request at its home, from now if it is new. -/
def State.hold (s : State) (m : PeerReq) : State :=
  if s.heldReqs.any fun h => h.1.src == m.src && h.1.seq == m.seq then s
  else { s with heldReqs := s.heldReqs ++ [(m, s.clock)] }

/-- The blocking time of a consuming read that is held has passed since its arrival (R375). -/
def State.holdOver (s : State) (m : PeerReq) : Bool :=
  match m.kind with
  | .tcons _ _ _ tmo _ => s.heldReqs.any fun h => h.1.src == m.src && h.1.seq == m.seq && decide (h.2 + tmo ≤ s.clock)
  | _ => false

/-- The entry that accepts a sender's requests. -/
def State.acceptedBy (s : State) (m : PeerReq) : Option Nat :=
  (s.peers.find? fun e => peerValid e.2 && peerIn e.2 && peerEpa e.2 == m.src && peerJob e.2 == m.job).map fun e => peerICtx e.2

/-- A twin request: it names a primary address or its twin (R35). -/
def isTwinReq : PeerKind → Bool
  | .tacc _ _ | .tcons _ _ _ _ _ | .tcnt => true
  | _ => false

/-- A put of a peer is on its way to its slot, or waits there for a staging write (R267, R270, R414). -/
def State.putHere (s : State) (m : PeerReq) : Bool :=
  (s.flying.any fun f => f.peer == some (m.src, m.seq)) ||
  (List.range 4).any fun d => (s.die d).slots.any fun e => match e.2.standing with
    | some (f, _) => f.peer == some (m.src, m.seq)
    | none => false

/-- Check, translate and perform a request, once, and keep the reply until the peer acknowledges it (R414). A request for a home beyond a
held boundary stays at its port (R408, R410). -/
def State.peerRequest (s : State) (m : PeerReq) : State :=
  match s.kept.find? fun k => k.src == m.src && k.seq == m.seq with
  | some k => { s with repPeers := s.repPeers ++ [(k.port, m.src, k.rep)] }
  | none =>
    if !s.portRoom 0 then s
    else match s.acceptedBy m with
      | none => s.peerRefuse m .permission
      | some ctx =>
        match m.kind with
        | .put p =>
          if s.putHere m then s
          else { s with flying := s.flying ++ [⟨p, some (m.src, m.seq), none, 0, 0, none⟩] }
        | k =>
          let va : Addr := BitVec.ofNat 56 m.va
          if regionOf va = 2 ∨ regionOf va = 3 ∨ (regionOf va = 1 ∧ isTwinReq k = false) then s.peerRefuse m .permission
          else match s.xlat none ctx (primary va) (peerWant k) with
            | .error t => s.peerRefuse m t.cause
            | .ok p =>
              if pteSystem p then s.peerRefuse m .permission
              else if s.far 0 (paOf p (primary va)) then s
              else match s.peerPerform va p k with
                | .ok s d => (s.unhold m).replyPeer m.src m.seq m.va 0 d
                | .fail s c => (s.unhold m).peerRefuse m c
                | .held owed => if owed && s.holdOver m then (s.unhold m).peerRefuse m .twinEarly else s.hold m

/-! ### Replies (R415) -/

/-- A contribution of a TACC is NaN or infinite (R217). -/
def Posted.nan (p : Posted) : Bool := p.taccs.any fun e => (contribution (taccVal (taccFmt p.word) e.2)).isNone

/-- A party whose store or contribution was answered is rid of it; a failed contribution fails after acceptance. Contributions that the
home has `applied` set `TWNAN` by the lanes' own values (R27, R217). -/
def State.answerPosted (s : State) (r : GRef) (seq : Nat) (fail : Option LateFail) (applied : Bool) : State :=
  (s.modParty r fun g =>
    match g.posted.find? fun p => p.sent == some seq with
    | none => g
    | some p =>
      let g := { g with posted := g.posted.filter fun p => p.sent != some seq }
      if g.st = .ended then g
      else
        let g := g.flag .twnan (applied && p.nan)
        match fail with
        | none => g
        | some f => { g with la := g.la ++ [p.failEnt f] }).reap r

/-- The request is one of a posted store or contribution, or of what a committed version sends (R316). -/
def State.isPosted (s : State) (r : GRef) (seq : Nat) : Bool :=
  match s.party? r with
  | some g => g.posted.any fun p => p.sent == some seq
  | none => false

/-- A word's request was answered; what a saved group, or one that waits after its restore, is owed goes to its area (R396). -/
def State.answerWord (s : State) (r : GRef) (seq : Nat) (st : Owed) : State :=
  let s := s.modParty r fun g => { g with la := g.la.map fun e => if e.waitsFor seq then e.answer seq st else e }
  match s.owedTo r.t, s.party? r with
  | some _, some g => ((List.range g.la.length).filter fun i => match g.la[i]? with | some e => e.waitsFor seq | none => false).foldl
      (fun s i => s.owedReply r i) s
  | _, _ => s

/-- The put that a request carries. -/
def putOf (m : PeerReq) : Option PutPkt := match m.kind with | .put p => some p | _ => none

/-- The put of a request as the hub's answer sees it. -/
def Request.flying (q : Request) (p : PutPkt) : Flying := ⟨p, none, q.owner, q.launch, q.core, none⟩

/-- An answer to a request of this device: a status, 0 for performed, with its data, or `none` where the transfer failed (R411). -/
def State.answer (s : State) (q : Request) (status : Option Nat) (data : List Nat) : State :=
  let ok := status == some 0
  let s := { s with requests := s.requests.filter fun x => x.seq != q.seq }
  let refused := status == some Cause.collRefused.code && (putOf q.req).isSome
  let s := if ok || refused then s
    else s.portRecord q.port .remoteFail (remoteFailInfo q.req.va q.peer (status.getD 0))
  let cause := match status with | some n => Cause.ofReply n | none => .dataLost
  let va : Addr := BitVec.ofNat 56 q.req.va
  match q.req.kind with
  | .put p =>
    if ok then s.putDone (q.flying p)
    else if refused then s.putRefused (q.flying p) (data.getD 0 0)
    else (s.putDone (q.flying p)).modLaunch q.launch fun l => { l with failedPuts := l.failedPuts + 1 }
  | .store _ =>
    let s := if ok then s else s.modLaunch q.launch fun l => { l with failedStores := l.failedStores + 1 }
    (match q.owner with | some r => s.answerPosted r q.seq none false | none => s)
  | .tacc _ _ =>
    (match q.owner with
     | some r => s.answerPosted r q.seq (if ok then none else some (peerLate cause va)) (ok || status == some Cause.twinRange.code)
     | none => s)
  | _ =>
    match q.owner with
    | some r =>
      if s.isPosted r q.seq then s.answerPosted r q.seq (if ok then none else some (peerLate cause va)) false
      else s.answerWord r q.seq (if ok then .replied data else .failed cause)
    | none => s

/-- A reply reaches the sender; one that no request waits for is dropped. -/
def State.peerReply (s : State) (m : PeerRep) : State :=
  match s.requests.find? fun q => q.seq == m.seq && peerEpa (s.peerEntry q.peer) == m.src with
  | none => s
  | some q =>
    if s.portRoom q.port && s.srcRoom (dieOf q.core) .collective then s.answer q (some m.status) m.data else s

/-- `INFO` of the CORRECTED record of a retransmission: the endpoint's low bits and the sequence number (log 28). -/
def retransmitInfo (ep : W128) (seq : Nat) : W128 := BitVec.ofNat 128 (ep.toNat % 2 ^ 64 + seq % 2 ^ 64 * 2 ^ 64)

/-- A command with its header and body. -/
def hostMsg : Instr → Option (Nat × HostMsg)
  | .provision m => some (0x01, m) | .attest m => some (0x02, m) | .policy m => some (0x03, m) | .peers m => some (0x04, m)
  | .write m => some (0x10, m) | .read m => some (0x11, m) | .map m => some (0x20, m) | .unmap m => some (0x21, m)
  | .frames m => some (0x22, m) | .launch m => some (0x30, m) | .timetable m => some (0x31, m) | .preempt m => some (0x32, m)
  | .resume m => some (0x33, m) | .discard m => some (0x34, m) | .events m => some (0x40, m)
  | _ => none

/-- A command of an endpoint. -/
def commandOf (ep : W128) (i : Instr) : Bool := match hostMsg i with | some m => m.2.src == ep | none => false

/-- A connection to the host has failed: its outstanding commands end with status FAILED, and a body of zeros (R411, R418; log 28). -/
def State.hostLost (s : State) (ep : W128) : State :=
  (List.range 4).foldl (fun s d =>
    let gone := ((s.die d).cmds.filter (commandOf ep)).filterMap hostMsg
    let first := match (s.die d).cmds.head? with | some i => commandOf ep i | none => false
    let s := s.modDie d fun x => { x with cmds := x.cmds.filter fun i => !commandOf ep i, busy := x.busy && !first }
    gone.foldl (fun s m => s.tellHost m.1 m.2.tag m.2.die.val false true 5 (bytesOf 8 0) ep) s) s

/-- A message to the host was not acknowledged: it is sent again; after 8 times its connection fails (R411). -/
def State.retransmitHost (s : State) (seq : Nat) : State :=
  match s.toHost.find? fun h => h.seq == seq with
  | none => s
  | some h =>
    if 8 < h.tries || !s.portRoom (4 * h.die) then s
    else
      let next : List HostOut := s.toHost.map fun x => if x.seq = seq then { x with tries := x.tries + 1 } else x
      if h.tries = 8 then ({ s with toHost := next } : State).hostLost h.dest
      else
        { s.portRecord (4 * h.die) .corrected (retransmitInfo h.dest seq) with toHost := next ++ [{ h with tries := h.tries + 1 }] }

/-- A reply that was not acknowledged is sent again, up to 8 times; it stays kept for a repeated request (R411, R414). -/
def State.retransmitReply (s : State) (seq : Nat) : State :=
  match s.kept.find? fun k => k.pkt == seq with
  | none => s.retransmitHost seq
  | some k =>
    if 8 ≤ k.tries || !s.portRoom k.port then s
    else
      { s.portRecord k.port .corrected (retransmitInfo k.src seq) with
        repPeers := s.repPeers ++ [(k.port, k.src, k.rep)]
        kept := s.kept.map fun x => if x.pkt = seq then { x with tries := x.tries + 1 } else x }

/-- A request, a reply or a message that was not acknowledged is sent again, from the port that sent it; after 8 times a request and a
message fail (R410, R411). -/
def State.retransmit (s : State) (seq : Nat) : State :=
  match s.requests.find? fun q => q.seq == seq with
  | none => s.retransmitReply seq
  | some q =>
    if q.acked || !(s.portRoom q.port && s.srcRoom (dieOf q.core) .collective) then s
    else if q.tries < 8 then
      { s.portRecord q.port .corrected (retransmitInfo (peerEpa (s.peerEntry q.peer)) seq) with
        toPeers := s.toPeers ++ [(q.port, q.req)]
        requests := s.requests.map fun x => if x.seq = seq then { x with tries := x.tries + 1 } else x }
    else s.answer q none []

/-- An endpoint acknowledges a packet of this device: a request or a message is not sent again, a kept reply is dropped (R375, R411,
R414). -/
def State.acknowledged (s : State) (ep : W128) (seq : Nat) : State :=
  { s with
    requests := s.requests.map fun q => if q.seq = seq ∧ peerEpa (s.peerEntry q.peer) = ep then { q with acked := true } else q
    kept := s.kept.filter fun k => !(k.pkt == seq && k.src == ep)
    toHost := s.toHost.map fun h => if h.seq = seq ∧ h.dest = ep then { h with tries := 9 } else h }

/-- A packet that uses an ignored part is discarded (R409). -/
def State.packetDiscard (s : State) (src : W128) : State :=
  if s.portRoom 0 then s.portRecord 0 .remoteFail (s.senderInfo src 0 0) else s

/-! ### Boundaries and memory errors (R295, R408) -/

/-- The die that reports a flit replay on a boundary 0–1, 2–3, 0–2 or 1–3 (R406): the lower of its two dies, which is the model's
choice, since R408 says only that the record names the boundary (log 28). -/
def boundaryDie (b : Nat) : Nat := if b = 1 then 2 else if b = 3 then 1 else 0

/-- A flit is replayed: each replay is reported, and of a boundary that holds its traffic every 1,024th (R408; log 28). -/
def State.flitReplay (s : State) (b : Nat) : State :=
  let n := s.replays.getD b 0 + 1
  let port := 4 * boundaryDie b
  let told := decide (n ≤ 1024) || n % 1024 == 0
  if told && !s.portRoom port then s
  else
    let s := { s with replays := s.replays.setIfInBounds b n }
    if told then s.portRecord port .corrected (BitVec.ofNat 128 b) else s

/-- The source that reports an error at a location, and its `INFO`: the slice of a physical line names the line; the supervisor core of
a core's die names the core and the byte of its spans (R295; log 28). -/
def errorSource : EccLoc → Nat × DieSource × W128
  | .line pa => ((sliceOf pa).1, .slice (sliceOf pa).2, BitVec.ofNat 128 (pa % 2 ^ 48))
  | .span c n => (dieOf c.val, .supervisor, info2 (128 * n.val) c.val)

/-- A corrected error is repaired in place, and reported with its location. -/
def State.eccCorrected (s : State) (loc : EccLoc) : State :=
  let (die, k, info) := errorSource loc
  if s.srcRoom die k then s.raiseDie die k .corrected info 0 0 0 else s

/-- A version is lost by an uncorrectable error: its group stops as DATA-LOST stops it, now or at its restore, or its segment fails
(R7, R8, R295, R405). -/
def State.loseVersion (s : State) (v : Version) (line : Nat) : State :=
  match v.grp, s.launch? v.launch with
  | some g, _ =>
    if (s.team? v.team).isSome then s.takeTrap ⟨v.team, .grp g⟩ (lostTrap line)
    else ((s.discardVersion v.id).raiseDie (sliceOf line).1 (.slice (sliceOf line).2) .dataLost (BitVec.ofNat 128 line) g v.team.idx v.launch 0
      v.team.shadow true).modSaved v.team fun t => { t with late := t.late ++ [.lost g line] }
  | none, some l => s.segLost l v line
  | none, none => s.discardVersion v.id

/-- Line `i` of a core's L1 is lost: the copy is gone, and its line is lost at its home. -/
def State.l1Lost (s : State) (core i : Nat) : State :=
  match (s.core core).l1[i]? with
  | none => s
  | some x => (s.modCore core fun c => { c with l1 := c.l1.eraseIdx i }).setLost x.line true

/-- An uncorrectable error of line `n` of a core's spans: the scratchpad spans come first, then those of the registers, then the L1, whose
lines lie in the order of its list (R273; log 28). The mark of a line that no team holds stays with the span (R8). -/
def State.spanError (s : State) (core n : Nat) : State :=
  let k := s.core core
  if n < 128 * (k.ps + k.pg) then
    (match s.teams.findSome? fun t => t.markSpan core k.ps n with
     | some t => s.setTeam t
     | none => s.modCore core fun c => { c with lostSp := Store.set false c.lostSp n true })
  else s.l1Lost core (n - 128 * (k.ps + k.pg))

/-- An uncorrectable error: the first version that the line belongs to is discarded; any other line is lost, and reported (R6, R8,
R295). -/
def State.eccUncorrectable (s : State) (loc : EccLoc) : State :=
  let (die, k, info) := errorSource loc
  if !s.srcRoom die k then s
  else match loc with
    | .line pa =>
      (match s.versions.find? fun v => v.errorLines.contains (lineOf pa) with
       | some v => s.loseVersion v (lineOf pa)
       | none => (s.setLost pa true).raiseDie die k .dataLost (BitVec.ofNat 128 (lineOf pa)) 0 0 0)
    | .span c n => (s.spanError c.val n.val).raiseDie die k .dataLost info 0 0 0

/-! ### The event ring (R384) -/

/-- Records that a ring of 4,096 still takes. -/
def DieSt.ringRoom (d : DieSt) : Nat := 4096 - d.ring.length

/-- Take what fits from the queue of a core. -/
def State.takeCore (s : State) (die c : Nat) : State :=
  let n := (s.die die).ringRoom
  let q := (s.core c).evq
  (s.modDie die fun d => { d with ring := d.ring ++ q.take n }).modCore c fun k => { k with evq := q.drop n }

/-- Take what fits from a source of the die. -/
def State.takeSource (s : State) (die i : Nat) : State :=
  s.modDie die fun d =>
    let q := d.srcs.getD i ⟨[], 0⟩
    { d with
      ring := d.ring ++ q.buf.take d.ringRoom
      srcs := d.srcs.setIfInBounds i { q with buf := q.buf.drop d.ringRoom } }

/-- The supervisor core moves records into the ring. -/
def State.eventRingTake (s : State) (die : Nat) : State :=
  (List.range 40).foldl (fun s i => s.takeSource die i) ((List.range 32).foldl (fun s c => s.takeCore die (32 * die + c)) s)

/-! ### Meanings -/

def execPeerRequest (m : PeerReq) (s : State) : Host.Outcome State Fault Refusal := .next (s.peerRequest m)

def execPeerReply (m : PeerRep) (s : State) : Host.Outcome State Fault Refusal := .next (s.peerReply m)

def execRetransmit (seq : Nat) (s : State) : Host.Outcome State Fault Refusal := .next (s.retransmit seq)

def execPacketDiscard (src : W128) (s : State) : Host.Outcome State Fault Refusal := .next (s.packetDiscard src)

def execFlitReplay (boundary : Fin 4) (s : State) : Host.Outcome State Fault Refusal := .next (s.flitReplay boundary.val)

def execEccCorrected (loc : EccLoc) (s : State) : Host.Outcome State Fault Refusal := .next (s.eccCorrected loc)

def execEccUncorrectable (loc : EccLoc) (s : State) : Host.Outcome State Fault Refusal := .next (s.eccUncorrectable loc)

def execEventRingTake (die : Fin 4) (s : State) : Host.Outcome State Fault Refusal := .next (s.eventRingTake die.val)

end Sys2Proof.Machine
end

