-- ==== Sys2Proof/Machine/HostCmd.lean ====
section
/-! DEFINITION. The commands of the host (R417 to R427, R386, R390, R392, R412): the command processors, the replies, and the meaning
of each command; the event records as bytes (R380 to R382); and the reset (R429, R430). -/
namespace Sys2Proof.Machine

/-! ### Records as bytes (R380 to R382) -/

def RecSrc.code : RecSrc → Nat
  | .group => 0 | .continuation => 1 | .sequencer => 2 | .copyEngine => 3 | .collective => 4 | .slice => 5 | .fathom => 6
  | .cmdProc => 7 | .supervisor => 8 | .port => 9

def AKind.code : AKind → Nat
  | .load => 0 | .store => 1 | .atomic => 2 | .counted => 3 | .twin => 4 | .fetch => 5 | .fillRead => 6 | .drainWrite => 7
  | .tableWalk => 8

/-- Bits 31:0 of a record of class `cls`. -/
def RecHead.word (h : RecHead) (cls : Nat) : Nat :=
  h.cause.code + cls * 2 ^ 8 + bnat h.shdw * 2 ^ 9 + bnat h.priv * 2 ^ 10 + bnat h.vdisc * 2 ^ 11 + h.src.code * 2 ^ 12 +
  h.core % 128 * 2 ^ 16 + h.die % 4 * 2 ^ 23

/-- The 512 bits of an event record. -/
def EventRec.word (r : EventRec) : Nat :=
  r.hd.word 0 + r.aux.toNat * 2 ^ 64 + r.time % 2 ^ 64 * 2 ^ 96 + r.seq % 2 ^ 32 * 2 ^ 160 + r.launch % 2 ^ 32 * 2 ^ 192 +
  r.team % 2 ^ 32 * 2 ^ 224 + r.group % 2 ^ 8 * 2 ^ 256 + r.lane % 2 ^ 8 * 2 ^ 264 + r.pc.toNat * 2 ^ 272 +
  r.taskr % 2 ^ 56 * 2 ^ 328 + r.info.toNat * 2 ^ 384

/-- The 512 bits of a data fault record. -/
def FaultRec.word (r : FaultRec) : Nat :=
  r.hd.word 1 + r.taskr % 2 ^ 56 * 2 ^ 136 + r.launch % 2 ^ 32 * 2 ^ 192 + r.team % 2 ^ 32 * 2 ^ 224 + r.unit % 2 ^ 8 * 2 ^ 256 +
  r.merged % 2 ^ 16 * 2 ^ 288 + r.ctx % 2 ^ 16 * 2 ^ 304 + r.akind.code * 2 ^ 320 + r.va.toNat * 2 ^ 328 + r.pcm.toNat * 2 ^ 384 +
  r.grps.toNat * 2 ^ 448

/-- The 64 bytes of a record. -/
def Rec.bytes : Rec → List Byte
  | .ev r => bytesOf 64 r.word
  | .df r => bytesOf 64 r.word

/-! ### The command processor (R418, R419, R424) -/

/-- The die that performs a command: die 0 for the map commands and the device-wide ones. -/
def cmdDie (opc : Nat) (m : HostMsg) : Nat :=
  if opc ≤ 0x04 ∨ (0x20 ≤ opc ∧ opc ≤ 0x22) then 0 else m.die.val

/-- What a command gives: its reply, or a wait with what it has done so far. -/
inductive CmdRes where
  | reply (stat : Nat) (body : List Byte) (s : State)
  | hold (s : State)

/-- Performed. -/
def cmdOk (s : State) : CmdRes := .reply 0 [] s

/-- Checked and not performed: the body names the first failing check. -/
def cmdRefuse (check : Nat) (s : State) : CmdRes := .reply 1 (bytesOf 4 check) s

/-- A message of this device as it is sent: a header of 32 bytes, little-endian, with the length of the body, and the body (R417). -/
def HostOut.bytes (h : HostOut) : List Byte :=
  bytesOf 32 (h.opc % 256 + bnat h.rpl * 2 ^ 8 + bnat h.dev * 2 ^ 9 + h.die % 4 * 2 ^ 16 + h.tag.toNat * 2 ^ 32 +
    h.body.length % 2 ^ 32 * 2 ^ 64 + h.stat % 2 ^ 32 * 2 ^ 96) ++ h.body

/-- Send a reply. -/
def State.replyHost (s : State) (opc : Nat) (m : HostMsg) (stat : Nat) (body : List Byte) : State :=
  s.tellHost opc m.tag m.die.val false true stat body m.src

/-- A range of a body is zero. -/
def zeroAt (b : List Byte) (off n : Nat) : Bool := numAt b off n == 0

/-- `LEN` is wrong for the command, or a reserved byte of its body is set (R419). -/
def bodyBad (opc : Nat) (b : List Byte) : Bool :=
  let n := b.length
  decide (1048640 < n) ||
  match opc with
  | 0x01 => decide (n < 16 + 4096)
  | 0x02 => n != 32
  | 0x03 => n != 16384
  | 0x04 => decide (n < 8) || n != 8 + 32 * numAt b 4 4
  | 0x10 => decide (n < 65) || !zeroAt b 3 5 || !zeroAt b 16 48
  | 0x11 => n != 20 || !zeroAt b 3 5
  | 0x20 => n != 48 || !zeroAt b 4 4
  | 0x21 => n != 10
  | 0x22 => decide (n < 8) || n != 8 + 8 * numAt b 4 4 || !zeroAt b 3 1
  | 0x30 => n != 512
  | 0x31 => n != 16 || !zeroAt b 4 4
  | 0x32 => n != 12
  | 0x33 | 0x34 => n != 16 || !zeroAt b 12 4
  | _ => n != 4

/-- A header that is no request's, or whose `LEN` is not the body's. -/
def headBad (m : HostMsg) : Bool := m.rsvd || m.dev || m.rpl || m.stat != 0 || m.body.length != m.len

/-- The sender is not the provisioned host. -/
def State.notHost (s : State) (m : HostMsg) : Bool := match s.host with | some h => h != m.src | none => false

/-- The status that turns a command away, if one does. -/
def State.cmdStatus (s : State) (opc : Nat) (m : HostMsg) : Option Nat :=
  if s.notHost m then some 4
  else if s.host.isNone && opc != 0x01 && opc != 0x02 then some 2
  else if headBad m || bodyBad opc m.body then some 3
  else none

/-- A command turned away with status 3 or 4 raises a record (R418). -/
def State.turnAway (s : State) (m : HostMsg) (stat : Nat) : CmdRes :=
  if stat = 2 then .reply 2 [] s
  else if s.portRoom 0 then .reply stat [] (s.portRecord 0 .remoteFail (s.senderInfo m.src 0 0))
  else .hold s

/-- Perform a command, or turn it away. -/
def State.perform (s : State) (opc : Nat) (m : HostMsg) (act : State → CmdRes) : CmdRes :=
  match s.cmdStatus opc m with
  | some stat => s.turnAway m stat
  | none => act s

/-- A command reaches its command processor, or the one at its head goes on; its reply lets the next one come (R424). -/
def State.command (s : State) (i : Instr) (opc : Nat) (m : HostMsg) (act : State → CmdRes) : State :=
  let d := cmdDie opc m
  let s := if (s.die d).cmds.head? = some i then s else s.modDie d fun x => { x with cmds := x.cmds ++ [i] }
  if (s.die d).cmds.head? = some i then
    match s.perform opc m act with
    | .hold s => s
    | .reply stat body s => (s.modDie d fun x => { x with cmds := x.cmds.tail, busy := false }).replyHost opc m stat body
  else s

/-- Turn away a request that holds back no other; one whose record finds no room waits (R384, R418). -/
def State.turnOne (s : State) (opc stat : Nat) (m : HostMsg) : State :=
  match s.turnAway m stat with
  | .reply stat body s => s.replyHost opc m stat body
  | .hold s => { s with turned := s.turned ++ [(opc, stat, m)] }

/-- The first request turned away that waits for room is tried again. -/
def State.turnNext (s : State) : State :=
  match s.turned with
  | [] => s
  | (opc, stat, m) :: r => if s.portRoom 0 then { s with turned := r }.turnOne opc stat m else s

/-- A message whose `OPC` is reserved: before provisioning it is answered with UNPROVISIONED like every other (R3, R418, R419). -/
def State.badCommand (s : State) (opc : Nat) (m : HostMsg) : State :=
  s.turnOne opc (if s.notHost m then 4 else if s.host.isNone then 2 else 3) m

/-! ### Provisioning and identity (R425 to R427, R430) -/

/-- What a PROVISION resets: everything to which the spec gives a reset value, the clock and the boundaries among it; the tiers with their
marks, the fuses and the straps stay, and so do the model's own fields (R426, R428, R430, R432). -/
def State.wiped (s : State) : State :=
  { State.reset with
    agenda := s.agenda
    rr := s.rr
    fresh := s.fresh
    mem := s.mem
    lost := s.lost
    fuseMin := s.fuseMin
    serial := s.serial
    straps := s.straps }

/-- Discard every launch and every version, and reset (R426). -/
def State.unprovision (s : State) : State :=
  let s := (s.launches.map (·.num)).foldl (fun s n => s.discardLaunch n) s
  ((s.versions.map (·.id)).foldl (fun s v => s.discardVersion v) s).wiped

/-- Digests of 32 bytes. -/
def digestBytes (b : List Byte) : List Byte := bytesOf 32 (shake b)

/-- The first check that an image fails: 1 signature, 2 hash, 3 version, 4 `MINV`, 5 reserved bytes. -/
def State.imageCheck (s : State) (img : List Byte) : Option Nat :=
  let code := img.drop 4096
  if !Config.vendorVerifies (digestBytes (img.take 48)) (sub img 48 1280) then some 1
  else if numAt img 4 4 ≠ code.length ∨ digestBytes code ≠ sub img 8 32 then some 2
  else if numAt img 0 4 < s.fuseMin then some 3
  else if numAt img 0 4 < numAt img 40 4 then some 4
  else if numAt img 44 4 ≠ 0 then some 5
  else none

/-- PROVISION: the launches discarded stand in the reply, after the check number of a refusal (R426). -/
def State.provision (s : State) (b : List Byte) : CmdRes :=
  let n := if s.host.isSome then s.launches.length else 0
  let s := if s.host.isSome then s.unprovision else s
  let img := b.drop 16
  if s.straps.tmode then .reply 1 (bytesOf 4 0xFFFF ++ bytesOf 4 n) s
  else match s.imageCheck img with
    | some k => .reply 1 (bytesOf 4 k ++ bytesOf 4 n) s
    | none => .reply 0 (bytesOf 4 n) { s with
        host := some (BitVec.ofNat 128 (numAt b 0 16))
        measurement := digestBytes (img.drop 4096)
        fuseMin := max s.fuseMin (numAt img 40 4) }

/-- The installed policy table as its 16 KiB. -/
def policyBytes (t : Store W64) : List Byte := ((List.range 2048).map fun i => bytesOf 8 (Store.get 0 t i).toNat).flatten

/-- The fields of an attestation record before its signature (R427). -/
def State.attestBody (s : State) (nonce : List Byte) : List Byte :=
  bytesOf 8 s.serial.toNat ++ Config.identityKey.toList ++ Config.identityCert.toList ++ s.measurement ++
  (match s.policy with | some t => digestBytes (policyBytes t) | none => List.replicate 32 0) ++ nonce ++ bytesOf 8 (s.timeAt 0)

/-- ATTEST. -/
def State.attest (s : State) (nonce : List Byte) : CmdRes :=
  let b := s.attestBody nonce
  .reply 0 (b ++ (Config.identitySign (digestBytes b)).toList) s

/-! ### POLICY and PEERS (R386, R412) -/

/-- Every cause. -/
def Cause.all : List Cause :=
  [.illegal, .illegalTarget, .fetch, .fetchError, .regUnmapped, .latchStale, .lookahead, .badAddress, .badPte, .token,
   .task, .barrier, .counter, .pool, .scope, .badRecord, .badScale, .badTable, .badWindow, .badStream, .badSparse,
   .latchEmpty, .accOwner, .accWindow, .waitTimeout, .teamStall, .markTimeout, .scheduleMiss, .adjointUnderflow,
   .countOverflow, .twinRange, .twinBusy, .orderRace, .versionFull, .dataLost, .user, .halt, .shadowMismatch,
   .translation, .permission, .twinEarly] ++
  [.event, .corrected, .taskCount, .collRefused, .tierSkip, .roleChange, .launchRefused, .predDiscarded, .remoteFail,
   .scopeAck, .spawnRefused, .policyStep]

/-- The cause of a code, none for a reserved one. -/
def Cause.ofCode (n : Nat) : Option Cause := Cause.all.find? fun c => c.code == n

/-- The rules of R386 that an entry for a cause code breaks, by their place in its list. -/
def policyBreaks (code e : Nat) : List Nat :=
  let c := Cause.ofCode code
  let act := e % 16
  let when (b : Bool) (k : Nat) : List Nat := if b then [k] else []
  when (decide (4 < act)) 1 ++
  when ((act == 1 && !(match c with | some c => c.canPark | none => false)) ||
    (act == 2 && !(match c with | some c => c.canRetry | none => false))) 2 ++
  when (act == 2 && bits e 7 4 == 0) 3 ++ when (act == 3 && bits e 63 8 == 0) 4 ++
  when (act != 0 && (match c with | some c => c.isN | none => true)) 5

/-- The first rule of R386 that a table breaks. -/
def policyCheck (es : List Nat) : Option Nat :=
  (es.zipIdx.flatMap fun e => policyBreaks (e.2 % 128) e.1).foldl (fun (m : Option Nat) k =>
    match m with | none => some k | some j => some (min j k)) none

/-- POLICY. -/
def State.installPolicy (s : State) (b : List Byte) : CmdRes :=
  let es := (List.range 2048).map fun i => numAt b (8 * i) 8
  match policyCheck es with
  | some k => cmdRefuse k s
  | none => cmdOk { s with policy := some (Store.setRange 0 [] 0 (es.map fun n => BitVec.ofNat 64 n)) }

/-- PEERS. -/
def State.installPeers (s : State) (b : List Byte) : CmdRes :=
  let first := numAt b 0 4
  let es := (List.range (numAt b 4 4)).map fun i => numAt b (8 + 32 * i) 32
  if 256 < first + es.length then cmdRefuse 1 s
  else if es.any fun e => bits e 95 81 != 0 || bits e 63 1 != 0 then cmdRefuse 2 s
  else cmdOk { s with peers := es.zipIdx.foldl (fun m e => Store.set 0 m (first + e.2) (BitVec.ofNat 256 e.1)) s.peers }

/-! ### WRITE and READ (R420) -/

/-- Physical address of a host access to a part of a line. -/
def State.hostPa (s : State) (space ctx a n : Nat) (q : Want) : Except Cause Nat :=
  if space = 0 then (if inTier a n then .ok a else .error .badAddress)
  else if 2 ^ 56 ≤ a then .error .badAddress
  else
    let va : Addr := BitVec.ofNat 56 a
    if regionOf va = 1 ∨ regionOf va = 2 then .error .permission
    else match s.xlat none ctx va q with
      | .error t => .error t.cause
      | .ok p => if pteSystem p then .error .permission else .ok (paOf p va)

/-- The parts of a host access by lines: address and bytes. -/
def hostParts : Nat → Nat → Nat → List (Nat × Nat)
  | 0, _, _ => []
  | f + 1, a, n => if n = 0 then [] else let k := min n (128 - a % 128); (a, k) :: hostParts f (a + k) (n - k)

/-- A failed command: how far it went and why. -/
def cmdFailed (off : Nat) (c : Cause) (s : State) : CmdRes := .reply 5 (bytesOf 4 off ++ bytesOf 4 c.code) s

/-- Write the parts in order. -/
def State.hostWrite (s : State) (space ctx : Nat) (off : Nat) (b : List Byte) : List (Nat × Nat) → CmdRes
  | [] => cmdOk s
  | (a, k) :: r =>
    match s.hostPa space ctx a k (wantStore true) with
    | .error c => cmdFailed off c s
    | .ok pa =>
      if s.isLost pa && k != 128 then cmdFailed off .dataLost s
      else (s.homeWrite none pa (b.take k)).hostWrite space ctx (off + k) (b.drop k) r

/-- Read the parts in order. -/
def State.hostRead (s : State) (space ctx : Nat) (got : List Byte) : List (Nat × Nat) → CmdRes
  | [] => .reply 0 got s
  | (a, k) :: r =>
    match s.hostPa space ctx a k (wantLoad true) with
    | .error c => cmdFailed got.length c s
    | .ok pa =>
      if s.isLost pa then cmdFailed got.length .dataLost s
      else s.hostRead space ctx (got ++ s.mem.read pa k) r

/-- WRITE. A space other than 0 and 1 is refused. -/
def State.writeCmd (s : State) (b : List Byte) : CmdRes :=
  let d := b.drop 64
  if 1 < numAt b 0 1 then cmdRefuse 1 s
  else s.hostWrite (numAt b 0 1) (numAt b 1 2) 0 d (hostParts (d.length / 128 + 2) (numAt b 8 8) d.length)

/-- READ. -/
def State.readCmd (s : State) (b : List Byte) : CmdRes :=
  let n := numAt b 16 4
  if 1 < numAt b 0 1 then cmdRefuse 1 s
  else if 1048576 < n then cmdRefuse 2 s
  else s.hostRead (numAt b 0 1) (numAt b 1 2) [] (hostParts (n / 128 + 2) (numAt b 8 8) n)

/-! ### MAP, UNMAP and FRAMES (R421) -/

/-- Address of the entry of level `lvl` for an address, by the tables above it. -/
def State.entryFrom (s : State) (va lvl : Nat) : Nat → Nat → Option Nat
  | 0, _ => none
  | n + 1, base =>
    let at_ := 3 - n
    let ea := base + 32 * tableIndex va at_
    if at_ = lvl then some ea
    else if s.isLost ea then none
    else
      let p := s.pteAt ea
      if pteBits p 65 64 = 1 ∧ tableBad p at_ = false then State.entryFrom s va lvl n (pteFrame p) else none

/-- On the way to that entry a lost line is met (R8). -/
def State.entryLost (s : State) (va lvl : Nat) : Nat → Nat → Bool
  | 0, _ => false
  | n + 1, base =>
    let at_ := 3 - n
    let ea := base + 32 * tableIndex va at_
    if s.isLost ea then true
    else if at_ = lvl then false
    else
      let p := s.pteAt ea
      pteBits p 65 64 == 1 && !tableBad p at_ && State.entryLost s va lvl n (pteFrame p)

/-- See `State.entryLost`; from the root. -/
def State.lostWalk (s : State) (ctx va lvl : Nat) : Bool :=
  let root := s.rootOf ctx (bits va 55 54 == 3)
  !(root == 0 || decide (2 ^ 56 ≤ va) || bits va 55 54 == 2) && s.entryLost (va % 2 ^ 54) lvl 4 root

/-- The same from the root; a scratchpad address has none. -/
def State.entryAt (s : State) (ctx va lvl : Nat) : Option Nat :=
  let root := s.rootOf ctx (bits va 55 54 == 3)
  if root = 0 ∨ 2 ^ 56 ≤ va ∨ bits va 55 54 = 2 then none else s.entryFrom (va % 2 ^ 54) lvl 4 root

/-- The leaf entry that a walk of an address meets. -/
def State.leafAt (s : State) (ctx va : Nat) : Option Nat :=
  [1, 2, 3].findSome? fun lvl => (s.entryAt ctx va lvl).bind fun ea =>
    if s.isLost ea || pteBits (s.pteAt ea) 65 64 != 2 then none else some ea

/-- Bytes of memory become 0. -/
def Memory.zero (m : Memory) (a n : Nat) : Memory := m.filter fun e => !(decide (a ≤ e.1) && decide (e.1 < a + n))

/-- A leaf with `TWIN` resets the headers and accumulators of its backing. -/
def State.resetBacking (s : State) (p : BitVec 256) (lvl : Nat) : State :=
  if pteBits p 65 64 = 2 ∧ leafBad p lvl = false ∧ pteTwin p = true then
    { s with
      mem := s.mem.zero (pteTwBase p) (backingBytes p)
      lost := s.lost.filter fun e => !(decide (pteTwBase p ≤ e.1) && decide (e.1 < pteTwBase p + backingBytes p)) }
  else s

/-- Write an entry and remove the address's translations. -/
def State.setEntry (s : State) (ctx va ea : Nat) (p : BitVec 256) : State :=
  { s with mem := s.mem.write ea (bytesOf 32 p.toNat) }.tlbDrop (tlbOfVa ctx (BitVec.ofNat 56 va))

/-- An access to the address by another entry than `p` is not performed. -/
def State.oldAccess (s : State) (ctx va : Nat) (p : BitVec 256) : Bool :=
  s.inFlight fun c x _ => c == ctx && x.covers (BitVec.ofNat 56 va) && x.pte != p

/-- Bits of the range that an entry of a level covers. -/
def lvlBits (lvl : Nat) : Nat := if lvl = 0 then 39 else if lvl = 1 then 30 else if lvl = 2 then 21 else 16

/-- A unit parked on an address that an entry of level `lvl` for `va` covers. -/
def StopInfo.parkedIn (i : StopInfo) (va lvl : Nat) : Bool :=
  i.act == .park && match i.va with
    | some a => (regionOf a == 3) == (bits va 55 54 == 3) && a.toNat % 2 ^ 54 / 2 ^ lvlBits lvl == va % 2 ^ 54 / 2 ^ lvlBits lvl
    | none => false

/-- The stop of a party or engine is such. -/
def parkHit (st : Option StopInfo) (va lvl : Nat) : Bool := match st with | some i => i.parkedIn va lvl | none => false

/-- Wake the parked units of a resident team. -/
def State.wakeTeam (s : State) (t : Team) (va lvl : Nat) : State :=
  let s := (t.groups.filter fun g => g.st == .parked && parkHit g.stop va lvl).foldl (fun s g =>
    if s.canResume ⟨t.ref, .grp g.idx⟩ then s.resumeGroup ⟨t.ref, .grp g.idx⟩ else s) s
  let s := (t.conts.filter fun c => c.g.st == .parked && parkHit c.g.stop va lvl).foldl (fun s c => s.resumeGroup ⟨t.ref, .cont c.id⟩) s
  let s := if t.sq.sst == .stopped && parkHit t.sq.stop va lvl then
    s.modTeam t.ref Team.seqGo else s
  ((List.range 32).filter fun k => (t.win k).stop && parkHit (t.win k).stopInfo va lvl).foldl (fun s k => s.resumeCopy t.ref k) s

/-- Wake every unit of a context that is parked on an address the entry covers (R387, R421); a team whose save has started stays as it
is (R405). -/
def State.wakeParked (s : State) (ctx va lvl : Nat) : State :=
  let here (n : Nat) : Bool := match s.launch? n with | some l => l.pkt.ctx == ctx | none => false
  let s := (s.teams.filter fun t => !t.saving && here t.ref.launch).foldl (fun s t => s.wakeTeam t va lvl) s
  (List.range 4).foldl (fun s d => ((s.die d).slots.filter fun e => e.2.ctx == ctx && parkHit e.2.stop va lvl).foldl
    (fun s e => s.resumeSlot d e.1) s) s

/-- MAP of a root. -/
def State.mapRoot (s : State) (ctx kind root : Nat) : CmdRes :=
  if 1 < kind then cmdRefuse 2 s
  else if root % 2 ^ 20 ≠ 0 ∨ inTier root (2 ^ 20) = false then cmdRefuse 3 s
  else cmdOk (if kind = 0 then { s with rootU := Store.set 0 s.rootU ctx root } else { s with rootS := Store.set 0 s.rootS ctx root })

/-- What MAP does once no access by an old entry is left: it wakes, and replies. -/
def State.mapEnd (s : State) (ctx va lvl : Nat) (p : BitVec 256) : CmdRes :=
  if s.oldAccess ctx va p then .hold (s.modDie 0 fun d => { d with busy := true })
  else cmdOk (if pteBits p 65 64 = 1 ∨ pteBits p 65 64 = 2 then s.wakeParked ctx va lvl else s)

/-- MAP: check 1 the level, 2 the root kind, 3 the root's address, 4 a missing table. An entry in a lost line, or behind one, fails with
DATA-LOST (R8; log 40). -/
def State.mapCmd (s : State) (b : List Byte) : CmdRes :=
  let ctx := numAt b 0 2
  let lvl := numAt b 2 1
  let va := numAt b 8 8
  let p := BitVec.ofNat 256 (numAt b 16 32)
  if lvl = 0xFF then s.mapRoot ctx (numAt b 3 1) va
  else if 3 < lvl then cmdRefuse 1 s
  else if (s.die 0).busy then s.mapEnd ctx va lvl p
  else if s.lostWalk ctx va lvl then cmdFailed 0 .dataLost s
  else match s.entryAt ctx va lvl with
    | none => cmdRefuse 4 s
    | some ea => ((s.setEntry ctx va ea p).resetBacking p lvl).mapEnd ctx va lvl p

/-- An invalid entry in place of a leaf: `T` is 00. -/
def invalidPte (p : BitVec 256) : BitVec 256 := BitVec.ofNat 256 (p.toNat - pteBits p 65 64 * 2 ^ 64)

/-- UNMAP: the reply follows every access by the old entry. -/
def State.unmapCmd (s : State) (b : List Byte) : CmdRes :=
  let ctx := numAt b 0 2
  let va := numAt b 2 8
  let fin (s : State) : CmdRes := if s.oldAccess ctx va 0 then .hold (s.modDie 0 fun d => { d with busy := true }) else cmdOk s
  if (s.die 0).busy then fin s
  else if s.lostWalk ctx va 3 then cmdFailed 0 .dataLost s
  else match s.leafAt ctx va with
    | none => cmdRefuse 1 s
    | some ea => fin (s.setEntry ctx va ea (invalidPte (s.pteAt ea)))

/-- A frame of a die, tier and size: its place, its alignment and its capacity. -/
def frameOk (die tier size a : Nat) : Bool :=
  let n := 2 ^ sizeBits size
  a % n == 0 && inTier a n && bits a 47 46 == die && bits a 45 45 == tier

/-- FRAMES: check 1 the die, 2 the tier, 3 the size code, 4 a frame, 5 a frame that is free already. -/
def State.framesCmd (s : State) (b : List Byte) : CmdRes :=
  let die := numAt b 0 1
  let tier := numAt b 1 1
  let size := numAt b 2 1
  let fs := (List.range (numAt b 4 4)).map fun i => numAt b (8 + 8 * i) 8
  if 3 < die then cmdRefuse 1 s
  else if 1 < tier then cmdRefuse 2 s
  else if 2 < size then cmdRefuse 3 s
  else if !fs.all (frameOk die tier size) then cmdRefuse 4 s
  else if fs.eraseDups.length ≠ fs.length ∨ (fs.any fun a => (s.die die).frames.contains (tier, size, a)) = true then cmdRefuse 5 s
  else
    let s := s.modDie die fun d => { d with frames := d.frames ++ fs.map fun a => (tier, size, a) }
    .reply 0 (bytesOf 4 ((s.die die).frames.filter fun f => f.1 == tier && f.2.1 == size).length) s

/-! ### LAUNCH, TIMETABLE and PREEMPT (R335, R392, R423) -/

/-- LAUNCH replies on acceptance or refusal (R424). -/
def State.launchCmd (s : State) (m : HostMsg) : CmdRes :=
  if !s.srcRoomFor m.die.val .cmdProc 5 then .hold s
  else match s.acceptLaunch m.die.val m.tag m.body with
    | (.ok n, s) => .reply 0 (bytesOf 4 n) s
    | (.error k, s) => cmdRefuse k s

/-- TIMETABLE: check 1 the launch, 2 it is eligible or discarded, 3 the timetable. -/
def State.timetableCmd (s : State) (b : List Byte) : CmdRes :=
  match s.launch? (numAt b 0 4) with
  | none => cmdRefuse 1 s
  | some l =>
    if l.eligible || l.discarded then cmdRefuse 2 s
    else if l.pkt.ord && numAt b 8 8 != 0 && s.countsBad l.pkt (numAt b 8 8) then cmdRefuse 3 s
    else match optRec (numAt b 8 8) (s.cpTimetable l.pkt (numAt b 8 8)) with
      | none => cmdRefuse 3 s
      | some tt => cmdOk (s.setLaunch { l with tt := tt })

/-- Every 64 KiB of a buffer lies on a DEVICE page with `RD` and `W`, in region 00 or 11; the engine that moves the state is privileged
(R392; log 39). -/
def State.bufferOk (s : State) (ctx a n : Nat) : Bool :=
  let region (x : Nat) : Bool := decide (x < 2 ^ 54) || (decide (3 * 2 ^ 54 ≤ x) && decide (x < 2 ^ 56))
  (List.range (n / 65536)).all fun i =>
    region (a + 65536 * i) && match s.xlat none ctx (BitVec.ofNat 56 (a + 65536 * i)) (wantAtomic true) with
    | .ok p => pteBits p 33 32 == 1
    | .error _ => false

/-- Bytes of an area (R392). -/
def areaBytes : Nat := 8 * 2 ^ 20

/-- The resident teams of a launch in the order of their areas: primaries by logical index, then shadows. -/
def State.areaOrder (s : State) (n : Nat) : List TeamRef :=
  let ts := (s.teams.filter fun t => t.ref.launch == n).map (·.ref)
  let sorted (shadow : Bool) : List TeamRef :=
    let ids := (ts.filter fun r => r.shadow == shadow).foldl (fun l r => insertSorted r.idx l) []
    ids.map fun i => ⟨n, i, shadow⟩
  sorted false ++ sorted true

/-- A pre-emption of a launch starts: `sr.prq`, the deadline and the area of each resident team. -/
def State.startPreempt (s : State) (l : Launch) (buffer : Nat) (ts : List TeamRef) : State :=
  let s := s.modLaunch l.num fun l => { l with preempted := true, buffer := buffer }
  ts.zipIdx.foldl (fun s e => s.modTeam e.1 fun t =>
    { t with prq := true, save := some ⟨s.clock + l.pkt.preempt, buffer + areaBytes * e.2, false, false⟩ }) s

/-- PREEMPT: check 1 the launch, 2 it is pre-empted or discarded, 3 the buffer. The reply counts the teams. -/
def State.preemptCmd (s : State) (b : List Byte) : CmdRes :=
  let s := s.sweep
  let a := numAt b 4 8
  match s.launch? (numAt b 0 4) with
  | none => cmdRefuse 1 s
  | some l =>
    if l.preempted || l.discarded || s.finished l || (s.teams.any fun t => t.ref.launch == l.num && t.save.isSome) || !l.saved.isEmpty then
      cmdRefuse 2 s
    else
      let ts := s.areaOrder l.num
      if a % areaBytes ≠ 0 ∨ s.bufferOk l.pkt.ctx a (areaBytes * ts.length) = false then cmdRefuse 3 s
      else .reply 0 (bytesOf 4 ts.length) (s.startPreempt l a ts)

/-! ### RESUME and DISCARD (R388 to R390, R422) -/

/-- RESUME of a launch: from its buffer, after a HALT, or past a discarded predecessor. -/
def State.resumeLaunch (s : State) (l : Launch) (buffer : Bool) : Option State :=
  if l.discarded then none
  else if buffer then
    (if l.preempted && !(s.teams.any fun t => t.ref.launch == l.num && t.save.isSome) then
      some (s.modLaunch l.num fun l => { l with preempted := false, saved := l.saved.map fun x => { x with bad := false } })
     else none)
  else if l.halted then (if l.preempted || !l.saved.isEmpty then none else some (s.unhalt l.num))
  else if !l.eligible && l.pkt.preds.any (fun n => n != 0 && s.past.contains (n, true) ||
      (match s.launch? n with | some k => k.discarded | none => false)) then some (s.makeEligible l.num)
  else none

/-- RESUME or DISCARD of a collective slot of a launch. -/
def State.slotAct (s : State) (l : Launch) (discard : Bool) (die n : Nat) : Option State :=
  match s.slot? die n with
  | none => none
  | some x =>
    if x.launch ≠ l.num ∨ x.stop.isNone = true then none
    else some (if discard then s.discardSlot die n else s.resumeSlot die n)

/-- A launch that DISCARD takes: one that HALT has stopped, one that is queued, and one whose teams have all been saved (R260, R336, R392,
R422; log 39). -/
def State.launchRests (s : State) (l : Launch) : Bool :=
  !l.discarded && (l.halted || !l.eligible || (l.preempted && !s.teams.any fun t => t.ref.launch == l.num))

/-- A unit reference names a unit (R422): kind, team, index. -/
def State.unitOf (s : State) (l : Launch) (discard buffer : Bool) (kind team idx : Nat) : Option State :=
  if kind = 0 then (if discard then (if s.launchRests l then some (s.discardLaunch l.num) else none) else s.resumeLaunch l buffer)
  else if kind = 6 then s.slotAct l discard (idx / 256) (idx % 256)
  else s.unitCommand ⟨l.num, team, false⟩ discard kind idx

/-- RESUME and DISCARD: check 1 the launch, 2 the reference, 3 the unit's state. -/
def State.unitCmd (s : State) (discard : Bool) (b : List Byte) : CmdRes :=
  let kind := numAt b 4 1
  let buf := numAt b 11 1
  if !s.discardRoom (numAt b 0 4) 0 then .hold s
  else match s.launch? (numAt b 0 4) with
    | none => cmdRefuse 1 s
    | some l =>
      if 6 < kind ∨ 1 < buf ∨ (buf = 1 ∧ (kind ≠ 0 ∨ discard = true)) then cmdRefuse 2 s
      else match s.unitOf l discard (buf == 1) kind (numAt b 5 4) (numAt b 9 2) with
        | none => cmdRefuse 3 s
        | some s => cmdOk s

/-! ### EVENTS (R384, R424) -/

/-- EVENTS is served when it arrives. -/
def State.eventsCmd (s : State) (m : HostMsg) : CmdRes :=
  let n := numAt m.body 0 4
  if 1024 < n then cmdRefuse 1 s
  else
    let r := ((s.die m.die.val).ring).take n
    .reply 0 (bytesOf 4 r.length ++ (r.map Rec.bytes).flatten) (s.modDie m.die.val fun d => { d with ring := d.ring.drop n })

/-- A command that waits for nothing and is not held back; one that is turned away waits for its record alone. -/
def State.atOnce (s : State) (opc : Nat) (m : HostMsg) (act : State → CmdRes) : State :=
  match s.cmdStatus opc m with
  | some stat => s.turnOne opc stat m
  | none =>
    match act s with
    | .reply stat body s => s.replyHost opc m stat body
    | .hold s => s

/-! ### Reset (R429, R430) -/

/-- The machine after `RESET_N`: everything at its reset value but the fuses, the straps sampled; the model's own fields go on. -/
def State.released (s : State) (straps : Straps) : State :=
  { State.reset with
    agenda := s.agenda
    rr := s.rr
    fresh := s.fresh
    fuseMin := s.fuseMin
    serial := s.serial
    straps := straps }

/-! ### Meanings -/

def execProvision (m : HostMsg) (s : State) : Host.Outcome State Fault Refusal :=
  .next (s.command (.provision m) 0x01 m fun s => s.provision m.body)

def execAttest (m : HostMsg) (s : State) : Host.Outcome State Fault Refusal :=
  .next (s.command (.attest m) 0x02 m fun s => s.attest m.body)

def execPolicy (m : HostMsg) (s : State) : Host.Outcome State Fault Refusal :=
  .next (s.command (.policy m) 0x03 m fun s => s.installPolicy m.body)

def execPeers (m : HostMsg) (s : State) : Host.Outcome State Fault Refusal :=
  .next (s.command (.peers m) 0x04 m fun s => s.installPeers m.body)

def execWrite (m : HostMsg) (s : State) : Host.Outcome State Fault Refusal :=
  .next (s.command (.write m) 0x10 m fun s => s.writeCmd m.body)

def execRead (m : HostMsg) (s : State) : Host.Outcome State Fault Refusal :=
  .next (s.command (.read m) 0x11 m fun s => s.readCmd m.body)

def execMap (m : HostMsg) (s : State) : Host.Outcome State Fault Refusal :=
  .next (s.command (.map m) 0x20 m fun s => s.mapCmd m.body)

def execUnmap (m : HostMsg) (s : State) : Host.Outcome State Fault Refusal :=
  .next (s.command (.unmap m) 0x21 m fun s => s.unmapCmd m.body)

def execFrames (m : HostMsg) (s : State) : Host.Outcome State Fault Refusal :=
  .next (s.command (.frames m) 0x22 m fun s => s.framesCmd m.body)

def execLaunch (m : HostMsg) (s : State) : Host.Outcome State Fault Refusal :=
  .next (s.command (.launch m) 0x30 m fun s => s.launchCmd m)

def execTimetable (m : HostMsg) (s : State) : Host.Outcome State Fault Refusal :=
  .next (s.command (.timetable m) 0x31 m fun s => s.timetableCmd m.body)

def execPreempt (m : HostMsg) (s : State) : Host.Outcome State Fault Refusal :=
  .next (s.command (.preempt m) 0x32 m fun s => s.preemptCmd m.body)

def execResume (m : HostMsg) (s : State) : Host.Outcome State Fault Refusal :=
  .next (s.command (.resume m) 0x33 m fun s => s.unitCmd false m.body)

def execDiscard (m : HostMsg) (s : State) : Host.Outcome State Fault Refusal :=
  .next (s.command (.discard m) 0x34 m fun s => s.unitCmd true m.body)

def execEvents (m : HostMsg) (s : State) : Host.Outcome State Fault Refusal :=
  .next (s.atOnce 0x40 m fun s => s.eventsCmd m)

def execReset (straps : Straps) (s : State) : Host.Outcome State Fault Refusal := .next (s.released straps)

end Sys2Proof.Machine
end

