-- ==== Sys2Proof/Machine/Training.lean ====
section
/-! DEFINITION. Quantisation, activations, code tables, ordered keys and the stream seed (R147 to R153). -/
namespace Sys2Proof.Machine

/-! ### QNT, QNTT, DQNT (R149) -/

/-- Four codes of eight bits as one register. -/
def pack4 (l : List Nat) : Nat := l.foldr (fun c a => c + 256 * a) 0

/-- The 128 elements of a QNT. -/
def qntElems (w : Fp2) (x : Ex) : List ExactNum :=
  (List.range 128).map fun e =>
    match w.a with
    | .v r => if x.act.getLsbD (e % x.w) then f32 (x.c.g.vreg (r.val + e / x.w) (e % x.w)).toNat else ExactNum.zero false
    | _ => ExactNum.zero false

def qntBody (w : Fp2) (x : Ex) (s : State) : Eff :=
  let sb : W32 := BitVec.ofNat 32 (x.uval w.b 32 false w.imm)
  if !posFinite sb then .trap (trapE .badScale (BitVec.ofNat 128 sb.toNat))
  else
    let xs := qntElems w x
    let (sc, exceeded) := stepScale xs (f32 sb.toNat) e4m3Max
    let codes := xs.zipIdx.map fun e =>
      round E4M3 w.rm (e.1.div sc) ⟨x.c.g.seed.toNat, x.c.g.ctr.toNat * 2 ^ 32 + e.2⟩
    let nc := if x.w = 16 then 2 else 1
    let ws : List Wr := match w.d with
      | .v d =>
        ((List.range 32).filterMap fun k =>
          if x.act.getLsbD (k % x.w) then
            some (.v (d.val + k / x.w) (k % x.w) (BitVec.ofNat 32 (pack4 ((codes.drop (4 * k)).take 4))))
          else none) ++
        ((x.lanes.filter (32 ≤ ·)).map fun i => .v d.val i 0) ++
        (x.lanes.map fun i => .v (d.val + nc) i (scaleBits sc))
      | _ => []
    .done (s.modGroup x.c.ref fun g => (g.flag .qsat exceeded).advance w.rm .e4m3) ws none

/-- A local address of QNTT: 128-byte aligned, in the local region, with `n` bytes inside the scratchpad. -/
def qnttAddr (t : Team) (a : Addr) (n : Nat) : Option Nat :=
  let o := a.toNat % 2 ^ 32
  if regionOf a = 2 ∧ bits a.toNat 53 32 = 0 ∧ a.toNat % 128 = 0 ∧ o + n ≤ t.spadSize then some o else none

/-- FP32 element `k` of a QNTT's source. -/
def Team.qnttElem (t : Team) (so k : Nat) : W32 := BitVec.ofNat 32 (natOf (t.spadRead (so + 4 * k) 4))

/-- The FP32 bits of a magnitude; a NaN raises no scale (R123). -/
def magBits (x : W32) : W32 := if (f32 x.toNat).isNan then 0 else x &&& 0x7FFFFFFF

/-- The largest magnitude once source row `r` has been read in the test pass. -/
def Team.qnttTest (t : Team) (so r : Nat) (big : W32) : W32 :=
  (List.range 128).foldl (fun m c => let y := magBits (t.qnttElem so (128 * r + c)); if m < y then y else m) big

/-- The code of destination element (r, c). -/
def Team.qnttCode (t : Team) (w : QnttW) (sc : ExactNum) (seed so r c : Nat) : Byte :=
  BitVec.ofNat 8 (round E4M3 w.rm ((f32 (t.qnttElem so (if w.col then 128 * c + r else 128 * r + c)).toNat).div sc) ⟨seed, r * 2 ^ 32 + c⟩)

/-- A destination line has been written. -/
def Team.qnttFull (t : Team) (o : Nat) : Team := (t.markFull o []).spadWhole o

/-- A row of the conversion pass writes destination row `r`; under `.col` it reads source rows 4r to 4r + 3, each line once, and writes word
`r` of every destination row, which is complete after the last. -/
def Team.qnttRow (t : Team) (w : QnttW) (sc : ExactNum) (seed so dof r : Nat) : Team :=
  if w.col then
    let u := (List.range 128).foldl (fun u q =>
      u.spadWrite (dof + 128 * q + 4 * r) ((List.range 4).map fun j => t.qnttCode w sc seed so q (4 * r + j))) t
    if r = 31 then (List.range 128).foldl (fun u q => u.qnttFull (dof + 128 * q)) u else u
  else (t.spadWrite (dof + 128 * r) ((List.range 128).map (t.qnttCode w sc seed so r))).qnttFull (dof + 128 * r)

/-- Rows of the conversion pass. -/
def qnttSteps (w : QnttW) : Nat := if w.col then 32 else 128

/-- The source lines that a row of a pass reads. -/
def qnttLines (w : QnttW) (so : Nat) (conv : Bool) (r : Nat) : List Nat :=
  if conv && w.col then (List.range 16).map fun k => so + 2048 * r + 128 * k
  else (List.range 4).map fun k => so + 512 * r + 128 * k

/-- The destination lines that a row of the conversion pass writes. -/
def qnttDests (w : QnttW) (dof r : Nat) : List Nat := if w.col then (List.range 128).map fun q => dof + 128 * q else [dof + 128 * r]

/-- At most `n` rows of a QNTT that has begun: 128 of its test pass, then those of its conversion pass. A row waits for its lines (R149). -/
def Ex.qnttRows (x : Ex) (w : QnttW) (sb : W32) (so dof : Nat) : Nat → Bool → Nat → W32 → State → Eff
  | 0, conv, r, big, s => .waitIn s (.qntt conv r big none)
  | n + 1, conv, r, big, s =>
    let (sc, exceeded) := stepScale [f32 big.toNat] (f32 sb.toNat) e4m3Max
    match s.team? x.c.ref.t with
    | none => .gone s
    | some t =>
      if conv && decide (qnttSteps w ≤ r) then
        .done (s.modGroup x.c.ref fun g => g.flag .qsat exceeded) (uniWr w.d (BitVec.ofNat 64 (scaleBits sc).toNat)) none
      else match (qnttLines w so conv r).find? fun o => !t.serves o with
      | some o => .waitIn s (.qntt conv r big (some o))
      | none => match t.lostAmong (qnttLines w so conv r) with
      | some o => .trapAt s (localLostTrap (localVa o))
      | none =>
        if conv then
          (if (qnttDests w dof r).any t.storeWaits then .waitIn s (.qntt conv r big none)
           else x.qnttRows w sb so dof n true (r + 1) big
             (s.modTeam x.c.ref.t fun t => t.qnttRow w sc x.c.g.seed.toNat so dof r))
        else
          let b := t.qnttTest so r big
          if r = 127 then x.qnttRows w sb so dof n true 0 b s else x.qnttRows w sb so dof n false (r + 1) b s

/-- QNTT, at most `n` of its rows (R149). A program that writes the source meanwhile may fall between two rows; what QNTT reads and
writes is tracked as it begins (log 5). -/
def qnttSome (n : Nat) (w : QnttW) (x : Ex) (s : State) : Eff :=
  let sb : W32 := BitVec.ofNat 32 (x.uval w.c 32 false w.imm)
  let aa : Addr := BitVec.ofNat 56 (x.uval w.a 64 false 0)
  let ab : Addr := BitVec.ofNat 56 (x.uval w.b 64 false 0)
  if !posFinite sb then .trap (trapE .badScale (BitVec.ofNat 128 sb.toNat))
  else match qnttAddr x.c.t aa 65536, qnttAddr x.c.t ab 16384 with
    | none, _ => .trap (trapA .badAddress aa .load)
    | _, none => .trap (trapA .badAddress ab .store)
    | some so, some dof =>
      if so < dof + 16384 ∧ dof < so + 65536 then .trap (trapA .badAddress ab .store)
      else match x.c.g.wait with
      | .qntt conv r big _ => x.qnttRows w sb so dof n conv r big s
      | _ =>
        let src := (List.range 512).map fun k => so + 128 * k
        let dst := (List.range 128).map fun k => dof + 128 * k
        let s1 := s.touchAll x.c (src ++ dst)
        match s1.team? x.c.ref.t with
        | none => .wait .engine
        | some t =>
          match src.find? fun o => !t.serves o with
          | some o => .waitIn s1 (.emptyLine o)
          | none =>
            if (dst.any fun o => t.storeWaits o) || x.c.mustWait [(2 ^ 64 + so, 65536), (2 ^ 64 + dof, 16384)] true then
              .waitIn s1 .engine
            else
              let p := { x.pty with vc := t.fullJoin src x.c.g.vc }
              match s1.track p (.spad t.ref.idx) so 65536 false 0 with
              | (some o, s2) => .gone (s2.orderRace x.c aa o x.c.g.epoch x.pc)
              | (none, s2) =>
                match s2.track p (.spad t.ref.idx) dof 16384 true 0 with
                | (some o, s3) => .gone (s3.orderRace x.c ab o x.c.g.epoch x.pc)
                | (none, s3) => x.qnttRows w sb so dof n false 0 0 (s3.modGroup x.c.ref fun g => { g with vc := p.vc })

/-- QNTT, all the rows that are left. -/
def qnttBody : QnttW → Ex → State → Eff := qnttSome 257

/-- DQNT: four codes times the scale, exactly, rounded once. -/
def dqntBody (w : Fp2) (x : Ex) (s : State) : Eff :=
  let res (i j : Nat) : FRes :=
    let c := decodeNum E4M3 (x.val w.a 32 false w.imm i / 256 ^ j % 256)
    let b := f32 (x.val w.b 32 false w.imm i)
    ⟨c.mul b, [c, b]⟩
  let out := x.lanes.map fun i => (i, (List.range 4).map (res i))
  let inv := out.any fun e => e.2.any fun r => invMet r.val r.ops
  let f := w.ft.fmt
  let vals := out.map fun e =>
    let cs := e.2.map fun r => round f w.rm r.val
    (e.1, cs.foldr (fun c a => c + 2 ^ f.width * a) 0)
  .done (s.modGroup x.c.ref fun g => g.flag .inv inv) (laneWrs w.d (if w.ft = .f32 then 4 else 2) vals) none

/-! ### VACT, VDACT (R150) -/

/-- The admissible results for a value that is not exact: the two neighbours in a 16-bit format, the values within two units in the
last place in FP32. Beyond the largest finite value R150 names none: the largest finite value and infinity (in FP32 also the value
below) are admitted, which is the model's choice (log 46). -/
def admissible (f : Fmt) (two : Bool) (y : ExactNum) : List Nat :=
  match y with
  | .fin s n d =>
    let (lo, hi) := neighbours f n d
    let lo := min lo f.maxCode
    let hi := if f.maxCode < hi then f.infCode else hi
    let mags := if two then (if lo = hi then [lo - 2, lo - 1, lo, lo + 1, lo + 2] else [lo - 1, lo, hi, hi + 1])
      else (if lo = hi then [lo] else [lo, hi])
    mags.map fun m => min m f.infCode + bnat s * 2 ^ f.signBit
  | y => [round f .rne y]

/-- Choose from a list by a free number. -/
def chooseFrom (l : List Nat) (k : Nat) : Nat := l.getD (k % l.length) 0

/-- `VACT.fn` of one value, the result chosen within its bound by the implementation (log 11). -/
def vactVal (fn : ActFn) (t : FTy) (x : ExactNum) (bits : Nat) : Nat :=
  let f := t.fmt
  match actSpecial fn x with
  | some y => round f .rne y
  | none =>
    let y := if x.isZero then ln2Num else actNum fn x
    if fn = .relu then round f .rne y
    else chooseFrom (admissible f (t == .f32) y) (Config.vactChoice fn.code.toNat t.code.toNat bits)

/-- The bits of half `h` of a source as VACT's choice sees them. -/
def Ex.actBits (x : Ex) (t : FTy) (o : Opnd) (imm : W32) (i h : Nat) : Nat :=
  if o = .imm then (if t.packed then imm.toNat / 2 ^ (16 * h) % 2 ^ 16 else imm.toNat) else x.fbits t o imm i h

def vactBody (w : VactW) (x : Ex) (s : State) : Eff :=
  Eff.writes s (laneWrs w.d 1 (x.lanes.map fun i =>
    (i, joinHalves (w.ft.halves.map fun h =>
      vactVal w.fn w.ft (x.fval w.ft w.a w.imm i h) (x.actBits w.ft w.a w.imm i h)))))

/-- The exact product of VDACT, from the saved output `y` and the gradient `g`. R150 gives no sign to a factor 1 - y or 1 - y^2 that is
zero; that of an exact zero sum under the word's mode, -0 under RDN, is the model's choice (log 46). -/
def vdactNum (fn : ActFn) (rm : RMode) (y g : ExactNum) : FRes :=
  let one : ExactNum := .fin false 1 1
  let rdn := rm == .rdn
  match fn with
  | .sig => ⟨g.mul (y.mul (one.add rdn y.neg)), [y, g]⟩
  | .tanh => ⟨g.mul (one.add rdn (y.mul y).neg), [y, g]⟩
  | .exp => ⟨g.mul y, [y, g]⟩
  | .relu =>
    if y.isNan then ⟨.nan, [y]⟩
    else if y.isZero || y.sign then ⟨.zero false, []⟩ else ⟨g, [g]⟩
  | .softplus => ⟨g.mul (softplusDeriv y), [y, g]⟩
  | .gelu => ⟨.nan, [.nan]⟩

def vdactBody (w : VdactW) (x : Ex) (s : State) : Eff :=
  let f := w.ft.fmt
  let half (i h : Nat) : Nat × Bool :=
    let y := x.fval w.ft w.a w.imm i h
    let g := x.fval w.ft w.b w.imm i h
    let r := vdactNum w.fn w.rm y g
    (if w.fn = .softplus then
      chooseFrom (admissible f false r.val)
        (Config.vdactChoice w.ft.code.toNat (x.actBits w.ft w.a w.imm i h) (x.actBits w.ft w.b w.imm i h))
     else round f w.rm r.val, invMet r.val r.ops)
  let out := x.lanes.map fun i => (i, w.ft.halves.map (half i))
  .done (s.modGroup x.c.ref fun g => g.flag .inv (out.any fun e => e.2.any fun r => r.2))
    (laneWrs w.d 1 (out.map fun e => (e.1, joinHalves (e.2.map fun r => r.1)))) none

/-! ### Code tables (R152) -/

def Team.codeNum (t : Team) (c : Nat) : ExactNum := f32 (t.code.getD c 0).toNat

/-- CTDEC. Without a table its NaN results do not set `INV` beside `CTNAN`, which is the model's choice: R106 and R152 do not say (log
46). -/
def ctdecBody (w : Fp2) (x : Ex) (s : State) : Eff :=
  let res (i j : Nat) : FRes :=
    let c := x.c.t.codeNum (x.val w.a 32 false w.imm i / 256 ^ j % 256)
    let m := f32 (x.val w.b 32 false w.imm i)
    if x.c.t.loaded then ⟨c.mul m, [c, m]⟩ else ⟨.nan, [.nan]⟩
  let out := x.lanes.map fun i => (i, (List.range 4).map (res i))
  let inv := out.any fun e => e.2.any fun r => invMet r.val r.ops
  let vals := out.map fun e =>
    (e.1, (e.2.map fun r => round FP32 w.rm r.val).foldr (fun c a => c + 2 ^ 32 * a) 0)
  .done (s.modGroup x.c.ref fun g => (g.flag .inv inv).flag .ctnan (!x.c.t.loaded)) (laneWrs w.d 4 vals) none

/-- The index of the nearest table entry, the lower index winning a tie. -/
def nearest (t : Team) (y : ExactNum) : Nat :=
  let dist (c : Nat) : ExactNum := (y.add false (t.codeNum c).neg).abs
  (List.range 256).foldl (fun b c => if (dist c).lt (dist b) then c else b) 0

/-- The code of one value (R152). -/
def ctencCode (t : Team) (xv m : ExactNum) : Nat :=
  if !t.loaded then 0
  else match xv with
    | .nan => 255
    | .inf s => if s then 0 else 255
    | .fin _ _ _ => nearest t (if m.isZero then .zero false else xv.div m)

def ctencBody (w : Fp2) (x : Ex) (s : State) : Eff :=
  let m (i : Nat) : W32 := BitVec.ofNat 32 (x.val w.b 32 false w.imm i)
  match x.lanes.find? fun i => let v := f32 (m i).toNat; !v.isFin || (v.sign && !v.isZero) with
  | some i => .trap (trapE .badScale (BitVec.ofNat 128 (m i).toNat))
  | none =>
    let vals := x.lanes.map fun i =>
      (i, pack4 ((List.range 4).map fun j =>
        ctencCode x.c.t (f32 (x.val w.a 128 false 0 i / 2 ^ (32 * j) % 2 ^ 32)) (f32 (m i).toNat)))
    .done (s.modGroup x.c.ref fun g => g.flag .ctnan (!x.c.t.loaded)) (laneWrs w.d 1 vals) none

/-! ### MAXKEY (R153) -/

/-- The ordered key of a 16-bit value. -/
def maxKeyOf (f : Fmt) (u : Nat) : Nat :=
  if (decodeNum f u).isNan then 0xFFFF
  else if bitAt u 15 then 0xFFFF - u % 2 ^ 16 else u % 2 ^ 16 + 0x8000

/-- The value of MAXKEY: an immediate is an FP32 value, rounded into the format (R142; log 25). -/
def maxKeySrc (w : Fp2) (x : Ex) (i : Nat) : Nat :=
  if w.a = .imm then round w.ft.fmt .rne (f32 w.imm.toNat) else x.fbits w.ft w.a w.imm i 0

def maxkeyBody (w : Fp2) (x : Ex) (s : State) : Eff :=
  Eff.writes s (laneWrs w.d 1 (x.lanes.map fun i =>
    (i, maxKeyOf w.ft.fmt (maxKeySrc w x i) * 2 ^ 16 + (0xFFFF - x.val w.b 16 false w.imm i))))

/-! ### Meanings -/

def execQnt (x : Fp2) (s : State) : Host.Outcome State Fault Refusal := runWord (.qnt x) (qntBody x) s

def execQntt (x : QnttW) (s : State) : Host.Outcome State Fault Refusal := runWord (.qntt x) (qnttBody x) s

def execDqnt (x : Fp2) (s : State) : Host.Outcome State Fault Refusal := runWord (.dqnt x) (dqntBody x) s

def execVact (x : VactW) (s : State) : Host.Outcome State Fault Refusal := runWord (.vact x) (vactBody x) s

def execVdact (x : VdactW) (s : State) : Host.Outcome State Fault Refusal := runWord (.vdact x) (vdactBody x) s

def execCtdec (x : Fp2) (s : State) : Host.Outcome State Fault Refusal := runWord (.ctdec x) (ctdecBody x) s

def execCtenc (x : Fp2) (s : State) : Host.Outcome State Fault Refusal := runWord (.ctenc x) (ctencBody x) s

def execMaxkey (x : Fp2) (s : State) : Host.Outcome State Fault Refusal := runWord (.maxkey x) (maxkeyBody x) s

/-- SRSEED: `SEED` := a, `CTR` := bits 31:0 of b. R148 does not say how an `IMM` of 32 bits named as a is extended to the 64 bits of
`SEED`: zero-extension is the model's choice (log 46). -/
def execSrseed (x : SrseedW) (s : State) : Host.Outcome State Fault Refusal :=
  runWord (.srseed x) (fun e s =>
    let seed : W64 := BitVec.ofNat 64 (e.uval x.a 64 false x.imm)
    let ctr : W32 := BitVec.ofNat 32 (e.uval x.b 32 false x.imm)
    .done (s.modGroup e.c.ref fun g => { g with seed := seed, ctr := ctr }) [] none) s

end Sys2Proof.Machine
end

