-- ==== Sys2Proof/Machine/Dispatch.lean ====
section
/-! DEFINITION. The dispatch of every instruction, event and command to its meaning. -/
namespace Sys2Proof.Machine

def exec (i : Instr) (s : State) : Host.Outcome State Fault Refusal :=
  match i with
  | .iadd x => Sys2Proof.Machine.execIadd x s
  | .isub x => Sys2Proof.Machine.execIsub x s
  | .imul x => Sys2Proof.Machine.execImul x s
  | .imulh x => Sys2Proof.Machine.execImulh x s
  | .imad x => Sys2Proof.Machine.execImad x s
  | .imin x => Sys2Proof.Machine.execImin x s
  | .imax x => Sys2Proof.Machine.execImax x s
  | .iabs x => Sys2Proof.Machine.execIabs x s
  | .and x => Sys2Proof.Machine.execAnd x s
  | .or x => Sys2Proof.Machine.execOr x s
  | .xor x => Sys2Proof.Machine.execXor x s
  | .shl x => Sys2Proof.Machine.execShl x s
  | .shr x => Sys2Proof.Machine.execShr x s
  | .sar x => Sys2Proof.Machine.execSar x s
  | .bfx x => Sys2Proof.Machine.execBfx x s
  | .bfi x => Sys2Proof.Machine.execBfi x s
  | .popc x => Sys2Proof.Machine.execPopc x s
  | .clz x => Sys2Proof.Machine.execClz x s
  | .icmp x => Sys2Proof.Machine.execIcmp x s
  | .sel x => Sys2Proof.Machine.execSel x s
  | .mov x => Sys2Proof.Machine.execMov x s
  | .movi x => Sys2Proof.Machine.execMovi x s
  | .moviHi x => Sys2Proof.Machine.execMoviHi x s
  | .fadd x => Sys2Proof.Machine.execFadd x s
  | .fmul x => Sys2Proof.Machine.execFmul x s
  | .ffma x => Sys2Proof.Machine.execFfma x s
  | .fmin x => Sys2Proof.Machine.execFmin x s
  | .fmax x => Sys2Proof.Machine.execFmax x s
  | .fcmp x => Sys2Proof.Machine.execFcmp x s
  | .frcp x => Sys2Proof.Machine.execFrcp x s
  | .frsq x => Sys2Proof.Machine.execFrsq x s
  | .fsqrt x => Sys2Proof.Machine.execFsqrt x s
  | .fexp2 x => Sys2Proof.Machine.execFexp2 x s
  | .flog2 x => Sys2Proof.Machine.execFlog2 x s
  | .cvt x => Sys2Proof.Machine.execCvt x s
  | .qnt x => Sys2Proof.Machine.execQnt x s
  | .qntt x => Sys2Proof.Machine.execQntt x s
  | .dqnt x => Sys2Proof.Machine.execDqnt x s
  | .vact x => Sys2Proof.Machine.execVact x s
  | .vdact x => Sys2Proof.Machine.execVdact x s
  | .ctld x => Sys2Proof.Machine.execCtld x s
  | .ctdec x => Sys2Proof.Machine.execCtdec x s
  | .ctenc x => Sys2Proof.Machine.execCtenc x s
  | .maxkey x => Sys2Proof.Machine.execMaxkey x s
  | .srseed x => Sys2Proof.Machine.execSrseed x s
  | .shfl x => Sys2Proof.Machine.execShfl x s
  | .vote x => Sys2Proof.Machine.execVote x s
  | .gred x => Sys2Proof.Machine.execGred x s
  | .prmt x => Sys2Proof.Machine.execPrmt x s
  | .bra x => Sys2Proof.Machine.execBra x s
  | .brD x => Sys2Proof.Machine.execBrD x s
  | .brx x => Sys2Proof.Machine.execBrx x s
  | .call x => Sys2Proof.Machine.execCall x s
  | .ret x => Sys2Proof.Machine.execRet x s
  | .jopen x => Sys2Proof.Machine.execJopen x s
  | .join x => Sys2Proof.Machine.execJoin x s
  | .brk x => Sys2Proof.Machine.execBrk x s
  | .exit x => Sys2Proof.Machine.execExit x s
  | .eject x => Sys2Proof.Machine.execEject x s
  | .rejoin x => Sys2Proof.Machine.execRejoin x s
  | .yield x => Sys2Proof.Machine.execYield x s
  | .nop x => Sys2Proof.Machine.execNop x s
  | .trap x => Sys2Proof.Machine.execTrap x s
  | .nbarArr x => Sys2Proof.Machine.execNbarArr x s
  | .nbarWait x => Sys2Proof.Machine.execNbarWait x s
  | .nbarSync x => Sys2Proof.Machine.execNbarSync x s
  | .barrierRelease t k => Sys2Proof.Machine.execBarrierRelease t k s
  | .ctake x => Sys2Proof.Machine.execCtake x s
  | .cgive x => Sys2Proof.Machine.execCgive x s
  | .cwait x => Sys2Proof.Machine.execCwait x s
  | .takeQueueServe t k => Sys2Proof.Machine.execTakeQueueServe t k s
  | .waitf x => Sys2Proof.Machine.execWaitf x s
  | .waitTimeout g => Sys2Proof.Machine.execWaitTimeout g s
  | .rgive x => Sys2Proof.Machine.execRgive x s
  | .chunkReturn t => Sys2Proof.Machine.execChunkReturn t s
  | .rclaim x => Sys2Proof.Machine.execRclaim x s
  | .claimQueueServe t odd => Sys2Proof.Machine.execClaimQueueServe t odd s
  | .teamStall t => Sys2Proof.Machine.execTeamStall t s
  | .rswitch x => Sys2Proof.Machine.execRswitch x s
  | .rpoint x => Sys2Proof.Machine.execRpoint x s
  | .governorArm t => Sys2Proof.Machine.execGovernorArm t s
  | .mark x => Sys2Proof.Machine.execMark x s
  | .scheduleMissTimeout g => Sys2Proof.Machine.execScheduleMissTimeout g s
  | .markTimeout g => Sys2Proof.Machine.execMarkTimeout g s
  | .tnext x => Sys2Proof.Machine.execTnext x s
  | .tdone x => Sys2Proof.Machine.execTdone x s
  | .tspawn x => Sys2Proof.Machine.execTspawn x s
  | .tscope x => Sys2Proof.Machine.execTscope x s
  | .cancel x => Sys2Proof.Machine.execCancel x s
  | .groupKill g => Sys2Proof.Machine.execGroupKill g s
  | .cancelAck launch scope => Sys2Proof.Machine.execCancelAck launch scope s
  | .ld x => Sys2Proof.Machine.execLd x s
  | .st x => Sys2Proof.Machine.execSt x s
  | .lds x => Sys2Proof.Machine.execLds x s
  | .sts x => Sys2Proof.Machine.execSts x s
  | .atom x => Sys2Proof.Machine.execAtom x s
  | .atoms x => Sys2Proof.Machine.execAtoms x s
  | .longLatencyDelivery g n => Sys2Proof.Machine.execLongLatencyDelivery g n s
  | .lateFailure g n => Sys2Proof.Machine.execLateFailure g n s
  | .fence x => Sys2Proof.Machine.execFence x s
  | .pref x => Sys2Proof.Machine.execPref x s
  | .cflush x => Sys2Proof.Machine.execCflush x s
  | .cinv x => Sys2Proof.Machine.execCinv x s
  | .spempty x => Sys2Proof.Machine.execSpempty x s
  | .spstate x => Sys2Proof.Machine.execSpstate x s
  | .wbind x => Sys2Proof.Machine.execWbind x s
  | .warm x => Sys2Proof.Machine.execWarm x s
  | .wput x => Sys2Proof.Machine.execWput x s
  | .wstate x => Sys2Proof.Machine.execWstate x s
  | .copyLine t w => Sys2Proof.Machine.execCopyLine t w s
  | .copyFault t w => Sys2Proof.Machine.execCopyFault t w s
  | .tacc x => Sys2Proof.Machine.execTacc x s
  | .tcons x => Sys2Proof.Machine.execTcons x s
  | .twinEarlyTimeout g n => Sys2Proof.Machine.execTwinEarlyTimeout g n s
  | .tcnt x => Sys2Proof.Machine.execTcnt x s
  | .treset x => Sys2Proof.Machine.execTreset x s
  | .atake x => Sys2Proof.Machine.execAtake x s
  | .agive x => Sys2Proof.Machine.execAgive x s
  | .ald x => Sys2Proof.Machine.execAld x s
  | .ast x => Sys2Proof.Machine.execAst x s
  | .awin x => Sys2Proof.Machine.execAwin x s
  | .awinUnp x => Sys2Proof.Machine.execAwinUnp x s
  | .mlatch x => Sys2Proof.Machine.execMlatch x s
  | .mstreamF x => Sys2Proof.Machine.execMstreamF x s
  | .mstreamB x => Sys2Proof.Machine.execMstreamB x s
  | .mzero x => Sys2Proof.Machine.execMzero x s
  | .mscale x => Sys2Proof.Machine.execMscale x s
  | .mdrain x => Sys2Proof.Machine.execMdrain x s
  | .mdrainT x => Sys2Proof.Machine.execMdrainT x s
  | .meshWordFinish t => Sys2Proof.Machine.execMeshWordFinish t s
  | .mtake x => Sys2Proof.Machine.execMtake x s
  | .mgive x => Sys2Proof.Machine.execMgive x s
  | .mwin x => Sys2Proof.Machine.execMwin x s
  | .mbarArr x => Sys2Proof.Machine.execMbarArr x s
  | .mbarSync x => Sys2Proof.Machine.execMbarSync x s
  | .mbarWait x => Sys2Proof.Machine.execMbarWait x s
  | .mset x => Sys2Proof.Machine.execMset x s
  | .madd x => Sys2Proof.Machine.execMadd x s
  | .mloop x => Sys2Proof.Machine.execMloop x s
  | .mjmp x => Sys2Proof.Machine.execMjmp x s
  | .mend => Sys2Proof.Machine.execMend s
  | .collArm x => Sys2Proof.Machine.execCollArm x s
  | .collPut x => Sys2Proof.Machine.execCollPut x s
  | .putArrival n => Sys2Proof.Machine.execPutArrival n s
  | .collDeadline die slot => Sys2Proof.Machine.execCollDeadline die slot s
  | .hubCombine die slot => Sys2Proof.Machine.execHubCombine die slot s
  | .slotWriteFault die slot => Sys2Proof.Machine.execSlotWriteFault die slot s
  | .srd x => Sys2Proof.Machine.execSrd x s
  | .swr x => Sys2Proof.Machine.execSwr x s
  | .svc x => Sys2Proof.Machine.execSvc x s
  | .rfe x => Sys2Proof.Machine.execRfe x s
  | .tlbiVa x => Sys2Proof.Machine.execTlbiVa x s
  | .tlbiCtx x => Sys2Proof.Machine.execTlbiCtx x s
  | .tlbiAll x => Sys2Proof.Machine.execTlbiAll x s
  | .evt x => Sys2Proof.Machine.execEvt x s
  | .halt x => Sys2Proof.Machine.execHalt x s
  | .versionFull g => Sys2Proof.Machine.execVersionFull g s
  | .segmentResolve t => Sys2Proof.Machine.execSegmentResolve t s
  | .launchEligible n => Sys2Proof.Machine.execLaunchEligible n s
  | .teamPlace die => Sys2Proof.Machine.execTeamPlace die s
  | .launchCompletion n => Sys2Proof.Machine.execLaunchCompletion n s
  | .pageMove die => Sys2Proof.Machine.execPageMove die s
  | .victimRetry die => Sys2Proof.Machine.execVictimRetry die s
  | .preemptDeadline t => Sys2Proof.Machine.execPreemptDeadline t s
  | .teamSave t => Sys2Proof.Machine.execTeamSave t s
  | .owedReply g n => Sys2Proof.Machine.execOwedReply g n s
  | .peerRequest m => Sys2Proof.Machine.execPeerRequest m s
  | .peerReply m => Sys2Proof.Machine.execPeerReply m s
  | .retransmit seq => Sys2Proof.Machine.execRetransmit seq s
  | .packetDiscard src => Sys2Proof.Machine.execPacketDiscard src s
  | .flitReplay boundary => Sys2Proof.Machine.execFlitReplay boundary s
  | .eccCorrected loc => Sys2Proof.Machine.execEccCorrected loc s
  | .eccUncorrectable pa => Sys2Proof.Machine.execEccUncorrectable pa s
  | .eventRingTake die => Sys2Proof.Machine.execEventRingTake die s
  | .provision m => Sys2Proof.Machine.execProvision m s
  | .attest m => Sys2Proof.Machine.execAttest m s
  | .policy m => Sys2Proof.Machine.execPolicy m s
  | .peers m => Sys2Proof.Machine.execPeers m s
  | .write m => Sys2Proof.Machine.execWrite m s
  | .read m => Sys2Proof.Machine.execRead m s
  | .map m => Sys2Proof.Machine.execMap m s
  | .unmap m => Sys2Proof.Machine.execUnmap m s
  | .frames m => Sys2Proof.Machine.execFrames m s
  | .launch m => Sys2Proof.Machine.execLaunch m s
  | .timetable m => Sys2Proof.Machine.execTimetable m s
  | .preempt m => Sys2Proof.Machine.execPreempt m s
  | .resume m => Sys2Proof.Machine.execResume m s
  | .discard m => Sys2Proof.Machine.execDiscard m s
  | .events m => Sys2Proof.Machine.execEvents m s
  | .reset straps => Sys2Proof.Machine.execReset straps s
  | .affinityWaitExpiry launch => Sys2Proof.Machine.execAffinityWaitExpiry launch s
  | .storeAcknowledged g n => Sys2Proof.Machine.execStoreAcknowledged g n s

end Sys2Proof.Machine
end

