-- ==== Sys2Proof/Machine/Agenda.lean ====
section
/-! DEFINITION. What moves next (logs 3, 44): the clock, the order of the moves of one clock (R304, R321, R337, R342, R347), what a
partition issues (R343, R344), the running groups of an ordered launch (R349), the moves a state offers and the rotation over them, and
how a word is placed for the next step (log 10). -/
namespace Sys2Proof.Machine

/-- An outcome whose next state has no executing party. -/
def rest (o : Host.Outcome State Fault Refusal) : Host.Outcome State Fault Refusal :=
  match o with
  | .next s => .next { s with cur := .idle }
  | o => o

/-! ### Time -/

/-- The governors of a launch's teams count `dt` clocks (R347). -/
def State.governTeam (s : State) (dt : Nat) (t : Team) : Team :=
  match (s.launch? t.ref.launch).bind (·.gov) with
  | some q => if q.en then t.govern q dt else t
  | none => t

/-- A core at the start of a clock: nothing has been issued or placed on it (R337, R343). -/
def CoreSt.newClock (k : CoreSt) : CoreSt := { k with slots := Vector.replicate 4 (0, 0, false), took := [] }

/-! ### Issue -/

/-- What a party does when it comes to issue: the state it settles in, or its word executed; and the word. -/
def State.attempt (s : State) (r : GRef) : Host.Outcome State Fault Refusal × Option Instr :=
  match s.fetchGroup r with
  | .settled s => (.next s, none)
  | .word i s => (exec i { s with cur := .grp r }, some i)

/-- A sequencer comes to issue: one that runs, or waits at its word (R223). -/
def State.attemptSeq (s : State) (t : TeamRef) : Host.Outcome State Fault Refusal :=
  match s.fetchSeq t with
  | .settled s => .next s
  | .word i s => exec i { s with cur := .sq t }

/-- A word that the party would not go on from: it waits for a result, room, or a line. -/
def Wait.stays (w : Wait) : Bool := match w with | .engine | .emptyLine _ | .vline _ => true | _ => false

/-- The party's word goes on when it is attempted: what it waits for, if anything, has come (R343). -/
def State.goesOn (s : State) (r : GRef) : Bool :=
  match s.ctx? r, (s.attempt r).1 with
  | some c, .next u =>
    (match u.ctx? r with
     | some d => if c.g.wait = .none then !d.g.wait.stays else d.g.wait != c.g.wait
     | none => true)
  | _, _ => true

/-- A group of an ordinary launch is ready: it is RUN, or its wait has ended, and no wait holds its next word (R343). -/
def State.readyNow (s : State) (r : GRef) : Bool :=
  match s.ctx? r with
  | none => false
  | some c => (c.g.st == .run || c.g.st == .blocked) && c.g.wait != .yielded && !c.t.saving && s.goesOn r

/-- A group that is not ready when the clock passes can be ready from the next one on (R343). -/
def State.readyFrom (s : State) (r : TeamRef) (now : Nat) (g : Group) : Group :=
  if g.wait = .none || !g.live || s.readyNow ⟨r, .grp g.idx⟩ then g else { g with readyAt := now }

/-- `dt` clocks pass: a line filled before serves its waiters (R281), and chunks given up come back (R174). -/
def State.pass (s : State) (dt : Nat) : State :=
  if dt = 0 then s
  else
    let now := s.clock + dt
    { s with
      clock := now
      rank := 0
      teams := s.teams.map fun t =>
        let u := (s.governTeam dt t).collect now
        { u with newFull := [], groups := u.groups.map (s.readyFrom t.ref now) }
      cores := s.cores.map CoreSt.newClock
      dies := s.dies.map fun d => { d with offered := false } }

/-! ### Ordered mode (R349) -/

/-- A word at which a partition chooses again. -/
def switchWord (i : Instr) (w : Nat) : Bool :=
  match i with
  | .nbarWait _ | .nbarSync _ | .ctake _ | .cwait _ | .rclaim _ | .atake _ | .mark _ | .yield _ => true
  | .nbarArr x => x.d != .zero
  | i => match i.view w with | some v => !v.pops.isEmpty || v.pushes | none => false

/-- The address of a uniform memory word that the party is at. -/
def Ctx.wordAddr (c : Ctx) (i : Instr) (m : MemOp) : Option Addr :=
  (i.view c.g.width).map fun v => (⟨c, i, v, c.g.exec, c.g.pc, [], false⟩ : Ex).uaddr m

/-- A counted WAITF (R350). -/
def State.countedWaitf (s : State) (r : GRef) (i : Instr) : Bool :=
  match i, s.ctx? r with
  | .waitf w, some c =>
    w.cc == .ge && (match c.wordAddr i w.mem with
      | none => false
      | some a =>
        if regionOf a = 2 then c.countedWord (localWordKey c.t a)
        else match s.xlat (some c.core) c.l.pkt.ctx a (wantLoad c.g.priv) with
          | .ok p => !pteSystem p && c.countedWord (paOf p a / 4)
          | .error _ => false)
  | _, _ => false

/-- The party has executed a word at which its partition chooses again. -/
def State.switches (s : State) (r : GRef) (i : Option Instr) : Bool :=
  match i, s.ctx? r with
  | some i, some c => switchWord i c.g.width || s.countedWaitf r i
  | _, _ => false

/-- A group that keeps its partition: it has not stopped, parked or ended. -/
def State.keeps (s : State) (r : GRef) : Bool :=
  match s.ctx? r with
  | some c => c.g.st == .run || c.g.st == .blocked
  | none => false

/-- A wait of a switch point. -/
def Wait.switch (w : Wait) : Bool :=
  w.blocks || match w with | .mark _ _ | .segment _ _ | .check _ _ _ _ | .yielded => true | .waitf _ _ .ge _ _ => true | _ => false

/-- A group that may be chosen: it waits for nothing, or its wait is satisfied, so that its word goes on when attempted. -/
def State.ready (s : State) (r : GRef) : Bool :=
  match s.ctx? r with
  | none => false
  | some c =>
    if (c.g.st != .run && c.g.st != .blocked) || c.g.wait == .yielded || c.t.saving then false
    else !c.g.wait.switch || s.goesOn r

/-- The order in which a partition chooses: team logical index, then group; a shadow after its primary (log 3). -/
def before (a b : GRef) : Bool :=
  let k (r : GRef) : List Nat := [r.t.idx, match r.who with | .grp i => i | .cont i => i, bnat r.t.shadow, r.t.launch]
  decide (k a < k b)

/-- The groups of ordered launches on a partition of a core. -/
def State.orderedOn (s : State) (c p : Nat) : List GRef :=
  (s.teams.filter fun t => t.on c && match s.launch? t.ref.launch with | some l => l.pkt.ord | none => false).flatMap fun t =>
    (t.groups.filter fun g => t.coreOf g.idx == c && partOf g.idx == p).map fun g => ⟨t.ref, .grp g.idx⟩

/-- The running group of a partition: the one that keeps it, or the first ready one. -/
def State.running (s : State) (c p : Nat) : Option GRef :=
  match ((s.core c).runs.getD p none).filter s.keeps with
  | some r => some r
  | none => ((s.orderedOn c p).filter s.ready).foldl (fun (m : Option GRef) r =>
      match m with | none => some r | some k => if before r k then some r else some k) none

/-- Note the running group of a partition. -/
def State.setRunning (s : State) (c p : Nat) (r : Option GRef) : State := s.modCore c fun k => { k with runs := k.runs.setIfInBounds p r }

/-! ### The issue slots of a partition (R343, R344) -/

/-- `OP` of a word. -/
def opOf (i : Instr) : Nat := match encode i with | some w => w.toNat % 256 | none => 0

/-- The class of a vector word that shares a slot with words of other groups: 0 for one that issues alone (R344). -/
def packClass (op : Nat) : Nat :=
  if 0x01 ≤ op ∧ op ≤ 0x16 then 1
  else if (0x41 ≤ op ∧ op ≤ 0x46) ∨ op = 0x4C then 2
  else if (0xA1 ≤ op ∧ op ≤ 0xAC) ∨ (0xB5 ≤ op ∧ op ≤ 0xB7) ∨ op = 0xC3 ∨ op = 0xC4 then 3
  else 0

/-- The word takes the vector slot. -/
def isVector (i : Instr) (w : Nat) : Bool := match i.view w with | some v => v.kind == .vector | none => false

/-- The partition after the issue of a word by a group of width `w`, if it has room for it in this clock: the vector slot holds 64 lanes
of words of one class and width. A word of an ordered launch shares it with none (`alone`, R344). -/
def CoreSt.takeSlot (k : CoreSt) (p : Nat) (i : Instr) (w : Nat) (alone : Bool) : Option CoreSt :=
  let (n, cls, u) := k.slots.getD p (0, 0, false)
  let put (x : Nat × Nat × Bool) : Option CoreSt := some { k with slots := k.slots.setIfInBounds p x }
  if !isVector i w then (if u then none else put (n, cls, true))
  else
    let c := if alone then 0 else packClass (opOf i)
    if n = 0 then put (if c = 0 then 64 else w, 128 * c + w, u)
    else if c ≠ 0 ∧ cls = 128 * c + w ∧ n + w ≤ 64 then put (n + w, cls, u)
    else none

/-- The party no longer waits. -/
def State.idle (s : State) (r : GRef) : Bool := match s.ctx? r with | some c => c.g.wait == .none | none => true

/-- Note what a party's word has taken of its partition's slots; the state before, where they have no room for it. -/
def State.inSlot (s u : State) (c : Ctx) (i : Instr) (alone : Bool) : State :=
  if !u.idle c.ref then u
  else match (u.core c.core).takeSlot (partOf (c.t.groupOf c.ref.who)) i c.g.width alone with
    | some k => u.modCore c.core fun x => { x with slots := k.slots }
    | none => s

/-- A group of an ordered launch issues if its partition runs it (R349); a HALT of the launch stops any group, and changes no running
group but the one that it stops (R260). -/
def State.issueOrd (s : State) (c : Ctx) : Host.Outcome State Fault Refusal :=
  let p := partOf (c.t.groupOf c.ref.who)
  let mine := s.running c.core p == some c.ref
  if !mine && !c.haltsHere then .next s
  else match s.attempt c.ref with
    | (.next u, i) =>
      let v := if mine then u.setRunning c.core p (if s.switches c.ref i || !u.keeps c.ref then none else some c.ref) else u
      .next (match i with | some w => s.inSlot v c w true | none => v)
    | (o, _) => o

/-- The next word of a party that is ready (R343). -/
def State.readyWord (s : State) (r : GRef) : Option Instr :=
  if !s.readyNow r then none
  else match s.fetchGroup r with
    | .word i _ => some i
    | .settled _ => none

/-- The groups of ordinary launches on a partition of a core, with the clocks since which they are ready, in the order in which their
teams were placed. -/
def State.onPartition (s : State) (c p : Nat) : List (GRef × Nat) :=
  (s.teams.filter fun t => t.on c && match s.launch? t.ref.launch with | some l => !l.pkt.ord | none => false).flatMap fun t =>
    (t.groups.filter fun g => t.coreOf g.idx == c && partOf g.idx == p).map fun g => (⟨t.ref, .grp g.idx⟩, g.readyAt)

/-- The groups that a partition takes before one that is ready since `n`: those ready longer, and of those ready as long the ones
before it in the order of placement and index (R343). -/
def ahead (xs : List (GRef × Nat)) (r : GRef) (n : Nat) : List GRef :=
  ((xs.takeWhile fun x => x.1 != r).filter fun x => decide (x.2 ≤ n)).map (·.1) ++
    ((xs.dropWhile fun x => x.1 != r).filter fun x => decide (x.2 < n)).map (·.1)

/-- No ready group whose next word is of the same kind goes before this one: neither the running group of an ordered launch, nor one
that has been ready longer (R343, R345, R348). -/
def State.mayIssue (s : State) (c : Ctx) : Bool :=
  match s.fetchGroup c.ref with
  | .settled _ => true
  | .word i _ =>
    let p := partOf (c.t.groupOf c.ref.who)
    ((s.running c.core p).toList ++ ahead (s.onPartition c.core p) c.ref c.g.readyAt).all fun r =>
      match s.readyWord r with
      | some j => isVector j c.g.width != isVector i c.g.width
      | none => true

/-- A group of an ordinary launch issues, if its partition takes it and has room for its word. -/
def State.issuePlain (s : State) (c : Ctx) : Host.Outcome State Fault Refusal :=
  if !s.mayIssue c then .next s
  else
    match s.attempt c.ref with
    | (.next u, some i) => .next (s.inSlot (u.modGroup c.ref fun g => { g with readyAt := s.clock }) c i false)
    | (o, _) => o

/-- A party issues. The helper core of a core runs its first continuation that has not stopped (R169). -/
def State.issue (s : State) (r : GRef) : Host.Outcome State Fault Refusal :=
  match s.ctx? r, r.who with
  | none, _ => .next s
  | some c, .grp _ => if c.l.pkt.ord then s.issueOrd c else s.issuePlain c
  | some c, .cont n =>
    let runs (h : TeamRef × Nat) : Bool := match s.ctx? ⟨h.1, .cont h.2⟩ with | some d => d.g.st == .run || d.g.st == .blocked | none => false
    if (s.core c.core).helper.find? runs == some (r.t, n) then (s.attempt r).1 else .next s

/-- A party's scratchpad store or QNTT is performed in part: the words of `q`, or one row (R149, R279). -/
def State.issuePart (s : State) (r : GRef) (q : Part) : Host.Outcome State Fault Refusal :=
  match s.ctx? r with
  | none => .next s
  | some c =>
    if c.l.pkt.ord && s.running c.core (partOf (c.t.groupOf r.who)) != some r then .next s
    else match s.fetchGroup r with
      | .settled s => .next s
      | .word i u =>
        let u := { u with cur := .grp r }
        match i with
        | .qntt w => runWord i (qnttSome 1 w) u
        | .sts w => runWord i (stsPart w q) u
        | .st w => runWord i (stPart w q) u
        | _ => .next s

/-! ### Moves -/

/-- A message of the command channel arrives: its command is performed when its turn comes, and a reserved `OPC` is turned away (R418,
R424). -/
def State.receive (s : State) (src : W128) (b : List Byte) : Host.Outcome State Fault Refusal :=
  let opc := leNat b 0 1
  let m := msgOfBytes src b
  match cmdOfOpc opc m with
  | none => .next (s.badCommand opc m)
  | some i =>
    if (s.die (cmdDie opc m)).cmds.head? = some i then .next (s.modDie (cmdDie opc m) fun d => { d with cmds := d.cmds ++ [i] })
    else exec i s

/-- Make a move, whatever its place in the clock. -/
def State.make (s : State) (a : Act) : Host.Outcome State Fault Refusal :=
  match a with
  | .ev i => rest (exec i { s with cur := .idle })
  | .issue r => rest (s.issue r)
  | .sq t => rest (s.attemptSeq t)
  | .tick => .next (s.pass 1)
  | .msg src b => rest (s.receive src b)
  | .evict c l => .next (s.l1DropAt c (lineIs l))
  | .lanesOf r i m => .next (s.deliverLanes r i m)
  | .cutStore r i w => .next (s.cutStore r i w)
  | .partOf r m => rest (s.issuePart r (.lanes m))
  | .wordOf r i lane w => .next (s.deliverWord r i lane w)
  | .storeWordOf r lane w => rest (s.issuePart r (.word lane w))
  | .meshLine t n o => .next (s.meshLine t n o)
  | .acked ep seq => .next (s.acknowledged ep seq)
  | .turnedAway => .next s.turnNext

/-! ### The order of the moves of one clock (R304, R321, R337, R342, R347, R358; log 44) -/

/-- A move's place among those of a clock, and whether only one move of the place is made. -/
structure Place where
  at_ : Nat
  once : Bool
deriving DecidableEq, Repr

/-- The place of what a party does: by core identifier and then group index, an engine's after the groups of its core; of one party,
what reaches memory comes before its continuations' words, and those before its own word. `late` moves come after all others. -/
def partyPlace (core group sub : Nat) (late : Bool) : Nat := (if late then 2 ^ 20 else 0) + 8 * (256 * core + group) + sub

/-- The last core of a team. -/
def Team.lastCore (t : Team) : Nat := t.core + bnat t.pair

/-- The place of a party's memory accesses; of a result for a queue, among the queue operations of its team (R18). -/
def State.accessPlace (s : State) (r : GRef) (push late : Bool) : Option Place :=
  (s.ctx? r).map fun c => ⟨partyPlace (if push then c.t.core else c.core) (c.t.groupOf r.who) 1 late, false⟩

/-- Number of a core's engines and its sequencer in the order. -/
def enginePlace (core : Nat) : Place := ⟨partyPlace core 64 0 false, false⟩

/-- The page is the home of another pair: an acquire on it asks that pair to write back (R309). -/
def promotes (core : Nat) (p : BitVec 256) : Bool := match pteHomed p with | some n => core / 2 != n | none => false

/-- An entry that is an acquire of such a page. -/
def LaEnt.promotes (e : LaEnt) (core : Nat) : Bool :=
  isAcq e.word && match e.op with
    | .load ls | .atomic ls _ _ => ls.any fun l => l.ps.any fun x => Sys2Proof.Machine.promotes core x.pte
    | _ => false

/-- The word is an acquire of such a page, made at issue, or one that may be: a COLL.PUT, whose pages its record names. -/
def State.promotesAt (s : State) (c : Ctx) (i : Instr) : Bool :=
  let at_ (m : MemOp) : Bool := match c.wordAddr i m with
    | none => false
    | some a => regionOf a != 2 && match s.xlat (some c.core) c.l.pkt.ctx a (wantNone c.g.priv) with
      | .ok p => promotes c.core p
      | .error _ => false
  match i with
  | .waitf w => at_ w.mem
  | .fence w => at_ w.mem
  | .collPut _ => true
  | _ => false

/-- A fill that has its acquire to make, of such a page (R309, R321). -/
def State.copyPromotes (s : State) (t : Team) (k : Nat) : Bool :=
  let w := t.win k
  match w.desc, s.launch? t.ref.launch with
  | some d, some l =>
    w.st == .filling && d.acq && !w.acquired && (d.sourceParts w).any fun e =>
      match s.xlat (some t.core) l.pkt.ctx e.1 (wantLoad false .fillRead) with
      | .ok p => promotes t.core p
      | .error _ => false
  | _, _ => false

/-- A word that writes `sr.sticky`: a flag that is set in its clock ends set (R27). -/
def writesSticky (i : Instr) : Bool := match i with | .swr w => decide (SReg.ofIdx w.idx.toNat = some .sticky) | _ => false

/-- The place of a party's next word. Of the groups that reach RPOINT, or load a code table, in one clock, the lowest index comes first,
on both cores of a pair (R151, R347); queue operations follow the group index on both cores too (R18). An AGIVE comes after every
ATAKE, and an AWIN after the sequencer's word (R249). -/
def State.issuePlace (s : State) (r : GRef) : Option Place :=
  match s.ctx? r with
  | none => none
  | some c =>
    let g := c.t.groupOf r.who
    let sub := match r.who with | .cont _ => 2 | .grp _ => 4
    match s.fetchGroup r with
    | .settled _ => none
    | .word i _ =>
      match i with
      | .rpoint _ | .ctld _ => some ⟨partyPlace c.t.core g sub true, true⟩
      | .awin _ => some ⟨partyPlace c.t.lastCore (66 + g) sub false, true⟩
      | .agive _ => some ⟨partyPlace c.t.lastCore (130 + g) sub false, true⟩
      | _ =>
        let queue := match i.view c.g.width with | some v => !v.pops.isEmpty || v.pushes | none => false
        some ⟨partyPlace (if queue then c.t.core else c.core) g (if writesSticky i then 0 else sub) (s.promotesAt c i), true⟩

/-- The place of a command processor's offer: by priority, then the lower die (R337, R358). -/
def State.offerPlace (s : State) (die : Nat) : Option Place :=
  (s.offered die).map fun l => ⟨2 ^ 22 + 4 * (15 - l.pkt.prio) + die, false⟩

/-- The place of what a peer or the host does: above every core (R304). -/
def outsidePlace : Place := ⟨2 ^ 24, false⟩

/-- The place of an event of the device; `none` for one that touches no memory, which may come at any place. -/
def State.eventPlace (s : State) (i : Instr) : Option Place :=
  match i with
  | .longLatencyDelivery r k =>
    (match s.ctx? r with
     | none => none
     | some c => (match c.g.la[k]? with
       | some e => s.accessPlace r (isPush e) (e.promotes c.core)
       | none => none))
  | .storeAcknowledged r _ => s.accessPlace r false false
  | .meshWordFinish t | .segmentResolve t | .teamSave t => (s.team? t).map fun t => enginePlace t.core
  | .copyLine t k => (s.team? t).map fun t =>
    ⟨partyPlace (t.coreOf (t.win k.val).issuer) 64 0 (s.copyPromotes t k.val), false⟩
  | .cancelAck n a => (s.launch? n).bind fun l => (l.scopes.find? fun x => x.num == a).map fun x => enginePlace x.core
  | .hubCombine d n | .slotWriteFault d n => (s.slot? d.val n.val).map fun x => enginePlace x.core
  | .putArrival n => (s.flying[n]?).map fun f => if f.peer.isSome then outsidePlace else enginePlace f.core
  | .teamPlace d => s.offerPlace d.val
  | .peerRequest _ | .peerReply _ | .write _ | .map _ | .unmap _ | .owedReply _ _ | .launchCompletion _ => some outsidePlace
  | _ => none

/-- The place of a move. -/
def State.place (s : State) (a : Act) : Option Place :=
  match a with
  | .ev i => s.eventPlace i
  | .issue r => s.issuePlace r
  | .sq t => (s.team? t).map fun t => ⟨partyPlace t.core 65 4 false, true⟩
  | .evict c _ => some (enginePlace c)
  | .lanesOf r _ _ | .wordOf r _ _ _ => s.accessPlace r false false
  | .partOf r _ | .storeWordOf r _ _ => (s.ctx? r).map fun c => ⟨partyPlace c.core (c.t.groupOf r.who) 3 false, false⟩
  | .meshLine t _ _ => (s.team? t).map fun t => enginePlace t.core
  | .msg _ _ => some outsidePlace
  | .tick | .cutStore _ _ _ | .acked _ _ | .turnedAway => none

/-- The state in which a move is made: a move that comes before what this clock has already made waits for the next one. -/
def State.inTime (s : State) (a : Act) : State :=
  match s.place a with
  | none => s
  | some p =>
    let s := if p.at_ < s.rank then s.pass 1 else s
    { s with rank := p.at_ + bnat p.once }

/-! ### What a held boundary stops (R406, R408; log 28) -/

/-- The homes of pieces on pages of this device, as dies that a core reaches. -/
def piecesWay (core : Nat) (ps : List Piece) : List (Nat × Nat) :=
  (ps.filter fun p => !pteSystem p.pte).map fun p => (dieOf core, (sliceOf p.pa).1)

/-- The dies between which a party's lookahead entry moves data. -/
def State.entryWay (s : State) (r : GRef) (i : Nat) : List (Nat × Nat) :=
  match s.ctx? r with
  | none => []
  | some c => match c.g.la[i]? with
    | none => []
    | some e => match e.op with
      | .load ls | .atomic ls _ _ | .tcons ls | .tcnt ls => piecesWay c.core (ls.flatMap (·.ps))
      | .tnext => [(c.l.die, dieOf c.core)]
      | .write _ => []

/-- The die that holds the code of a party's next word. -/
def State.codeWay (s : State) (core ctx : Nat) (priv : Bool) (pc : Addr) : List (Nat × Nat) :=
  match s.xlat (some core) ctx pc (wantFetch priv) with
  | .ok p => [(dieOf core, (sliceOf (paOf p pc)).1)]
  | .error _ => []

/-- The dies between which a move sends traffic. -/
def State.way (s : State) (a : Act) : List (Nat × Nat) :=
  match a with
  | .ev (.longLatencyDelivery r i) | .lanesOf r i _ | .wordOf r i _ _ => s.entryWay r i
  | .ev (.storeAcknowledged r i) =>
    (match s.ctx? r with
     | some c => (match c.g.posted[i]? with | some p => piecesWay c.core (p.stores.map (·.1) ++ p.taccs.map (·.1)) | none => [])
     | none => [])
  | .ev (.putArrival n) =>
    (match s.flying[n]? with | some f => [(if f.peer.isSome then 0 else dieOf f.core, f.pkt.die.val)] | none => [])
  | .ev (.hubCombine d n) =>
    (match s.slot? d.val n.val with
     | some x => x.dsts.filterMap fun a => match s.xlat none x.ctx (BitVec.ofNat 56 a) (wantStore false .drainWrite) with
       | .ok p => some (d.val, (sliceOf (paOf p (BitVec.ofNat 56 a))).1)
       | .error _ => none
     | none => [])
  | .ev (.teamPlace d) => (match s.offered d.val with | some l => (s.offerCores l d.val).map fun c => (d.val, dieOf c) | none => [])
  | .issue r => (match s.ctx? r with | some c => s.codeWay c.core c.l.pkt.ctx c.g.priv c.g.pc | none => [])
  | .sq t => (match s.team? t, s.launch? t.launch with | some t, some l => s.codeWay t.core l.pkt.ctx false t.sq.spc | _, _ => [])
  | .evict c l => [(dieOf c, (sliceOf l).1)]
  | .msg src b => let opc := leNat b 0 1; [(0, cmdDie opc (msgOfBytes src b))]
  | _ => []

/-- Addresses of the entries that a walk from the table at `base` reads. -/
def State.walkPas (s : State) (va : Nat) : Nat → Nat → List Nat
  | 0, _ => []
  | n + 1, base =>
    let lvl := 3 - n
    let ea := base + 32 * tableIndex va lvl
    let p := s.pteAt ea
    if pteBits p 65 64 = 1 ∧ tableBad p lvl = false then ea :: State.walkPas s va n (pteFrame p) else [ea]

/-- A translation that a move has brought into a TLB was walked to beyond a held boundary. -/
def State.walkedFar (s u : State) : Bool :=
  (List.range 128).any fun c => ((u.core c).tlb.filter fun e => !(s.core c).tlb.contains e).any fun e =>
    (s.walkPas (e.vpn * 2 ^ e.bits) 4 (s.rootOf e.ctx e.sup)).any (s.far c)

/-- Make a move. One that sends traffic over a held boundary is not made; another ends the replays of the boundaries that its traffic
crosses. -/
def State.cross (s : State) (a : Act) : Host.Outcome State Fault Refusal :=
  if s.replays.all (· == 0) then s.make a
  else
    let bs := (s.way a).flatMap fun w => route w.1 w.2 ++ route w.2 w.1
    if bs.any s.held then .next s
    else match s.make a with
      | .next u => .next (if s.walkedFar u then s else u.crossed bs)
      | o => o

/-- Make a move in its place. -/
def State.move (s : State) (a : Act) : Host.Outcome State Fault Refusal := (s.inTime a).cross a

/-! ### The moves a state offers -/

/-- The moves of a party's lookahead entries and posted stores. -/
def partyActs (r : GRef) (g : Group) : List Act :=
  (List.range g.la.length).flatMap (fun i =>
    [.ev (.longLatencyDelivery r i), .ev (.lateFailure r i), .ev (.twinEarlyTimeout r i)]) ++
  (List.range g.posted.length).map fun i => .ev (.storeAcknowledged r i)

/-- The moves of a group. -/
def groupActs (t : Team) (g : Group) : List Act :=
  let r : GRef := ⟨t.ref, .grp g.idx⟩
  partyActs r g ++
  (if g.live then [.issue r] else []) ++
  (match g.wait with
   | .waitf _ _ _ _ _ => [.ev (.waitTimeout r)]
   | .check _ _ _ _ => [.ev (.scheduleMissTimeout r)]
   | .mark _ _ => [.ev (.markTimeout r)]
   | _ => []) ++
  (if g.kill.isSome then [.ev (.groupKill r)] else []) ++
  (if (g.posted.any fun p => p.vers.isSome) || g.la.any fun e => !e.done && e.vers.isSome then [.ev (.versionFull r)] else [])

/-- The moves of a resident team. -/
def teamActs (t : Team) : List Act :=
  t.groups.flatMap (groupActs t) ++
  t.conts.flatMap (fun c => .issue ⟨t.ref, .cont c.id⟩ :: partyActs ⟨t.ref, .cont c.id⟩ c.g) ++
  (if (t.sq.sst == .run || t.sq.sst == .wait) && !t.sq.ending then [.sq t.ref] else []) ++
  (if t.mq.isEmpty then [] else [.ev (.meshWordFinish t.ref)]) ++
  ((List.range 32).filter fun k => (t.win k).busy).flatMap (fun k =>
    [.ev (.copyLine t.ref (Fin.ofNat 32 k)), .ev (.copyFault t.ref (Fin.ofNat 32 k))]) ++
  ((List.range 16).filter fun k => t.groups.any fun g => g.st == .blocked && g.barReady t k).map
    (fun k => .ev (.barrierRelease t.ref (Fin.ofNat 16 k))) ++
  ((List.range 32).filter fun k => !(t.ctr k).takes.isEmpty).map (fun k => .ev (.takeQueueServe t.ref (Fin.ofNat 32 k))) ++
  (if t.pool.returning.isEmpty && t.poolOdd.returning.isEmpty then [] else [.ev (.chunkReturn t.ref)]) ++
  (if t.claims.isEmpty then [] else [.ev (.claimQueueServe t.ref false), .ev (.claimQueueServe t.ref true)]) ++
  [.ev (.governorArm t.ref), .ev (.teamStall t.ref)] ++
  (if t.seg.isSome then [.ev (.segmentResolve t.ref)] else []) ++
  (if t.save.isSome then [.ev (.preemptDeadline t.ref), .ev (.teamSave t.ref)] else [])

/-- The replies that a saved team waits for, and what its parties have posted. -/
def SavedTeam.acts (x : SavedTeam) : List Act :=
  let posts (r : GRef) (g : Group) : List Act := (List.range g.posted.length).map fun i => .ev (.storeAcknowledged r i)
  x.team.groups.flatMap (fun g =>
    (List.range g.la.length).map (fun i => .ev (.owedReply ⟨x.ref, .grp g.idx⟩ i)) ++ posts ⟨x.ref, .grp g.idx⟩ g) ++
  x.team.conts.flatMap fun c => posts ⟨x.ref, .cont c.id⟩ c.g

/-- The moves of a launch. -/
def launchActs (l : Launch) : List Act :=
  (if l.eligible then [] else [.ev (.launchEligible l.num)]) ++
  (l.scopes.filter fun x => x.acking != 0).map (fun x => .ev (.cancelAck l.num x.num)) ++
  (if l.tasks.isEmpty then [] else [.ev (.affinityWaitExpiry l.num)]) ++
  l.saved.flatMap SavedTeam.acts ++
  [.ev (.launchCompletion l.num)]

/-- The moves of a die. -/
def State.dieActs (s : State) (d : Fin 4) : List Act :=
  let x := s.die d.val
  x.cmds.head?.toList.map Act.ev ++
  [.ev (.teamPlace d), .ev (.eventRingTake d)] ++
  (if x.moves.isEmpty && x.starting.isEmpty then [] else [.ev (.pageMove d), .ev (.victimRetry d)]) ++
  x.slots.flatMap fun e =>
    [.ev (.collDeadline d (Fin.ofNat 256 e.1)), .ev (.hubCombine d (Fin.ofNat 256 e.1)), .ev (.slotWriteFault d (Fin.ofNat 256 e.1))]

/-- The lines of the L1s, each of which may be evicted (R287; log 7). -/
def State.evictions (s : State) : List Act :=
  s.cores.toList.zipIdx.flatMap fun e => e.1.l1.map fun x => .evict e.2 x.line

/-- Put a move behind those of its place. -/
def putInPlace (x : Nat × Act) : List (Nat × Act) → List (Nat × Act)
  | [] => [x]
  | y :: r => if x.1 < y.1 then x :: y :: r else y :: putInPlace x r

/-- Moves in the order of a clock. -/
def State.inOrder (s : State) (as : List Act) : List Act :=
  (as.foldl (fun xs a => putInPlace ((match s.place a with | some p => p.at_ | none => 0), a) xs) []).map (·.2)

/-- The moves that a state offers, in the order of a clock. What comes from outside (messages, peers, errors, reset) comes by the
agenda alone. -/
def State.acts (s : State) : List Act :=
  s.inOrder (s.teams.flatMap teamActs ++ s.launches.flatMap launchActs ++ (List.range 4).flatMap (fun d => s.dieActs (Fin.ofNat 4 d)) ++
    (List.range s.flying.length).map (fun n => .ev (.putArrival n)) ++ (s.heldReqs.map fun h => .ev (.peerRequest h.1)) ++
    (if s.turned.isEmpty then [] else [.turnedAway]) ++ s.evictions)

/-- The next move where none is planned: the moves that the state offers in turn, and a clock after the last. -/
def State.rotate (s : State) : Host.Outcome State Fault Refusal :=
  match s.acts[s.rr]? with
  | some a => { s with rr := s.rr + 1 }.move a
  | none => { s with rr := 0 }.move .tick

/-- A planned move: its clocks pass first. -/
def State.planned (s : State) (p : Planned) (r : List Planned) : Host.Outcome State Fault Refusal :=
  ({ s with agenda := r }.pass p.dt).move p.act

/-! ### Placing a word for the next step (log 10) -/

/-- A one-group launch whose code lies at the address of the placed word; a stream word gives it a sequencer. -/
def benchPacket (stream : Bool) : Packet where
  wtab := []
  pg := 32
  ps := 96
  policy := 0
  prio := 0
  tasks := false
  ord := false
  fuse := false
  pair := false
  queues := 16
  spans := 8
  pool := 32
  regs := 32
  groups := 1
  width := 32
  svb := 0
  ctx := 0
  sbm := 0
  scope := 0
  govr := 0
  seed := 0
  ttbl := 0
  affr := 0
  preds := [0, 0, 0, 0]
  preempt := 1
  gx := 1
  gy := 1
  gz := 1
  trec := 0
  arg := 0
  mentry := if stream then 0x10000 else 0
  entry := 0x10000

/-- The launch of the placed word; its number is one that no launch of the host receives (R335). -/
def benchLaunch (stream : Bool) : Launch :=
  { newLaunch 1 0 0 (benchPacket stream) ⟨[], none, none, none, []⟩ with eligible := true, nextTeam := 1 }

/-- Its team on core 0. -/
def benchTeam (stream : Bool) : Team := newTeam (benchLaunch stream) 0 false ⟨0, 0, 0, 0⟩ 0

/-- A leaf that maps virtual page 1 to frame 1: readable, writable, executable, DEVICE. -/
def benchPte : BitVec 256 := BitVec.ofNat 256 (0x10000 / 1024 * 2 ^ 90 + 2 * 2 ^ 64 + 2 ^ 32 + 2 ^ 19 + 2 ^ 18 + 2 ^ 17)

/-- The fetch line that holds a word in slot 0, as a target, with its parity. -/
def benchLine (w : W96) : List Byte :=
  bytesOfWord w ++ List.replicate 48 0 ++ bytesOf 4 (32 + bnat (parity w))

/-- The word at the address that the next step fetches, and all that the fetch needs: the launch with its team, the translation of the
page, and the issue as the next move. -/
def State.placeWord (s : State) (w : W96) : State :=
  let op := w.toNat % 256
  let stream := decide (0xD0 ≤ op) && decide (op ≤ 0xDF)
  let t := benchTeam stream
  { s with
    agenda := ⟨0, if stream then .sq t.ref else .issue ⟨t.ref, .grp 0⟩⟩ :: s.agenda
    rank := 0
    mem := s.mem.write 0x10000 (benchLine w)
    launches := benchLaunch stream :: s.launches.filter fun l => l.num != 1
    teams := t :: s.teams.filter fun u => u.ref.launch != 1
    lost := Store.set false s.lost 0x10000 false
    replays := Vector.replicate 4 0
    cores := s.cores.setIfInBounds 0 { s.core 0 with
      tlb := ⟨0, false, 1, 16, benchPte⟩ :: (s.core 0).tlb, slots := Vector.replicate 4 (0, 0, false) } }

end Sys2Proof.Machine
end

