-- ==== Sys2Proof/Safety.lean ====
section
/-! DEFINITION. What counts as a safe run, and the invariants that statements use. Every cause of the spec is a next state of the
machine (a trap stops a unit and raises a record), so a run is unsafe only where the model itself would stop. -/
namespace Sys2Proof.Safety

open Sys2Proof.Machine

/-- The outcome is a next state: the model neither faults nor refuses. -/
def Goes (o : Host.Outcome State Fault Refusal) : Prop := ∃ s, o = .next s

/-- `n` steps from `s` meet no fault and no refusal. -/
def Safe (n : Nat) (s : State) : Prop := Goes (Sys2Proof.core.run n s)

/-- Memory stands in its canonical form: addresses rise, and no entry equals what an unlisted address reads as. -/
def MemInv (s : State) : Prop := s.mem.wf = true

/-- Between steps no party is executing. -/
def IdleInv (s : State) : Prop := s.cur = .idle

end Sys2Proof.Safety
end

