-- ==== Sys2Proof/Spec.lean ====
section
/-! DEFINITION. The terms that statements are written in: when a group word goes on to its own effect, what it leaves when it
retires, and the registers and bytes that an observer reads. -/
namespace Sys2Proof.Spec

open Sys2Proof.Machine

/-! ### When a group word goes on to its own effect -/

/-- The lanes of `EXEC` that the guard of a word passes (R46). -/
def guarded (c : Ctx) (v : View) : Mask := c.g.guard v.h.gp.val v.h.gn &&& laneMask c.g.width

/-- The active lanes of a word: those its guard passes; of a uniform word, the lanes of `EXEC` (R85, R160). -/
def activeOf (c : Ctx) (v : View) : Mask := if v.kind = .vector then guarded c v else c.g.exec

/-- A vector word has no active lane (R100); a replay word keeps the lanes of its failure. -/
def inactive (c : Ctx) (v : View) : Bool := v.kind == .vector && guarded c v == 0 && !c.g.replay.isSome

/-- A uniform word's guard fails in the lowest lane of `EXEC` (R160). -/
def skipped (c : Ctx) (v : View) : Bool := v.kind == .uniform && !(guarded c v).getLsbD (lowLane c.g.exec)

/-- A CANCEL ends the party at this word (R185). -/
def killedAt (c : Ctx) (i : Instr) (v : View) : Bool :=
  match c.g.kill with
  | some k => killPoint i && !k.atRestore && !skipped c v
  | none => false

/-- What the words outstanding ask of this word (R94, R95). -/
def lookOf (c : Ctx) (v : View) : Look :=
  if c.g.replay.isSome then (if c.g.la.any fun e => !e.done then .wait else .go) else lookCheck c.g.la v.touches (inactive c v)

/-- The word of context `c` with view `v` as it issues, if nothing of R94, R100, R101, R160 and R185 keeps it from its own
effect: no CANCEL ends the party at it, it is neither inactive nor skipped, none of ILLEGAL, REG-UNMAPPED and LATCH-STALE
holds, the lookahead entries let it go, its queues hold the entries and the room it needs (R18), and no line of a register that it
reads, or writes in part, is lost (R295). -/
def issues (c : Ctx) (i : Instr) (v : View) : Option Ex :=
  let n := (lanes (activeOf c v) c.g.width).length
  if killedAt c i v || (v.kind == .vector && guarded c v == 0) || skipped c v || (c.wordTrap i v).isSome || lookOf c v != .go ||
      (v.isLong && !c.g.replay.isSome && decide (16 ≤ (c.g.la.filter fun e => !e.free).length)) then none
  else match c.takePops v n with
    | .error _ => none
    | .ok pops =>
      let x : Ex := ⟨c, i, v, activeOf c v, c.g.issuePc, pops, c.g.replay.isSome⟩
      if (c.noRoom v n pops).isSome || x.lostReg.isSome || (v.pushes && !v.isLong && !c.quiet) then none else some x

/-- The party whose word is being executed, with the word's view. -/
def party (s : State) (i : Instr) : Option (Ctx × View) :=
  match s.cur with
  | .grp r =>
    match s.ctx? r with
    | some c => match i.view c.g.width with | some v => some (c, v) | none => none
    | none => none
  | _ => none

/-- The word `i` as the executing party of `s` issues it, if it goes on to its own effect (see `issues`). -/
def issuing (s : State) (i : Instr) : Option Ex :=
  match party s i with
  | some (c, v) => issues c i v
  | none => none

/-- The state in which an issuing word reads its operands: where it pushes a queue it has released at team scope, where it pops
one it has acquired (R305, R313). -/
def start (x : Ex) (s : State) : State :=
  let s := if x.v.pushes && !x.v.isLong then s.releaseTeam x.c.t x.c.core else s
  if x.popped.isEmpty then s else s.acquireTeam x.c.t x.c.core

/-- The state in which an issuing word has retired with the register writes `ws`, and with next address `pc` where it branches. -/
def retires (x : Ex) (s : State) (ws : List Wr) (pc : Option Addr := none) : State :=
  x.finish (start x s) (.done (start x s) ws pc)

/-- The state in which an issuing word has stopped its party with the cause `t`, without effect of its own (R50). -/
def traps (x : Ex) (s : State) (t : Trap) : State := x.finish (start x s) (.trap t)

/-! ### What an observer reads -/

/-- The group or continuation of a party. -/
def grp? (s : State) (r : GRef) : Option Group := (s.ctx? r).map (·.g)

/-- The word is an operation on registers alone: it touches no queue. -/
def plain (x : Ex) : Bool := x.popped.isEmpty && !x.v.pushes

/-- What the writes `ws` leave in lane `i` of v register `r` that held `old`: the last write to it, if any. -/
def lastV (r i : Nat) (old : W32) (ws : List Wr) : W32 :=
  ws.foldl (fun y w => match w with | .v q j x => if q = r ∧ j = i then x else y | _ => y) old

/-- What the writes `ws` leave in s register `n` that held `old`. -/
def lastS (n : Nat) (old : W64) (ws : List Wr) : W64 :=
  ws.foldl (fun y w => match w with | .s q x => if q = n then x else y | _ => y) old

/-- What the writes `ws` leave in predicate `n` that held `old`. -/
def lastP (n : Nat) (old : Mask) (ws : List Wr) : Mask :=
  ws.foldl (fun y w => match w with | .p q m x => if q = n then (y &&& ~~~m) ||| (x &&& m) else y | _ => y) old

/-! ### Integer results -/

/-- The number that the low bits of a pattern stand for under an integer type (R134). -/
def num (t : ITy) (y : Nat) : Int :=
  if t.signed then (BitVec.ofNat t.bits y).toInt else ((BitVec.ofNat t.bits y).toNat : Int)

/-- The least number of a type. -/
def lowest (t : ITy) : Int := if t.signed then -((2 ^ (t.bits - 1) : Nat) : Int) else 0
/-- The greatest number of a type. -/
def highest (t : ITy) : Int := if t.signed then ((2 ^ (t.bits - 1) : Nat) : Int) - 1 else ((2 ^ t.bits : Nat) : Int) - 1

/-- `y` is the exact result `r` modulo 2^n, or clamped to the range of its type under `.sat` (R137). -/
def Fits (t : ITy) (sat : Bool) (r : Int) (y : Nat) : Prop :=
  y < 2 ^ t.bits ∧
    (if sat then num t y = max (lowest t) (min (highest t) r) else ∃ k : Int, num t y = r + k * ((2 ^ t.bits : Nat) : Int))

/-- A result of n bits extended to its whole destination: signed for `.i` types (R134). -/
def extended (uni : Bool) (t : ITy) (y : Nat) : Nat :=
  if t.signed then ((BitVec.ofNat t.bits y).signExtend (if uni then 64 else max 32 t.bits)).toNat else y % 2 ^ t.bits

/-- The writes of an integer word's results `f`: one in each active lane, or a single one, taken from the operands of the lowest
lane of `EXEC` (R135). -/
def results (uni : Bool) (t : ITy) (d : Opnd) (x : Ex) (f : Nat → Nat) : List Wr :=
  if uni then uniWr d (BitVec.ofNat 64 (extended true t (f (lowLane x.c.g.exec))))
  else laneWrs d (regsOf t.bits) (x.lanes.map fun i => (i, extended false t (f i)))

/-- A one-source integer word completes with a result that `P` allows for its operand's bits. -/
def Yields1 (mk : Int1 → Instr) (P : Int1 → Nat → Nat → Prop) : Prop :=
  ∀ (s : State) (w : Int1) (x : Ex), issuing s (mk w) = some x →
    ∃ f : Nat → Nat, (∀ i, P w (x.ival w.ty w.a w.imm i) (f i)) ∧
      exec (mk w) s = .next (retires x s (results w.uni w.ty w.d x f))

/-- A two-source integer word completes with a result that `P` allows for its operands' bits. -/
def Yields2 (mk : Int2 → Instr) (P : Int2 → Nat → Nat → Nat → Prop) : Prop :=
  ∀ (s : State) (w : Int2) (x : Ex), issuing s (mk w) = some x →
    ∃ f : Nat → Nat, (∀ i, P w (x.ival w.ty w.a w.imm i) (x.ival w.ty w.b w.imm i) (f i)) ∧
      exec (mk w) s = .next (retires x s (results w.uni w.ty w.d x f))

/-- A three-source integer word completes with a result that `P` allows for its operands' bits. -/
def Yields3 (mk : Int3 → Instr) (P : Int3 → Nat → Nat → Nat → Nat → Prop) : Prop :=
  ∀ (s : State) (w : Int3) (x : Ex), issuing s (mk w) = some x →
    ∃ f : Nat → Nat, (∀ i, P w (x.ival w.ty w.a w.imm i) (x.ival w.ty w.b w.imm i) (x.ival w.ty w.c w.imm i) (f i)) ∧
      exec (mk w) s = .next (retires x s (results w.uni w.ty w.d x f))

/-- Bit `k` of the value `a`, continued above bit n − 1 with copies of it for `.i` types and with 0 otherwise (R139). -/
def continuedBit (t : ITy) (a k : Nat) : Bool := if k < t.bits then a.testBit k else t.signed && a.testBit (t.bits - 1)

/-- Start and length of a field descriptor (R139). -/
def fieldOf (t : ITy) (x : Nat) : Nat × Nat := (x % 256, min (x / 256 % 256) t.bits)

/-! ### Floating results -/

/-- The rational number that a finite exact value stands for. -/
def value : ExactNum → Rat
  | .fin neg n d => (if neg then -1 else 1) * ((n : Rat) / (d : Rat))
  | _ => 0

/-- The state in which an issuing word has retired with the register writes `ws`, its group changed by `h` beside them. -/
def retiresWith (x : Ex) (s : State) (h : Group → Group) (ws : List Wr) : State :=
  x.finish (start x s) (.done ((start x s).modGroup x.c.ref h) ws none)

/-- A word of the integer, floating-point, training or lane family that always retires once it goes on to its own effect (R133 to R157):
all of them but QNT, QNTT, CTLD and CTENC, which have causes of their own; and NOP. -/
def alwaysRetires : Instr → Bool
  | .iadd _ | .isub _ | .imul _ | .imulh _ | .imad _ | .imin _ | .imax _ | .iabs _ | .and _ | .or _ | .xor _ => true
  | .shl _ | .shr _ | .sar _ | .bfx _ | .bfi _ | .popc _ | .clz _ | .icmp _ | .sel _ | .mov _ | .movi _ | .moviHi _ => true
  | .fadd _ | .fmul _ | .ffma _ | .fmin _ | .fmax _ | .fcmp _ | .frcp _ | .frsq _ | .fsqrt _ | .fexp2 _ | .flog2 _ | .cvt _ => true
  | .dqnt _ | .vact _ | .vdact _ | .ctdec _ | .maxkey _ | .srseed _ | .shfl _ | .vote _ | .gred _ | .prmt _ | .nop _ => true
  | _ => false

/-- The halves of one register: one value, or two of 16 bits (R142). -/
def halves (t : FTy) (f : Nat → Nat) : Nat := if t.packed then f 0 + 2 ^ 16 * f 1 else f 0

/-- Some half of some active lane meets a condition. -/
def someHalf (t : FTy) (x : Ex) (p : Nat → Nat → Bool) : Bool :=
  x.lanes.any fun i => p i 0 || (t.packed && p i 1)

/-- The seed and coordinate that lane `i` draws with for half `h` (R147). -/
def drawOf (x : Ex) (i h : Nat) : Draw := ⟨x.c.g.seed.toNat, x.c.g.ctr.toNat * 2 ^ 32 + 2 * i + h⟩

/-- The stream state counts a word that draws: executed under RS, or writing E4M3 under RNE (R147). -/
def counted (rm : RMode) (t : FTy) (g : Group) : Group :=
  if rm = .rs ∨ (rm = .rne ∧ t = .e4m3) then { g with ctr := g.ctr + 1 } else g

/-- A floating word with exact results `f` and the operands `ops` of each half completes: each result is rounded once, `INV` is set
where a NaN comes from operands none of which is a NaN, and the stream state counts the word if it draws (R106, R142, R147). -/
def fpDone (d : Opnd) (rm : RMode) (t : FTy) (x : Ex) (s : State) (f : Nat → Nat → ExactNum) (ops : Nat → Nat → List ExactNum) : State :=
  retiresWith x s
    (fun g => counted rm t
      (g.flag .inv (someHalf t x fun i h => (f i h).isNan && !(ops i h).any ExactNum.isNan)))
    (laneWrs d 1 (x.lanes.map fun i => (i, halves t fun h => Machine.round t.fmt rm (f i h) (drawOf x i h))))

/-! ### Branches and tokens -/

/-- The state in which an issuing word has branched to `a`, its group changed by `h`. -/
def branches (x : Ex) (s : State) (h : Group → Group) (a : Addr) : State :=
  x.finish (start x s) (.done ((start x s).modGroup x.c.ref h) [] (some a))

/-- Token `k` is the highest-indexed open one (R162). -/
def highestOpen (g : Group) (k : Nat) : Prop := (g.tok k).mem ≠ 0 ∧ ∀ j, k < j → j < 8 → (g.tok j).mem = 0

/-- No token from `k` on is open. -/
def noneOpenFrom (g : Group) (k : Nat) : Prop := ∀ j, k ≤ j → j < 8 → (g.tok j).mem = 0

/-- The lanes `m` lie within token `k`. -/
def within (g : Group) (k : Nat) (m : Mask) : Prop := m &&& ~~~(g.tok k).mem = 0

/-- Every token, and every one above `k`, loses the lanes `m` (R165). -/
def leaving (g : Group) (above : Int) (m : Mask) : Group :=
  { g with j := Vector.ofFn fun n : Fin 8 =>
      if above < (n.val : Int) then { g.tok n.val with mem := (g.tok n.val).mem &&& ~~~m, arr := (g.tok n.val).arr &&& ~~~m }
      else g.tok n.val }

/-- The end of a word that takes lanes out of `EXEC` and leaves its group as `g`: it runs `resume` (R165). -/
def resumes (x : Ex) (s : State) (g : Group) : State :=
  match g.resume with
  | .go h => x.finish (start x s) (.done ((start x s).setGroup x.c.ref h) [] (some (if g.exec = 0 then h.pc else nextPc x.pc)))
  | .blocked k h => (start x s).setGroup x.c.ref { x.retired false x.pc h with wait := .resume k, st := .blocked }
  | .token k => traps x s (trapE .token (BitVec.ofNat 128 k))
  | .ended _ =>
    if x.c.g.la.any (fun e => !e.done) then x.finish (start x s) (.wait .engine)
    else if x.c.g.task.isSome then traps x s (trapE .task (BitVec.ofNat 128 (match x.c.g.task with | some k => k.addr.toNat | none => 0)))
    else match x.c.ref.who with
      | .grp i => (start x s).endGroup x.c.ref.t i
      | .cont _ => start x s

/-- The state in which a group has switched, from the state `u`, to the role and the entry of its governor's record (R178, R347). -/
def governed (x : Ex) (r : GovRec) (u : State) : State :=
  u.modGroup x.c.ref fun h =>
    let h := x.retired false r.entry h
    { h with l := Vector.replicate 3 none, role := r.into, exec := h.liveLanes }

/-! ### Waiting -/

/-- The state in which an issuing word waits without effect. -/
def waits (x : Ex) (s : State) (w : Wait) : State := x.finish (start x s) (.wait w)

/-- The state in which an issuing word waits after it has changed the state to `u`. -/
def waitsIn (x : Ex) (s u : State) (w : Wait) : State := x.finish (start x s) (.waitIn u w)

/-- The state in which an issuing word has retired after it has changed the state to `u`. -/
def retiresIn (x : Ex) (s u : State) (ws : List Wr) : State := x.finish (start x s) (.done u ws none)

/-- The state in which an issuing word has stopped its party with a cause after it has changed the state to `u`. -/
def trapsIn (x : Ex) (s u : State) (t : Trap) : State := x.finish (start x s) (.trapAt u t)

/-- The state in which an issuing word has been accepted: its work `op`, with the further destinations `ds`, waits in a lookahead
entry of its party, and the state is `u` (R93). -/
def defers (x : Ex) (s u : State) (op : PendOp) (ds : List Dest) : State := x.finish (start x s) (.defer u op ds)

/-- The state in which a long-latency word has been accepted, or has stopped at the lane whose check 3 failed with `t`: the lanes `ls`
below it are accepted, each by an entry of the word (R193). -/
def accepted (x : Ex) (s u : State) (op : PendOp) (ds : List Dest) (ls : List LaneAddr) (t : Option Trap) : State :=
  match t with
  | none => defers x s u op ds
  | some t => if ls.isEmpty then trapsIn x s u t else trapsIn x s (x.partEntry u op ds ls) t

/-- What a load or atomic of the lanes `ls` gives once it has touched the windows over its scratchpad lines: it waits at the first line
that is empty, and is accepted once all are full (R201, R209). -/
def AcceptedWhenFull (x : Ex) (s u : State) (n : Nat) (op : PendOp) (ds : List Dest) (ls : List LaneAddr) (t : Option Trap)
    (o : Host.Outcome State Fault Refusal) : Prop :=
  let v := x.touched u n ls
  ∀ tm, v.team? x.c.ref.t = some tm →
    (∀ l, (spadLines tm n ls).find? (fun a => !tm.serves a) = some l → o = .next (waitsIn x s v (.emptyLine l))) ∧
    ((spadLines tm n ls).all tm.serves = true → o = .next (accepted x s v op ds ls t))

/-- What a twin word over the lanes of `m` gives: it checks alignment and region of every lane, then translation and element size of every
lane; it waits for the party's earlier twin operations on its lines, and its own effect follows (R192, R216). -/
def TwinWord (x : Ex) (s : State) (m : MemOp) (writes : Bool) (next : List LaneAddr → State → State)
    (o : Host.Outcome State Fault Refusal) : Prop :=
  let as := x.laneAddrs m
  (∀ t, x.twinCheck (as.map (·.2)) = some t → o = .next (traps x s t)) ∧
  (x.twinCheck (as.map (·.2)) = none →
    (∀ t u, (start x s).twinPieces x.c writes as = (.error t, u) → o = .next (traps x s t)) ∧
    (∀ ls u, (start x s).twinPieces x.c writes as = (.ok ls, u) →
      (x.c.twinWait (laneLineVas ls) = true → o = .next (waitsIn x s u .engine)) ∧
      (x.c.twinWait (laneLineVas ls) = false → o = .next (next ls u))))

/-- The group of the word has arrived in barrier k's open phase and not yet waited (R170). -/
def inPhase (x : Ex) (k : Nat) : Prop := x.c.g.arv.getLsbD k = true ∧ x.c.g.aph.getLsbD k = (x.c.t.bar k).phase

/-! ### Stream words -/

/-- The stream word `i` as the executing sequencer of `s` issues it, if it goes on to its own effect: it is legal
(R223, R226). -/
def sequencing (s : State) (i : Instr) : Option Sx :=
  match s.cur with
  | .sq r =>
    match s.team? r, s.launch? r.launch with
    | some t, some l => if i.legalErr.isSome then none else some ⟨l, t, i⟩
    | _, _ => none
  | _ => none

/-- The state in which a stream word has been performed after it has changed the state to `u`, with next address `pc` where it transfers. -/
def seqDone (x : Sx) (u : State) (pc : Option Addr := none) : State := x.finish u (.done u pc)

/-- The state in which the sequencer waits at its word, after it has changed the state to `u`. -/
def seqWaits (x : Sx) (u : State) (on : SeqWait) : State := x.finish u (.wait u on)

/-- The state in which the sequencer has stopped before its word with the cause `t` (R226). -/
def seqStops (x : Sx) (s : State) (t : Trap) : State := x.finish s (.stop t)

/-- The state in which a mesh word with the operand values `d`, `a` and `b` has joined the mesh queue (R224). -/
def seqIssues (x : Sx) (s : State) (d a b : W32) : State := x.finish s (.issue d a b)

/-- What a mesh word gives at issue: it waits while the mesh queue is full, stops with what its checks meet, and else joins the queue. -/
def MeshIssue (x : Sx) (s : State) (t : Option Trap) (d a b : W32) (o : Host.Outcome State Fault Refusal) : Prop :=
  (8 ≤ x.t.mq.length → o = .next (seqWaits x s .none)) ∧
  (x.t.mq.length < 8 → ∀ e, t = some e → o = .next (seqStops x s e)) ∧
  (x.t.mq.length < 8 → t = none → o = .next (seqIssues x s d a b))

/-- `n` of R159: the low 32 bits of an operand as a natural number. -/
def count (x : Ex) (o : Opnd) (imm : W32) : Nat := x.uval o 32 false imm

/-! ### Commands of the host -/

/-- The state in which a command stands at the end of its command processor's queue. -/
def queued (s : State) (d : Nat) (i : Instr) : State := s.modDie d fun x => { x with cmds := x.cmds ++ [i] }

/-- The state in which a command has left its queue and its reply has been sent (R419, R424). -/
def replied (u : State) (d opc : Nat) (m : HostMsg) (stat : Nat) (body : List Byte) : State :=
  (u.modDie d fun x => { x with cmds := x.cmds.tail, busy := false }).replyHost opc m stat body

/-- What a command's arrival at its command processor does: an idle processor performs it at once with `act`, or turns it away, and
replies; behind other commands it waits (R418, R419, R424). -/
def Performs (s : State) (i : Instr) (opc : Nat) (m : HostMsg) (act : State → CmdRes) (o : Host.Outcome State Fault Refusal) : Prop :=
  let d := cmdDie opc m
  let q := queued s d i
  ((s.die d).cmds = [] → s.cmdStatus opc m = none →
    (∀ stat body u, act q = .reply stat body u → o = .next (replied u d opc m stat body)) ∧ (∀ u, act q = .hold u → o = .next u)) ∧
  ((s.die d).cmds = [] → s.cmdStatus opc m = some 2 → o = .next (replied q d opc m 2 [])) ∧
  (∀ stat, (s.die d).cmds = [] → s.cmdStatus opc m = some stat → stat ≠ 2 → q.srcRoom 0 (.port 0) = true →
    o = .next (replied (q.portRecord 0 .remoteFail (q.senderInfo m.src 0 0)) d opc m stat [])) ∧
  (∀ stat, (s.die d).cmds = [] → s.cmdStatus opc m = some stat → stat ≠ 2 → q.srcRoom 0 (.port 0) = false → o = .next q) ∧
  (∀ j r, (s.die d).cmds = j :: r → j ≠ i → o = .next q)

/-! ### The step -/

/-- The state in which a planned move is made: its clocks have passed, and one more where its place in the clock is over (log 44). -/
def atMove (s : State) (p : Planned) (q : List Planned) : State := ({ s with agenda := q }.pass p.dt).inTime p.act

/-- A group that is about to issue: it runs, nothing holds it, and it has neither a kill, a replay word nor an entry to check. -/
def aboutToIssue (c : Ctx) : Prop :=
  c.g.held = false ∧ c.t.saving = false ∧ c.g.lateReady = false ∧ c.g.owedHold = false ∧ c.haltsHere = false ∧
    c.g.kill = none ∧ c.g.exec ≠ 0 ∧ c.g.replay = none ∧ c.g.entry = false

/-- The bytes at the program counter decode to an instruction: the address is that of a slot of a line in region 00 whose page is
mapped for fetching and no SYSTEM page, the line is not lost, the line word has no reserved bit and no pairing code that breaks
R91, the slot's parity bit is right, and the word decodes (R75, R87, R88, R91). -/
def fetches (s : State) (c : Ctx) (p : BitVec 256) (k : Nat) (i : Instr) : Prop :=
  let l := s.mem.read (paOf p c.g.pc / 64 * 64) 64
  slotOf c.g.pc = some k ∧ regionOf c.g.pc = 0 ∧
    s.xlat (some c.core) c.l.pkt.ctx c.g.pc (wantFetch c.g.priv) = .ok p ∧ pteSystem p = false ∧
    s.isLost (paOf p c.g.pc / 64 * 64) = false ∧
    lineWord l / 2 ^ 18 = 0 ∧ pairFault l c.g.width k = none ∧ parity (lineSlot l k) = bitAt (lineWord l) k ∧ decodeWord (lineSlot l k) = .ok i

end Sys2Proof.Spec
end

