-- ==== Sys2Proof/Certificates/Slice0/Obligations.lean ====
section
/-! DEFINITION. The statements for the provers. A word's statement has the form: where the word goes on to its own effect
(`issuing`: the party runs it, no CANCEL ends it there, a lane is active, no cause of R101 holds, lookahead and queues let it go,
and the conditions that follow), executing it answers the next state that the rules give. `retires`, `retiresWith` and `traps` are
the ways a word ends; what they leave is stated once, in `WordRetires`, `LongWordRetires` and `TrapStopsTheParty`. -/

open Sys2Proof Sys2Proof.Machine Sys2Proof.Spec Sys2Proof.Safety

/-! ### Encoding -/

/-- Words that the spec writes out bit by bit decode to what it says they are: R141's `(p2) ICMP.lt.i32 p1, v3, 100`, R159's
`(p1) BR.D j1` with displacement 64, R195's `LD.U.b32 v2, [s0 + v0*4]`, R227's `MSTREAM.F.e4m3 acc1, w0, 2, m4, m5, 128`, R253's
`SWR sr.sticky, zero`, R364's `MARK 1`, `(p1) TCONS v7, [s0]`, `MAXKEY.f16 v3, v2, v1`, `(p2) BREAK j0` and `RCLAIM 1`. -/
def Obligations.WrittenWordsDecode : Prop :=
  let word (hi lo : Nat) : Except DecErr Instr := decodeWord (BitVec.ofNat 96 (hi * 2 ^ 64 + lo))
  word 0x64 0x1C01FF01D1020213 = .ok (.icmp ⟨⟨0, 2, false, .none⟩, false, .lt, .i32, .p 1, .v 3, .imm, 100⟩) ∧
  word 0x40 0x0002000000010072 = .ok (.brD ⟨⟨0, 1, false, .none⟩, 1, 64⟩) ∧
  word 0 0x50000080008702A1 = .ok (.ld ⟨⟨0, 7, false, .none⟩, .b32, false, true, .v 2, ⟨.s 0, .v 0, .x4, 0⟩⟩) ∧
  word 0x80 0x0043FF02810700D1 = .ok (.mstreamF ⟨.e4m3, false, false, false, 0, 1, 2, .m 4, .m 5, .imm, 128⟩) ∧
  word 0xB 0x000000A5800700E2 = .ok (.swr ⟨⟨0, 7, false, .none⟩, .zero, 11⟩) ∧
  word 1 0x000000000007008C = .ok (.mark ⟨⟨0, 7, false, .none⟩, 1⟩) ∧
  word 0 0x00014B8001C100B6 = .ok (.tcons ⟨⟨0, 1, false, .none⟩, false, .v 7, ⟨.s 0, .zero, .x1, 0⟩⟩) ∧
  word 0 0x0400010100C70059 = .ok (.maxkey ⟨⟨0, 7, false, .none⟩, .rne, .f16, .v 3, .v 2, .v 1, 0⟩) ∧
  word 0 0x0000000000020078 = .ok (.brk ⟨⟨0, 2, false, .none⟩, 0⟩) ∧
  word 1 0x000000FF80070089 = .ok (.rclaim ⟨⟨0, 7, false, .none⟩, .imm, 1⟩)

/-- Decoding the word that the encoder gives for a well-formed instruction, with any operands, gives that instruction back. -/
def Obligations.DecodeOfEncode : Prop :=
  ∀ (i : Instr) (w : W96), i.WellFormed → encode i = some w → decodeWord w = .ok i

/-- A word that decodes is the encoding of a well-formed instruction: the decoder drops no bit, and it refuses reserved values and
unused fields that are not zero (R79, R80, R81, R102). -/
def Obligations.EncodeOfDecode : Prop :=
  ∀ (w : W96) (i : Instr), decodeWord w = .ok i → i.WellFormed ∧ encode i = some w

/-! ### The step -/

/-- A step at a state whose next move is a group's issue, where the bytes at its program counter decode to `i`, is `exec i` at the state
in which that move is made, with the group as the executing party and the page's translation in the TLB; then no party executes. Unless
the word waits, the step also notes the room that it takes of its partition's slot in this clock; where the slot has no room the word is
not issued (R344). In an ordinary launch no group goes before this one (R343), and the step notes the clock at the group; in an ordered
launch the partition runs the group, and the step notes which group keeps the partition (R349). A group that goes on by a RETRY step waits
for its record's room (R384). The same for a stream word of a team's sequencer, for an event of the device and for a clock. All this while
no boundary between dies replays; a move whose traffic crosses a boundary that holds its traffic leaves everything as it was (R408; the
moves and their order are the model's, logs 3, 28 and 44). -/
def Obligations.StepRunsTheDecodedWord : Prop :=
  (∀ (s : State) (dt : Nat) (r : GRef) (q : List Planned) (c : Ctx) (p : BitVec 256) (k : Nat) (i : Instr) (n : Nat),
    s.agenda = ⟨dt, .issue r⟩ :: q → r.who = .grp n →
    let u := atMove s ⟨dt, .issue r⟩ q
    u.ctx? r = some c → aboutToIssue c → (c.g.retries.isSome && u.heldRecord c.core) = false → fetches u c p k i →
    s.replays.all (· == 0) = true →
    let o := exec i { u.tlbFill (some c.core) c.l.pkt.ctx c.g.pc p with cur := .grp r }
    let slotted (t noted : State) (alone : Bool) : Prop :=
      (t.idle r = false → step s = .next { noted with cur := .idle }) ∧
      (∀ y, t.idle r = true → (t.core c.core).takeSlot (partOf n) i c.g.width alone = some y →
        step s = .next { noted.modCore c.core fun z => { z with slots := y.slots } with cur := .idle }) ∧
      (t.idle r = true → (t.core c.core).takeSlot (partOf n) i c.g.width alone = none → step s = .next { u with cur := .idle })
    (c.l.pkt.ord = false → u.mayIssue c = true → ∀ t, o = .next t →
      slotted t (t.modGroup r fun g => { g with readyAt := u.clock }) false) ∧
    (c.l.pkt.ord = true → u.running c.core (partOf n) = some r → ∀ t, o = .next t →
      slotted t (t.setRunning c.core (partOf n) (if u.switches r (some i) || !t.keeps r then none else some r)) true)) ∧
  (∀ (s : State) (p : Planned) (q : List Planned), s.agenda = p :: q →
    ((atMove s p q).way p.act).any (fun w => (route w.1 w.2 ++ route w.2 w.1).any s.held) = true → step s = .next (atMove s p q)) ∧
  (∀ (s : State) (dt : Nat) (q : List Planned), s.replays.all (· == 0) = true →
    (∀ (t : TeamRef) (i : Instr) (v : State), s.agenda = ⟨dt, .sq t⟩ :: q → (atMove s ⟨dt, .sq t⟩ q).fetchSeq t = .word i v →
      step s = rest (exec i { v with cur := .sq t })) ∧
    (∀ i : Instr, s.agenda = ⟨dt, .ev i⟩ :: q → step s = rest (exec i { atMove s ⟨dt, .ev i⟩ q with cur := .idle })) ∧
    (s.agenda = ⟨dt, .tick⟩ :: q → step s = .next (({ s with agenda := q }.pass dt).pass 1)))

/-- Between steps no party is executing: every step from such a state that answers a next state leaves one. -/
def Obligations.NoPartyExecutesBetweenSteps : Prop :=
  ∀ s t : State, IdleInv s → step s = .next t → IdleInv t

/-- Every step keeps memory in its canonical form: its addresses rise and no entry equals what an unlisted address reads as. -/
def Obligations.MemoryKeepsItsForm : Prop :=
  ∀ s t : State, MemInv s → step s = .next t → MemInv t

/-! ### A group word at issue -/

/-- A vector word whose guard is false in every lane of `EXEC` retires as a no-op: it raises no cause at all, and it leaves
everything but its group as it was, and of its group it changes only what every retiring word changes: it counts in lookahead
windows and latch lifetimes, performs its hold, and the program counter passes it (R100). The first cause of a word is the one
raised: ILLEGAL for a word that is illegal, whatever else it meets; then REG-UNMAPPED with the register, where it names a v register
whose chunk is not mapped; then LATCH-STALE with the latch, where it reads a latch that holds nothing. The word has no effect (R101,
R102). -/
def Obligations.InactiveWordsAndFirstCauses : Prop :=
  (∀ (s : State) (i : Instr) (c : Ctx) (v : View), party s i = some (c, v) → killedAt c i v = false → inactive c v = true →
    (c.g.la.all fun e => e.window != 0 || e.done) = true →
    let x : Ex := ⟨c, i, v, 0, c.g.pc, [], false⟩
    exec i s = .next (s.modGroup c.ref fun g =>
      { g with
        la := countDown g.la
        l := x.latches true g.l
        pc := nextPc c.g.pc
        wait := .none
        st := if g.st = .blocked then .run else g.st
        pcm := 0
        parted := []
        retries := g.retries.filter fun k => k.1 != c.g.pc
        vc := g.vc.bump c.party })) ∧
  (∀ (s : State) (i : Instr) (c : Ctx) (v : View), party s i = some (c, v) → killedAt c i v = false → inactive c v = false →
    let stops (t : Trap) : Prop := exec i s = .next (s.takeTrap c.ref t (pcAt := some c.g.issuePc))
    (i.legalErr ≠ none ∨ c.illegal i v = true → stops (trapE .illegal (BitVec.ofNat 128 (wordLow i)))) ∧
    (i.legalErr = none → c.illegal i v = false →
      (∀ r, v.vregs.find? (fun r => !c.g.mapped r) = some r → stops (trapE .regUnmapped (BitVec.ofNat 128 r))) ∧
      (v.vregs.all c.g.mapped = true → ∀ n : Fin 3, (v.sources.findSome? fun r => match r.o with
          | .l n => if (c.g.latch n.val).isNone then some n else none
          | _ => none) = some n →
        stops (trapE .latchStale (BitVec.ofNat 128 n.val)))))

/-- `TRAP` stops the party at the boundary before its word: with no policy table installed the group keeps its registers, its lanes and
its program counter, becomes STOPPED with the cause, and one record with the cause, its `INFO` and the word's address joins its
core's event queue; nothing of the state but that group, that queue and its record number changes: memory, versions, launches, dies, the
host's side, every other core and party, and the team's queues, counters, barriers, windows and scratchpad stay as they were (R50, R379,
R387). That a record which finds the queue's 256 places full stands behind them is the model's choice (log 22). -/
def Obligations.TrapStopsTheParty : Prop :=
  ∀ (s : State) (r : GRef) (c : Ctx) (t : Trap) (a : Addr),
    s.ctx? r = some c → s.policy = none → c.g.versioned = false → t.isFault = false → c.core < 128 →
    let u := s.takeTrap r t (pcAt := some a)
    (∃ g, grp? u r = some g ∧ g.st = .stopped ∧ g.stop.map (·.cause) = some t.cause ∧ g.pc = c.g.pc ∧ g.exec = c.g.exec ∧
      g.v = c.g.v ∧ g.s = c.g.s ∧ g.p = c.g.p ∧ g.l = c.g.l ∧ g.pcm = c.g.pcm ∧ g.priv = c.g.priv ∧ g.epc = c.g.epc ∧
      g.ecode = c.g.ecode ∧ g.j = c.g.j ∧ g.pend = c.g.pend) ∧
    u = { s with teams := u.teams, cores := u.cores } ∧ (∀ r', r' ≠ r → grp? u r' = grp? s r') ∧
    (∀ r', r' ≠ r.t → u.team? r' = s.team? r') ∧
    (∃ m, u.team? r.t = some m ∧ m = { c.t with groups := m.groups, conts := m.conts }) ∧
    (∀ n, n < 128 → n ≠ c.core → u.core n = s.core n) ∧
    ∃ e : EventRec, e.hd.cause = t.cause ∧ e.info = t.info ∧ e.pc = a ∧ e.launch = c.l.num ∧ e.team = c.t.ref.idx ∧
      u.core c.core = { s.core c.core with evq := (s.core c.core).evq ++ [.ev e], seq := (s.core c.core).seq + 1 }

/-- A word of the integer, floating-point, training or lane family that has no cause of its own, and NOP, retires whatever its
operands are: IADD to MOVI.hi, FADD to CVT, DQNT, VACT, VDACT, CTDEC, MAXKEY, SRSEED, SHFL, VOTE, GRED and PRMT; CTENC does where
every active lane's scale is finite and not negative, EJECT where token k is the highest open one and holds the active lanes, its
chunks are mapped, no line of its registers is lost and the helper queue has room, and REJOIN of a continuation where it names the continuation's token and every
long-latency word of the continuation has delivered (R133 to R157, R168, R169). What the end of a word leaves, once its own effect
has led to the state `u`. A word on registers alone, of no long latency, that retires to the next word or to the address it branches
to: in its group each register holds the last write to it, or what it held; `EXEC`, the tokens, the pending list, flags, chunks,
mode and barrier bits stay, and the program counter passes the word or is the branch's target. And the frame of every word: the end
of a word, whether it retires, is accepted or waits, changes nothing of `u` but its party's group or continuation, its team's queues,
and the lost marks of register lines that it writes whole (R295): no memory, no other party, no other team, no launch (R135, R161). -/
def Obligations.WordRetires : Prop :=
  (∀ (s : State) (i : Instr) (x : Ex), issuing s i = some x → s.ctx? x.c.ref = some x.c ∧ (plain x = true → start x s = s) ∧
    (x.replay = false → x.pc = x.c.g.pc)) ∧
  (∀ (s : State) (i : Instr) (x : Ex), issuing s i = some x → alwaysRetires i = true →
    ∃ ws, exec i s = .next (retires x s ws) ∨ ∃ h, exec i s = .next (retiresWith x s h ws)) ∧
  (∀ (s : State) (w : Fp2) (x : Ex), issuing s (.ctenc w) = some x →
    (∀ i ∈ x.lanes, ∃ neg n d, f32 (x.val w.b 32 false w.imm i % 2 ^ 32) = .fin neg n d ∧ (neg = false ∨ n = 0)) →
    ∃ h ws, exec (.ctenc w) s = .next (retiresWith x s h ws)) ∧
  (∀ (s : State) (w : EjectW) (x : Ex), issuing s (.eject w) = some x → highestOpen x.c.g w.k.val → within x.c.g w.k.val x.act →
    w.c1.val < x.c.g.chunks.length → ((start x s).core x.c.core).helper.length + x.lanes.length ≤ 64 →
    (∀ l, x.c.t.regLost x.c.g l = false) →
    ∃ u g, exec (.eject w) s = .next (x.finish (start x s) (x.resume u g)) ∧
      g = { x.c.g with exec := x.c.g.exec &&& ~~~x.act, j := g.j }) ∧
  (∀ (s : State) (w : CtlTok) (x : Ex) (n : Nat) (c : Cont), issuing s (.rejoin w) = some x → x.c.ref.who = .cont n →
    x.c.t.cont? n = some c → w.k = c.tok → (∀ e ∈ x.c.g.la, e.done = true) →
    exec (.rejoin w) s = .next ((start x s).finishCont x.c.ref.t n true)) ∧
  (∀ (s u : State) (x : Ex) (c : Ctx) (ws : List Wr) (pc : Option Addr),
    u.ctx? x.c.ref = some c → plain x = true → x.v.isLong = false → x.replay = false → x.c.g.kill = none ∨ pc = none →
    (∀ r j y, Wr.v r j y ∈ ws → j < 64) → (∀ q xs, Wr.push q xs ∉ ws) →
    ∃ g, grp? (x.finish (start x s) (.done u ws pc)) x.c.ref = some g ∧
      (∀ r j, j < 64 → g.vreg r j = lastV r j (c.g.vreg r j) ws) ∧
      (∀ n, n < 64 → g.sreg n = lastS n (c.g.sreg n) ws) ∧
      (∀ n, n < 7 → g.pred n = lastP n (c.g.pred n) ws) ∧ g.pred 7 = BitVec.allOnes 64 ∧
      g.pc = (match pc with | some a => a | none => nextPc x.pc) ∧ g.pcm = 0 ∧ g.exec = c.g.exec ∧ g.j = c.g.j ∧
      g.pend = c.g.pend ∧ g.sticky = c.g.sticky ∧ g.chunks = c.g.chunks ∧ g.priv = c.g.priv ∧ g.epc = c.g.epc ∧
      g.ecode = c.g.ecode ∧ g.seed = c.g.seed ∧ g.ctr = c.g.ctr ∧ g.role = c.g.role ∧ g.arv = c.g.arv ∧
      g.l = x.latches false c.g.l ∧ g.aph = c.g.aph ∧ g.task = c.g.task ∧ g.posted = c.g.posted ∧ g.kill = c.g.kill ∧ g.la = countDown c.g.la ∧
      g.lastMark = c.g.lastMark ∧ g.epoch = c.g.epoch) ∧
  (∀ (s u : State) (x : Ex) (ws : List Wr) (op : PendOp) (ds : List Dest) (w : Wait), (u.ctx? x.c.ref).isSome = true →
    let frame (t : State) : Prop := t = { u with teams := t.teams } ∧ (∀ r, r ≠ x.c.ref → grp? t r = grp? u r) ∧
      (∀ r, r ≠ x.c.ref.t → t.team? r = u.team? r) ∧
      ∀ m, u.team? x.c.ref.t = some m → ∃ m', t.team? x.c.ref.t = some m' ∧
        m' = { m with groups := m'.groups, conts := m'.conts, queues := m'.queues, rLost := m'.rLost }
    frame (retiresIn x s u ws) ∧ frame (defers x s u op ds) ∧ frame (waitsIn x s u w))

/-- A long-latency word that makes its result by itself retires as any word does, but its writes wait in a lookahead entry with the
word's window, its destinations and its writes, and no register changes before their delivery (R93). -/
def Obligations.LongWordRetires : Prop :=
  ∀ (s : State) (i : Instr) (x : Ex) (ws : List Wr),
    issuing s i = some x → plain x = true → x.v.isLong = true → x.replay = false →
    let t := retires x s ws
    (∃ g e, grp? t x.c.ref = some g ∧ g.v = x.c.g.v ∧ g.s = x.c.g.s ∧ g.p = x.c.g.p ∧ g.pc = nextPc x.c.g.pc ∧
      g.exec = x.c.g.exec ∧ g.sticky = x.c.g.sticky ∧ g.la = countDown x.c.g.la ++ [e] ∧
      e.pc = x.c.g.pc ∧ e.window = x.v.h.la.val ∧ e.done = false ∧ e.dests = x.v.dests ∧ e.op = .write ws) ∧
    (∀ r, r ≠ x.c.ref → grp? t r = grp? s r) ∧ t = { s with teams := t.teams }

/-- What an operand of `n` bits supplies in lane `i`: the low bits of its register, two or four registers taken as one number with
the first the least significant, the low bits of an s register in every lane, a predicate's bit, nothing from `zero`, and `IMM`
sign-extended for a signed type and zero-extended otherwise (R79, R80, R134). Where the lanes' results go: register `d + j` of each
listed lane receives bits 32j + 31 to 32j of its value and every other register of every other lane keeps its state; an s register
receives the value; a queue receives one entry per listed lane in ascending order; and a result written to `zero` is discarded (R16,
R18, R80, R135). A latch supplies what it holds. A hold of a mapped v register, an s register or a popped queue copies the value that the
word itself uses, in every lane of `EXEC`, for two words; an unmapped register, or the queue of an inactive word, leaves the latch
invalid; every other latch loses one word of its life with each word that retires (R61, R97, R98). A word that pops takes the oldest
entries of the queue, one for each active lane, which receives its own, and they leave the queue as it retires; it waits where there are
too few (R18). What a latch holds in a lane that took no entry, and above its bytes, is open (log 24). -/
def Obligations.OperandsAndResults : Prop :=
  (∀ (x : Ex) (imm : W32) (i n : Nat) (signed : Bool),
    (∀ r, n ≤ 32 → x.val (.v r) n signed imm i = (x.c.g.vreg r.val i).toNat % 2 ^ n) ∧
    (∀ r, x.val (.v r) 64 signed imm i = (x.c.g.vreg r.val i).toNat + (x.c.g.vreg (r.val + 1) i).toNat * 2 ^ 32) ∧
    (∀ r, x.val (.v r) 128 signed imm i = (x.c.g.vreg r.val i).toNat + (x.c.g.vreg (r.val + 1) i).toNat * 2 ^ 32 +
      (x.c.g.vreg (r.val + 2) i).toNat * 2 ^ 64 + (x.c.g.vreg (r.val + 3) i).toNat * 2 ^ 96) ∧
    (∀ r, x.val (.s r) n signed imm i = (x.c.g.sreg r.val).toNat % 2 ^ n) ∧
    (∀ k, x.val (.p k) n signed imm i = if (x.c.g.pred k.val).getLsbD i then 1 else 0) ∧
    x.val .zero n signed imm i = 0 ∧
    x.val .imm n signed imm i = (if signed then (imm.signExtend n).toNat else (imm.setWidth n).toNat)) ∧
  (∀ (n : Nat) (vals : List (Nat × Nat)), (vals.map (·.1)).Pairwise (· < ·) →
    (∀ (d : Fin 256) (r i : Nat) (old : W32), lastV r i old (laneWrs (.v d) n vals) =
      match vals.find? fun e => e.1 == i with
      | some e => if d.val ≤ r ∧ r < d.val + n then BitVec.ofNat 32 (e.2 / 2 ^ (32 * (r - d.val))) else old
      | none => old) ∧
    (∀ (d : Fin 256) (w : Wr), w ∈ laneWrs (.v d) n vals → ∃ r i y, w = .v r i y ∧ d.val ≤ r ∧ r < d.val + n) ∧
    (∀ q : Fin 16, laneWrs (.q q) n vals = [.push q.val (vals.map fun e => BitVec.ofNat 32 e.2)]) ∧
    laneWrs .zero n vals = [] ∧
    (∀ (d : Fin 64) (y : W64), uniWr (.s d) y = [.s d.val y]) ∧ (∀ y : W64, uniWr .zero y = [])) ∧
  (∀ (x : Ex) (k : Fin 3) (l : Latch) (n i : Nat) (signed : Bool) (imm : W32), x.c.g.latch k.val = some l → n ≤ 8 * l.bytes →
    x.val (.l k) n signed imm i = (l.vals.getD i 0).toNat % 2 ^ n) ∧
  (∀ (x : Ex) (inactive : Bool) (ls : Vector (Option Latch) 3) (k : Fin 3),
    let mine : Hold := if k = 0 then .a else if k = 1 then .b else .c
    (x.v.h.hold ≠ mine ∨ x.v.held = none → (x.latches inactive ls).getD k none = match ls.getD k none with
      | some l => if l.life ≤ 1 then none else some { l with life := l.life - 1 }
      | none => none) ∧
    (∀ r, x.v.h.hold = mine → x.v.held = some r → (x.latches inactive ls).getD k none = x.heldLatch mine r inactive)) ∧
  (∀ (x : Ex) (f : Hold) (r : Ref) (inactive : Bool),
    let holds (n : Nat) (uniform : Bool) (lane : Nat → Prop) : Prop := ∃ l, x.heldLatch f r inactive = some l ∧ l.life = 2 ∧
      l.bytes = n ∧ l.uniform = uniform ∧ ∀ i, i < x.w → lane i → l.vals.getD i 0 = BitVec.ofNat 128 (x.val r.o (8 * n) false 0 i)
    (∀ k, r.o = .v k → x.c.g.mapped k.val = false → x.heldLatch f r inactive = none) ∧
    (∀ k, r.o = .v k → x.c.g.mapped k.val = true → holds (if r.n = 1 then 4 else 8) false fun i => x.c.g.exec.getLsbD i = true) ∧
    (∀ k, r.o = .s k → holds (if heldWide x.word f then 8 else 4) true fun _ => True) ∧
    (∀ k, r.o = .q k → inactive = true → x.heldLatch f r inactive = none) ∧
    (∀ k, r.o = .q k → inactive = false → holds 4 false fun i => x.act.getLsbD i = true)) ∧
  (∀ (s : State) (i : Instr) (x : Ex), issuing s i = some x →
    x.popped = x.v.pops.map (fun q => (q.val, (x.c.t.queues.getD q.val []).take x.lanes.length)) ∧
    (∀ q ∈ x.v.pops, x.lanes.length ≤ (x.c.t.queues.getD q.val []).length) ∧
    ∀ q ∈ x.v.pops, ∀ (n k j : Nat) (signed : Bool) (imm : W32) (e : QEnt), x.lanes[k]? = some j →
      (x.c.t.queues.getD q.val [])[k]? = some e → x.val (.q q) n signed imm j = e.x.toNat % 2 ^ n) ∧
  (∀ (s u : State) (i : Instr) (x : Ex) (ws : List Wr) (t : Team), issuing s i = some x → u.team? x.c.ref.t = some t →
    x.c.g.kill = none → x.v.pops.Nodup → (∀ q xs, Wr.push q xs ∉ ws) →
    ∃ t', (retiresIn x s u ws).team? x.c.ref.t = some t' ∧ ∀ q : Fin 16, t'.queues.getD q.val [] =
      if q ∈ x.v.pops then (t.queues.getD q.val []).drop x.lanes.length else t.queues.getD q.val []) ∧
  (∀ (s : State) (i : Instr) (c : Ctx) (v : View) (q : Nat), party s i = some (c, v) → killedAt c i v = false →
    inactive c v = false → skipped c v = false → c.wordTrap i v = none → lookOf c v = .go →
    v.isLong = false ∨ c.g.replay.isSome = true ∨ (c.g.la.filter fun e => !e.free).length < 16 →
    let n := (lanes (activeOf c v) c.g.width).length
    c.takePops v n = .error q →
      exec i s = .next (s.setWait c.ref (.pop q n)) ∧ (∃ p ∈ v.pops, p.val = q) ∧ (c.t.queues.getD q []).length < n)

/-! ### Integer, logic and bit instructions -/

/-- The integer arithmetic words, vector and uniform: IADD, ISUB and IMAD give the exact result modulo 2^n, or clamped under `.sat`;
IMUL the low n bits and IMULH bits 2n−1 to n of the exact product; IMIN and IMAX the smaller and the larger; IABS the absolute
value, wrapped or clamped (R134, R137, R138). The logic words and shifts bit by bit: AND, OR, XOR; SHL, SHR and SAR by k = b modulo
256, with zeros shifted in, or copies of bit n − 1 by SAR, also where k is n or more (R138). Fields and counts: BFX takes the bits
from the descriptor's start on, the value continued above bit n − 1, and extends them from its length; BFI puts the low bits of a
into b at the field; POPC counts the ones and CLZ the zeros above the highest one, n where there is none (R138, R139). -/
def Obligations.IntegerLogicAndFields : Prop :=
  (Yields2 .iadd (fun w a b y => Fits w.ty w.sat (num w.ty a + num w.ty b) y) ∧
  Yields2 .isub (fun w a b y => Fits w.ty w.sat (num w.ty a - num w.ty b) y) ∧
  Yields2 .imul (fun w a b y => Fits w.ty false (num w.ty a * num w.ty b) y) ∧
  Yields2 .imulh (fun w a b y => Fits w.ty false (num w.ty a * num w.ty b / ((2 ^ w.ty.bits : Nat) : Int)) y) ∧
  Yields3 .imad (fun w a b c y => Fits w.ty w.sat (num w.ty a * num w.ty b + num w.ty c) y) ∧
  Yields2 .imin (fun w a b y => y < 2 ^ w.ty.bits ∧ num w.ty y = min (num w.ty a) (num w.ty b)) ∧
  Yields2 .imax (fun w a b y => y < 2 ^ w.ty.bits ∧ num w.ty y = max (num w.ty a) (num w.ty b)) ∧
  Yields1 .iabs (fun w a y => Fits w.ty w.sat (if num w.ty a < 0 then -num w.ty a else num w.ty a) y)) ∧
  (Yields2 .and (fun w a b y => ∀ k, y.testBit k = (a.testBit k && b.testBit k)) ∧
  Yields2 .or (fun w a b y => ∀ k, y.testBit k = (a.testBit k || b.testBit k)) ∧
  Yields2 .xor (fun w a b y => ∀ k, y.testBit k = (a.testBit k ^^ b.testBit k)) ∧
  Yields2 .shl (fun w a b y => ∀ k, y.testBit k = (decide (k < w.ty.bits) && decide (b % 256 ≤ k) && a.testBit (k - b % 256))) ∧
  Yields2 .shr (fun w a b y => ∀ k, y.testBit k = a.testBit (k + b % 256)) ∧
  Yields2 .sar (fun w a b y => ∀ k, y.testBit k =
    (decide (k < w.ty.bits) && a.testBit (if k + b % 256 < w.ty.bits then k + b % 256 else w.ty.bits - 1)))) ∧
  (Yields2 .bfx (fun w a b y => ∀ k, y.testBit k =
    (decide (k < w.ty.bits) && decide ((fieldOf w.ty b).2 ≠ 0) &&
      (if k < (fieldOf w.ty b).2 then continuedBit w.ty a ((fieldOf w.ty b).1 + k)
       else w.ty.signed && continuedBit w.ty a ((fieldOf w.ty b).1 + (fieldOf w.ty b).2 - 1)))) ∧
  Yields3 .bfi (fun w a b c y => ∀ k, y.testBit k =
    if (fieldOf w.ty c).1 ≤ k ∧ k < (fieldOf w.ty c).1 + (fieldOf w.ty c).2 ∧ k < w.ty.bits
    then a.testBit (k - (fieldOf w.ty c).1) else b.testBit k) ∧
  Yields1 .popc (fun w a y => y = ((List.range w.ty.bits).filter fun k => a.testBit k).length) ∧
  Yields1 .clz (fun w a y => y ≤ w.ty.bits ∧ (∀ k, w.ty.bits - y ≤ k → a.testBit k = false) ∧
    (y < w.ty.bits → a.testBit (w.ty.bits - y - 1) = true)))

/-- Compares, selects and moves: ICMP writes its condition's bit in each active lane, or its one result into every lane of `EXEC`, and
into no other lane; SEL gives a where the predicate is 1 and b elsewhere; MOV gives a; MOVI the immediate, extended by its type;
and MOVI.hi puts the immediate into bits 63 to 32 and keeps bits 31 to 0 (R138, R140, R141). -/
def Obligations.ComparesAndMoves : Prop :=
  (∀ (s : State) (w : IcmpW) (x : Ex) (n : Fin 8), issuing s (.icmp w) = some x → w.d = .p n →
    let a (i : Nat) : Int := num w.ty (x.ival w.ty w.a w.imm i)
    let b (i : Nat) : Int := num w.ty (x.ival w.ty w.b w.imm i)
    let holds (i : Nat) : Bool := match w.cc with
      | .eq => decide (a i = b i) | .ne => decide (a i ≠ b i) | .lt => decide (a i < b i)
      | .le => decide (a i ≤ b i) | .gt => decide (a i > b i) | .ge => decide (a i ≥ b i)
    exec (.icmp w) s = .next (retires x s [if w.uni
      then .p n.val x.c.g.exec (if holds (lowLane x.c.g.exec) then x.c.g.exec else 0)
      else .p n.val x.act (maskOf (x.lanes.filter holds))])) ∧
  (∀ (s : State) (w : Int3) (x : Ex) (k : Fin 8), issuing s (.sel w) = some x → w.c = .p k →
    exec (.sel w) s = .next (retires x s (results w.uni w.ty w.d x fun i =>
      if (x.c.g.pred k.val).getLsbD i then x.ival w.ty w.a w.imm i else x.ival w.ty w.b w.imm i))) ∧
  Yields1 .mov (fun w a y => y = a) ∧
  (∀ (s : State) (w : MoviW) (x : Ex), issuing s (.movi w) = some x →
    exec (.movi w) s = .next (retires x s (results w.uni w.ty w.d x fun _ =>
      if w.ty.signed then (w.imm.signExtend w.ty.bits).toNat else (w.imm.setWidth w.ty.bits).toNat))) ∧
  (∀ (s : State) (w : MoviHiW) (x : Ex) (n : Fin 64), issuing s (.moviHi w) = some x → w.d = .s n →
    exec (.moviHi w) s = .next (retires x s [.s n.val (w.imm ++ (x.c.g.sreg n.val).setWidth 32 : BitVec 64)]))

/-! ### Floating-point and training arithmetic -/

/-- The exact arithmetic that results are rounded from: of finite values, sum, product and quotient are those of the rational numbers;
an infinity meets the rules of IEEE 754 (R111, R112). -/
def Obligations.ExactArithmetic : Prop :=
  (∀ (r a b : Bool) (n d m e : Nat), 0 < d → 0 < e →
    value (ExactNum.add r (.fin a n d) (.fin b m e)) = value (.fin a n d) + value (.fin b m e) ∧
    value (ExactNum.mul (.fin a n d) (.fin b m e)) = value (.fin a n d) * value (.fin b m e) ∧
    (0 < m → value (ExactNum.div (.fin a n d) (.fin b m e)) = value (.fin a n d) / value (.fin b m e)) ∧
    (n = 0 → m = 0 → a = b → (ExactNum.add r (.fin a n d) (.fin b m e)).sign = a) ∧
    (n * e = m * d → a ≠ b → ExactNum.add r (.fin a n d) (.fin b m e) = .fin r 0 1)) ∧
  (∀ (r a b : Bool), ExactNum.add r (.inf a) (.inf b) = if a = b then .inf a else .nan) ∧
  (∀ a b : Bool, ExactNum.mul (.inf a) (.zero b) = .nan ∧ ExactNum.div (.inf a) (.inf b) = .nan ∧ ExactNum.div (.zero a) (.zero b) = .nan) ∧
  (∀ (a b : Bool) (n d : Nat), 0 < n → ExactNum.div (.fin a n d) (.zero b) = .inf (a != b))

/-- Rounding to FP32, FP16 or BF16: the code of a finite value no greater in magnitude than the largest finite one is that of one of
its two neighbours among the format's values: itself where it is one of them; toward zero under RTZ; up under RUP, down under
RDN; the one whose code is odd under RTO; and under RNE the nearer, of two equally near ones the one whose code is even (R109). -/
def Obligations.RoundingPicksANeighbour : Prop :=
  ∀ (f : Fmt) (m : RMode) (neg : Bool) (n d : Nat) (w : Draw), f = FP32 ∨ f = FP16 ∨ f = BF16 → m ≠ .rs → 0 < n → 0 < d →
    value (.fin false n d) ≤ value (decodeNum f f.maxCode) →
    ∃ c k : Nat, Machine.round f m (.fin neg n d) w = k + (if neg then 2 ^ f.signBit else 0) ∧ c ≤ f.maxCode ∧
      value (decodeNum f c) ≤ value (.fin false n d) ∧
      (c < f.maxCode → value (.fin false n d) < value (decodeNum f (c + 1))) ∧
      (value (decodeNum f c) = value (.fin false n d) → k = c) ∧
      (value (decodeNum f c) ≠ value (.fin false n d) →
        (k = c ∨ k = c + 1) ∧
        (m = .rtz → k = c) ∧ (m = .rup → k = if neg then c else c + 1) ∧ (m = .rdn → k = if neg then c + 1 else c) ∧
        (m = .rto → k % 2 = 1) ∧
        (m = .rne →
          let below := value (.fin false n d) - value (decodeNum f c)
          let above := value (decodeNum f (c + 1)) - value (.fin false n d)
          (below < above → k = c) ∧ (above < below → k = c + 1) ∧ (below = above → k % 2 = 0)))

/-- FADD, FMUL, FFMA and the functions FRCP, FRSQ, FSQRT, FEXP2 and FLOG2 in every format they take: each half's result is the exact
one rounded once and NaNs set `INV` as R106 gives (R112, R142, R143). These five functions are long-latency words, whose results wait in a
lookahead entry (R85; `LongWordRetires`). Their special values, as the table of R145 lists them; a root of a positive value lies,
squared, next to it. The exact result of FRSQ, FEXP2 and FLOG2 for a finite value is the model's own function, at its working precision
(log 15). -/
def Obligations.FloatArithmetic : Prop :=
  ((∀ (s : State) (w : Fp2) (x : Ex), issuing s (.fadd w) = some x →
    let a := x.fval w.ft w.a w.imm
    let b := x.fval w.ft w.b w.imm
    exec (.fadd w) s = .next (fpDone w.d w.rm w.ft x s (fun i h => (a i h).add (w.rm == .rdn) (b i h)) fun i h => [a i h, b i h])) ∧
  (∀ (s : State) (w : Fp2) (x : Ex), issuing s (.fmul w) = some x →
    let a := x.fval w.ft w.a w.imm
    let b := x.fval w.ft w.b w.imm
    exec (.fmul w) s = .next (fpDone w.d w.rm w.ft x s (fun i h => (a i h).mul (b i h)) fun i h => [a i h, b i h])) ∧
  (∀ (s : State) (w : Fp3) (x : Ex), issuing s (.ffma w) = some x →
    let a := x.fval w.ft w.a w.imm
    let b := x.fval w.ft w.b w.imm
    let c := x.fval w.ft w.c w.imm
    exec (.ffma w) s = .next (fpDone w.d w.rm w.ft x s (fun i h => ((a i h).mul (b i h)).add (w.rm == .rdn) (c i h))
      fun i h => [a i h, b i h, c i h])) ∧
  (∀ (s : State) (w : Fp1) (x : Ex),
    let a := x.fval w.ft w.a w.imm
    (issuing s (.frcp w) = some x → exec (.frcp w) s = .next (fpDone w.d w.rm w.ft x s
      (fun i h => (ExactNum.fin false 1 1).div (a i h)) fun i h => [a i h])) ∧
    (issuing s (.frsq w) = some x → exec (.frsq w) s = .next (fpDone w.d w.rm w.ft x s
      (fun i h => frsqVal (a i h)) fun i h => [a i h])) ∧
    (issuing s (.fsqrt w) = some x → exec (.fsqrt w) s = .next (fpDone w.d w.rm w.ft x s
      (fun i h => fsqrtVal (a i h)) fun i h => [a i h])) ∧
    (issuing s (.fexp2 w) = some x → exec (.fexp2 w) s = .next (fpDone w.d w.rm w.ft x s
      (fun i h => fexp2Num (a i h)) fun i h => [a i h])) ∧
    (issuing s (.flog2 w) = some x → exec (.flog2 w) s = .next (fpDone w.d w.rm w.ft x s
      (fun i h => flog2Val (a i h)) fun i h => [a i h])))) ∧
  (∀ (w : Fp1) (n : Nat) (v : View), (Instr.frcp w).view n = some v ∨ (Instr.frsq w).view n = some v ∨
    (Instr.fsqrt w).view n = some v ∨ (Instr.fexp2 w).view n = some v ∨ (Instr.flog2 w).view n = some v → v.isLong = true) ∧
  (let one := ExactNum.fin false 1 1
  (frcpVal (.zero false) = .inf false ∧ frcpVal (.zero true) = .inf true ∧ frcpVal (.inf false) = .zero false ∧
    frcpVal (.inf true) = .zero true ∧ frcpVal .nan = .nan) ∧
  (frsqVal (.zero false) = .inf false ∧ frsqVal (.zero true) = .inf true ∧ frsqVal (.inf false) = .zero false ∧
    frsqVal (.inf true) = .nan ∧ frsqVal .nan = .nan ∧ ∀ n d, 0 < n → frsqVal (.fin true n d) = .nan) ∧
  (fsqrtVal (.zero false) = .zero false ∧ fsqrtVal (.zero true) = .zero true ∧ fsqrtVal (.inf false) = .inf false ∧
    fsqrtVal (.inf true) = .nan ∧ fsqrtVal .nan = .nan ∧ ∀ n d, 0 < n → fsqrtVal (.fin true n d) = .nan) ∧
  (fexp2Num (.zero false) = one ∧ fexp2Num (.zero true) = one ∧ fexp2Num (.inf false) = .inf false ∧
    fexp2Num (.inf true) = .zero false ∧ fexp2Num .nan = .nan) ∧
  (flog2Val (.zero false) = .inf true ∧ flog2Val (.zero true) = .inf true ∧ flog2Val (.inf false) = .inf false ∧
    flog2Val (.inf true) = .nan ∧ flog2Val .nan = .nan ∧ ∀ n d, 0 < n → flog2Val (.fin true n d) = .nan) ∧
  (∀ n d : Nat, 0 < n → 0 < d → ∃ p q : Nat, fsqrtVal (.fin false n d) = .fin false p q ∧ 0 < q ∧
    ((p * p * d = n * (q * q)) ∨ ∃ j : Nat, q = 2 * d * 2 ^ 400 ∧ p = 2 * j + 1 ∧
      j * j < n * d * 4 ^ 400 ∧ n * d * 4 ^ 400 < (j + 1) * (j + 1))))

/-- FMIN and FMAX return one operand unchanged, a NaN giving the other and two NaNs the format's NaN, −0 below +0, an immediate of
an unpacked 16-bit form rounded to the format; FCMP writes a predicate bit in each active lane, false for a NaN but under `.ne` and
`.nan`, with the zeros equal. None of them sets `INV` (R144). CVT: each half is the source's value rounded once into the
destination's format, without `INV`; the packing forms take half 0 from a and half 1 from b; an integer source is a natural or a
signed number; and the conversion to `.i32` gives 0 for a NaN and the nearer end of the range for a value beyond it (R146). -/
def Obligations.FloatSelectionAndConversion : Prop :=
  ((∀ (s : State) (w : Fp2) (x : Ex) (greatest : Bool), issuing s (if greatest then .fmax w else .fmin w) = some x →
    let bitsOf (o : Opnd) (i h : Nat) : Nat :=
      if o = .imm then Machine.round w.ft.fmt .rne (x.fval w.ft o w.imm i h) else x.fbits w.ft o w.imm i h
    let pick (i h : Nat) : Nat :=
      let a := x.fval w.ft w.a w.imm i h
      let b := x.fval w.ft w.b w.imm i h
      if a = .nan then (if b = .nan then w.ft.fmt.nanCode else bitsOf w.b i h)
      else if b = .nan then bitsOf w.a i h
      else if (if greatest then a.below b else b.below a) then bitsOf w.b i h else bitsOf w.a i h
    exec (if greatest then .fmax w else .fmin w) s =
      .next (retires x s (laneWrs w.d 1 (x.lanes.map fun i => (i, halves w.ft (pick i)))))) ∧
  (∀ (s : State) (w : FcmpW) (x : Ex) (n : Fin 8), issuing s (.fcmp w) = some x → w.d = .p n →
    let holds (i : Nat) : Bool :=
      let a := x.fval w.ft w.a w.imm i 0
      let b := x.fval w.ft w.b w.imm i 0
      if a = .nan ∨ b = .nan then decide (w.cc = .ne ∨ w.cc = .nan)
      else match w.cc with
        | .eq => a.cmp b == .eq | .ne => a.cmp b != .eq | .lt => a.cmp b == .lt | .le => a.cmp b != .gt
        | .gt => a.cmp b == .gt | .ge => a.cmp b != .lt | .num => true | .nan => false
    exec (.fcmp w) s = .next (retires x s [.p n.val x.act (maskOf (x.lanes.filter holds))])) ∧
  (∀ (a b : Bool) (n d m e : Nat), 0 < d → 0 < e →
    (ExactNum.cmp (.fin a n d) (.fin b m e) = .lt ↔ value (.fin a n d) < value (.fin b m e)) ∧
    (ExactNum.cmp (.fin a n d) (.fin b m e) = .eq ↔ value (.fin a n d) = value (.fin b m e)) ∧
    (ExactNum.below (.fin a n d) (.fin b m e) = true ↔ value (.fin a n d) < value (.fin b m e) ∨
      (n = 0 ∧ m = 0 ∧ a = true ∧ b = false)))) ∧
  ((∀ (s : State) (w : CvtW) (x : Ex), issuing s (.cvt w) = some x → w.src ≠ .toI32 →
    let src (i h : Nat) : ExactNum := match w.src, w.b with
      | .int t, _ => ExactNum.ofInt (num t (x.ival t w.a w.imm i))
      | .fp _, some b => x.fval .f32 (if h = 0 then w.a else b) w.imm i 0
      | .fp t, none => x.fval t w.a w.imm i h
      | .toI32, _ => .nan
    exec (.cvt w) s = .next (retiresWith x s (counted w.rm w.ft) (laneWrs w.d 1 (x.lanes.map fun i =>
      (i, halves w.ft fun h => Machine.round w.ft.fmt w.rm (src i h) (drawOf x i h)))))) ∧
  (∀ (s : State) (w : CvtW) (x : Ex), issuing s (.cvt w) = some x → w.src = .toI32 →
    exec (.cvt w) s = .next (retires x s (laneWrs w.d 1 (x.lanes.map fun i =>
      (i, (BitVec.ofInt 32 (toI32 w.rm (x.fval .f32 w.a w.imm i 0))).toNat))))) ∧
  (∀ rm : RMode, toI32 rm .nan = 0 ∧ toI32 rm (.inf true) = -2147483648 ∧ toI32 rm (.inf false) = 2147483647) ∧
  (∀ (rm : RMode) (neg : Bool) (n d : Nat), 0 < d →
    let y : Int := toI32 rm (.fin neg n d)
    let v : Rat := value (.fin neg n d)
    (v < -2147483648 → y = -2147483648) ∧ (2147483647 < v → y = 2147483647) ∧
    (-2147483648 ≤ v → v ≤ 2147483647 →
      (y : Rat) - 1 < v ∧ v < (y : Rat) + 1 ∧ (rm = .rup → v ≤ (y : Rat)) ∧ (rm = .rdn → (y : Rat) ≤ v) ∧
      (rm = .rtz → if neg then v ≤ (y : Rat) else (y : Rat) ≤ v) ∧
      (rm = .rne → 2 * (v - (y : Rat)) ≤ 1 ∧ 2 * ((y : Rat) - v) ≤ 1 ∧
        (2 * (v - (y : Rat)) = 1 ∨ 2 * ((y : Rat) - v) = 1 → y % 2 = 0)))))

/-- QNT: with a proposed scale that is no positive finite FP32 value it traps with BAD-SCALE and writes nothing. Otherwise the 128
elements, an inactive lane's counting as +0, are divided by the scale that the step rule settles on and rounded to E4M3 with the
draws of R147; each active lane receives its code words, four codes each, and the scale after them; QSAT is set where a value still
exceeds the range, and the stream state counts a drawing word (R123, R147, R149). The step rule: the scale is raised at most three
times, each time to its double, while some element, divided by it, exceeds the bound (R123). -/
def Obligations.QuantiseAcrossTheGroup : Prop :=
  (∀ (s : State) (w : Fp2) (x : Ex) (va vd : Fin 256), issuing s (.qnt w) = some x → w.a = .v va → w.d = .v vd →
    let b : W32 := BitVec.ofNat 32 (x.uval w.b 32 false w.imm)
    let W := x.c.g.width
    let elems : List ExactNum := (List.range 128).map fun e =>
      if x.act.getLsbD (e % W) then f32 (x.c.g.vreg (va.val + e / W) (e % W)).toNat else .zero false
    let scale : ExactNum := (stepScale elems (f32 b.toNat) e4m3Max).1
    let code (e : Nat) : Nat :=
      Machine.round E4M3 w.rm ((elems.getD e .nan).div scale) ⟨x.c.g.seed.toNat, x.c.g.ctr.toNat * 2 ^ 32 + e⟩
    let word (k : Nat) : W32 := BitVec.ofNat 32 (code (4 * k) + 2 ^ 8 * code (4 * k + 1) + 2 ^ 16 * code (4 * k + 2) + 2 ^ 24 * code (4 * k + 3))
    (posFinite b = false → exec (.qnt w) s = .next (traps x s (trapE .badScale (BitVec.ofNat 128 b.toNat)))) ∧
    (posFinite b = true → exec (.qnt w) s = .next (retiresWith x s
      (fun g => counted w.rm .e4m3 (g.flag .qsat (exceeds elems scale e4m3Max)))
      (((List.range 32).filterMap fun k => if x.act.getLsbD (k % W) then some (Wr.v (vd.val + k / W) (k % W) (word k)) else none) ++
        ((x.lanes.filter fun i => decide (32 ≤ i)).map fun i => .v vd.val i 0) ++
        x.lanes.map fun i => .v (vd.val + if W = 16 then 2 else 1) i (scaleBits scale))))) ∧
  (∀ (xs : List ExactNum) (s0 bound : ExactNum),
    let two := ExactNum.fin false 2 1
    let s1 := two.mul s0
    let s2 := two.mul s1
    let s3 := two.mul s2
    let beyond (s : ExactNum) : Bool := exceeds xs s bound
    (beyond s0 = false → stepScale xs s0 bound = (s0, false)) ∧
    (beyond s0 = true → beyond s1 = false → stepScale xs s0 bound = (s1, false)) ∧
    (beyond s0 = true → beyond s1 = true → beyond s2 = false → stepScale xs s0 bound = (s2, false)) ∧
    (beyond s0 = true → beyond s1 = true → beyond s2 = true → stepScale xs s0 bound = (s3, beyond s3)) ∧
    (∀ s : ExactNum, beyond s = true ↔ ∃ y ∈ xs, y ≠ .nan ∧ bound.lt (y.div s).abs = true))

/-- Quantising what was quantised changes nothing: from a scale that is a power of two, quantising the values that the codes and the
returned scale mean, with that scale, gives the same codes and the same scale, in every mode and with every draw (R124). -/
def Obligations.QuantisationIsIdempotent : Prop :=
  ∀ (xs : List Nat) (a b : Nat) (m m' : RMode) (draw draw' : Nat → Draw),
    let s := (stepScale (xs.map f32) (.fin false (2 ^ a) (2 ^ b)) e4m3Max).1
    let q (e : Nat) : Nat := Machine.round E4M3 m ((f32 (xs.getD e 0)).div s) (draw e)
    (∀ e, e < xs.length → decodeNum E4M3 (q e) ≠ .nan) →
    let ys : List ExactNum := (List.range xs.length).map fun e => (decodeNum E4M3 (q e)).mul s
    stepScale ys s e4m3Max = (s, false) ∧
    ∀ e, e < xs.length → Machine.round E4M3 m' ((ys.getD e .nan).div s) (draw' e) = q e

/-- QNTT over a team's scratchpad: it stops with BAD-SCALE or BAD-ADDRESS before it writes; and where its two ranges are local, aligned,
inside and apart, every source line full at the start of the clock and not lost, no line waited for and no race met, it writes the 128
rows of codes, marks each of their lines full once it is written (under `.col` after the last, since each read of a source line gives a
code to every row) and puts the returned scale into its destination (R149; that all its rows may be one move is the model's, log 5). -/
def Obligations.QuantiseATile : Prop :=
  ∀ (s : State) (w : QnttW) (x : Ex), issuing s (.qntt w) = some x →
    let b : W32 := BitVec.ofNat 32 (x.uval w.c 32 false w.imm)
    let src : Addr := BitVec.ofNat 56 (x.uval w.a 64 false 0)
    let dst : Addr := BitVec.ofNat 56 (x.uval w.b 64 false 0)
    let lines (o n : Nat) : List Nat := (List.range n).map fun k => o + 128 * k
    (posFinite b = false → exec (.qntt w) s = .next (traps x s (trapE .badScale (BitVec.ofNat 128 b.toNat)))) ∧
    (posFinite b = true → qnttAddr x.c.t src 65536 = none →
      exec (.qntt w) s = .next (traps x s (trapA .badAddress src .load))) ∧
    (∀ so, posFinite b = true → qnttAddr x.c.t src 65536 = some so → qnttAddr x.c.t dst 16384 = none →
      exec (.qntt w) s = .next (traps x s (trapA .badAddress dst .store))) ∧
    (∀ so o, posFinite b = true → qnttAddr x.c.t src 65536 = some so → qnttAddr x.c.t dst 16384 = some o →
      (so < o + 16384 ∧ o < so + 65536) → exec (.qntt w) s = .next (traps x s (trapA .badAddress dst .store))) ∧
    (∀ so o t u v, posFinite b = true → qnttAddr x.c.t src 65536 = some so → qnttAddr x.c.t dst 16384 = some o →
      ¬(so < o + 16384 ∧ o < so + 65536) → (∀ c r b l, x.c.g.wait ≠ .qntt c r b l) →
      let s1 := (start x s).touchAll x.c (lines so 512 ++ lines o 128)
      let p : Pty := { x.pty with vc := t.fullJoin (lines so 512) x.c.g.vc }
      s1.team? x.c.ref.t = some t → (lines so 512).all t.serves = true → t.lostAmong (lines so 512) = none → (lines o 128).any t.storeWaits = false →
      x.c.mustWait [(2 ^ 64 + so, 65536), (2 ^ 64 + o, 16384)] true = false →
      s1.track p (.spad t.ref.idx) so 65536 false 0 = (none, u) → u.track p (.spad t.ref.idx) o 16384 true 0 = (none, v) →
      let elem (k : Nat) : ExactNum := f32 (natOf (t.spadRead (so + 4 * k) 4))
      let sc := stepScale ((List.range 16384).map elem) (f32 b.toNat) e4m3Max
      let code (r c : Nat) : Byte := BitVec.ofNat 8 (Machine.round E4M3 w.rm
        ((elem (if w.col then 128 * c + r else 128 * r + c)).div sc.1) ⟨x.c.g.seed.toNat, r * 2 ^ 32 + c⟩)
      let write (t : Team) (r : Nat) : Team := t.spadWrite (o + 128 * r) ((List.range 128).map (code r))
      let full (t : Team) (r : Nat) : Team := (t.markFull (o + 128 * r) []).spadWhole (o + 128 * r)
      exec (.qntt w) s = .next (x.finish (start x s) (.done
        (((v.modGroup x.c.ref fun g => { g with vc := t.fullJoin (lines so 512) x.c.g.vc }).modTeam x.c.ref.t fun t =>
          if w.col then (List.range 128).foldl full ((List.range 128).foldl write t)
          else (List.range 128).foldl (fun t r => full (write t r) r) t).modGroup x.c.ref fun g => g.flag .qsat sc.2)
        (uniWr w.d (BitVec.ofNat 64 (scaleBits sc.1).toNat)) none)))

/-- DQNT gives each of the four codes of a lane's register times the scale, formed exactly and rounded once, and sets `INV` where a
NaN comes from operands that are none; CTDEC gives the table's entry for each code times m so, or NaN with CTNAN where no table is
loaded; CTENC gives for each of four values the code of the nearest entry under x / m (of 0 where m is zero), 255 for a NaN and for
+∞, 0 for −∞, 0 with CTNAN where no table is loaded, and traps with BAD-SCALE where some m is negative, infinite or a NaN (R149,
R152). MAXKEY gives the ordered key of the value in bits 31 to 16 and the complement of the index below it: 0xFFFF for a NaN, bit 15
set for a value whose sign is clear, the complement otherwise (R153; that an immediate is an FP32 value that is rounded first is the
model's choice, log 25); and SRSEED sets SEED to a and CTR to bits 31 to 0 of b (R148; that an immediate a is zero-extended is the
model's choice, log 46). -/
def Obligations.CodesTablesKeysAndSeeds : Prop :=
  ((∀ (s : State) (w : Fp2) (x : Ex), issuing s (.dqnt w) = some x →
    let c (i j : Nat) : ExactNum := decodeNum E4M3 (x.val w.a 32 false w.imm i / 256 ^ j % 256)
    let b (i : Nat) : ExactNum := f32 (x.val w.b 32 false w.imm i)
    let r (i j : Nat) : Nat := Machine.round w.ft.fmt w.rm ((c i j).mul (b i))
    let k := w.ft.fmt.width
    exec (.dqnt w) s = .next (retiresWith x s
      (fun g => g.flag .inv (x.lanes.any fun i => [0, 1, 2, 3].any fun j => invMet ((c i j).mul (b i)) [c i j, b i]))
      (laneWrs w.d (if w.ft = .f32 then 4 else 2) (x.lanes.map fun i =>
        (i, r i 0 + 2 ^ k * (r i 1 + 2 ^ k * (r i 2 + 2 ^ k * r i 3))))))) ∧
  (∀ (s : State) (w : Fp2) (x : Ex), issuing s (.ctdec w) = some x →
    let c (i j : Nat) : ExactNum := f32 (x.c.t.code.getD (x.val w.a 32 false w.imm i / 256 ^ j % 256) 0).toNat
    let m (i : Nat) : ExactNum := f32 (x.val w.b 32 false w.imm i)
    let r (i j : Nat) : Nat := if x.c.t.loaded then Machine.round FP32 w.rm ((c i j).mul (m i)) else 0x7FC00000
    exec (.ctdec w) s = .next (retiresWith x s
      (fun g => (g.flag .inv (x.c.t.loaded && x.lanes.any fun i => [0, 1, 2, 3].any fun j =>
        invMet ((c i j).mul (m i)) [c i j, m i])).flag .ctnan (!x.c.t.loaded))
      (laneWrs w.d 4 (x.lanes.map fun i =>
        (i, r i 0 + 2 ^ 32 * (r i 1 + 2 ^ 32 * (r i 2 + 2 ^ 32 * r i 3))))))) ∧
  (∀ (s : State) (w : Fp2) (x : Ex), issuing s (.ctenc w) = some x →
    let m (i : Nat) : W32 := BitVec.ofNat 32 (x.val w.b 32 false w.imm i)
    let bad (i : Nat) : Bool := match f32 (m i).toNat with | .fin neg n _ => neg && n != 0 | _ => true
    let e (i j : Nat) : ExactNum := f32 (x.val w.a 128 false 0 i / 2 ^ (32 * j) % 2 ^ 32)
    let r (i j : Nat) : Nat := ctencCode x.c.t (e i j) (f32 (m i).toNat)
    (∀ i, x.lanes.find? bad = some i → exec (.ctenc w) s = .next (traps x s (trapE .badScale (BitVec.ofNat 128 (m i).toNat)))) ∧
    (x.lanes.find? bad = none → exec (.ctenc w) s = .next (retiresWith x s (fun g => g.flag .ctnan (!x.c.t.loaded))
      (laneWrs w.d 1 (x.lanes.map fun i => (i, r i 0 + 256 * (r i 1 + 256 * (r i 2 + 256 * r i 3)))))))) ∧
  (∀ (t : Team) (y m : ExactNum), (t.loaded = false → ctencCode t y m = 0) ∧
    (t.loaded = true → ctencCode t .nan m = 255 ∧ ctencCode t (.inf false) m = 255 ∧ ctencCode t (.inf true) m = 0 ∧
      ∀ neg n d, y = .fin neg n d → ctencCode t y m = nearest t (if m.isZero then .zero false else y.div m))) ∧
  (∀ (t : Team) (y : ExactNum), let dist (c : Nat) : ExactNum := (y.add false (t.codeNum c).neg).abs
    (∀ c, c < 256 → (t.codeNum c).isFin = true) → (∃ neg n d, y = .fin neg n d ∧ 0 < d) →
    nearest t y < 256 ∧ (∀ c, c < 256 → (dist c).lt (dist (nearest t y)) = false) ∧
    (∀ c, c < nearest t y → (dist (nearest t y)).lt (dist c) = true))) ∧
  ((∀ (s : State) (w : Fp2) (x : Ex), issuing s (.maxkey w) = some x →
    let u (i : Nat) : Nat :=
      if w.a = .imm then Machine.round w.ft.fmt .rne (f32 w.imm.toNat) else x.fbits w.ft w.a w.imm i 0
    let key (i : Nat) : Nat :=
      if decodeNum w.ft.fmt (u i) = .nan then 0xFFFF else if (u i).testBit 15 then 0xFFFF - u i % 2 ^ 16 else u i % 2 ^ 16 + 0x8000
    exec (.maxkey w) s = .next (retires x s (laneWrs w.d 1 (x.lanes.map fun i =>
      (i, key i * 2 ^ 16 + (0xFFFF - x.val w.b 16 false w.imm i)))))) ∧
  (∀ (s : State) (w : SrseedW) (x : Ex), issuing s (.srseed w) = some x →
    exec (.srseed w) s = .next (retiresWith x s (fun g =>
      { g with seed := BitVec.ofNat 64 (x.uval w.a 64 false w.imm), ctr := BitVec.ofNat 32 (x.uval w.b 32 false w.imm) }) [])))

/-- VACT and VDACT complete, and each half's result depends on the function, the format and the input bits alone. VACT gives the values at
the infinities and zeros that R150's table lists, a NaN for a NaN, and `.relu` exactly; any other value within the format's range it gives in a 16-bit format as itself where it is representable
and otherwise as one of its two neighbours, and in FP32 within two units in the last place. VDACT of `.sig`, `.tanh`, `.exp` and
`.relu` is the exact product rounded once, that of `.softplus` one of the product's neighbours where it lies within the format's
range; it sets `INV` where an infinite gradient meets a zero factor (R150). VDACT of `.gelu` traps with ILLEGAL. Which of the allowed
values the implementation takes is a free value of the model (log 11); what the functions give at a finite value is computed at the
model's working precision (log 15), and the sign of a zero factor under RDN is its choice (log 46). -/
def Obligations.Activations : Prop :=
  (∀ (s : State) (w : VactW) (x : Ex), issuing s (.vact w) = some x →
    let a := x.fval w.ft w.a w.imm
    ∃ f : Nat → Nat → Nat,
      exec (.vact w) s = .next (retires x s (laneWrs w.d 1 (x.lanes.map fun i => (i, halves w.ft (f i))))) ∧
      (∀ i h j k, a i h = a j k → x.actBits w.ft w.a w.imm i h = x.actBits w.ft w.a w.imm j k → f i h = f j k) ∧
      (∀ i h y, actSpecial w.fn (a i h) = some y → f i h = Machine.round w.ft.fmt .rne y) ∧
      (∀ i h, w.fn = .relu → actSpecial .relu (a i h) = none → f i h = Machine.round w.ft.fmt .rne (actNum .relu (a i h))) ∧
      (∀ i h neg n d, w.fn ≠ .relu → actSpecial w.fn (a i h) = none →
        (if (a i h).isZero then ln2Num else actNum w.fn (a i h)) = .fin neg n d →
        let q := neighbours w.ft.fmt n d
        let sign := if neg then 2 ^ w.ft.fmt.signBit else 0
        q.2 ≤ w.ft.fmt.maxCode →
        (w.ft ≠ .f32 → f i h = q.1 + sign ∨ f i h = q.2 + sign) ∧
        (w.ft = .f32 → ∃ k, f i h = k + sign ∧ q.2 ≤ k + 2 ∧ k ≤ q.1 + 2))) ∧
  (∀ (s : State) (w : VdactW) (c : Ctx) (v : View), w.fn = .gelu → party s (.vdact w) = some (c, v) →
    killedAt c (.vdact w) v = false → inactive c v = false →
    exec (.vdact w) s = .next (s.takeTrap c.ref (trapE .illegal (BitVec.ofNat 128 (wordLow (.vdact w)))) (pcAt := some c.g.issuePc))) ∧
  (∀ (s : State) (w : VdactW) (x : Ex), issuing s (.vdact w) = some x → w.fn ≠ .gelu ∧ (w.fn ≠ .softplus →
    let one := ExactNum.fin false 1 1
    let y := x.fval w.ft w.a w.imm
    let g := x.fval w.ft w.b w.imm
    let product (i h : Nat) : ExactNum := match w.fn with
      | .sig => (g i h).mul ((y i h).mul (one.add (w.rm == .rdn) (y i h).neg))
      | .tanh => (g i h).mul (one.add (w.rm == .rdn) ((y i h).mul (y i h)).neg)
      | .exp => (g i h).mul (y i h)
      | _ => if y i h = .nan then .nan else if (y i h).isZero || (y i h).sign then .zero false else g i h
    let made (i h : Nat) : Bool := match w.fn with
      | .relu => false
      | _ => (product i h).isNan && !(y i h).isNan && !(g i h).isNan
    exec (.vdact w) s = .next (retiresWith x s (fun k => k.flag .inv (someHalf w.ft x made))
      (laneWrs w.d 1 (x.lanes.map fun i => (i, halves w.ft fun h => Machine.round w.ft.fmt w.rm (product i h))))))) ∧
  (∀ (s : State) (w : VdactW) (x : Ex), issuing s (.vdact w) = some x → w.fn = .softplus →
    let y := x.fval w.ft w.a w.imm
    let g := x.fval w.ft w.b w.imm
    let product (i h : Nat) : ExactNum := (g i h).mul (softplusDeriv (y i h))
    ∃ f : Nat → Nat → Nat,
      exec (.vdact w) s = .next (retiresWith x s (fun k => k.flag .inv (someHalf w.ft x fun i h =>
          (product i h).isNan && !(y i h).isNan && !(g i h).isNan))
        (laneWrs w.d 1 (x.lanes.map fun i => (i, halves w.ft (f i))))) ∧
      (∀ i h j k, y i h = y j k → g i h = g j k → x.actBits w.ft w.a w.imm i h = x.actBits w.ft w.a w.imm j k →
        x.actBits w.ft w.b w.imm i h = x.actBits w.ft w.b w.imm j k → f i h = f j k) ∧
      (∀ i h, (product i h).isFin = false → f i h = Machine.round w.ft.fmt .rne (product i h)) ∧
      (∀ i h neg n d, product i h = .fin neg n d →
        let q := neighbours w.ft.fmt n d
        let sign := if neg then 2 ^ w.ft.fmt.signBit else 0
        q.2 ≤ w.ft.fmt.maxCode → f i h = q.1 + sign ∨ f i h = q.2 + sign)) ∧
  (let one := ExactNum.fin false 1 1
   let at_ (fn : ActFn) (x y : ExactNum) : Prop := actSpecial fn x = some y
   (at_ .sig (.inf true) (.zero false) ∧ at_ .sig (.inf false) one ∧ ∀ b, at_ .sig (.zero b) (.fin false 1 2)) ∧
   (∀ b, at_ .tanh (.inf b) (.fin b 1 1) ∧ at_ .tanh (.zero b) (.zero b)) ∧
   (at_ .exp (.inf true) (.zero false) ∧ at_ .exp (.inf false) (.inf false) ∧ ∀ b, at_ .exp (.zero b) one) ∧
   (at_ .relu (.inf true) (.zero false) ∧ at_ .relu (.inf false) (.inf false) ∧ ∀ b, at_ .relu (.zero b) (.zero false)) ∧
   (at_ .softplus (.inf true) (.zero false) ∧ at_ .softplus (.inf false) (.inf false) ∧ ∀ b, actSpecial .softplus (.zero b) = none) ∧
   (at_ .gelu (.inf true) (.zero true) ∧ at_ .gelu (.inf false) (.inf false) ∧ ∀ b, at_ .gelu (.zero b) (.zero b)) ∧
   (∀ fn, at_ fn .nan .nan ∧ ∀ neg n d, 0 < n → actSpecial fn (.fin neg n d) = none) ∧
   (∀ neg n d, actNum .relu (.fin neg n d) = if neg then .zero false else .fin false n d) ∧
   (softplusDeriv .nan = .nan ∧ softplusDeriv (.inf false) = one ∧ softplusDeriv (.inf true) = .inf true ∧
     ∀ b, softplusDeriv (.zero b) = .zero false))

/-! ### Lane exchange -/

/-- SHFL: each active lane takes the value of the lane its mode names in its segment of the group, read before any lane is written
(R154). VOTE over the active lanes: `.all`, `.any` and `.uni` write their answer into the bit of each active lane, and `.ballot`
puts the voting lanes into an s register (R155). -/
def Obligations.ShufflesAndVotes : Prop :=
  ((∀ (s : State) (w : ShflW) (x : Ex), issuing s (.shfl w) = some x →
    let n := if w.wide then 64 else 32
    let v := x.uval w.c n false w.imm
    let W := x.c.g.width
    ∃ seg : Nat, (v = 0 → seg = W) ∧ (v ≠ 0 → (∃ k, seg = 2 ^ k) ∧ seg ≤ min v W ∧ min v W < 2 * seg) ∧
      (let b (i : Nat) : Nat := i - i % seg
       let t (i : Nat) : Nat := x.val w.b n false w.imm i
       let from_ (i : Nat) : Nat := match w.mode with
         | .idx => b i + t i % seg
         | .up => if t i ≤ i - b i then i - t i else i
         | .down => if i + t i < b i + seg then i + t i else i
         | .xor => i ^^^ (t i % seg)
       exec (.shfl w) s = .next (retires x s (laneWrs w.d (if w.wide then 2 else 1) (x.lanes.map fun i =>
         (i, x.val w.a n false 0 (from_ i)))))))) ∧
  (∀ (s : State) (w : VoteW) (x : Ex) (k : Fin 8), issuing s (.vote w) = some x → w.a = .p k →
    let p := x.c.g.pred k.val
    let writes (n : Fin 8) (b : Bool) : Prop :=
      w.d = .p n → exec (.vote w) s = .next (retires x s [.p n.val x.act (if b then x.act else 0)])
    (w.mode = .all → ∀ n, writes n (x.lanes.all fun i => p.getLsbD i)) ∧
    (w.mode = .any → ∀ n, writes n (x.lanes.any fun i => p.getLsbD i)) ∧
    (w.mode = .uni → ∀ n, writes n ((x.lanes.all fun i => p.getLsbD i) || x.lanes.all fun i => !p.getLsbD i)) ∧
    (w.mode = .ballot → ∀ n : Fin 64, w.d = .s n →
      exec (.vote w) s = .next (retires x s [.s n.val (maskOf (x.lanes.filter fun i => p.getLsbD i))])))

/-- PRMT, opcode 0x64 with `SUB` 0: bytes 0 to 3 of a pool are those of a and bytes 4 to 7 those of b; nibble k of c selects byte k of the
result, its low three bits the pool byte, which bit 3 replaces by 0xFF or 0 as its bit 7 is 1 or 0; bits 31 to 16 of c are ignored
(R157). -/
def Obligations.PermutedBytes : Prop :=
  (∀ (w : PrmtW) (u : W96), encode (.prmt w) = some u → u.toNat % 2 ^ 16 = 0x64) ∧
  ∀ (s : State) (w : PrmtW) (x : Ex), issuing s (.prmt w) = some x →
    let pool (i : Nat) : Nat := x.val w.a 32 false w.imm i + 2 ^ 32 * x.val w.b 32 false w.imm i
    let nib (i k : Nat) : Nat := x.val w.c 32 false w.imm i / 16 ^ k % 16
    let byte (i k : Nat) : Nat :=
      let y := pool i / 256 ^ (nib i k % 8) % 256
      if nib i k < 8 then y else if y < 128 then 0 else 255
    exec (.prmt w) s = .next (retires x s (laneWrs w.d 1 (x.lanes.map fun i =>
      (i, byte i 0 + 2 ^ 8 * byte i 1 + 2 ^ 16 * byte i 2 + 2 ^ 24 * byte i 3))))

/-- GRED over the active lanes: the result goes to an s register or to every active lane. The integer sums wrap, the least and greatest
are those of the numbers, and the logic operations act bit by bit; `.fadd`, `.fmin` and `.fmax` combine in the fixed tree over lane
numbers, in which an absent lane passes the other input on: a node of `.fadd` rounds the exact sum once, and one of `.fmin` or `.fmax`
picks as FMIN and FMAX do. `.fadd` sets `INV` where a node makes a NaN of operands that are none and no lane's value is a NaN (R106,
R119, R144, R156). -/
def Obligations.Reductions : Prop :=
  (∀ (s : State) (w : GredW) (x : Ex), issuing s (.gred w) = some x →
    let n := w.op.bits
    let vals : List Nat := x.lanes.map fun i => x.val w.a n false 0 i
    ∃ (y : Nat) (inv : Bool),
      (∀ d : Fin 64, w.d = .s d → exec (.gred w) s = .next (retiresWith x s (fun g => g.flag .inv inv)
        [.s d.val (BitVec.ofNat 64 (extended true (gredTy w.op) y))])) ∧
      (∀ d : Fin 256, w.d = .v d → exec (.gred w) s = .next (retiresWith x s (fun g => g.flag .inv inv)
        (laneWrs w.d (regsOf n) (x.lanes.map fun i => (i, y))))) ∧
      (∀ t, w.op = .add t → Fits t false ((vals.map (num t)).foldl (· + ·) 0) y ∧ inv = false) ∧
      (∀ t, w.op = .min t → y ∈ vals ∧ (∀ z ∈ vals, num t y ≤ num t z) ∧ inv = false) ∧
      (∀ t, w.op = .max t → y ∈ vals ∧ (∀ z ∈ vals, num t z ≤ num t y) ∧ inv = false) ∧
      (∀ t, w.op = .and t → (∀ k, y.testBit k = vals.all fun z => z.testBit k) ∧ inv = false) ∧
      (∀ t, w.op = .or t → (∀ k, y.testBit k = vals.any fun z => z.testBit k) ∧ inv = false) ∧
      (∀ t, w.op = .xor t → y = vals.foldl (fun a z => a ^^^ z) 0 ∧ inv = false) ∧
      (let root := treeRoot (gredNode w.op) 6 ((List.range 64).map fun i =>
          if i < x.c.g.width ∧ x.act.getLsbD i = true then some (x.val w.a n false 0 i, false) else none)
       (w.op = .fmin ∨ w.op = .fmax → root = some (y, inv) ∧ inv = false) ∧
       ∀ rm, w.op = .fadd rm → ∃ made, root = some (y, made) ∧ inv = (made && !vals.any fun z => (f32 z).isNan))) ∧
  (∀ (rm : RMode) (a b : Nat) (p q : Bool),
    let sum := (f32 a).add (rm == .rdn) (f32 b)
    gredNode (.fadd rm) (a, p) (b, q) =
      (Machine.round FP32 rm sum, p || q || (sum.isNan && !(f32 a).isNan && !(f32 b).isNan))) ∧
  (∀ (a b : Nat) (greatest : Bool),
    gredNode (if greatest then .fmax else .fmin) (a, false) (b, false) =
      (if (f32 a).isNan && (f32 b).isNan then FP32.nanCode
       else if (f32 a).isNan then b else if (f32 b).isNan then a
       else if (if greatest then (f32 a).below (f32 b) else (f32 b).below (f32 a)) then b else a, false)) ∧
  (∀ (f : Nat × Bool → Nat × Bool → Nat × Bool) (a b : Option (Nat × Bool)) (r : List (Option (Nat × Bool))),
    treeLevel f (none :: b :: r) = b :: treeLevel f r ∧ treeLevel f (a :: none :: r) = a :: treeLevel f r ∧
    ∀ y z, treeLevel f (some y :: some z :: r) = some (f y z) :: treeLevel f r)

/-! ### Control -/

/-- BRA, BRX, CALL and RET move the whole of `EXEC` to their target, CALL with the next word's address in its s register, where the
target meets the entry check; where it does not, the word traps with what the check met and has no effect (R89, R161). YIELD, once
the long-latency words of its group have delivered, invalidates every latch and passes, waiting there for the save only while a
pre-emption is requested; NOP has no effect; TRAP stops its party with USER and its code (R96, R166, R167, R259, R393). -/
def Obligations.BranchesCallsAndSimpleControl : Prop :=
  ((∀ (s : State) (w : CtlDisp) (x : Ex), issuing s (.bra w) = some x →
    let a : Addr := x.pc + w.disp.signExtend 56
    (x.entryTrap (start x s) a = none → exec (.bra w) s = .next (retires x s [] (some a))) ∧
    (∀ t, x.entryTrap (start x s) a = some t → exec (.bra w) s = .next (traps x s t))) ∧
  (∀ (s : State) (w : CtlA) (x : Ex) (ret : Bool), issuing s (if ret then .ret w else .brx w) = some x →
    let a : Addr := BitVec.ofNat 56 (x.uval w.a 64 false 0)
    (x.entryTrap (start x s) a = none → exec (if ret then .ret w else .brx w) s = .next (retires x s [] (some a))) ∧
    (∀ t, x.entryTrap (start x s) a = some t → exec (if ret then .ret w else .brx w) s = .next (traps x s t))) ∧
  (∀ (s : State) (w : CallW) (x : Ex) (n : Fin 64), issuing s (.call w) = some x → w.d = .s n →
    let a : Addr := x.pc + w.disp.signExtend 56
    (x.entryTrap (start x s) a = none →
      exec (.call w) s = .next (retires x s [.s n.val ((nextPc x.pc).zeroExtend 64)] (some a))) ∧
    (∀ t, x.entryTrap (start x s) a = some t → exec (.call w) s = .next (traps x s t)))) ∧
  ((∀ (s : State) (w : Ctl0) (x : Ex), issuing s (.yield w) = some x →
    ((x.c.g.la.all fun e => e.done) = true → exec (.yield w) s = .next ((start x s).modGroup x.c.ref fun g =>
      { x.retired false (nextPc x.pc) g with
        l := Vector.replicate 3 none
        wait := if x.c.t.prq then .yielded else .none })) ∧
    ((x.c.g.la.all fun e => e.done) = false → exec (.yield w) s = .next (waits x s .engine))) ∧
  (∀ (s : State) (w : Ctl0) (x : Ex), issuing s (.nop w) = some x → exec (.nop w) s = .next (retires x s [])) ∧
  (∀ (s : State) (w : CodeW) (x : Ex), issuing s (.trap w) = some x →
    exec (.trap w) s = .next (traps x s (trapE .user (w.code.zeroExtend 128)))))

/-- JOPEN traps with TOKEN if token k or any token above it is open, and has no effect then; otherwise it opens token k with the lanes
of `EXEC` as members, none arrived and none ejected, and its join address displaced from its own (R163). -/
def Obligations.JopenOpensAToken : Prop :=
  (∀ (w : CtlTokDisp) (n : Nat) (v : View), (Instr.jopen w).view n = some v → v.kind = .uniform) ∧
  ∀ (s : State) (w : CtlTokDisp) (x : Ex), issuing s (.jopen w) = some x →
    (¬ noneOpenFrom x.c.g w.k.val → exec (.jopen w) s = .next (traps x s (trapE .token (BitVec.ofNat 128 w.k.val)))) ∧
    (noneOpenFrom x.c.g w.k.val → exec (.jopen w) s = .next (retiresWith x s
      (fun g => { g with tokVc := Store.set [] g.tokVc w.k.val [], j := g.j.set w.k ⟨g.exec, 0, x.pc + w.disp.signExtend 56, 0⟩ }) []))

/-- BR.D traps with TOKEN unless token k is the highest open one and `EXEC` lies within it. Where every lane takes the branch it only
branches. Otherwise the lanes that do not take it join the top pending entry, if that has the next word's address and the token,
or else are pushed, a full list of 16 trapping with TOKEN; and the lanes that take it go on at the target. Where no lane takes it
the word retires as a no-op (R164). -/
def Obligations.DivergentBranch : Prop :=
  (∀ (s : State) (w : CtlTokDisp) (c : Ctx) (v : View), party s (.brD w) = some (c, v) → killedAt c (.brD w) v = false →
    guarded c v = 0 → c.g.replay = none → (c.g.la.all fun e => e.window != 0 || e.done) = true →
    ∃ t g, exec (.brD w) s = .next t ∧ grp? t c.ref = some g ∧ g.exec = c.g.exec ∧ g.pend = c.g.pend ∧ g.j = c.g.j ∧
      g.pc = nextPc c.g.pc) ∧
  ∀ (s : State) (w : CtlTokDisp) (x : Ex), issuing s (.brD w) = some x →
    let a : Addr := x.pc + w.disp.signExtend 56
    let g := x.c.g
    let f : Mask := g.exec &&& ~~~x.act
    let stops (t : Trap) : Prop := exec (.brD w) s = .next (traps x s t)
    let tok : Trap := trapE .token (BitVec.ofNat 128 w.k.val)
    let ok : Prop := highestOpen g w.k.val ∧ within g w.k.val g.exec
    let goes (pend : List Pend) : Prop :=
      (∀ t, x.entryTrap (start x s) a = some t → stops t) ∧
      (x.entryTrap (start x s) a = none →
        exec (.brD w) s = .next (branches x s (fun h => { h with pend := pend, exec := x.act }) a))
    (¬ ok → stops tok) ∧
    (ok → f = 0 → (∀ t, x.entryTrap (start x s) a = some t → stops t) ∧
      (x.entryTrap (start x s) a = none → exec (.brD w) s = .next (retires x s [] (some a)))) ∧
    (ok → f ≠ 0 → ∀ e r, g.pend = e :: r → e.pc = nextPc x.pc ∧ e.tok = w.k → goes ({ e with mask := e.mask ||| f } :: r)) ∧
    (ok → f ≠ 0 → (∀ e, g.pend.head? = some e → ¬(e.pc = nextPc x.pc ∧ e.tok = w.k)) →
      (16 ≤ g.pend.length → stops tok) ∧ (g.pend.length < 16 → goes (⟨nextPc x.pc, f, w.k⟩ :: g.pend)))

/-- JOIN, BREAK and EXIT take lanes out of `EXEC` and run `resume`. JOIN traps with TOKEN unless token k is the highest open one and
`EXEC` lies within it, and puts `EXEC` among the arrived; BREAK traps with TOKEN unless token k is open and the active lanes lie
within it, and puts them among the arrived, out of every token above; EXIT takes the active lanes out of every token, once the
long-latency words of its group have delivered (R96, R165, R168). `resume` with an empty `EXEC`: the highest open token completes
where no pending entry names it and every member has arrived or is ejected, its members going on at its join address, or the group
waiting for the ejected ones; otherwise the top pending entry goes on; with neither and no token open nothing is left, and with a
token open the word traps with TOKEN (R165). -/
def Obligations.JoinBreakExit : Prop :=
  ((∀ (s : State) (w : CtlTok) (x : Ex), issuing s (.join w) = some x →
    let g := x.c.g
    let k := w.k.val
    let ok : Prop := highestOpen g k ∧ within g k g.exec
    (¬ ok → exec (.join w) s = .next (traps x s (trapE .token (BitVec.ofNat 128 k)))) ∧
    (ok → exec (.join w) s = .next (resumes x s
      { g with exec := 0, j := g.j.set w.k { g.tok k with arr := (g.tok k).arr ||| g.exec } }))) ∧
  (∀ (s : State) (w : CtlTok) (x : Ex), issuing s (.brk w) = some x →
    let g := x.c.g
    let k := w.k.val
    let ok : Prop := (g.tok k).mem ≠ 0 ∧ within g k x.act
    (¬ ok → exec (.brk w) s = .next (traps x s (trapE .token (BitVec.ofNat 128 k)))) ∧
    (ok → exec (.brk w) s = .next (resumes x s
      { leaving { g with j := g.j.set w.k { g.tok k with arr := (g.tok k).arr ||| x.act } } k x.act with
        exec := g.exec &&& ~~~x.act }))) ∧
  (∀ (s : State) (w : Ctl0) (x : Ex), issuing s (.exit w) = some x →
    let g := x.c.g
    ((g.la.all fun e => e.done) = true → exec (.exit w) s = .next (resumes x s
      { leaving g (-1) x.act with exec := g.exec &&& ~~~x.act })) ∧
    ((g.la.all fun e => e.done) = false → exec (.exit w) s = .next (waits x s .engine)))) ∧
  (∀ (g : Group), g.exec = 0 →
    let complete (k : Nat) : Prop := (∀ e ∈ g.pend, e.tok.val ≠ k) ∧ (g.tok k).arr ||| (g.tok k).ej = (g.tok k).mem
    (∀ k : Fin 8, highestOpen g k.val → complete k.val → (g.tok k.val).ej = 0 →
      let joined : Vector Token 8 := g.j.set k { g.tok k.val with mem := 0, arr := 0 }
      g.resume = .go { g with
        exec := (g.tok k.val).mem, pc := (g.tok k.val).ja, j := joined
        vc := g.vc.join (Store.get [] g.tokVc k.val), tokVc := Store.set [] g.tokVc k.val [] }) ∧
    (∀ k : Fin 8, highestOpen g k.val → complete k.val → (g.tok k.val).ej ≠ 0 → g.resume = .blocked k.val g) ∧
    (∀ e r, (∀ k : Fin 8, highestOpen g k.val → ¬ complete k.val) → g.pend = e :: r → e.mask ≠ 0 →
      g.resume = .go { g with exec := e.mask, pc := e.pc, pend := r }) ∧
    (∀ e r, (∀ k : Fin 8, highestOpen g k.val → ¬ complete k.val) → g.pend = e :: r → e.mask = 0 →
      g.resume = ({ g with exec := 0, pc := e.pc, pend := r } : Group).resume) ∧
    (g.pend = [] → noneOpenFrom g 0 → g.resume = .ended g) ∧
    (∀ k : Fin 8, g.pend = [] → highestOpen g k.val → ¬ complete k.val → g.resume = .token k.val))

/-- A group that ends gives its chunks back to its pool's free list at once (that it is at once is the model's reading, log 35), leaves the
take and claim queues, gives up its tiles, and the drain windows that it has published, and loses its role, sticky flags, registers and
lanes (R168, R243, R246). -/
def Obligations.GroupEnds : Prop :=
  ∀ (t : Team) (ord : Bool) (i : Nat) (g : Group), t.grp? i = some g → g.st ≠ .ended →
    let u := t.endGroup ord i
    (∃ h, u.grp? i = some h ∧ h.st = .ended ∧ h.exec = 0 ∧ h.role = 0 ∧ h.sticky = 0 ∧ h.chunks = [] ∧ h.v = [] ∧ h.pend = [] ∧
      h.arv = 0 ∧ h.task = none) ∧
    (∀ c ∈ g.chunks, c ∈ (u.poolOf i).free) ∧
    (∀ e ∈ u.claims, e.1 ≠ i) ∧
    (∀ n, n < 32 → ∀ e ∈ (u.ctr n).takes, e.1 ≠ i) ∧
    (∀ n, n < 8 → u.owner.getD n 64 = if t.owner.getD n 64 = i then 64 else t.owner.getD n 64) ∧
    (∀ n, n < 2 → u.drain n = if (t.drain n).pub = true ∧ (t.drain n).grp = i then { t.drain n with pub := false } else t.drain n) ∧
    (∀ n, n < 16 → (u.bar n).parts = (t.bar n).parts - 1)

/-- EJECT: TOKEN unless token k is the highest open one and the active lanes lie within it, REG-UNMAPPED unless its chunks are mapped;
it waits for room in the helper queue of 64, traps with DATA-LOST at a lost line of the registers that it copies, and otherwise queues a
continuation for each active lane in ascending order, with the lane's registers, predicates and a copy of the s registers, counts the
lanes as ejected and resumes; in a continuation it traps with ILLEGAL. REJOIN traps with ILLEGAL in a group program, and with TOKEN
unless k is its continuation's token; it waits for its long-latency words, and then writes registers back into the lane, which has arrived
at the token and is no longer ejected, and ends the continuation; of a discarded one no register returns (R8, R169). That REJOIN waits
as R96 has YIELD and EXIT wait, and that only the registers still mapped are written back, are the model's choices (log 22). -/
def Obligations.EjectAndRejoin : Prop :=
  (∀ (s : State) (w : EjectW) (x : Ex), issuing s (.eject w) = some x →
    let g := x.c.g
    let k := w.k.val
    let n := w.c1.val + 1
    let ok : Prop := highestOpen g k ∧ within g k x.act
    let room : Prop := ((start x s).core x.c.core).helper.length + x.lanes.length ≤ 64
    (¬ ok → exec (.eject w) s = .next (traps x s (trapE .token (BitVec.ofNat 128 k)))) ∧
    (ok → g.chunks.length < n →
      exec (.eject w) s = .next (traps x s (trapE .regUnmapped (BitVec.ofNat 128 (8 * g.chunks.length))))) ∧
    let lost := (x.lanes.flatMap fun i => (List.range (8 * n)).map fun r => 2 * r + i / 32).find? (x.c.t.regLost g)
    (ok → n ≤ g.chunks.length → ¬ room → exec (.eject w) s = .next (waits x s .engine)) ∧
    (∀ l, ok → n ≤ g.chunks.length → room → lost = some l →
      exec (.eject w) s = .next (traps x s (trapE .dataLost (BitVec.ofNat 128 (regLineVa (x.c.t.groupOf x.c.ref.who) l))))) ∧
    (ok → n ≤ g.chunks.length → room → lost = none →
      let queued : State := (start x s).modTeam x.c.ref.t fun t => t.ejectLanes g w.k n (x.pc + w.disp.signExtend 56) x.lanes
      let helped : State := queued.modCore x.c.core fun q =>
        { q with helper := q.helper ++ (List.range x.lanes.length).map fun m => (x.c.ref.t, x.c.t.contNext + m) }
      exec (.eject w) s = .next (x.finish (start x s) (x.resume helped
        { g with exec := g.exec &&& ~~~x.act, j := g.j.set w.k { g.tok k with ej := (g.tok k).ej ||| x.act } })))) ∧
  (∀ (t : Team) (g : Group) (k : Fin 8) (c i : Nat) (pc : Addr) (ls : List Nat),
    let u := t.ejectLanes g k c pc (i :: ls)
    ∃ e : Cont, t.ejectLanes g k c pc [i] = { t with conts := t.conts ++ [e], contNext := t.contNext + 1 } ∧
      u = (t.ejectLanes g k c pc [i]).ejectLanes g k c pc ls ∧ e.id = t.contNext ∧ e.origin = g.idx ∧ e.lane = i ∧ e.tok = k ∧
      e.c = c ∧ e.g.width = 1 ∧ e.g.exec = 1 ∧ e.g.pc = pc ∧ e.g.s = g.s ∧
      (∀ r, r < 8 * c → e.g.vreg r 0 = g.vreg r i) ∧ (∀ n, n < 7 → (e.g.pred n).getLsbD 0 = (g.pred n).getLsbD i)) ∧
  (∀ (s : State) (w : CtlTok) (x : Ex) (n : Nat) (c : Cont), issuing s (.rejoin w) = some x → x.c.ref.who = .cont n →
    x.c.t.cont? n = some c →
    (w.k ≠ c.tok → exec (.rejoin w) s = .next (traps x s (trapE .token (BitVec.ofNat 128 w.k.val)))) ∧
    (w.k = c.tok → (x.c.g.la.all fun e => e.done) = false → exec (.rejoin w) s = .next (waits x s .engine)) ∧
    (w.k = c.tok → (x.c.g.la.all fun e => e.done) = true →
      exec (.rejoin w) s = .next ((start x s).finishCont x.c.ref.t n true))) ∧
  (∀ (s : State) (i : Instr) (c : Ctx) (v : View) (n : Nat), party s i = some (c, v) → killedAt c i v = false → inactive c v = false →
    (∃ w, i = .rejoin w ∧ c.ref.who = .grp n) ∨ (∃ w, i = .eject w ∧ c.ref.who = .cont n) →
    exec i s = .next (s.takeTrap c.ref (trapE .illegal (BitVec.ofNat 128 (wordLow i))) (pcAt := some c.g.issuePc))) ∧
  (∀ (t : Team) (n : Nat) (c : Cont) (g : Group) (write : Bool), t.cont? n = some c → t.grp? c.origin = some g → c.lane < 64 →
    let u := t.finishCont n write
    let k := c.tok.val
    (c.g.outstanding = false → u.cont? n = none) ∧
    ∃ h, u.grp? c.origin = some h ∧ h.s = g.s ∧ h.p = g.p ∧ h.exec = g.exec ∧
      (∀ r i, i < 64 → h.vreg r i = if write = true ∧ r < 8 * c.c ∧ g.mapped r = true ∧ i = c.lane then c.g.vreg r 0 else g.vreg r i) ∧
      h.tok k = { g.tok k with
        arr := (g.tok k).arr ||| (BitVec.ofNat 64 (2 ^ c.lane) &&& (g.tok k).mem), ej := (g.tok k).ej &&& ~~~BitVec.ofNat 64 (2 ^ c.lane) })

/-! ### Barriers, counters and waits -/

/-- An arrival at barrier k sets the group's ARV bit, records the phase and counts; the arrival that completes the participants (and
the sequencer, where it takes part) opens the barrier: the phase toggles and the count returns to 0 (R19, R170, R241). NBAR.ARR
arrives, NBAR.WAIT waits for the phase of the last arrival to end and clears ARV, and NBAR.SYNC does both. An arrival at a barrier
without participants and a wait without an arrival trap with BARRIER; a second arrival in one phase waits for its end; an arrival
releases, so it waits for the earlier accesses, and the end of a wait acquires (R170, R305, R306). In ordered mode an NBAR.ARR with
a predicate waits for the opening (R171); in ordinary mode the predicate says whether its own arrival has opened the barrier, and is 0
where it opens later, of which R171 does not speak (log 47). A barrier that has opened lets its waiting groups run again. -/
def Obligations.Barriers : Prop :=
  (∀ (t : Team) (ord : Bool) (g : Group) (k : Nat), k < 16 → t.grp? g.idx = some g →
    let b := t.bar k
    let u := t.arrive ord g k
    let opens : Prop := b.arrived + 1 = b.parts ∧ t.seqArrived k = true
    (∃ h, u.grp? g.idx = some h ∧ h.arv = g.arv ||| BitVec.ofNat 16 (2 ^ k) ∧ h.aph.getLsbD k = b.phase ∧
      (∀ n, n ≠ k → h.aph.getLsbD n = g.aph.getLsbD n)) ∧
    (u.bar k).parts = b.parts ∧
    (opens → (u.bar k).arrived = 0 ∧ (u.bar k).phase = !b.phase) ∧
    (¬ opens → (u.bar k).arrived = b.arrived + 1 ∧ (u.bar k).phase = b.phase) ∧
    (∀ n, n < 16 → n ≠ k → u.bar n = t.bar n)) ∧
  ((∀ (s : State) (w : NbarW) (x : Ex) (sync : Bool), issuing s (if sync then .nbarSync w else .nbarArr w) = some x →
    let k := w.k.val
    let e := exec (if sync then .nbarSync w else .nbarArr w) s
    let own : Bool → Wait := fun a => if sync then .nbarSync k a else .nbarArr k a
    let stay : Prop := sync = true ∨ (x.c.l.pkt.ord = true ∧ w.d ≠ .zero)
    let u := (start x s).arrive x.c k
    let done (v : State) : State :=
      if sync then v.leaveWait x.c k
      else if x.c.g.wait = own true then v.teamAcquire x.c (x.c.t.bar k).openVc else v
    (x.c.g.wait = own true →
      ((start x s).opened x.c k = true → e = .next (retiresIn x s (done (start x s)) (deliverWr w.d x (start x s) k))) ∧
      ((start x s).opened x.c k = false → e = .next (waits x s (own true)))) ∧
    (x.c.g.wait ≠ own true →
      ((x.c.t.bar k).parts = 0 → e = .next (traps x s (trapE .barrier (BitVec.ofNat 128 k)))) ∧
      ((x.c.t.bar k).parts ≠ 0 → inPhase x k → e = .next (waits x s (own false))) ∧
      ((x.c.t.bar k).parts ≠ 0 → ¬ inPhase x k → x.c.quiet = false → e = .next (waits x s .engine)) ∧
      ((x.c.t.bar k).parts ≠ 0 → ¬ inPhase x k → x.c.quiet = true →
        (¬ stay ∨ u.opened x.c k = true → e = .next (retiresIn x s (done u) (deliverWr w.d x u k))) ∧
        (stay → u.opened x.c k = false → e = .next (waitsIn x s u (own true)))))) ∧
  (∀ (s : State) (w : NbarWaitW) (x : Ex), issuing s (.nbarWait w) = some x →
    let k := w.k.val
    (x.c.g.arv.getLsbD k = false → exec (.nbarWait w) s = .next (traps x s (trapE .barrier (BitVec.ofNat 128 k)))) ∧
    (inPhase x k → exec (.nbarWait w) s = .next (waits x s (.nbarWait k))) ∧
    (x.c.g.arv.getLsbD k = true → ¬ inPhase x k →
      exec (.nbarWait w) s = .next (retiresIn x s ((start x s).leaveWait x.c k) []))) ∧
  (∀ (x : Ex) (u : State) (t : Team) (g : Group) (n : Fin 8) (k : Nat), u.team? x.c.ref.t = some t → t.grp? x.c.g.idx = some g →
    deliverWr .zero x u k = [] ∧
    deliverWr (.p n) x u k = [.p n.val x.c.g.exec (if g.last.getLsbD k then x.c.g.exec else 0)]) ∧
  (∀ (s : State) (r : TeamRef) (k : Fin 16) (t : Team), s.team? r = some t →
    let go (g : Group) : Group := if g.st = .blocked ∧ g.barReady t k.val = true then { g with st := .run } else g
    exec (.barrierRelease r k) s = .next (s.setTeam { t with groups := t.groups.map go })))

/-- CGIVE adds n to its counter, or traps with COUNTER where the sum passes 2^32 − 1; CTAKE with n = 0 has only its acquire, takes n at once
where nobody waits and the counter covers it, and otherwise joins the counter's queue and waits; CWAIT waits until the counter
reaches n and takes nothing. Gives release and takes acquire. The head of the queue is served when the counter covers it, and a
head that it does not cover holds back every take behind it (R172, R305, R306). -/
def Obligations.SlotCounters : Prop :=
  (∀ (s : State) (w : CtrW) (x : Ex), issuing s (.cgive w) = some x →
    let k := w.k.val
    let n := count x w.a w.imm
    let c := x.c.t.ctr k
    (2 ^ 32 ≤ c.c.toNat + n → exec (.cgive w) s = .next (traps x s (trapE .counter (info2 k n)))) ∧
    (c.c.toNat + n < 2 ^ 32 → x.c.quiet = false → exec (.cgive w) s = .next (waits x s .engine)) ∧
    (c.c.toNat + n < 2 ^ 32 → x.c.quiet = true → exec (.cgive w) s = .next (retiresIn x s
      (((start x s).releaseTeam x.c.t x.c.core).modTeam x.c.ref.t fun t =>
        t.setCtr k { t.ctr k with c := BitVec.ofNat 32 (c.c.toNat + n), vc := c.vc.join x.c.g.vc }) []))) ∧
  (∀ (s : State) (w : CtrW) (x : Ex), issuing s (.ctake w) = some x →
    let k := w.k.val
    let n := count x w.a w.imm
    let c := x.c.t.ctr k
    let i := x.c.g.idx
    let done (u : State) : State := retiresIn x s (u.teamAcquire x.c c.vc) []
    (n = 0 → exec (.ctake w) s = .next (done (start x s))) ∧
    (n ≠ 0 → x.c.g.wait = .ctake k n → (∃ e ∈ c.takes, e.1 = i) → exec (.ctake w) s = .next (waits x s (.ctake k n))) ∧
    (n ≠ 0 → x.c.g.wait = .ctake k n → (∀ e ∈ c.takes, e.1 ≠ i) → exec (.ctake w) s = .next (done (start x s))) ∧
    (n ≠ 0 → x.c.g.wait ≠ .ctake k n → c.takes = [] → n ≤ c.c.toNat →
      exec (.ctake w) s = .next (done ((start x s).modTeam x.c.ref.t fun t =>
        t.setCtr k { c with c := BitVec.ofNat 32 (c.c.toNat - n) }))) ∧
    (n ≠ 0 → x.c.g.wait ≠ .ctake k n → c.takes ≠ [] ∨ c.c.toNat < n →
      exec (.ctake w) s = .next (waitsIn x s ((start x s).modTeam x.c.ref.t fun t =>
        t.setCtr k { c with takes := c.takes ++ [(i, n)] }) (.ctake k n)))) ∧
  (∀ (s : State) (w : CtrW) (x : Ex), issuing s (.cwait w) = some x →
    let k := w.k.val
    let n := count x w.a w.imm
    let c := x.c.t.ctr k
    (n ≤ c.c.toNat → exec (.cwait w) s = .next (retiresIn x s ((start x s).teamAcquire x.c c.vc) [])) ∧
    (c.c.toNat < n → exec (.cwait w) s = .next (waits x s (.cwait k n)))) ∧
  (∀ (s : State) (r : TeamRef) (k : Fin 32) (t : Team), s.team? r = some t →
    let c := t.ctr k.val
    ∃ u : Team, exec (.takeQueueServe r k) s = .next (s.setTeam u) ∧
      (∀ i n q, c.takes = (i, n) :: q → n ≤ c.c.toNat →
        u.ctr k.val = { c with c := BitVec.ofNat 32 (c.c.toNat - n), takes := q } ∧
        ∀ g, t.grp? i = some g → ∃ h, u.grp? i = some h ∧ h.st ≠ .blocked ∧ h.pc = g.pc ∧ h.wait = g.wait) ∧
      (∀ i n q, c.takes = (i, n) :: q → c.c.toNat < n → u = t) ∧ (c.takes = [] → u = t))

/-- WAITF reads its word again at every attempt: a word that satisfies the condition completes it, with the acquire of its page's scope;
while the condition does not hold it waits, and at the end of its time, at once for a time of 0, it traps with WAIT-TIMEOUT. The
timeout event stops a waiting group whose time has run out (R173). A word that reaches an own register through the aperture first meets
the rule of lookahead (R94); a race in ordered mode stops the group (R352). -/
def Obligations.WaitOnMemory : Prop :=
  (∀ (s : State) (w : WaitfW) (x : Ex), issuing s (.waitf w) = some x →
    let v := x.uval w.d 64 false 0 % 2 ^ 32
    let tmo := x.uval w.d 64 false 0 / 2 ^ 32
    let a := x.uaddr w.mem
    let s0 := start x s
    let since := match x.c.g.wait with | .waitf n _ _ _ _ => n | _ => s0.clock
    let holds (n : Nat) : Prop := match w.cc with | .eq => n = v | .ne => n ≠ v | .ge => n ≥ v | .lt => n < v
    let late : Trap := trapE .waitTimeout (info2 a.toNat v)
    let own : Wait := .waitf since tmo w.cc (BitVec.ofNat 32 v) a
    let read := s0.waitfRead x.c x.word w.cc x.pc a
    x.ownLook [(lowLane x.c.g.exec, a)] = none →
    (∀ n p u, read = .value n p u → holds n → exec (.waitf w) s = .next (retiresIn x s (u.waitfAcquire x.c w.cc a p) [])) ∧
    (∀ n p u, read = .value n p u → ¬ holds n → s0.clock < since + tmo → exec (.waitf w) s = .next (waitsIn x s u own)) ∧
    (∀ n p u, read = .value n p u → ¬ holds n → since + tmo ≤ s0.clock → exec (.waitf w) s = .next (traps x s late)) ∧
    (∀ u, read = .notYet u → tmo = 0 ∨ u.clock < since + tmo → exec (.waitf w) s = .next (waitsIn x s u own)) ∧
    (∀ u, read = .notYet u → tmo ≠ 0 → since + tmo ≤ u.clock → exec (.waitf w) s = .next (trapsIn x s u late)) ∧
    (∀ t, read = .trap t → exec (.waitf w) s = .next (traps x s t)) ∧
    (∀ o u, read = .race o u → exec (.waitf w) s = .next (u.orderRace x.c a o x.c.g.epoch x.pc)) ∧
    (a.toNat % 4 ≠ 0 → exec (.waitf w) s = .next (traps x s (trapA .badAddress a .load)))) ∧
  (∀ (s : State) (r : GRef) (c : Ctx) (since tmo : Nat) (cc : WCond) (v : W32) (a : Addr), s.ctx? r = some c →
    c.g.wait = .waitf since tmo cc v a →
    (s.clock < since + tmo → exec (.waitTimeout r) s = .next s) ∧
    (since + tmo ≤ s.clock → c.g.st = .run → c.t.saving = false → a.toNat % 4 ≠ 0 ∨
        (∃ n p u, s.waitfRead c (((c.g.la.find? fun e => match e.word with | .waitf _ => true | _ => false).map (·.word)).getD .mend)
          cc c.g.pc a = .value n p u ∧ wcHolds cc n v.toNat = false) →
      exec (.waitTimeout r) s = .next (s.takeTrap r (trapE .waitTimeout (info2 a.toNat v.toNat)))))

/-! ### The register pool and roles -/

/-- RGIVE unmaps the last n chunk entries, their chunks returning after 4 clocks and their registers discarded, and traps with POOL
where it would give them all, waiting while a long-latency word still writes one; RCLAIM traps with POOL where the claim could never
be met, maps the n lowest free chunks at once where nobody waits and they are free, and otherwise joins the claim queue; a claimed
chunk reads 0. Chunks come back to the free list at their clock, and the head of a claim queue is served when the free list covers
it (R174, R448). -/
def Obligations.RegisterPool : Prop :=
  (∀ (s : State) (w : NumW) (x : Ex), issuing s (.rgive w) = some x →
    let n := count x w.a w.imm
    let N := x.c.g.chunks.length
    (N ≤ n → exec (.rgive w) s = .next (traps x s (trapE .pool (info2 n N)))) ∧
    (n < N → x.c.g.writesFrom (N - n) = true → exec (.rgive w) s = .next (waits x s .engine)) ∧
    (n < N → x.c.g.writesFrom (N - n) = false → exec (.rgive w) s = .next (retiresIn x s
      ((start x s).modTeam x.c.ref.t fun t => t.give x.c.g n (start x s).clock) []))) ∧
  (∀ (t : Team) (g : Group) (n clock : Nat), n ≤ g.chunks.length → t.grp? g.idx = some g →
    let u := t.give g n clock
    (∃ h, u.grp? g.idx = some h ∧ h.chunks = g.chunks.take (g.chunks.length - n) ∧
      h.v = g.v.filter (fun e => decide (e.1 < 512 * (g.chunks.length - n))) ∧ h.s = g.s ∧ h.p = g.p ∧ h.l = g.l) ∧
    (u.poolOf g.idx).returning = (t.poolOf g.idx).returning ++
      (g.chunks.drop (g.chunks.length - n)).map (fun c => (c, clock + 4)) ∧
    (u.poolOf g.idx).free = (t.poolOf g.idx).free) ∧
  (∀ (s : State) (w : NumW) (x : Ex), issuing s (.rclaim w) = some x →
    let n := count x w.a w.imm
    let N := x.c.g.chunks.length
    let p := x.c.t.poolOf x.c.g.idx
    let line := x.c.t.claims.filter fun e => x.c.t.coreOf e.1 == x.c.t.coreOf x.c.g.idx
    let never : Prop := 32 < N + n ∨ p.size + 1 < n + N + x.c.t.liveOn x.c.g.idx
    let s0 := start x s
    (x.c.g.wait = .rclaim n → (∃ e ∈ x.c.t.claims, e.1 = x.c.g.idx) → exec (.rclaim w) s = .next (waits x s (.rclaim n))) ∧
    (x.c.g.wait = .rclaim n → (∀ e ∈ x.c.t.claims, e.1 ≠ x.c.g.idx) → exec (.rclaim w) s = .next (retires x s [])) ∧
    (x.c.g.wait ≠ .rclaim n → never → exec (.rclaim w) s = .next (traps x s (trapE .pool (info2 n N)))) ∧
    (x.c.g.wait ≠ .rclaim n → ¬ never → n = 0 → exec (.rclaim w) s = .next (retires x s [])) ∧
    (x.c.g.wait ≠ .rclaim n → ¬ never → n ≠ 0 → line = [] → n ≤ p.free.length →
      exec (.rclaim w) s = .next (retiresIn x s (s0.modTeam x.c.ref.t fun t => t.claim x.c.g.idx n) [])) ∧
    (x.c.g.wait ≠ .rclaim n → ¬ never → n ≠ 0 → line ≠ [] ∨ p.free.length < n →
      exec (.rclaim w) s = .next (waitsIn x s (s0.modTeam x.c.ref.t fun t => t.joinClaim x.c.g.idx n) (.rclaim n)))) ∧
  (∀ (t : Team) (i n : Nat) (g : Group), t.grp? i = some g →
    let u := t.claim i n
    (∃ h, u.grp? i = some h ∧ h.chunks = g.chunks ++ (t.poolOf i).free.take n ∧ h.s = g.s ∧ h.p = g.p ∧
      ∀ r j, j < 64 → h.vreg r j = if r < 8 * g.chunks.length then g.vreg r j else 0) ∧
    (u.poolOf i).free = (t.poolOf i).free.drop n) ∧
  (∀ (s : State) (r : TeamRef) (t : Team), s.team? r = some t →
    exec (.chunkReturn r) s = .next (s.setTeam { t with pool := t.pool.collect s.clock, poolOdd := t.poolOdd.collect s.clock })) ∧
  (∀ (p : PoolPart) (clock c : Nat), (c ∈ (p.collect clock).free ↔ c ∈ p.free ∨ ∃ at_, (c, at_) ∈ p.returning ∧ at_ ≤ clock) ∧
    (∀ at_, (c, at_) ∈ (p.collect clock).returning ↔ (c, at_) ∈ p.returning ∧ clock < at_)) ∧
  (∀ (s : State) (r : TeamRef) (odd : Bool) (t : Team), s.team? r = some t →
    let line := t.claims.filter fun e => t.coreOf e.1 == if odd then t.core + 1 else t.core
    (∀ i n q, line = (i, n) :: q → (t.poolOf i).free.length < n → exec (.claimQueueServe r odd) s = .next (s.setTeam t)) ∧
    (line = [] → exec (.claimQueueServe r odd) s = .next (s.setTeam t)) ∧
    (∀ i n q, line = (i, n) :: q → n ≤ (t.poolOf i).free.length → ∃ u : Team,
      exec (.claimQueueServe r odd) s = .next (s.setTeam u) ∧ u.claims = t.claims.filter (fun e => e.1 != i) ∧
      ∀ g, t.grp? i = some g → ∃ h, u.grp? i = some h ∧ h.chunks = g.chunks ++ (t.poolOf i).free.take n ∧ h.st ≠ .blocked))

/-- RSWITCH traps with TOKEN where a token is open or lanes are pending, and with what its target meets; it waits for the group's
long-latency words; where it keeps its chunks or gives some, it then sets ROLE and EXEC to every live lane, makes the latches
invalid and goes on at its target; and where it claims chunks it does so as RCLAIM does (R96, R174, R178). RPOINT has no effect where the
governor has not chosen the group; where it has, a ROLE-CHANGE record is raised, the governor starts again with one conversion more, and
the group switches to the governor's role and entry as RSWITCH does, whether it keeps its chunks, gives some or claims some; one that
waits for its claim switches once it holds them. The governor of a team becomes armed once
its counter has stood below the level for its time (R178, R346, R347). -/
def Obligations.RolesAndGovernor : Prop :=
  (∀ (s : State) (w : RswitchW) (x : Ex), issuing s (.rswitch w) = some x →
    let target : Addr := x.pc + w.disp.signExtend 56
    let g := x.c.g
    let b := x.uval w.b 64 false 0
    let N := g.chunks.length
    let s0 := start x s
    let role : Byte := BitVec.ofNat 8 (x.uval w.a 8 false 0)
    let switched (u : State) : State := u.modGroup x.c.ref fun h =>
      let h := x.retired false target h
      { h with l := Vector.replicate 3 none, role := role, exec := h.liveLanes }
    let clear : Prop := noneOpenFrom g 0 ∧ g.pend = [] ∧ x.entryTrap s0 target = none
    let drained : Bool := g.la.all fun e => e.done
    let claimed : Prop := N < b ∧ b ≠ 0
    (∀ k : Fin 8, highestOpen g k.val → exec (.rswitch w) s = .next (traps x s (trapE .token (BitVec.ofNat 128 k.val)))) ∧
    (∀ e r, noneOpenFrom g 0 → g.pend = e :: r → exec (.rswitch w) s = .next (traps x s (trapE .token (BitVec.ofNat 128 e.tok.val)))) ∧
    (∀ t, noneOpenFrom g 0 → g.pend = [] → x.entryTrap s0 target = some t → exec (.rswitch w) s = .next (traps x s t)) ∧
    (clear → drained = false → exec (.rswitch w) s = .next (waits x s .engine)) ∧
    (clear → drained = true → b = 0 ∨ b = N → exec (.rswitch w) s = .next (switched s0)) ∧
    (clear → drained = true → b ≠ 0 → b < N →
      exec (.rswitch w) s = .next (switched (s0.modTeam x.c.ref.t fun t => t.give g (N - b) s0.clock))) ∧
    (clear → drained = true → claimed → x.c.t.claiming g.idx = true →
      exec (.rswitch w) s = .next (waitsIn x s s0 (.rclaim (b - N)))) ∧
    (clear → drained = true → claimed → x.c.t.claiming g.idx = false → x.c.t.claimBad g (b - N) = true →
      exec (.rswitch w) s = .next (traps x s (trapE .pool (info2 (b - N) N)))) ∧
    (clear → drained = true → claimed → x.c.t.claiming g.idx = false → x.c.t.claimBad g (b - N) = false →
      (x.c.t.claimNow g.idx (b - N) = true →
        exec (.rswitch w) s = .next (switched (s0.modTeam x.c.ref.t fun t => t.claim g.idx (b - N)))) ∧
      (x.c.t.claimNow g.idx (b - N) = false →
        exec (.rswitch w) s = .next (waitsIn x s (s0.modTeam x.c.ref.t fun t => t.joinClaim g.idx (b - N)) (.rclaim (b - N)))))) ∧
  ((∀ (s : State) (w : Ctl0) (x : Ex), issuing s (.rpoint w) = some x → (∀ n, x.c.g.wait ≠ .rclaim n) →
    (x.chosen = none → exec (.rpoint w) s = .next (retires x s [])) ∧
    (∀ r, x.chosen = some r →
      let s0 := start x s
      (∀ t, x.switchTrap s0 r.entry = some t → exec (.rpoint w) s = .next (traps x s t)) ∧
      (x.switchTrap s0 r.entry = none → (x.c.g.la.all fun e => e.done) = false → exec (.rpoint w) s = .next (waits x s .engine)) ∧
      (x.switchTrap s0 r.entry = none → (x.c.g.la.all fun e => e.done) = true →
        let b := r.chunks
        let N := x.c.g.chunks.length
        let i := x.c.g.idx
        let s1 := (s0.modTeam x.c.ref.t fun t => { t with gov := ⟨0, false, t.gov.conv + 1⟩ }).raise x.c.unit false
          .roleChange (BitVec.ofNat 128 (x.c.g.role.toNat + r.into.toNat * 256))
        (b = 0 ∨ b = N → exec (.rpoint w) s = .next (governed x r s1)) ∧
        (b ≠ 0 → b < N → exec (.rpoint w) s = .next (governed x r (s1.modTeam x.c.ref.t fun t => t.give x.c.g (N - b) s1.clock))) ∧
        (N < b → x.c.t.claiming i = false → x.c.t.claimNow i (b - N) = true →
          exec (.rpoint w) s = .next (governed x r (s1.modTeam x.c.ref.t fun t => t.claim i (b - N)))) ∧
        (N < b → x.c.t.claiming i = false → x.c.t.claimNow i (b - N) = false →
          exec (.rpoint w) s = .next (waitsIn x s (s1.modTeam x.c.ref.t fun t => t.joinClaim i (b - N)) (.rclaim (b - N))))))) ∧
  (∀ (s : State) (w : Ctl0) (x : Ex) (n : Nat) (r : GovRec), issuing s (.rpoint w) = some x → x.c.g.wait = .rclaim n →
    x.c.l.gov = some r → (x.c.g.la.all fun e => e.done) = true →
    (r.chunks = x.c.g.chunks.length → exec (.rpoint w) s = .next (governed x r (start x s))) ∧
    (x.c.g.chunks.length < r.chunks → x.c.t.claiming x.c.g.idx = true →
      exec (.rpoint w) s = .next (waitsIn x s (start x s) (.rclaim (r.chunks - x.c.g.chunks.length))))) ∧
  (∀ x : Ex, (∀ r, x.chosen = some r → x.c.l.gov = some r ∧ r.en = true ∧
    (x.c.g.chunks.length < r.chunks → x.c.t.claimBad x.c.g (r.chunks - x.c.g.chunks.length) = false) ∧ x.c.l.pkt.ord = false ∧ x.c.t.gov.armed = true ∧
    x.c.g.role = r.frm ∧ noneOpenFrom x.c.g 0 ∧ x.c.g.pend = [] ∧ x.c.t.gov.conv < r.maxn)) ∧
  (∀ (s : State) (r : TeamRef) (t : Team) (l : Launch) (q : GovRec), s.team? r = some t → s.launch? r.launch = some l → l.gov = some q →
    (q.en = true → q.time ≤ t.gov.below →
      exec (.governorArm r) s = .next (s.setTeam { t with gov := { t.gov with armed := true } })) ∧
    (q.en = false ∨ t.gov.below < q.time → exec (.governorArm r) s = .next s)))

/-- When every live group of a team is blocked with its wait unmet, the team has no engine work and no save is in progress, every live group
becomes STOPPED with TEAM-STALL (here with no policy table installed); otherwise nothing happens. A group is blocked where it waits in a
claim, at a counter, at a barrier, for a queue, for ejected lanes or for a tile; engine work is an outstanding word, a copy, a
continuation that runs, a sequencer that does not wait for good, or a mesh word that can go on (R175, R176). When a wait is unmet, that a
group waiting on a line that nothing fills or for a place of the spawn pool is blocked too, and that a stopped group keeps its wait, are
the model's readings (log 29). -/
def Obligations.TeamStall : Prop :=
  ∀ (s : State) (r : TeamRef) (t : Team) (l : Launch), s.team? r = some t → s.launch? r.launch = some l →
    (t.stalled l = false → exec (.teamStall r) s = .next s) ∧
    (t.stalled l = true → s.policy = none → (t.groups.map (·.idx)).Pairwise (· ≠ ·) →
      ∃ u, exec (.teamStall r) s = .next u ∧
        ∀ g ∈ t.liveGroups, ∃ h, grp? u ⟨r, .grp g.idx⟩ = some h ∧ h.st = .stopped ∧ h.stop.map (·.cause) = some .teamStall ∧
          h.pc = g.pc ∧ h.v = g.v ∧ h.wait = g.wait) ∧
    (t.stalled l = true ↔ t.save = none ∧ t.liveGroups ≠ [] ∧
      (∀ g ∈ t.liveGroups, (g.blockedOn t).isSome = true ∧ g.released l t = false) ∧ t.engineWork = false) ∧
    (t.engineWork = false ↔
      (∀ g ∈ t.groups, ∀ e ∈ g.la, e.done = true ∨ (e.deadLine t).isSome = true) ∧ (∀ k, k < 32 → (t.win k).busy = false) ∧
      (∀ c ∈ t.conts, c.g.st ≠ .run ∧ c.g.st ≠ .blocked) ∧
      (t.sq.sst = .run → t.sq.ending = true) ∧ (t.sq.sst = .wait → t.seqBlocked = true) ∧ (t.mq = [] ∨ t.meshStuck = true)) ∧
    ∀ g : Group,
      (g.st ≠ .run ∧ g.st ≠ .blocked → g.blockedOn t = none) ∧
      (g.st = .run ∨ g.st = .blocked →
        ((∃ n k a, g.wait = .rclaim n ∨ g.wait = .ctake k n ∨ g.wait = .cwait k n ∨ g.wait = .nbarArr k a ∨ g.wait = .nbarWait k ∨
          g.wait = .nbarSync k a ∨ g.wait = .push k n ∨ g.wait = .pop k n ∨ g.wait = .resume k ∨ g.wait = .atake k) →
          (g.blockedOn t).isSome = true) ∧
        (∀ since tmo cc v a m j, g.wait = .none ∨ g.wait = .waitf since tmo cc v a ∨ g.wait = .evt ∨ g.wait = .tlbi since ∨
          g.wait = .mark j since ∨ g.wait = .check j since false m ∨ g.wait = .segment j since ∨ g.wait = .tnext ∨
          g.wait = .collArm ∨ g.wait = .yielded → g.blockedOn t = none)) ∧
      (∀ k n a, (g.wait = .cwait k n → (g.released l t = true ↔ n ≤ (t.ctr k).c.toNat)) ∧
        (g.wait = .push k n → (g.released l t = true ↔ (t.queues.getD k []).length ≤ n)) ∧
        (g.wait = .pop k n → (g.released l t = true ↔ n ≤ (t.queues.getD k []).length)) ∧
        (g.wait = .nbarWait k ∨ g.wait = .nbarSync k a ∨ g.wait = .nbarArr k a → (g.released l t = true ↔ g.inPhase t k = false)) ∧
        (g.wait = .atake k → (g.released l t = true ↔ t.ownerOf k = g.idx)))

/-! ### Markers -/

/-- MARK outside ordered mode: it has no effect at an uncounted marker; it completes and counts one arrival where every range due at
the marker is resident, the last arrival reaching the marker; where a range misses pages it records the misses and waits, or traps
with SCHEDULE-MISS where the timetable asks for traps; and a waiting word completes once every page that it missed is resident, and
traps when its time has run out. The timeout event does the same for a waiting group (R179, R366, R367). MARK in ordered mode: the
marker must be higher than the group's last; the word waits for the group's accesses and copies, releases, and counts its arrival;
the group whose arrival came last makes the check, and the marker is reached where every range due is resident; a MARK of a reached
marker completes and ends the group's epoch; until then it waits, and after 2^26 clocks it traps with MARK-TIMEOUT, having made no
arrival (R179, R350, R368). An access of an ordered launch races an earlier one of the same word that is not ordered before it, unless both
are value-free atomics of one operation or both twin operations: it then takes no place in the word's tracker, and else it joins it, the
earlier accesses for which it stands leaving (R351, R352). That a completing MARK of ordered mode acquires at device scope, of which R350 speaks for the release alone,
is the model's reading (log 32). A timeout passes over a group that has stopped, or whose team is being saved. -/
def Obligations.Markers : Prop :=
  ((∀ (s : State) (w : CodeW) (x : Ex), issuing s (.mark w) = some x → x.c.l.pkt.ord = false →
    let k := w.code.toNat
    let s0 := start x s
    (x.c.l.markCount k = 0 → exec (.mark w) s = .next (retires x s [])) ∧
    (x.c.l.markCount k ≠ 0 →
      (∀ j since counted m, x.c.g.wait = .check j since counted m →
        let left := s0.still x.c.l m
        (left = [] → exec (.mark w) s = .next (retiresIn x s (s0.arriveMarker x.c.l.num k) [])) ∧
        (left ≠ [] → since + x.c.l.stallClocks ≤ s0.clock → exec (.mark w) s = .next (trapsIn x s s0 (missTrap k left))) ∧
        (left ≠ [] → s0.clock < since + x.c.l.stallClocks →
          exec (.mark w) s = .next (waitsIn x s s0 (.check k since false m)))) ∧
      ((∀ j since counted m, x.c.g.wait ≠ .check j since counted m) →
        let m := s0.misses x.c.l k
        (m = [] → exec (.mark w) s = .next (retiresIn x s (s0.arriveMarker x.c.l.num k) [])) ∧
        (m ≠ [] → x.c.l.trapsMiss = true → exec (.mark w) s = .next (trapsIn x s (s0.recordMisses x.c k m) (missTrap k m))) ∧
        (m ≠ [] → x.c.l.trapsMiss = false →
          exec (.mark w) s = .next (waitsIn x s (s0.recordMisses x.c k m) (.check k s0.clock false m)))))) ∧
  (∀ (s : State) (n k : Nat) (l : Launch), s.launch? n = some l →
    let a := Store.get 0 l.arrivals k + 1
    let u := s.setLaunch { l with arrivals := Store.set 0 l.arrivals k a }
    (a = l.markCount k ∧ l.reached.contains k = false → s.arriveMarker n k = u.reachMarker n k) ∧
    (a ≠ l.markCount k ∨ l.reached.contains k = true → s.arriveMarker n k = u)) ∧
  (∀ (s : State) (r : GRef) (c : Ctx) (k since : Nat) (missed : List (Nat × Nat)), s.ctx? r = some c →
    c.g.wait = .check k since false missed →
    let m := s.still c.l missed
    let goes : Prop := (c.g.st = .run ∨ c.g.st = .blocked) ∧ c.t.saving = false
    (s.clock < since + c.l.stallClocks ∨ m = [] ∨ ¬ goes → exec (.scheduleMissTimeout r) s = .next s) ∧
    (since + c.l.stallClocks ≤ s.clock → m ≠ [] → goes →
      exec (.scheduleMissTimeout r) s = .next (s.takeTrap r (missTrap k m))))) ∧
  ((∀ (s : State) (w : CodeW) (x : Ex), issuing s (.mark w) = some x → x.c.l.pkt.ord = true → x.c.g.wait = .none →
    let k := w.code.toNat
    let s0 := start x s
    let used : Prop := ∃ m, x.c.g.lastMark = some m ∧ k ≤ m
    let here := (s0.releaseDev x.c.core).arriveOrd x.c.ref.t x.c.g.idx k
    (used → exec (.mark w) s = .next (traps x s (trapE .illegal (BitVec.ofNat 128 (wordLow (.mark w)))))) ∧
    (¬ used → x.c.quiet = false ∨ x.c.copying = true → exec (.mark w) s = .next (waits x s .engine)) ∧
    (¬ used → x.c.quiet = true → x.c.copying = false → x.c.t.seg = none → x.c.ref.t.shadow = false →
      ∀ l, here.launch? x.c.ref.t.launch = some l →
        (l.reached.contains k = false → l.allArrived k = false →
          exec (.mark w) s = .next (waitsIn x s here (.mark k s0.clock))) ∧
        (l.reached.contains k = false → l.allArrived k = true → l.checker k = some (x.c.ref.t, x.c.g.idx) → here.misses l k = [] →
          exec (.mark w) s = .next (retiresIn x s (((here.reachMarker l.num k).acquireDev x.c.core).modGroup x.c.ref
            fun g => { g with epoch := g.epoch + 1, lastMark := some k }) [])))) ∧
  (∀ (s : State) (w : CodeW) (x : Ex) (since : Nat) (l : Launch), issuing s (.mark w) = some x → x.c.l.pkt.ord = true →
    x.c.g.wait = .mark w.code.toNat since → x.c.ref.t.shadow = false → (start x s).launch? x.c.ref.t.launch = some l →
    (l.reached.contains w.code.toNat = true → exec (.mark w) s = .next (retiresIn x s (((start x s).acquireDev x.c.core).modGroup
      x.c.ref fun g => { g with epoch := g.epoch + 1, lastMark := some w.code.toNat }) []))) ∧
  (∀ (a : AccTag) (p : Pty), a.before p = true ↔ (a.team = p.tag.team ∧ a.party = p.tag.party) ∨
    (a.epoch ≠ p.tag.epoch ∧ a.party ≠ seqParty ∧ p.tag.party ≠ seqParty) ∨
    (a.team = p.tag.team ∧ a.tick ≤ Store.get 0 p.vc a.party)) ∧
  (∀ (t : Track) (p : Pty) (write : Bool) (kind : Nat),
    let races (a : AccTag) : Prop := a.before p = false ∧ ¬ (2 ≤ kind ∧ a.kind = kind) ∧ ¬ (kind = 1 ∧ a.kind = 1)
    let earlier (a : AccTag) : Prop := a ∈ t.writes ∨ (write = true ∧ a ∈ t.reads)
    let kept (a : AccTag) : Prop := ¬ (a.before p = true ∧ (kind = 0 ∨ a.kind = kind))
    let me : AccTag := { p.tag with kind := kind }
    (t.racer p write kind = none ↔ ∀ a, earlier a → ¬ races a) ∧ (∀ a, t.racer p write kind = some a → earlier a ∧ races a) ∧
    (∀ a, a ∈ (t.note p write kind).writes ↔ if write = true then a = me ∨ (a ∈ t.writes ∧ kept a) else a ∈ t.writes) ∧
    (∀ a, a ∈ (t.note p write kind).reads ↔ (write = false ∧ a = me) ∨ (a ∈ t.reads ∧ kept a))) ∧
  (∀ (s : State) (p : Pty) (a n kind : Nat) (write : Bool), 0 < n → a % 4 + n ≤ 4 →
    (p.ord = false → s.track p .glob a n write kind = (none, s)) ∧
    (∀ l, p.ord = true → s.launch? p.launch = some l →
      let t := Store.get Track.none l.track (a / 4)
      (∀ o, t.racer p write kind = some o → s.track p .glob a n write kind = (some o, s)) ∧
      (t.racer p write kind = none → ∃ u l', s.track p .glob a n write kind = (none, u) ∧ u.launch? p.launch = some l' ∧
        l'.track = Store.set Track.none l.track (a / 4) (t.note p write kind) ∧ u.mem = s.mem ∧ u.teams = s.teams))) ∧
  (∀ (s : State) (r : GRef) (c : Ctx) (k since : Nat), s.ctx? r = some c → c.g.wait = .mark k since →
    let goes : Prop := (c.g.st = .run ∨ c.g.st = .blocked) ∧ c.t.saving = false
    (s.clock < since + 2 ^ 26 ∨ c.l.reached.contains k = true ∨ ¬ goes → exec (.markTimeout r) s = .next s) ∧
    (since + 2 ^ 26 ≤ s.clock → c.l.reached.contains k = false → goes →
      exec (.markTimeout r) s = .next ((s.modLaunch r.t.launch fun l =>
        { l with arrivedBy := l.arrivedBy.filter fun e => e != (r.t, c.g.idx, k) }).takeTrap r
          (trapE .markTimeout (BitVec.ofNat 128 k))))))

/-! ### Tasks, scopes and cancellation -/

/-- TNEXT traps with TASK outside a task-service launch and where a task is current, and is else accepted; TDONE traps with TASK where
none is current, waits for the group's accesses, and ends a task without version and successor; a waiting TNEXT is given the oldest
task of the highest priority, which becomes current, and 0 once no task is queued or current (R181, R182, R342). -/
def Obligations.TakingAndEndingTasks : Prop :=
  (∀ (s : State) (w : TnextW) (x : Ex), issuing s (.tnext w) = some x →
    (x.c.l.pkt.tasks = false → exec (.tnext w) s = .next (traps x s (trapE .task 0))) ∧
    (∀ k, x.c.l.pkt.tasks = true → x.c.g.task = some k →
      exec (.tnext w) s = .next (traps x s (trapE .task (BitVec.ofNat 128 k.addr.toNat)))) ∧
    (x.c.l.pkt.tasks = true → x.c.g.task = none → exec (.tnext w) s = .next (defers x s (start x s) .tnext []))) ∧
  (∀ (s : State) (w : Ctl0) (x : Ex), issuing s (.tdone w) = some x →
    (x.c.g.task = none → exec (.tdone w) s = .next (traps x s (trapE .task 0))) ∧
    (∀ k, x.c.g.task = some k → x.c.quiet = false → exec (.tdone w) s = .next (waits x s .engine)) ∧
    (∀ k, x.c.g.task = some k → x.c.quiet = true → k.vers = none → taskSucc k.bytes = 0 →
      exec (.tdone w) s = .next (retiresIn x s
        ((((start x s).releaseDev x.c.core).modLaunch x.c.l.num fun l => l.freeTask k).modGroup x.c.ref fun g =>
          { g with task := none }) []))) ∧
  (∀ (s : State) (c : Ctx) (i : Nat) (k : Task), c.l.nextTask (dieOf c.core) s.clock = some (i, k) → taskVers k.bytes = false →
    s.serveTnext c = some (BitVec.ofNat 64 k.addr.toNat, ((s.modLaunch c.l.num fun l => { l with tasks := l.tasks.eraseIdx i }).acquireDev
      c.core).modGroup c.ref fun g => { g with task := some ⟨k.addr, k.bytes, k.place, none, 0⟩ })) ∧
  (∀ (l : Launch) (die clock i : Nat) (k : Task), l.nextTask die clock = some (i, k) →
    l.tasks[i]? = some k ∧ l.passes die clock k = false ∧
    ∀ j t, l.tasks[j]? = some t → l.passes die clock t = false → t.prio ≤ k.prio ∧ (t.prio = k.prio → i ≤ j)) ∧
  (∀ (s : State) (c : Ctx), c.l.tasks = [] → s.anyCurrent c.l.num = false → c.l.saved = [] → s.serveTnext c = some (0, s)) ∧
  (∀ (s : State) (n : Nat) (l : Launch), s.launch? n = some l → exec (.affinityWaitExpiry n) s = .next (s.setLaunch { l with
    tasks := l.tasks.map fun k => if k.since + 4096 ≤ s.clock then { k with anywhere := true } else k }))

/-- TSPAWN checks its launch, the alignment of its address and the record; a good record under a scope that is not cancelled is copied to
a free place of the spawn pool and enqueued, one under a cancelled scope is refused, and where no place is free the word waits; what a
versioned task spawns takes its place at once and is enqueued when the version commits (R183, R186, R316; the pool's address and the
place held meanwhile are the model's, log 30). -/
def Obligations.SpawningTasks : Prop :=
  (∀ (s : State) (w : CtlA) (x : Ex), issuing s (.tspawn w) = some x →
    let a := x.addrOp w.a
    let s0 := start x s
    (x.c.l.pkt.tasks = false → exec (.tspawn w) s = .next (traps x s (trapE .task (BitVec.ofNat 128 x.c.g.taskAddr)))) ∧
    (x.c.l.pkt.tasks = true → a.toNat % 64 ≠ 0 → exec (.tspawn w) s = .next (traps x s (trapA .badAddress a .load))) ∧
    (x.c.l.pkt.tasks = true → a.toNat % 64 = 0 → (∀ b, x.c.g.wait ≠ .spawn b) → x.c.quiet = false →
      exec (.tspawn w) s = .next (waits x s .engine)) ∧
    (∀ b u, x.c.l.pkt.tasks = true → a.toNat % 64 = 0 → (∀ b, x.c.g.wait ≠ .spawn b) → x.c.quiet = true →
      s0.recordRead x.c (.tspawn w) x.pc a 64 = .bytes b u →
      (∀ t, spawnTrap x.c.l x.c.spawnScope a.toNat b = some t → exec (.tspawn w) s = .next (traps x s t)) ∧
      (spawnTrap x.c.l x.c.spawnScope a.toNat b = none →
        (∀ d, x.c.l.dead (taskScope b) = some d →
          exec (.tspawn w) s = .next (retiresIn x s (u.spawnRefused x.c d (taskScope b) a.toNat) [])) ∧
        (x.c.l.dead (taskScope b) = none →
          (∀ p, x.c.l.freePlace = some p → x.c.taskVersion = none →
            exec (.tspawn w) s = .next (retiresIn x s ((u.releaseDev x.c.core).spawnAt x.c.l.num p b) [])) ∧
          (∀ p v, x.c.l.freePlace = some p → x.c.taskVersion = some v →
            exec (.tspawn w) s = .next (retiresIn x s (u.spawnHeld v x.c.l.num p a b) [])) ∧
          (x.c.l.freePlace = none → exec (.tspawn w) s = .next (waitsIn x s u (.spawn b))))))) ∧
  (∀ (l : Launch) (under addr : Nat) (b : List Byte), b.length = 64 →
    (taskReserved b = true → spawnTrap l under addr b = some (trapE .badRecord (BitVec.ofNat 128 (addr % 2 ^ 56)))) ∧
    (taskReserved b = false → l.inScope under (taskScope b) = false →
      spawnTrap l under addr b = some (trapE .scope (BitVec.ofNat 128 (taskScope b)))) ∧
    (taskReserved b = false → l.inScope under (taskScope b) = true → spawnTrap l under addr b = none)) ∧
  (∀ (l : Launch) (p : Nat), l.freePlace = some p → p < 65536 ∧ p ∉ l.places) ∧
  (∀ (s : State) (n place : Nat) (b : List Byte) (l : Launch), s.launch? n = some l → b.length = 64 →
    (∀ i, i < 64 → ((s.spawnAt n place b).mem.byte (l.poolPa + 64 * place + i)) = b.getD i 0) ∧
    (∀ a, a < l.poolPa + 64 * place ∨ l.poolPa + 64 * place + 64 ≤ a → (s.spawnAt n place b).mem.byte a = s.mem.byte a))

/-- TSCOPE opens a scope with a free number under an open parent and returns the number, and traps with SCOPE where the parent is not open
or no number is free, and with BAD-ADDRESS where its acknowledgement address is not a multiple of 64; CANCEL traps with SCOPE at an
unknown scope, and else marks the scope cancelled, takes the queued tasks of its subtree away and marks the groups whose tasks lie in
it; a marked group ends at a kill point where it waits, or after 4,096 clocks; a settled scope is acknowledged in its record or by a
SCOPE-ACK (R184 to R188). -/
def Obligations.ScopesAndCancellation : Prop :=
  (∀ (s : State) (w : TscopeW) (x : Ex), issuing s (.tscope w) = some x →
    let parent := x.uval w.a 16 false w.imm
    let ack := x.uval w.b 64 false w.imm
    let n := x.c.l.scopes.length
    let bad : Prop := (∀ y ∈ x.c.l.scopes, y.num ≠ parent) ∨ (x.c.l.dead parent).isSome = true ∨ 65536 ≤ n
    (bad → exec (.tscope w) s = .next (traps x s (trapE .scope (BitVec.ofNat 128 parent)))) ∧
    (¬ bad → ack % 64 ≠ 0 → exec (.tscope w) s = .next (traps x s (trapA .badAddress (BitVec.ofNat 56 ack) .store))) ∧
    (¬ bad → ack % 64 = 0 → ∃ num, (∀ y ∈ x.c.l.scopes, y.num ≠ num) ∧
      exec (.tscope w) s = .next (retiresIn x s ((start x s).modLaunch x.c.l.num fun l =>
        { l with scopes := l.scopes ++ [⟨num, some parent, ack, false, false, 0, 0, 0, 0, 0, 0, 0, 0⟩] })
        (uniWr w.d (BitVec.ofNat 64 num))))) ∧
  (∀ (s : State) (w : NumW) (x : Ex), issuing s (.cancel w) = some x →
    let a := x.uval w.a 64 false w.imm
    ((∀ y ∈ x.c.l.scopes, y.num ≠ a) → exec (.cancel w) s = .next (traps x s (trapE .scope (BitVec.ofNat 128 a)))) ∧
    ((∃ y ∈ x.c.l.scopes, y.num = a) → exec (.cancel w) s = .next (retiresIn x s
      (((start x s).cancelScope x.c.l.num a).modLaunch x.c.l.num fun l => l.modScope a fun y => { y with core := x.c.core }) []))) ∧
  (∀ (s : State) (n a : Nat) (l : Launch), s.launch? n = some l →
    let u := s.cancelScope n a
    (∃ l', u.launch? n = some l' ∧ l'.tasks = l.tasks.filter (fun k => !l.inScope a (taskScope k.bytes)) ∧
      l'.scopes.map (·.num) = l.scopes.map (·.num) ∧
      ∀ y, y ∈ l.scopes → (y.num ≠ a → y ∈ l'.scopes) ∧ (y.num = a → ∃ z ∈ l'.scopes, z.num = a ∧ z.cancelled = true ∧
        z.settled = false ∧ z.acking = y.acking + 1 ∧ z.killed = y.killed ∧
        z.queued = y.queued + (l.tasks.filter fun k => l.inScope a (taskScope k.bytes)).length)) ∧
    (∀ g : Group, l.kills a g = true ↔ g.st ≠ .ended ∧
      if l.pkt.tasks then (∃ k, g.task = some k ∧ l.inScope a (taskScope k.bytes) = true) else l.inScope a l.pkt.scope = true) ∧
    (∀ r t, s.team? r = some t → (r.launch ≠ n → u.team? r = some t) ∧
      (r.launch = n → ∃ t', u.team? r = some t' ∧ ∀ i g, t.grp? i = some g → ∃ h, t'.grp? i = some h ∧ h.pc = g.pc ∧ h.v = g.v ∧
        h.kill = if l.kills a g = true ∧ g.kill = none then some ⟨s.clock, a, t.save.isSome⟩ else g.kill)) ∧
    u.mem = s.mem ∧ u.versions = s.versions) ∧
  (∀ (s : State) (r : GRef) (c : Ctx), s.ctx? r = some c →
    (c.g.kill = none → exec (.groupKill r) s = .next s) ∧
    (∀ k, c.g.kill = some k → c.t.saving = false → k.atRestore = false →
      (c.g.atKillPoint = true ∨ (k.since + 4096 ≤ s.clock ∧ c.g.wait ≠ .evt) → exec (.groupKill r) s = .next (s.killNow r k)) ∧
      (c.g.atKillPoint = false → s.clock < k.since + 4096 → exec (.groupKill r) s = .next s))) ∧
  (∀ (s : State) (n a : Nat) (l : Launch) (y : Scope), s.launch? n = some l → l.scopes.find? (fun z => z.num == a) = some y →
    (y.acking = 0 ∨ s.settled l a = false ∨ s.srcRoom (n % 4) .cmdProc = false → exec (.cancelAck n a) s = .next s) ∧
    (y.acking ≠ 0 → s.settled l a = true → s.srcRoom (n % 4) .cmdProc = true →
      let rec_ := ackRecord y (s.timeAt (n % 4))
      let u := s.setLaunch (l.modScope a fun z =>
        { z with settled := true, acking := z.acking - 1, killed := 0, queued := 0, discard := 0, refused := 0, owed := 0 })
      exec (.cancelAck n a) s = .next
        (if y.ack = 0 then u.raiseDie (n % 4) .cmdProc .scopeAck (BitVec.ofNat 128 rec_) 0 0 n else u.writeAck l y.ack rec_)))

/-! ### Memory -/

/-- The address of a lane is its base plus its index, sign-extended and scaled, plus the sign-extended offset, in 56 bits. LD, LDS, ATOM and
ATOMS check alignment and region of every lane, then translate lane by lane; they wait for the accesses that program order puts first,
then for their scratchpad lines, and are then accepted; an atomic with `.REL` waits for every earlier access and releases. Before all of
that, LD and ATOM wait, or stop with LOOKAHEAD, at a register of their own group that an earlier word still delivers (R82, R94, R191,
R192, R193, R196, R199, R201, R202). That a word waits at its issue for earlier accesses to its bytes (log 6), and for its empty lines
(log 25), is how the model keeps program order. -/
def Obligations.LoadsAndAtomics : Prop :=
  (∀ (x : Ex) (m : MemOp) (i : Nat), x.addr m i = BitVec.ofNat 56 (x.val m.base 64 false 0 i) +
    (BitVec.ofNat 32 (x.val m.index 32 false 0 i)).signExtend 56 * BitVec.ofInt 56 (scaleFactor m.scale) + m.off.signExtend 56) ∧
  (∀ (s : State) (w : LdW) (x : Ex), issuing s (.ld w) = some x →
    let n := w.ty.bits / 8
    let as := if w.d.cls = .s then (x.laneAddrs w.mem).take 1 else x.laneAddrs w.mem
    let ak : AKind := if w.u then .counted else .load
    (∀ e, x.ownLook as = some e → exec (.ld w) s = .next (x.finish (start x s) e)) ∧
    (x.ownLook as = none →
      (∀ t, x.check12 n w.acq false ak (as.map (·.2)) = some t → exec (.ld w) s = .next (traps x s t)) ∧
      (x.check12 n w.acq false ak (as.map (·.2)) = none →
        ∀ ls t u, (start x s).lanesPieces x.c (wantLoad x.c.g.priv ak) n as = (ls, t, u) →
          let bytes := if w.u then wholeLines (laneSpans n ls) else laneSpans n ls
          let first : Prop := x.c.mustWait bytes false = true ∨ (w.u = true ∧ x.c.countWait ls = true)
          (first → exec (.ld w) s = .next (waitsIn x s u .engine)) ∧
          (¬ first → AcceptedWhenFull x s u n (.load ls) (if w.d = .zero then [] else x.ownRegs as) ls t (exec (.ld w) s))))) ∧
  (∀ (s : State) (w : SpW) (x : Ex), issuing s (.lds w) = some x →
    let n := w.ty.bits / 8
    let lanes := x.spadLanes n w.col w.col .load (if w.d.cls = .s then (x.laneAddrs w.mem).take 1 else x.laneAddrs w.mem)
    (∀ t, lanes = .error t → exec (.lds w) s = .next (traps x s t)) ∧
    (∀ ls, lanes = .ok ls → x.c.mustWait (laneSpans n ls) false = true → exec (.lds w) s = .next (waits x s .engine)) ∧
    (∀ ls, lanes = .ok ls → x.c.mustWait (laneSpans n ls) false = false →
      AcceptedWhenFull x s (start x s) n (.load ls) [] ls none (exec (.lds w) s))) ∧
  (∀ (s : State) (w : AtomW) (x : Ex), issuing s (.atom w) = some x →
    let n := if w.wide then 8 else 4
    let as := x.laneAddrs w.mem
    (∀ e, x.ownLook as = some e → exec (.atom w) s = .next (x.finish (start x s) e)) ∧
    (x.ownLook as = none →
      (∀ t, x.check12 n true false .atomic (as.map (·.2)) = some t → exec (.atom w) s = .next (traps x s t)) ∧
      (x.check12 n true false .atomic (as.map (·.2)) = none → w.rel = true → x.c.quiet = false →
        exec (.atom w) s = .next (waits x s .engine)) ∧
      (x.check12 n true false .atomic (as.map (·.2)) = none → w.rel = false ∨ x.c.quiet = true →
        ∀ ls t u, (start x s).lanesPieces x.c (wantAtomic x.c.g.priv) n as = (ls, t, u) →
          let v := if w.rel then u.releaseLanes x.c ls else u
          let args := ls.map fun l => x.atomArgs w.op n w.c l.lane
          (x.c.mustWait (laneSpans n ls) true = true → exec (.atom w) s = .next (waitsIn x s v .engine)) ∧
          (x.c.mustWait (laneSpans n ls) true = false →
            AcceptedWhenFull x s v n (.atomic ls (args.map (·.1)) (args.map (·.2))) (x.ownRegs as) ls t (exec (.atom w) s))))) ∧
  (∀ (s : State) (w : AtomsW) (x : Ex), issuing s (.atoms w) = some x →
    let n := if w.wide then 8 else 4
    let lanes := x.spadLanes n false true .atomic (x.laneAddrs w.mem)
    (∀ t, lanes = .error t → exec (.atoms w) s = .next (traps x s t)) ∧
    (∀ ls, lanes = .ok ls →
      let args := ls.map fun l => x.atomArgs w.op n w.c l.lane
      (x.c.mustWait (laneSpans n ls) true = true → exec (.atoms w) s = .next (waitsIn x s (start x s) .engine)) ∧
      (x.c.mustWait (laneSpans n ls) true = false →
        AcceptedWhenFull x s (start x s) n (.atomic ls (args.map (·.1)) (args.map (·.2))) [] ls none (exec (.atoms w) s))))

/-- ST and STS check as loads do; a store with `.REL` waits for every earlier access and releases. A store to global memory retires at once
and is posted, one write for each line; a store to local memory is performed at once, in its bytes and no others, and makes the
lines of the scratchpad that it touches full; it waits where the copy of a window must come first, and traps with DATA-LOST where it writes
a lost line in part (R94, R192, R193, R195, R196, R199, R201, R280, R295). That a posted write is one for each line, and that a store
waits at its issue for the party's earlier accesses to its bytes, is how the model keeps program order (log 6); the clauses on what is
written leave out a shadowed team and, for local stores, ordered mode, where an access is tracked too. -/
def Obligations.Stores : Prop :=
  (∀ (s : State) (w : StW) (x : Ex), issuing s (.st w) = some x →
    let n := w.ty.bits / 8
    let as := x.laneAddrs w.mem
    (∀ e, x.ownLook as = some e → exec (.st w) s = .next (x.finish (start x s) e)) ∧
    (x.ownLook as = none →
      (∀ t, x.check12 n w.rel false .store (as.map (·.2)) = some t → exec (.st w) s = .next (traps x s t)) ∧
      (x.check12 n w.rel false .store (as.map (·.2)) = none → w.rel = true → x.c.quiet = false →
        exec (.st w) s = .next (waits x s .engine)) ∧
      (x.check12 n w.rel false .store (as.map (·.2)) = none → w.rel = false ∨ x.c.quiet = true →
        ∀ ls t u, (start x s).lanesPieces x.c (wantStore x.c.g.priv) n as = (ls, t, u) →
          let data := ls.flatMap fun l => x.unstored l (x.storeBytes w.d n l.lane)
          exec (.st w) s = .next (x.finish (start x s) (x.storeLanes u w.rel data t))))) ∧
  (∀ (x : Ex) (l : LaneAddr) (b : List Byte), (∀ e ∈ x.c.g.parted, e.1 ≠ l.lane) → x.unstored l b = [(l, b)]) ∧
  (∀ (s : State) (w : SpW) (x : Ex), issuing s (.sts w) = some x →
    let n := w.ty.bits / 8
    let lanes := x.spadLanes n w.col w.col .store (x.laneAddrs w.mem)
    (∀ t, lanes = .error t → exec (.sts w) s = .next (traps x s t)) ∧
    (∀ ls, lanes = .ok ls → exec (.sts w) s = .next (x.finish (start x s)
      (x.storeLanes (start x s) false (ls.flatMap fun l => x.unstored l (x.storeBytes w.d n l.lane)) none)))) ∧
  (∀ (x : Ex) (u : State) (rel : Bool) (e : LaneAddr × List Byte) (ls : List (LaneAddr × List Byte)) (t : Option Trap),
    let all := e :: ls
    let lanes := all.map (·.1)
    let bytes := all.flatMap fun l => l.1.spans l.2.length
    (x.c.mustWait bytes true = true → x.storeLanes u rel all t = .waitIn u .engine) ∧
    (x.c.mustWait bytes true = false → x.c.t.seg = none → (∀ l ∈ all, l.1.ps ≠ []) →
      (u.team? x.c.ref.t).isSome = true →
      let v := if rel then u.releaseLanes x.c lanes else u
      let z := v.modGroup x.c.ref fun g => { g with posted := g.posted ++ x.postLines v all }
      x.storeLanes u rel all t = (match t with
        | none => .done z [] none
        | some t => .trapAt (x.setPcm z (lanes.map (·.lane))) t)) ∧
    (x.c.mustWait bytes true = false → x.c.t.seg = none → (∀ l ∈ all, l.1.ps = []) → x.pty.ord = false →
      let lines := all.flatMap fun l => spadLines x.c.t l.2.length [l.1]
      let v := u.touchAll x.c lines
      ∀ tm, v.team? x.c.ref.t = some tm →
        (lines.any tm.storeWaits = true → x.storeLanes u rel all t = .waitIn v .engine) ∧
        (∀ a, lines.any tm.storeWaits = false → tm.storeLost all = some a → x.storeLanes u rel all t = .trap (localLostTrap a)) ∧
        (lines.any tm.storeWaits = false → tm.storeLost all = none → rel = false → t = none →
          x.storeLanes u rel all t = .done ((all.foldl (fun (s : State) l =>
            s.modTeam x.c.ref.t fun t => t.localWrite l.1.va l.2) (v.modTeam x.c.ref.t fun t => t.storeWhole all)).modGroup
              x.c.ref fun g => g) [] none))) ∧
  (∀ (t : Team) (ls : List (LaneAddr × List Byte)),
    (t.storeLost ls = none ↔ ∀ e ∈ ls, e.1.ps = [] → ∀ a ∈ localLines 1 [e.1.va, BitVec.ofNat 56 (e.1.va.toNat + e.2.length - 1)],
      t.localLost a = true → coversLine a.toNat (localBytes ls) = true)) ∧
  (∀ (t : Team) (va : Addr) (b : List Byte) (o : Nat), t.localCheck va b.length .store = .ok (.spad o) →
    let u := t.localWrite va b
    (∀ i, i < b.length → u.spadByte (o + i) = b.getD i 0) ∧
    (∀ a, a < o ∨ o + b.length ≤ a → u.spadByte a = t.spadByte a) ∧
    (∀ a ∈ spLines false o b.length, u.isFull a = true) ∧
    (∀ a, lineOf a ∉ spLines false o b.length → u.isFull a = t.isFull a) ∧ u.groups = t.groups) ∧
  (∀ (x : Ex) (u : State) (n : Nat) (l : List (LaneAddr × List Byte)) (p : Posted), p ∈ x.postLines u l →
    p.pc = x.pc ∧ p.word = x.word ∧ p.since = u.clock ∧
    ∀ e ∈ p.stores, ∃ y ∈ l, e ∈ splitBytes y.1.ps y.2 ∧ ∀ f ∈ p.stores, f.1.lineKey = e.1.lineKey)

/-- Results of long-latency words: a delivered entry stays as it is, and one whose requests or lines are not ready, or that stands behind an
earlier load of its bytes, changes nothing; an entry that made its writes itself delivers them, a push as a release once the queue
has room and the party's earlier words are performed, a TNEXT what the queue gives it, a load the bytes of its lane, an atomic the old
value; an entry that has delivered keeps its place until its window is over (R93, R94). A read at the home gives memory's bytes, an atomic there leaves its
operation's result in its bytes and no others, and a store of whole words to a cached page leaves memory as it is, where the L1 has
room for its line, and its bytes in the L1. A store that its line's home takes leaves the posted queue; a word that failed after its
acceptance stops its party with the cause, the word's address, and the word kept for replay, once the party stands at a boundary (R93,
R95, R191, R195, R203, R287, R288, R302). That a word may be performed whole at its delivery is log 5, that posted writes act line by
line is log 6, and what a load that failed has left in its destination and in `PCM` is log 42. -/
def Obligations.LongLatencyResults : Prop :=
  (∀ (s : State) (r : GRef) (i : Nat) (c : Ctx) (e : LaEnt), s.ctx? r = some c → c.g.la[i]? = some e →
    (e.done = true → exec (.longLatencyDelivery r i) s = .next s) ∧
    (e.done = false → s.asked c i e = none →
      let p (l : LaneAddr) : Pty := c.delivered e [l]
      (∀ ws, e.op = .write ws → c.pushHeld i e = true → exec (.longLatencyDelivery r i) s = .next s) ∧
      (∀ ws, e.op = .write ws → c.pushHeld i e = false → exec (.longLatencyDelivery r i) s =
        .next ((if isPush e then s.releaseTeam c.t c.core else s).settleEntry c i ws)) ∧
      (e.op = .tnext → s.serveTnext c = none → exec (.longLatencyDelivery r i) s = .next s) ∧
      (∀ v u, e.op = .tnext → s.serveTnext c = some (v, u) →
        exec (.longLatencyDelivery r i) s = .next (u.settleEntry c i (uniWr (wordDest e.word) v))) ∧
      (∀ ls, e.op = .load ls → c.linesFull e ls = false ∨ c.loadBehind i e = true → exec (.longLatencyDelivery r i) s = .next s) ∧
      (∀ l v u, e.op = .load [l] → c.linesFull e [l] = true → c.loadBehind i e = false → isCounted e.word = false →
        isAcq e.word = false → isPush e = false → e.got = [] → l.lane < 64 →
        (s.joinFull c (p l)).loadLane c (p l) e l = (.ok v, u) →
        exec (.longLatencyDelivery r i) s = .next (u.settleEntry c i (entryWrs e [(l.lane, v)]))) ∧
      (∀ l f u, e.op = .load [l] → c.linesFull e [l] = true → c.loadBehind i e = false → isCounted e.word = false →
        isAcq e.word = false → isPush e = false → e.got = [] →
        (s.joinFull c (p l)).loadLane c (p l) e l = (.error f, u) →
        exec (.longLatencyDelivery r i) s = .next (u.failEntry c i [] 0 f)) ∧
      (∀ l a b v u w, e.op = .atomic [l] [a] [b] → c.linesFull e [l] = true → s.slicesFull e.vers l.ps = false →
        isAcq e.word = false → isPush e = false → e.got = [] → l.lane < 64 → e.word = .atom w → w.op ≠ .fadd → c.g.st ≠ .ended →
        (s.joinFull c (p l)).atomLane c (p l) e w.op l a.toNat b.toNat = (.ok v, u) →
        exec (.longLatencyDelivery r i) s = .next ((u.modGroup c.ref fun g => g).settleEntry c i (entryWrs e [(l.lane, v)]))))) ∧
  (∀ (s : State) (c : Ctx) (i : Nat) (ws : List Wr), c.g.st ≠ .ended →
    ∃ ks : List Nat, s.settleEntry c i ws =
      ((s.wrs c.ref ws).modGroup c.ref fun g => { g with la := laSettled i g.la }).regsWhole c.ref ks) ∧
  (∀ (la : List LaEnt) (i : Nat) (e : LaEnt), la[i]? = some e →
    (∃ d, (laSettled i la)[i]? = some d ∧ d.done = true ∧ d.window = e.window ∧ d.dests = e.dests ∧ d.pc = e.pc ∧ d.fail = e.fail) ∧
    (∀ j, j ≠ i → (laSettled i la)[j]? = la[j]?) ∧
    ∀ d, d ∈ countDown la ↔ ∃ b ∈ la, d = { b with window := b.window - 1 } ∧ ¬ (d.done = true ∧ d.window = 0 ∧ d.fail = none)) ∧
  (∀ (s : State) (p : Pty) (y : Piece) (home : Bool), p.ord = false → p.vers = none → s.isLost (lineOf y.pa) = false →
    (∀ k ∈ s.l1Cores p.core, (s.core k).l1Find (lineOf y.pa) = none) → y.pa % 128 + y.n ≤ 128 →
    let k := s.l1Core p.core (lineOf y.pa)
    (s.loadPiece p y home).1 = .ok (s.mem.read y.pa y.n) ∧
    ((s.core k).l1.length < s.l1Room k → (s.loadPiece p y home).2.mem = s.mem)) ∧
  (∀ (s : State) (p : Pty) (y : Piece) (op : AtomOp) (a b : Nat) (free : Bool), p.ord = false → p.vers = none →
    s.isLost (lineOf y.pa) = false → (∀ k ∈ s.l1Cores p.core, (s.core k).l1Find (lineOf y.pa) = none) →
    ∃ u, s.atomPiece p y op a b free = (.ok (s.mem.num y.pa y.n), u) ∧
      u.mem.num y.pa y.n = atomNew op (8 * y.n) (s.mem.num y.pa y.n) a b % 256 ^ y.n ∧
      (∀ z, z < y.pa ∨ y.pa + y.n ≤ z → u.mem.byte z = s.mem.byte z)) ∧
  (∀ (s : State) (p : Pty) (y : Piece) (b : List Byte) (whole : Bool), p.ord = false → p.vers = none → wholeWords y.pa y.n = true →
    y.cached = true → whole = true ∨ s.isLost (lineOf y.pa) = false → b.length = y.n → y.pa % 128 + y.n ≤ 128 →
    let k := s.l1Core p.core (lineOf y.pa)
    k < 128 → (s.core k).l1.length < s.l1Room k →
    ∃ u e, s.storePiece p y b whole = (.ok ⟨⟩, u) ∧ u.mem = s.mem ∧ (u.core k).l1Find (lineOf y.pa) = some e ∧
      ∀ i, i < y.n → e.byte (y.pa % 128 + i) = b.getD i 0) ∧
  (∀ (s : State) (r : GRef) (i : Nat) (c : Ctx) (p : Posted), s.ctx? r = some c → c.g.posted[i]? = some p →
    (c.postBehind i p = true ∨ p.sent.isSome = true → exec (.storeAcknowledged r i) s = .next s) ∧
    (∀ y b q u, c.postBehind i p = false → p.sent = none → p.stores = (y, b) :: q → pteSystem y.pte = false → p.vers = none →
      isRel p.word = false → s.postWrite (c.postPty p) p.covers p.stores = (none, u) →
      exec (.storeAcknowledged r i) s = .next (u.dropPosted c i))) ∧
  (∀ (s : State) (r : GRef) (i : Nat) (c : Ctx) (e : LaEnt) (f : LateFail), s.ctx? r = some c → c.g.la[i]? = some e → e.fail = some f →
    (c.g.lateReady = false → exec (.lateFailure r i) s = .next s) ∧
    (c.g.lateReady = true → s.policy = none → c.g.versioned = false → e.once = false →
      ∃ u g, exec (.lateFailure r i) s = .next u ∧ grp? u r = some g ∧ g.st = .stopped ∧ g.stop.map (·.cause) = some f.cause ∧
        g.replay = some ⟨e.pc, e.word, e.pcm, e.got, e.counted⟩ ∧ g.pc = c.g.pc ∧ g.pcm = c.g.pcm ∧ g.v = c.g.v ∧ g.s = c.g.s))

/-- FENCE checks its address, waits for every earlier access and then releases, promotes and acquires at the scope of its page; PREF has no
result, traps on region 01 alone, waits for earlier acquires before it touches windows (which R209 and R314 ask of a touch and R206 does
not mention: the model's reading, log 25); CFLUSH and CINV check their address, wait for the party's accesses
to its line and act on the line in the L1 alone; SPEMPTY makes `d` lines empty and SPSTATE reads whether lines are full; CTLD loads
a table of 256 rising codes (R151, R204 to R208). -/
def Obligations.FencesCachesAndTables : Prop :=
  (∀ (s : State) (w : MemW) (x : Ex), issuing s (.fence w) = some x →
    let got := x.uniCheck (start x s) (wantNone x.c.g.priv) 4 (x.uaddr w.mem)
    let core := x.c.core
    (∀ t u, got = (.error t, u) → exec (.fence w) s = .next (traps x s t)) ∧
    (∀ p u, got = (.ok p, u) → x.c.quiet = false → exec (.fence w) s = .next (waitsIn x s u .engine)) ∧
    (∀ u, got = (.ok none, u) → x.c.quiet = true →
      exec (.fence w) s = .next (retiresIn x s ((u.releaseTeam x.c.t core).acquireTeam x.c.t core) [])) ∧
    (∀ p u, got = (.ok (some p), u) → x.c.quiet = true →
      exec (.fence w) s = .next (retiresIn x s (((u.release core p.pte).promote core p.pte).acquire core p.pte) []))) ∧
  (∀ (s : State) (w : PrefW) (x : Ex), issuing s (.pref w) = some x →
    let as := (x.laneAddrs w.mem).map (·.2)
    (∀ a, as.find? (fun a => regionOf a == 1) = some a → exec (.pref w) s = .next (traps x s (trapA .permission a .load))) ∧
    ((∀ a ∈ as, regionOf a ≠ 1) → x.c.acqPending = true → exec (.pref w) s = .next (waits x s .engine)) ∧
    ((∀ a ∈ as, regionOf a ≠ 1) → x.c.acqPending = false → ∃ ls, exec (.pref w) s = .next (retiresIn x s ((start x s).touchAll x.c ls) []) ∧
      ∀ l, l ∈ ls ↔ ∃ a ∈ as, regionOf a = 2 ∧ bits a.toNat 53 32 = 0 ∧ isSpad x.c.t a = true ∧ l = lineOf (a.toNat % 2 ^ 32))) ∧
  (∀ (s : State) (w : MemW) (x : Ex) (inv : Bool), issuing s (if inv then .cinv w else .cflush w) = some x →
    let e := exec (if inv then .cinv w else .cflush w) s
    let got := x.uniCheck (start x s) (wantNone x.c.g.priv) 1 (x.uaddr w.mem)
    (∀ t u, got = (.error t, u) → e = .next (traps x s t)) ∧
    (∀ u, got = (.ok none, u) → e = .next (retiresIn x s u [])) ∧
    (∀ p u, got = (.ok (some p), u) → x.c.mustWait [(lineOf p.pa, 128)] true = true → e = .next (waitsIn x s u .engine)) ∧
    (∀ p u, got = (.ok (some p), u) → x.c.mustWait [(lineOf p.pa, 128)] true = false → e = .next (retiresIn x s
      (if inv then u.l1Drop x.c.core (lineIs (lineOf p.pa)) else u.l1Clean x.c.core (lineIs (lineOf p.pa))) []))) ∧
  (∀ (s : State) (core line k : Nat) (y : L1Line), core < 128 → k ∈ s.l1Cores core →
    ((s.l1Clean core (lineIs line)).core k).l1Find line = some y → y.dirty = 0) ∧
  (∀ (s : State) (core line k : Nat), core < 128 → k ∈ s.l1Cores core → ((s.l1Drop core (lineIs line)).core k).l1Find line = none) ∧
  (∀ (s : State) (w : RegMemW) (x : Ex), issuing s (.spempty w) = some x →
    let a := x.uaddr w.mem
    let m := x.uval w.d 32 false 0
    (∀ t, x.c.t.spCheck a 1 false .store = .error t → exec (.spempty w) s = .next (traps x s t)) ∧
    (∀ o, x.c.t.spCheck a 1 false .store = .ok o →
      (x.c.t.spadSize < lineOf o + 128 * m → exec (.spempty w) s = .next (traps x s (trapA .badAddress a .store))) ∧
      (lineOf o + 128 * m ≤ x.c.t.spadSize → m ≠ 0 → x.c.t.copyOver (lineOf o) m = true →
        exec (.spempty w) s = .next (waits x s .engine)) ∧
      (lineOf o + 128 * m ≤ x.c.t.spadSize → m = 0 ∨ x.c.t.copyOver (lineOf o) m = false →
        exec (.spempty w) s = .next (retiresIn x s
          ((start x s).modTeam x.c.ref.t fun t => t.markEmpty (lineOf o) m) [])))) ∧
  (∀ (t : Team) (o n a : Nat), (t.markEmpty o n).isFull a =
    if o / 128 ≤ a / 128 ∧ a / 128 < o / 128 + n then false else t.isFull a) ∧
  (∀ (s : State) (w : RegMemW) (x : Ex), issuing s (.spstate w) = some x →
    let lanes := x.spadLanes 1 false false .load (x.lanes.map fun i => (i, x.addr w.mem i))
    (∀ t, lanes = .error t → exec (.spstate w) s = .next (traps x s t)) ∧
    (∀ ls, lanes = .ok ls → exec (.spstate w) s = .next (retires x s
      (predWr w.d x.act (maskOf ((ls.filter fun l => x.c.t.isFull (l.va.toNat % 2 ^ 32)).map (·.lane))))))) ∧
  (∀ (s : State) (w : MemW) (x : Ex), issuing s (.ctld w) = some x →
    let a := x.uaddr w.mem
    (a.toNat % 128 ≠ 0 → exec (.ctld w) s = .next (traps x s (trapA .badAddress a .load))) ∧
    (∀ b u, a.toNat % 128 = 0 → (start x s).recordRead x.c (.ctld w) x.pc a 1024 = .bytes b u →
      let code (i : Nat) : Nat := numAt b (4 * i) 4
      (∀ i, i < 256 → (∀ j, j < i → (f32 (code j)).isNan = false ∧ (f32 (code j)).lt (f32 (code (j + 1))) = true) →
        (f32 (code i)).isNan = true ∨ (i < 255 ∧ (f32 (code i)).lt (f32 (code (i + 1))) = false) →
        exec (.ctld w) s = .next (traps x s (trapE .badTable (info2 a.toNat i)))) ∧
      ((∀ i, i < 256 → (f32 (code i)).isNan = false) → (∀ i, i < 255 → (f32 (code i)).lt (f32 (code (i + 1))) = true) →
        exec (.ctld w) s = .next (retiresIn x s (u.modTeam x.c.ref.t fun t =>
          { t with code := Vector.ofFn fun i : Fin 256 => BitVec.ofNat 32 (code i.val), loaded := true }) []))))

/-! ### Region windows -/

/-- WBIND reads and checks a descriptor and its records and binds its window, empty and ABSENT; a zero operand unbinds; WARM sets
the offset, empties the range and arms; WPUT starts a write-back once the party's posted stores and atomics on its range are performed;
each waits while a copy of the window runs, and where it starts one while an earlier acquire has not read, traps with BAD-WINDOW where
its window does not fit, and with `.go` starts the copy; WSTATE reads a condition of a window (R209 to R212, R215, R314). -/
def Obligations.WindowWords : Prop :=
  (∀ (s : State) (w : WinW) (x : Ex), issuing s (.wbind w) = some x →
    let k := w.k.val
    let v := x.winVal w.a w.off
    let a : Addr := BitVec.ofNat 56 v.toNat
    let held : Prop := (x.c.t.win k).busy = true ∨ (w.go = true ∧ x.c.acqPending = true)
    (held → exec (.wbind w) s = .next (waits x s .engine)) ∧
    (¬ held → v = 0 → exec (.wbind w) s = .next (retiresIn x s ((start x s).modTeam x.c.ref.t fun t =>
      t.setWin k { t.win k with st := .unbound, desc := none, daddr := 0, ofs := 0, next := 0 }) [])) ∧
    (¬ held → v ≠ 0 → a.toNat % 64 ≠ 0 → exec (.wbind w) s = .next (traps x s (trapA .badAddress a .load))) ∧
    (∀ b u, ¬ held → v ≠ 0 → a.toNat % 64 = 0 → (start x s).recordRead x.c (.wbind w) x.pc a 64 = .bytes b u →
      (winFields (natOf b) = none → exec (.wbind w) s = .next (traps x s (trapE .badRecord (BitVec.ofNat 128 a.toNat)))) ∧
      (∀ d, winFields (natOf b) = some d → exec (.wbind w) s = .next (x.finish (start x s) (wbindRecords w v d x u))))) ∧
  (∀ (w : WinW) (v : W64) (d : WinDesc) (x : Ex) (u : State),
    (d.layoutAddr % 32 ≠ 0 → wbindRecords w v d x u = .trap (trapA .badAddress (BitVec.ofNat 56 d.layoutAddr) .load)) ∧
    (d.layoutAddr % 32 = 0 → d.tprAddr % 32 ≠ 0 →
      wbindRecords w v d x u = .trap (trapA .badAddress (BitVec.ofNat 56 d.tprAddr) .load)) ∧
    (d.layoutAddr = 0 → d.tprAddr = 0 →
      (d.recordsOk = false → wbindRecords w v d x u = .trap (trapE .badRecord (BitVec.ofNat 128 (v.toNat % 2 ^ 56)))) ∧
      (d.recordsOk = true → d.outside x.c.t.spadSize = true →
        wbindRecords w v d x u = .trap (trapA .badAddress (BitVec.ofNat 56 (v.toNat % 2 ^ 56)) .load)) ∧
      (d.recordsOk = true → d.outside x.c.t.spadSize = false → x.c.t.winClash w.k.val d = true →
        wbindRecords w v d x u = .trap (trapE .badWindow (BitVec.ofNat 128 w.k.val))) ∧
      (d.recordsOk = true → d.outside x.c.t.spadSize = false → x.c.t.winClash w.k.val d = false →
        let z := u.modTeam x.c.ref.t fun t => t.bindWin w.k.val d v x.c.party
        wbindRecords w v d x u = .done (if w.go then z.startCopy x.c.ref.t w.k.val x.c.issuer else z) [] none))) ∧
  (∀ (t : Team) (k : Fin 32) (d : WinDesc) (v : W64) (g : Nat),
    let u := t.bindWin k.val d v g
    (u.win k.val).st = .absent ∧ (u.win k.val).desc = some d ∧ (u.win k.val).ofs = 0 ∧ (u.win k.val).daddr = v ∧
    (∀ j, j < 32 → j ≠ k.val → u.win j = t.win j) ∧ u.spad = t.spad ∧
    ∀ a, u.isFull a = if d.spoff / 128 ≤ a / 128 ∧ a / 128 < d.spoff / 128 + d.range / 128 then false else t.isFull a) ∧
  (∀ (s : State) (w : WinW) (x : Ex), issuing s (.warm w) = some x →
    let k := w.k.val
    let win := x.c.t.win k
    let o := x.winVal w.a w.off
    let z (d : WinDesc) : State := (start x s).modTeam x.c.ref.t fun t =>
      (t.markEmpty d.spoff (d.range / 128)).setWin k { win with st := .absent, ofs := o, next := 0, armer := x.c.party }
    let held : Prop := win.busy = true ∨ (w.go = true ∧ x.c.acqPending = true)
    (held → exec (.warm w) s = .next (waits x s .engine)) ∧
    (¬ held → win.st = .unbound → exec (.warm w) s = .next (traps x s (trapWindow k))) ∧
    (∀ d, ¬ held → win.st ≠ .unbound → win.desc = some d → d.layout.isSome = true → 2 ^ 16 ≤ o.toNat →
      exec (.warm w) s = .next (traps x s (trapWindow k))) ∧
    (∀ d, ¬ held → win.st ≠ .unbound → win.desc = some d → d.layout = none ∨ o.toNat < 2 ^ 16 →
      exec (.warm w) s = .next (retiresIn x s (if w.go then (z d).startCopy x.c.ref.t k x.c.issuer else z d) []))) ∧
  (∀ (s : State) (w : WputW) (x : Ex), issuing s (.wput w) = some x →
    let k := w.k.val
    let win := x.c.t.win k
    let i := x.c.issuer
    let held : Prop := win.busy = true ∨ x.c.acqPending = true
    (held → exec (.wput w) s = .next (waits x s .engine)) ∧
    (¬ held → win.st = .unbound → exec (.wput w) s = .next (traps x s (trapWindow k))) ∧
    (∀ d, ¬ held → win.st ≠ .unbound → win.desc = some d → x.c.mustWait [(2 ^ 64 + d.spoff, d.range)] false = true →
      exec (.wput w) s = .next (waits x s .engine)) ∧
    (∀ d, ¬ held → win.st ≠ .unbound → win.desc = some d → x.c.mustWait [(2 ^ 64 + d.spoff, d.range)] false = false →
      d.tpr.isSome = true ∨ d.layout.isSome = true → exec (.wput w) s = .next (traps x s (trapWindow k))) ∧
    (∀ d, ¬ held → win.st ≠ .unbound → win.desc = some d → x.c.mustWait [(2 ^ 64 + d.spoff, d.range)] false = false →
      d.tpr = none → d.layout = none →
      exec (.wput w) s = .next (retiresIn x s (((start x s).modTeam x.c.ref.t fun t => t.setWin k { win with
        st := .writing, before := win.st, next := 0, unitDone := 0, stop := false, stopInfo := none, retries := none
        issuer := i.grp, tick := i.tick, epoch := i.epoch, vc := i.vc }).modCore x.c.t.core fun c =>
          { c with copies := c.copies ++ [(x.c.ref.t, k)] }) []))) ∧
  (∀ (s : State) (w : WstateW) (x : Ex), issuing s (.wstate w) = some x →
    let win := x.c.t.win w.k.val
    let holds : Bool := match w.cc with
      | .bound => win.st != .unbound
      | .full => win.st == .present
      | .absent => win.st == .absent
      | .idle => !(win.st == .filling || win.st == .writing)
    exec (.wstate w) s = .next (retires x s (predWr w.d x.c.g.exec (if holds then x.c.g.exec else 0))))

/-- The copy engine moves one line of one of the first eight copies of its core at a step: a fill without conversion reads a unit of
a row from its source at the home and writes it, and zeros to the end of the pitch, into the scratchpad, making its lines full, with
the window PRESENT after the last row; a write-back waits for its line to be full at the start of a clock and writes it to its home;
a copy that meets a cause stops with it, and the window keeps its state (R213, R214, R283, R285). One unit a step is the model's choice
(log 19); a copy also rests while its team is saved with no mesh word unfinished, and while its core holds the record of its RETRY. -/
def Obligations.Copies : Prop :=
  (∀ (s : State) (r : TeamRef) (k : Fin 32),
    (∀ u, s.copyStep r k.val = .moved u → exec (.copyLine r k) s = .next u ∧ exec (.copyFault r k) s = .next s) ∧
    (∀ u t, s.copyStep r k.val = .fault u t →
      exec (.copyLine r k) s = .next s ∧ exec (.copyFault r k) s = .next (u.stopCopy r k.val t)) ∧
    (s.copyStep r k.val = .waits → exec (.copyLine r k) s = .next s ∧ exec (.copyFault r k) s = .next s) ∧
    (∀ t, s.team? r = some t → s.copyActive t k.val = false → s.copyStep r k.val = .waits)) ∧
  (∀ (s : State) (t : Team) (k : Nat), s.copyActive t k = true ↔
    (t.ref, k) ∈ (s.core t.core).copies.take 8 ∧ (t.win k).stop = false ∧
    ((t.win k).retries = none ∨ (s.core t.core).evq.length ≤ 256) ∧
    (t.saving = false ∨ t.mq ≠ [] ∨ ∃ g ∈ t.groups, g.inQntt = true)) ∧
  (∀ (s : State) (r : TeamRef) (k : Fin 32) (t : Team) (l : Launch) (d : WinDesc) (a : Addr) (ps : List Piece) (u : State),
    s.team? r = some t → s.launch? r.launch = some l →
    let w := t.win k.val
    s.copyActive t k.val = true → w.desc = some d → w.st = .filling → w.dying = false → d.tpr = none → d.cnt = false → d.acq = false →
    d.orient = false → l.pkt.ord = false → t.seg = none → d.rowAddr w.ofs w.next = some a →
    let cn := d.unitSpan w.unitDone
    s.enginePieces t.core l.pkt.ctx (wantLoad false .fillRead) false (recParts (a + BitVec.ofNat 56 (cn.1 * d.esz)) (cn.2 * d.esz)) =
      (.ok ps, u) → (∀ p ∈ ps, u.isLost p.pa = false) → (∀ p ∈ ps, u.far t.core p.pa = false) →
    let o := (d.unitBytes w.next w.unitDone).1
    let m := (d.unitBytes w.next w.unitDone).2
    let b := (ps.map fun p => s.mem.read p.pa p.n).flatten
    let all := b ++ List.replicate (m - b.length) 0
    let w' := ({ w with acquired := true } : Window).advance d
    ∃ z t', exec (.copyLine r k) s = .next z ∧ z.team? r = some t' ∧ z.mem = s.mem ∧
      (∀ i, i < all.length → t'.spadByte (o + i) = all.getD i 0) ∧
      (∀ j, j < o ∨ o + all.length ≤ j → t'.spadByte j = t.spadByte j) ∧
      (∀ i, i < m / 128 → t'.isFull (o + 128 * i) = true) ∧
      t'.win k.val = (if w'.next = d.rows then { w' with st := .present } else w') ∧ t'.groups = t.groups) ∧
  (∀ (s : State) (r : TeamRef) (k : Fin 32) (t : Team) (l : Launch) (d : WinDesc) (a : Addr) (p : Piece) (u : State),
    s.team? r = some t → s.launch? r.launch = some l →
    let w := t.win k.val
    s.copyActive t k.val = true → w.desc = some d → w.st = .writing → d.orient = false → d.rel = false → l.pkt.ord = false →
    t.seg = none → d.rowAddr w.ofs w.next = some a →
    let cn := d.unitSpan w.unitDone
    let o := d.spoff + w.next * d.pitch + cn.1 * d.esz
    let n := cn.2 * d.esz
    (t.serves o = false → s.copyStep r k.val = .waits) ∧
    (t.serves o = true → t.spadLost o = false → s.enginePieces t.core l.pkt.ctx (wantStore false .drainWrite) false
        (recParts (a + BitVec.ofNat 56 (cn.1 * d.esz)) n) = (.ok [p], u) → u.isLost p.pa = false → u.far t.core p.pa = false →
      ∃ z, exec (.copyLine r k) s = .next z ∧ ∀ i, i < p.n → i < n → z.mem.byte (p.pa + i) = t.spadByte (o + i))) ∧
  (∀ (s : State) (r : TeamRef) (k : Fin 32) (tm : Team) (l : Launch) (t : Trap), s.team? r = some tm → s.launch? r.launch = some l →
    s.policy = none → ∃ tm', (s.stopCopy r k.val t).team? r = some tm' ∧ (tm'.win k.val).stop = true ∧
      (tm'.win k.val).stopInfo.map (·.cause) = some t.cause ∧ (tm'.win k.val).st = (tm.win k.val).st ∧
      (tm'.win k.val).next = (tm.win k.val).next ∧ tm'.spad = tm.spad)

/-! ### Twins -/

/-- TACC is posted, one entry for each line, and TCONS and TCNT are accepted, once their checks pass and the party's earlier twin
operations on their lines are performed; TRESET clears the accumulators and headers of its lines, and traps with DATA-LOST where the
header of one is lost and with TWIN-BUSY where a version holds one. At the home a contribution to a line that owes less than its
lanes is refused, and else adds each value, rounded to a multiple of 2^-80 and saturating, and lowers the count, the line READY at
0; an increase past 65,535 is refused; a consuming read of an IDLE line gives 0, of a READY one each sum rounded into its page's format
to nearest even (NaN for a NaN sum), and waits or fails at an OWED one, with TWIN-EARLY at the end of its time; one of a line whose header or accumulators are lost fails (R44, R129, R130, R197,
R216 to R219, R373). That the records name the line's physical address is the model's choice (log 25), and so is the wait for earlier twin
operations (log 6). -/
def Obligations.Twins : Prop :=
  (∀ (s : State) (w : TaccW) (x : Ex), issuing s (.tacc w) = some x → TwinWord x s w.mem true (fun ls u => retiresIn x s
    (u.modGroup x.c.ref fun g => { g with posted := g.posted ++ x.postTaccs u w.d ls }) []) (exec (.tacc w) s)) ∧
  (∀ (s : State) (w : TconsW) (x : Ex), issuing s (.tcons w) = some x →
    TwinWord x s w.mem false (fun ls u => defers x s u (.tcons ls) []) (exec (.tcons w) s)) ∧
  (∀ (s : State) (w : RegMemW) (x : Ex), issuing s (.tcnt w) = some x →
    TwinWord x s w.mem false (fun ls u => defers x s u (.tcnt ls) []) (exec (.tcnt w) s)) ∧
  (∀ (s : State) (w : RegMemW) (x : Ex), issuing s (.treset w) = some x →
    let a := x.uaddr w.mem
    let m := x.uval w.d 32 false 0
    (∀ t, x.twinCheck [a] = some t → exec (.treset w) s = .next (traps x s t)) ∧
    (x.twinCheck [a] = none → m = 0 → exec (.treset w) s = .next (if x.c.acqPending then waits x s .engine else retires x s [])) ∧
    (∀ qs u ps v, x.twinCheck [a] = none → m ≠ 0 → (start x s).twinPieces x.c true [(0, a)] = (.ok qs, u) →
      u.resetLines x.c m (lineVa (primary a)) = (.ok ps, v) →
      let held : Prop := x.c.twinWait (ps.map fun p => lineVa p.va) = true ∨ ∃ p ∈ ps, v.heldElsewhere x.c.version (lineOf p.pa) = true
      (held → exec (.treset w) s = .next (waitsIn x s v .engine)) ∧
      (¬ held → (∀ p, ps.find? (fun p => v.isLost p.hdr) = some p →
          exec (.treset w) s = .next (traps x s (trapE .dataLost (BitVec.ofNat 128 (lineOf p.hdr))))) ∧
        (∀ p, (∀ p ∈ ps, v.isLost p.hdr = false) → ps.find? (fun p => v.verSet p) = some p →
          exec (.treset w) s = .next (traps x s (trapE .twinBusy (BitVec.ofNat 128 (lineOf p.pa))))) ∧
        ((∀ p ∈ ps, v.isLost p.hdr = false) → (∀ p ∈ ps, v.verSet p = false) →
          exec (.treset w) s = .next (retiresIn x s (ps.foldl (fun s p => s.twReset p) v) []))))) ∧
  (∀ (m : Memory) (h : Nat) (y : THdr), y.count < 65536 → y.st < 4 →
    (m.setHdr h y).hdr h = y ∧ bitAt ((m.setHdr h y).num h 4) 16 = bitAt (m.num h 4) 16 ∧
    ∀ a, a < h ∨ h + 4 ≤ a → (m.setHdr h y).byte a = m.byte a) ∧
  (∀ (m : Memory) (a : Nat) (v : Int), -2 ^ 127 ≤ v → v < 2 ^ 127 → (m.setAcc a v).acc a = v ∧
    ∀ b, b < a ∨ a + 16 ≤ b → (m.setAcc a v).byte b = m.byte b) ∧
  (∀ (s : State) (p : Piece) (c : Nat), let h := s.mem.hdr p.hdr
    (65535 < h.count + c → s.twCount none p c = none) ∧
    (h.count + c ≤ 65535 → s.twCount none p c = some { s with mem := s.mem.setHdr p.hdr { h with count := h.count + c, st := 1 } })) ∧
  (∀ (s : State) (p : Piece) (vals : List (Nat × ExactNum)), let h := s.mem.hdr p.hdr
    (h.count < vals.length → s.twContribute none p vals = .underflow) ∧
    (∀ a y, vals = [(a, y)] → 1 ≤ h.count → ∃ c sat nan, s.twContribute none p vals =
        .applied { s with mem := (s.mem.setAcc a c).setHdr p.hdr ⟨h.count - 1, if h.count = 1 then 2 else h.st, h.nanf || nan, h.range || sat⟩ }
          sat nan ∧ (nan = true ↔ contribution y = none) ∧
        (∀ q, contribution y = some q → s.mem.acc a ≠ -2 ^ 127 →
          c = max (-(2 ^ 127 - 1)) (min (2 ^ 127 - 1) (s.mem.acc a + q)) ∧ (sat = true ↔ c ≠ s.mem.acc a + q)) ∧
        (contribution y = none ∨ s.mem.acc a = -2 ^ 127 → c = -2 ^ 127 ∧ sat = false))) ∧
  (∀ (neg : Bool) (n d : Nat), 0 < d → ∃ q : Nat, contribution (.fin neg n d) = some (if neg then -(q : Int) else (q : Int)) ∧
    2 * ((n * 2 ^ 80 : Nat) : Int) ≤ 2 * (q * d : Nat) + (d : Nat) ∧ 2 * (q * d : Nat) ≤ 2 * ((n * 2 ^ 80 : Nat) : Int) + (d : Nat)) ∧
  (∀ (s : State) (nb : Bool) (k : TwLine) (n : Nat), s.heldElsewhere none (lineOf k.p.pa) = false → s.twLost k.p = some n →
    s.consumeLine none nb k = .lost n) ∧
  (∀ (s : State) (nb : Bool) (k : TwLine), s.heldElsewhere none (lineOf k.p.pa) = false → s.twLost k.p = none →
    ((s.mem.hdr k.p.hdr).st = 0 → s.consumeLine none nb k = .vals (k.lanes.map fun e => (e.1, 0)) s) ∧
    ((s.mem.hdr k.p.hdr).st = 2 →
      let sum (p : Piece) : ExactNum :=
        let n := s.mem.acc p.acc
        if n = 0 then .fin false 0 1 else if n = -2 ^ 127 then .nan else .fin (n < 0) n.natAbs (2 ^ 80)
      s.consumeLine none nb k = .vals (k.lanes.map fun e => (e.1, round (pteTwFmt e.2.pte) .rne (sum e.2))) (s.twConsume none k.p)) ∧
    ((s.mem.hdr k.p.hdr).st = 1 → s.consumeLine none nb k = if nb || pteTwFault k.p.pte then .early else .waits)) ∧
  (∀ (s : State) (r : GRef) (i : Nat) (c : Ctx) (e : LaEnt), s.ctx? r = some c → c.g.la[i]? = some e →
    (e.done = true ∨ s.twinLate e = none → exec (.twinEarlyTimeout r i) s = .next s) ∧
    (∀ k, e.done = false → s.twinLate e = some k → exec (.twinEarlyTimeout r i) s = .next (s.modGroup r fun g =>
      { g with la := modifyAt (fun e => { e with done := true, fail := some (earlyFail k) }) i g.la })) ∧
    (∀ ls k q, e.op = .tcons ls → twLines ls = k :: q → pteSystem k.p.pte = false → s.heldElsewhere e.vers (lineOf k.p.pa) = false →
      (s.twinLate e = some k ↔ (s.twView e.vers k.p).st = 1 ∧ e.since + pteTwTime k.p.pte ≤ s.clock)))

/-! ### Accumulators and the matrix stream -/

/-- A group reaches the tiles it owns: ATAKE waits until it owns its tile, AGIVE hands an owned tile to a live group or the
sequencer and traps with ACC-OWNER otherwise; ALD reads and AST writes one element in each active lane, converted between XF48 and
`FT`, with BAD-ADDRESS outside the tile and ACC-OWNER where neither ownership nor a published drain window gives the row; AWIN, a
word of group 0, publishes a drain window and AWIN.UNP takes it back (R20, R243, R245, R246). -/
def Obligations.AccumulatorWords : Prop :=
  (∀ (s : State) (w : AtakeW) (x : Ex), issuing s (.atake w) = some x →
    (x.c.t.ownerOf w.t.val = x.c.g.idx → exec (.atake w) s = .next (retiresIn x s ((start x s).modGroup x.c.ref fun g =>
      { g with vc := g.vc.join (x.c.t.tileVc.getD w.t.val []) }) [])) ∧
    (x.c.t.ownerOf w.t.val ≠ x.c.g.idx → exec (.atake w) s = .next (waits x s (.atake w.t.val)))) ∧
  (∀ (s : State) (w : AgiveW) (x : Ex), issuing s (.agive w) = some x →
    let t := w.t.val
    let g := x.uval w.a 32 false w.imm
    let bad : Prop := x.c.t.ownerOf t ≠ x.c.g.idx ∨ 64 < g ∨ (g < 64 ∧ x.c.t.isLive g = false)
    (bad → exec (.agive w) s = .next (traps x s (trapE .accOwner (info2 t (x.c.t.ownerOf t))))) ∧
    (¬ bad → x.c.g.aldOn t = true → exec (.agive w) s = .next (waits x s .engine)) ∧
    (¬ bad → x.c.g.aldOn t = false → exec (.agive w) s = .next (retiresIn x s ((start x s).modTeam x.c.ref.t fun u =>
      { u with owner := u.owner.setIfInBounds t g
               tileVc := u.tileVc.setIfInBounds t ((u.tileVc.getD t []).join (x.c.g.vc.bump x.c.party)) }) []))) ∧
  (∀ (s : State) (w : AldW) (x : Ex), issuing s (.ald w) = some x →
    (∀ t, x.accElems w.t.val w.a w.off = .error t → exec (.ald w) s = .next (traps x s t)) ∧
    (∀ es, x.accElems w.t.val w.a w.off = .ok es →
      exec (.ald w) s = .next (retires x s (laneWrs w.d (if w.ft = .x48 then 2 else 1) (es.map fun e =>
        (e.1, aldVal w.rm w.ft (x.c.t.accGet w.t.val e.2.1 e.2.2))))))) ∧
  (∀ (s : State) (w : AstW) (x : Ex), issuing s (.ast w) = some x →
    (∀ t, x.accElems w.t.val w.a w.off = .error t → exec (.ast w) s = .next (traps x s t)) ∧
    (∀ es, x.accElems w.t.val w.a w.off = .ok es →
      exec (.ast w) s = .next (retiresIn x s ((start x s).modTeam x.c.ref.t fun t => es.foldl (fun t e =>
        t.accSet w.t.val e.2.1 e.2.2 (astVal w.ft (x.val w.d (if w.ft = .x48 then 64 else 32) false 0 e.1))) t) []))) ∧
  (∀ (x : Ex) (tile : Nat) (a : Opnd) (off : W32) (i : Nat),
    let e : Int := (x.val a 32 false 0 i : Nat) + off.toInt
    let mine (r : Nat) : Prop := x.c.t.ownerOf tile = x.c.g.idx ∨ ∃ k, k < 2 ∧ (x.c.t.drain k).pub = true ∧ (x.c.t.drain k).tile = tile ∧
      (x.c.t.drain k).grp = x.c.g.idx ∧ (x.c.t.drain k).base ≤ r ∧ r ≤ (x.c.t.drain k).limit
    (∀ n : Nat, e = n → n < 16384 → mine (n / 128) → x.accElem tile a off i = .ok (n / 128, n % 128)) ∧
    (∀ n : Nat, e = n → n < 16384 → ¬ mine (n / 128) → x.accElem tile a off i = .error (trapE .accOwner (info2 tile (x.c.t.ownerOf tile)))) ∧
    (e < 0 ∨ 16384 ≤ e → x.accElem tile a off i = .error (trapE .badAddress (BitVec.ofInt 128 (e % 2 ^ 56))))) ∧
  (∀ (t : Team) (tile r c tile' r' c' : Nat) (y : W48), r < 128 → c < 128 → r' < 128 → c' < 128 →
    (t.accSet tile r c y).accGet tile' r' c' = if tile = tile' ∧ r = r' ∧ c = c' then y else t.accGet tile' r' c') ∧
  (∀ (s : State) (w : AwinW) (x : Ex), issuing s (.awin w) = some x →
    let t := w.t.val
    let a := x.uval w.a 32 false 0
    let b := x.uval w.b 32 false 0
    let owned : Prop := x.c.t.ownerOf t = 64 ∧ w.g.val < x.c.t.groups.length
    let fits : Prop := (x.c.t.drain w.k.val).pub = false ∧ a ≤ b ∧ b ≤ 127 ∧ x.c.t.drainMeets t a b = none
    (x.c.g.idx ≠ 0 → exec (.awin w) s = .next (traps x s (trapPriv (wordLow (.awin w)) 4))) ∧
    (x.c.g.idx = 0 → ¬ owned → exec (.awin w) s = .next (traps x s (trapE .accOwner (info2 t (x.c.t.ownerOf t))))) ∧
    (x.c.g.idx = 0 → owned → ¬ fits → exec (.awin w) s = .next (traps x s (trapE .accWindow (info2 t w.k.val)))) ∧
    (x.c.g.idx = 0 → owned → fits → x.c.t.meshOn t a b = true → exec (.awin w) s = .next (waits x s .engine)) ∧
    (x.c.g.idx = 0 → owned → fits → x.c.t.meshOn t a b = false → exec (.awin w) s = .next (retiresIn x s
      ((start x s).modTeam x.c.ref.t fun u => { u with dwin := u.dwin.setIfInBounds w.k.val ⟨a, b, t, w.g.val, true⟩ }) []))) ∧
  (∀ (s : State) (w : AwinUnpW) (x : Ex), issuing s (.awinUnp w) = some x →
    let d := x.c.t.drain w.k.val
    let reading : Prop := d.pub = true ∧ ∃ g, x.c.t.grp? d.grp = some g ∧ g.aldOn d.tile = true
    (x.c.g.idx ≠ 0 → exec (.awinUnp w) s = .next (traps x s (trapPriv (wordLow (.awinUnp w)) 4))) ∧
    (x.c.g.idx = 0 → reading → exec (.awinUnp w) s = .next (waits x s .engine)) ∧
    (x.c.g.idx = 0 → ¬ reading → exec (.awinUnp w) s = .next (retiresIn x s
      ((start x s).modTeam x.c.ref.t fun u => { u with dwin := u.dwin.setIfInBounds w.k.val { d with pub := false } }) [])))

/-- The words that the sequencer performs itself: MSET and MADD write a register, MLOOP counts down and transfers while its register
is not 0, MJMP transfers, MEND ends the sequencer once the mesh queue is empty, MTAKE and MWIN wait for a tile and for a drain
window, MGIVE hands a tile to a live group, and MBAR.ARR, MBAR.WAIT and MBAR.SYNC arrive and wait at a barrier once the mesh words
before are done; each stops with what it meets. A group that meets a stream word traps with ILLEGAL, and so does the sequencer at a
group word (R86, R223, R226, R240, R241, R243, R247). -/
def Obligations.SequencerWords : Prop :=
  (∀ (s : State) (w : MsetW) (x : Sx), sequencing s (.mset w) = some x →
    exec (.mset w) s = .next (seqDone x (s.setM x.t.ref w.d (x.val w.a w.imm)))) ∧
  (∀ (s : State) (w : MaddW) (x : Sx), sequencing s (.madd w) = some x →
    exec (.madd w) s = .next (seqDone x (s.setM x.t.ref w.d (x.val w.a w.imm + x.val w.b w.imm)))) ∧
  (∀ (s : State) (w : MloopW) (x : Sx), sequencing s (.mloop w) = some x →
    let v := x.val w.d 0 - 1
    let u := s.setM x.t.ref w.d v
    let a := dispPc x.pc w.disp
    (v = 0 → exec (.mloop w) s = .next (seqDone x u)) ∧
    (∀ t, v ≠ 0 → s.entryTrap x.t.core x.l.pkt.ctx false a = some t → exec (.mloop w) s = .next (seqStops x s t)) ∧
    (v ≠ 0 → s.entryTrap x.t.core x.l.pkt.ctx false a = none → exec (.mloop w) s = .next (seqDone x u (some a)))) ∧
  (∀ (s : State) (w : MjmpW) (x : Sx), sequencing s (.mjmp w) = some x →
    let a := dispPc x.pc w.disp
    (∀ t, s.entryTrap x.t.core x.l.pkt.ctx false a = some t → exec (.mjmp w) s = .next (seqStops x s t)) ∧
    (s.entryTrap x.t.core x.l.pkt.ctx false a = none → exec (.mjmp w) s = .next (seqDone x s (some a)))) ∧
  (∀ (s : State) (x : Sx), sequencing s .mend = some x →
    (x.t.mq ≠ [] → exec .mend s = .next (seqWaits x s .none)) ∧
    (x.t.mq = [] → ∃ u t, exec .mend s = .next u ∧ u.team? x.t.ref = some t ∧ t.sq.sst = .ended ∧ t.sq.spc = x.t.sq.spc ∧ t.sq.sbm = 0 ∧
      t.sq.m = x.t.sq.m ∧ u.mem = s.mem)) ∧
  (∀ (s : State) (w : MtakeW) (x : Sx), sequencing s (.mtake w) = some x →
    (4 ≤ w.t.val → x.t.pair = false → exec (.mtake w) s = .next (seqStops x s x.illegalTrap)) ∧
    (w.t.val < 4 ∨ x.t.pair = true → x.t.ownerOf w.t.val = 64 →
      exec (.mtake w) s = .next (seqDone x (s.seqJoin x.t.ref (x.t.tileVc.getD w.t.val [])))) ∧
    (w.t.val < 4 ∨ x.t.pair = true → x.t.ownerOf w.t.val ≠ 64 → exec (.mtake w) s = .next (seqWaits x s (.tile w.t.val)))) ∧
  (∀ (s : State) (w : MgiveW) (x : Sx), sequencing s (.mgive w) = some x →
    let t := w.t.val
    let g := (x.val w.a w.imm).toNat
    let bad : Prop := 63 < g ∨ x.t.isLive g = false ∨ x.t.ownerOf t ≠ 64
    (4 ≤ t → x.t.pair = false → exec (.mgive w) s = .next (seqStops x s x.illegalTrap)) ∧
    (t < 4 ∨ x.t.pair = true → bad → exec (.mgive w) s = .next (seqStops x s (trapE .accOwner (info2 t (x.t.ownerOf t))))) ∧
    (∀ k, t < 4 ∨ x.t.pair = true → ¬ bad → x.t.drainMeets t 0 127 = some k →
      exec (.mgive w) s = .next (seqStops x s (trapE .accWindow (info2 t k)))) ∧
    (t < 4 ∨ x.t.pair = true → ¬ bad → x.t.drainMeets t 0 127 = none → x.t.meshOn t 0 127 = true →
      exec (.mgive w) s = .next (seqWaits x s .none)) ∧
    (t < 4 ∨ x.t.pair = true → ¬ bad → x.t.drainMeets t 0 127 = none → x.t.meshOn t 0 127 = false →
      exec (.mgive w) s = .next (seqDone x (s.modTeam x.t.ref fun u => u.setOwner t g u.sq.clock)))) ∧
  (∀ (s : State) (w : MwinW) (x : Sx), sequencing s (.mwin w) = some x →
    let a := x.val w.a w.imm
    (1 < a.toNat → exec (.mwin w) s = .next (seqStops x s (trapStream a))) ∧
    (a.toNat ≤ 1 → (x.t.drain a.toNat).pub = true → exec (.mwin w) s = .next (seqWaits x s (.drain a.toNat))) ∧
    (a.toNat ≤ 1 → (x.t.drain a.toNat).pub = false → exec (.mwin w) s = .next (seqDone x s))) ∧
  (∀ (s : State) (w : MbarW) (x : Sx), sequencing s (.mbarArr w) = some x →
    let k := w.k.val
    ((x.t.bar k).parts = 0 → exec (.mbarArr w) s = .next (seqStops x s (trapE .barrier (BitVec.ofNat 128 k)))) ∧
    ((x.t.bar k).parts ≠ 0 → x.t.meshBefore w.rd = true → exec (.mbarArr w) s = .next (seqWaits x s (.mesh w.rd))) ∧
    ((x.t.bar k).parts ≠ 0 → x.t.meshBefore w.rd = false → x.t.seqInPhase k = true →
      exec (.mbarArr w) s = .next (seqWaits x s (.bar k))) ∧
    ((x.t.bar k).parts ≠ 0 → x.t.meshBefore w.rd = false → x.t.seqInPhase k = false →
      exec (.mbarArr w) s = .next (seqDone x (s.modTeam x.t.ref fun t => t.sarrive x.l.pkt.ord k)))) ∧
  (∀ (s : State) (w : MbarWaitW) (x : Sx), sequencing s (.mbarWait w) = some x →
    let k := w.k.val
    let bad : Prop := x.t.sq.sarv.getLsbD k = false ∨ (x.t.bar k).parts = 0
    (bad → exec (.mbarWait w) s = .next (seqStops x s (trapE .barrier (BitVec.ofNat 128 k)))) ∧
    (¬ bad → x.t.seqInPhase k = true → exec (.mbarWait w) s = .next (seqWaits x s (.bar k))) ∧
    (¬ bad → x.t.seqInPhase k = false → exec (.mbarWait w) s = .next (seqDone x (s.seqLeave x.t.ref k)))) ∧
  (∀ (s : State) (w : MbarW) (x : Sx), sequencing s (.mbarSync w) = some x →
    let k := w.k.val
    let u := s.modTeam x.t.ref fun t => t.sarrive x.l.pkt.ord k
    (x.t.sq.arrived = true → x.t.seqInPhase k = false → exec (.mbarSync w) s = .next (seqDone x (s.seqLeave x.t.ref k))) ∧
    ((x.t.bar k).parts = 0 → (x.t.sq.arrived = true → x.t.seqInPhase k = true) →
      exec (.mbarSync w) s = .next (seqStops x s (trapE .barrier (BitVec.ofNat 128 k)))) ∧
    (x.t.sq.arrived = true → x.t.seqInPhase k = true → (x.t.bar k).parts ≠ 0 → exec (.mbarSync w) s = .next (seqWaits x s (.bar k))) ∧
    (x.t.sq.arrived = false → (x.t.bar k).parts ≠ 0 → x.t.meshBefore w.rd = true →
      exec (.mbarSync w) s = .next (seqWaits x s (.mesh w.rd))) ∧
    (x.t.sq.arrived = false → (x.t.bar k).parts ≠ 0 → x.t.meshBefore w.rd = false → x.t.seqInPhase k = true →
      exec (.mbarSync w) s = .next (seqWaits x s (.bar k))) ∧
    (x.t.sq.arrived = false → (x.t.bar k).parts ≠ 0 → x.t.meshBefore w.rd = false → x.t.seqInPhase k = false →
      exec (.mbarSync w) s = .next (if u.seqHeld x.t.ref k then seqWaits x u (.bar k) else seqDone x (u.seqLeave x.t.ref k)))) ∧
  (∀ (t : Team) (ord : Bool) (k : Nat), k < 16 → (t.bar k).parts ≠ 0 → t.sq.sbm.getLsbD k = true →
    let u := t.sarrive ord k
    u.sq.sarv.getLsbD k = true ∧ u.sq.saph.getLsbD k = (t.bar k).phase ∧ (u.bar k).parts = (t.bar k).parts ∧
    ((t.bar k).arrived = (t.bar k).parts → (u.bar k).arrived = 0 ∧ (u.bar k).phase = !(t.bar k).phase) ∧
    ((t.bar k).arrived ≠ (t.bar k).parts → (u.bar k).arrived = (t.bar k).arrived ∧ (u.bar k).phase = (t.bar k).phase)) ∧
  (∀ (x : Sx) (u : State) (t : Team) (pc : Option Addr), u.team? x.t.ref = some t →
    ∃ t', (seqDone x u pc).team? x.t.ref = some t' ∧ t' = { t with sq := t'.sq } ∧ t'.sq.m = t.sq.m ∧ t'.sq.sst = .run ∧
      t'.sq.spc = (match pc with | some a => a | none => nextPc x.pc) ∧ t'.sq.sarv = t.sq.sarv ∧ (seqDone x u pc).mem = u.mem) ∧
  (∀ (s : State) (r : TeamRef) (t : Team) (n : Fin 16) (v : W32), s.team? r = some t →
    s.setM r (.m n) v = s.modTeam r (fun t => { t with sq := { t.sq with m := t.sq.m.set n.val v } }) ∧ s.setM r .zero v = s) ∧
  (∀ (s : State) (r : GRef) (c : Ctx) (i : Instr), s.cur = .grp r → s.ctx? r = some c → i.isStream = true →
    exec i s = .next (s.takeTrap r (trapE .illegal (BitVec.ofNat 128 (wordLow i))))) ∧
  (∀ (s : State) (r : TeamRef) (i : Instr), s.cur = .sq r → (i.view 64).isSome = true →
    exec i s = .next (s.stopSeq r (trapE .illegal (BitVec.ofNat 128 (wordLow i)))))

/-- Mesh words at issue and in the mesh queue: each waits for room, stops with what its checks meet, and joins the queue. The word at the
head leaves the queue when it is performed; while it waits an MLATCH into a set that it does not name may go before it; where it fails
before its effect it stops the sequencer, keeps its place and holds the words behind it. MZERO clears and MSCALE scales the rows named
and no others; streaming one row adds to each of its elements the chunk sum of the operand row with one latched vector, scaled and
rounded to odd; a dense MLATCH whose lines are full and not lost loads its set with the window's codes, and waits while one is not full;
an element that MDRAIN writes is its value rounded with the draw of its row and column; and MDRAIN.T refuses a line that owes nothing
(R119, R224, R226, R230 to R234, R237, R239). That a failed word keeps its place and holds those behind it, that a failed word of an ended
sequencer is given up, and that words are performed in queue order, are the model's choice (log 20); single lines that a word reads or
writes before the rest have no clause. -/
def Obligations.MeshWords : Prop :=
  (∀ (s : State) (w : MstreamW) (x : Sx) (back : Bool), sequencing s (if back then .mstreamB w else .mstreamF w) = some x →
    let d := x.val w.d w.imm
    let a := x.val w.a w.imm
    let b := x.val w.b w.imm
    MeshIssue x s (x.streamTrap w back d a b) d a b (exec (if back then .mstreamB w else .mstreamF w) s)) ∧
  (∀ (s : State) (w : MzeroW) (x : Sx), sequencing s (.mzero w) = some x →
    MeshIssue x s (x.zeroTrap w.t.val (x.val w.d w.imm) (x.val w.b w.imm)) (x.val w.d w.imm) 0 (x.val w.b w.imm) (exec (.mzero w) s)) ∧
  (∀ (s : State) (w : MscaleW) (x : Sx), sequencing s (.mscale w) = some x →
    MeshIssue x s (x.zeroTrap w.t.val (x.val w.d w.imm) (x.val w.b w.imm)) (x.val w.d w.imm) (x.val w.a w.imm) (x.val w.b w.imm)
      (exec (.mscale w) s)) ∧
  (∀ (s : State) (w : MdrainW) (x : Sx), sequencing s (.mdrain w) = some x →
    let d := x.val w.d w.imm
    let a := x.val w.a w.imm
    let b := x.val w.b w.imm
    MeshIssue x s (x.drainTrap w d a b) d a b (exec (.mdrain w) s)) ∧
  (∀ (s : State) (w : MdrainTW) (x : Sx), sequencing s (.mdrainT w) = some x →
    let d := x.val w.d w.imm
    let a := x.val w.a w.imm
    let b := x.val w.b w.imm
    MeshIssue x s (x.drainTTrap s w d a b) d a b (exec (.mdrainT w) s)) ∧
  (∀ (s : State) (w : MlatchW) (x : Sx), sequencing s (.mlatch w) = some x →
    let d := x.val w.d w.imm
    let a := x.val w.a w.imm
    let b := x.val w.b w.imm
    (w.sp = .dense → MeshIssue x s (x.latchTrap w d b) d a b (exec (.mlatch w) s)) ∧
    (8 ≤ x.t.mq.length → exec (.mlatch w) s = .next (seqWaits x s .none)) ∧
    (∀ t, x.t.mq.length < 8 → x.latchTrap w d b = some t → exec (.mlatch w) s = .next (seqStops x s t)) ∧
    (∀ q, w.sp ≠ .dense → x.t.mq.length < 8 → x.latchTrap w d b = none →
      x.t.meshWin w.win.val (some (mfmtSize w.wf)) = .ok q →
      let ls := (List.range 16).map fun i => q.masksAt w.sp d + 128 * i
      let u := s.feedTouch x.t.ref x.t.sq.issuer ls
      (ls.all x.t.serves = false → exec (.mlatch w) s = .next (seqWaits x u (.lines ls))) ∧
      (∀ o, ls.all x.t.serves = true → x.t.lostAmong ls = some o →
        exec (.mlatch w) s = .next (seqStops x s (localLostTrap (localVa o)))) ∧
      (∀ g, ls.all x.t.serves = true → x.t.lostAmong ls = none → x.t.maskBad w (q.masksAt w.sp d) = some g →
        exec (.mlatch w) s =
          .next (seqStops x s (trapE .badSparse (info2 w.win.val ((d.toNat + g * (32 / sparseH w.sp)) % 4096))))) ∧
      (ls.all x.t.serves = true → x.t.lostAmong ls = none → x.t.maskBad w (q.masksAt w.sp d) = none → exec (.mlatch w) s = .next (seqIssues x s d a b)))) ∧
  (∀ (s : State) (r : TeamRef) (t : Team) (l : Launch), s.team? r = some t → s.launch? r.launch = some l →
    (t.mq = [] → exec (.meshWordFinish r) s = .next s) ∧
    (∀ m q, t.mq = m :: q → m.failed = true → exec (.meshWordFinish r) s = .next s) ∧
    (∀ m q, t.mq = m :: q → m.failed = false →
      (∀ u, s.doMesh t l m = .done u →
        exec (.meshWordFinish r) s = .next (u.modTeam r fun v => Team.seqOver { v with mq := v.mq.eraseIdx 0 } l.pkt.ord)) ∧
      (∀ u, s.doMesh t l m = .waits u → (∀ e ∈ q, ∀ w, e.word ≠ .mlatch w) → exec (.meshWordFinish r) s = .next u) ∧
      (∀ u e q' w v lu z, s.doMesh t l m = .waits u → q = e :: q' → e.word = .mlatch w → e.failed = false →
        m.passes (setIx (if w.second then 4 else 0) w.l.val) = true → u.team? r = some v → u.launch? r.launch = some lu → v.mq = t.mq →
        u.doMesh v lu e = .done z →
        exec (.meshWordFinish r) s = .next (z.modTeam r fun v => Team.seqOver { v with mq := v.mq.eraseIdx 1 } lu.pkt.ord)) ∧
      (∀ e, s.doMesh t l m = .stop e → s.policy = none → t.sq.sst ≠ .ended → t.sq.ending = false →
        ∃ u v, exec (.meshWordFinish r) s = .next u ∧ u.team? r = some v ∧ v.sq.sst = .stopped ∧ v.sq.spc = t.sq.spc ∧
          v.sq.stop.map (·.cause) = some e.cause ∧ v.mq = { m with failed := true, since := none } :: q ∧ v.sets = t.sets ∧ v.spad = t.spad) ∧
      (∀ e, s.doMesh t l m = .stop e → t.sq.sst = .ended →
        exec (.meshWordFinish r) s = .next ((s.stopSeq r e (pcAt := some m.pc)).meshPop r l.pkt.ord 0)) ∧
      (∀ w, m.word = .mzero w → s.doMesh t l m = .done (s.modTeam t.ref fun u => u.mapRows w.t.val m.d.toNat (rowN m.b) fun _ => 0)) ∧
      (∀ w, m.word = .mscale w →
        s.doMesh t l m = .done (s.modTeam t.ref fun u => u.mapRows w.t.val m.d.toNat (rowN m.b) (scaled m.a))))) ∧
  (∀ (t : Team) (tile a n tile' r c : Nat) (f : W48 → W48), a + n ≤ 128 → r < 128 → c < 128 →
    (t.mapRows tile a n f).accGet tile' r c =
      if tile = tile' ∧ a ≤ r ∧ r < a + n then f (t.accGet tile' r c) else t.accGet tile' r c) ∧
  (∀ (t : Team) (back za : Bool) (tile r tile' r' c : Nat) (y : LatchSet) (vs : List (List ExactNum)) (xs : List ExactNum) (sa : ExactNum),
    r < 128 → r' < 128 → c < 128 →
    let vecs := if back then vs else transposeOf y.nv vs
    vecs.length ≤ 128 →
    (t.streamInto back za tile r y vs xs sa).accGet tile' r' c =
      match vecs[c]? with
      | some v => if tile = tile' ∧ r = r' then promoteInto (t.accGet tile r c) za (chunkSum xs v) (sa.mul (f32 y.scale.toNat))
          else t.accGet tile' r' c
      | none => t.accGet tile' r' c) ∧
  (∀ (s : State) (t : Team) (l : Launch) (m : MeshWord) (w : MlatchW) (q : WinDesc) (t0 : Team), m.word = .mlatch w → w.sp = .dense →
    m.early = [] → extWS m.b = false → l.pkt.ord = false → t.meshWin w.win.val (some (mfmtSize w.wf)) = .ok q → s.team? t.ref = some t0 →
    setIx (if w.second then 4 else 0) w.l.val < 4 → extKV m.b ≤ 128 → extNV m.b ≤ 128 →
    let lines := offLines ((denseCells w.col q m.d m.b).map (·.2))
    (∀ o, lines.all t.serves = true → t.lostAmong lines = some o → s.doMesh t l m = .stop (localLostTrap (localVa o))) ∧
    (lines.all t.serves = true → t.lostAmong lines = none → ∃ u tm y, s.doMesh t l m = .done u ∧
      u.team? t.ref = some tm ∧ tm.sets[setIx (if w.second then 4 else 0) w.l.val]? = some y ∧ y.full = true ∧ y.fmt = w.wf ∧
      y.kv = extKV m.b ∧ y.nv = extNV m.b ∧ y.scale = m.a ∧
      ∀ k n, k < extKV m.b → n < extNV m.b → Store.get 0 y.w (128 * k + n) = BitVec.ofNat 16 (t.elemCode
        (if w.col then q.elemOff (m.d.toNat + n) (128 * extKB m.b + k) else q.elemOff (m.d.toNat + k) (128 * extKB m.b + n))
        (mfmtSize w.wf))) ∧
    (lines.all t.serves = false → ∃ u, s.doMesh t l m = .waits u)) ∧
  (∀ (w : MdrainW) (row kb : Nat) (xs : List ExactNum) (i : Nat) (y : ExactNum), xs[i]? = some y →
    ((drainBytes w row kb xs).drop (srcSize w.ft * i)).take (srcSize w.ft) =
      bytesOf (srcSize w.ft) (Machine.round w.ft.fmt w.rm y ⟨0, row * 2 ^ 32 + 128 * kb + i⟩)) ∧
  (∀ (s : State) (t : Team) (tile : Nat) (y : DrainLine), s.hdrLost y.p = none → y.accLines.find? s.isLost = none →
    (s.mem.hdr y.p.hdr).count = 0 → s.drainLine t none tile y = (some (.adjointUnderflow, lineOf y.p.pa), s))

/-! ### Collectives -/

/-- COLL.ARM and COLL.PUT check the alignment of their descriptor, read it and check it and the pages it names; an arm of a FREE
slot writes 0 and makes it ARMED, one of an ARMED slot writes 1 and changes nothing; a put reads its source, and its residuals where it
has them, writes the new residuals and sends its packet, whose blocks hold the source's elements where it is not compressed, and
else E4M3 codes of the elements with their residuals, whose rounding is left to the next put. A put that fits an ARMED slot is staged in its rank's row and
counts as arrived, and any other is refused; a slot whose deadline passes is closed; the hub combines a slot whose ranks have
arrived, and a slot whose write fails stops there (R262 to R270). One packet for a put, the reason code 0 of a FREE slot, and a deadline
that passes only once it is exceeded are the model's choice (log 34). -/
def Obligations.Collectives : Prop :=
  (∀ (s : State) (w : CollArmW) (x : Ex), issuing s (.collArm w) = some x →
    let a := x.baseOff w.a w.off
    (a.toNat % 64 ≠ 0 → exec (.collArm w) s = .next (traps x s (trapA .badAddress a .load))) ∧
    (∀ b u, a.toNat % 64 = 0 → (start x s).recordRead x.c (.collArm w) x.pc a 64 = .bytes b u →
      (parseArm b = none → exec (.collArm w) s = .next (traps x s (trapE .badRecord (BitVec.ofNat 128 (a.toNat % 2 ^ 56))))) ∧
      (∀ d, parseArm b = some d →
        (∀ t v, u.armPages x.c.core x.c.l.pkt.ctx d = (some t, v) → exec (.collArm w) s = .next (traps x s t)) ∧
        (∀ v, u.armPages x.c.core x.c.l.pkt.ctx d = (none, v) → x.c.t.ref.shadow = false → x.c.t.seg = none →
          let die := dieOf x.c.core
          ((v.slot? die d.slot).isSome = true →
            exec (.collArm w) s = .next (retiresIn x s (v.addItem x.c.ref.t 2 b) (uniWr w.d 1))) ∧
          (v.slot? die d.slot = none → exec (.collArm w) s = .next (retiresIn x s
            ((v.modDie die fun e => { e with slots := e.slots ++ [(d.slot, x.armed v d)] }).addItem x.c.ref.t 2 b) (uniWr w.d 0))))))) ∧
  (∀ (s : State) (w : BaseOffW) (x : Ex), issuing s (.collPut w) = some x →
    let a := x.baseOff w.a w.off
    (a.toNat % 64 ≠ 0 → exec (.collPut w) s = .next (traps x s (trapA .badAddress a .load))) ∧
    (∀ b u, a.toNat % 64 = 0 → (start x s).recordRead x.c (.collPut w) x.pc a 64 = .bytes b u →
      (parsePut b = none → exec (.collPut w) s = .next (traps x s (trapE .badRecord (BitVec.ofNat 128 (a.toNat % 2 ^ 56))))) ∧
      (∀ p ps v, parsePut b = some p → p.acq = false → x.c.t.ref.shadow = false →
        u.enginePieces x.c.core x.c.l.pkt.ctx (wantLoad false .fillRead) false
          (lineParts (p.n * p.esz / 128 + 2) (BitVec.ofNat 56 p.src) (p.n * p.esz)) = (.ok ps, v) →
        let pkt (fs : List Formed) : PutPkt := ⟨p.hdie, p.slot, p.tag, p.rank, p.op, p.n, p.bf16, p.comp, fs.map (·.block)⟩
        let sent (z : State) (fs : List Formed) : State :=
          x.sendPut (z.addItem x.c.ref.t 3 (b ++ ((pkt fs).blocks.map p.payload).flatten)) p (pkt fs)
        (p.res = 0 → (∀ y ∈ ps, v.far x.c.core y.pa = false) → ∀ src z, v.engineRead x.pty ps = (.ok src, z) →
          exec (.collPut w) s = .next (retiresIn x s (sent z (p.form src [])) [])) ∧
        (∀ rs v', p.res ≠ 0 → v.enginePieces x.c.core x.c.l.pkt.ctx (wantAtomic false) false
            (lineParts (4 * p.n / 128 + 2) (BitVec.ofNat 56 p.res) (4 * p.n)) = (.ok rs, v') →
          (∀ y ∈ ps ++ rs, v'.far x.c.core y.pa = false) → v'.versionWaits x.pty.vers rs = none →
          ∀ src z res z' y, v'.engineRead x.pty ps = (.ok src, z) → z.engineRead x.pty rs = (.ok res, z') →
            let fs := p.form src res
            z'.engineWrite x.pty rs (fs.flatMap fun f => f.resid.flatMap fun r => bytesOf 4 r.toNat) = .ok y →
            exec (.collPut w) s = .next (retiresIn x s (sent y fs) []))))) ∧
  (∀ (p : PutDesc) (base i : Nat) (xs rs : List W32) (a r : W32), p.res ≠ 0 → xs[i]? = some a → rs[i]? = some r →
    let sum (e : W32 × W32) : ExactNum := f32 (Machine.round FP32 .rne ((f32 e.1.toNat).add false (f32 e.2.toNat)))
    let y := sum (a, r)
    let sc := blockScale ((xs.zip rs).map sum)
    let q := Machine.round E4M3 .rne (y.div sc) ⟨p.seed, base + i⟩
    (formBlock p base xs rs).block.elems[i]? = some (BitVec.ofNat 32 q) ∧
    (formBlock p base xs rs).resid[i]? = some (if y.isFin then
      BitVec.ofNat 32 (Machine.round FP32 .rne (y.add false ((decodeNum E4M3 q).mul sc).neg)) else 0)) ∧
  (∀ (p : PutDesc) (src res : List Byte), p.comp = false → p.n ≤ 65536 →
    ((p.form src res).map fun f => f.block.elems).flatten =
      (List.range p.n).map fun i => BitVec.ofNat 32 (numAt src (p.esz * i) p.esz)) ∧
  (∀ (s : State) (n : Nat) (f : Flying), s.flying[n]? = some f →
    let die := f.pkt.die.val
    let y := s.slot? die f.pkt.slot.val
    let gone := { s with flying := s.flying.eraseIdx n }
    let came := f.stamp.getD (s.timeAt die)
    let room : Bool := s.srcRoomFor die .collective 2 && s.srcRoomFor (dieOf f.core) .collective 2
    (∀ why, refuseWhy y f.pkt came = some why →
      exec (.putArrival n) s = .next (if room then gone.hubRefuse f why else s)) ∧
    (∀ z, refuseWhy y f.pkt came = none → y = some z →
      (z.stop.isSome = true ∨ z.standing.isSome = true → ∃ u, exec (.putArrival n) s = .next u ∧ u.dies = s.dies ∧ u.mem = s.mem ∧
        u.flying = s.flying.set n { f with stamp := some came }) ∧
      (z.stop = none → z.standing = none → ∀ k v, gone.slotWrites die f.pkt.slot.val z false (z.stageParts f.pkt) = (k, v, none) →
        exec (.putArrival n) s = .next ((v.setSlot die f.pkt.slot.val
          { z with standing := none, arrived := z.arrived ||| lane1 f.pkt.rank
                   nanSeen := z.nanSeen || (PutPkt_stage f.pkt).any fun w => (f32 w.toNat).isNan }).ackPut f none)))) ∧
  (∀ (z : Slot) (p : PutPkt) (time : Nat), z.standing = none → refuseWhy none p time = some 0 ∧
    (refuseWhy (some z) p time = none ↔ z.tag = p.tag ∧ z.op = p.op ∧ z.n = p.n ∧ p.rank < z.cnt ∧
      z.arrived.getLsbD p.rank = false ∧ time ≤ z.deadline)) ∧
  (∀ (s : State) (die : Fin 4) (n : Fin 256),
    (s.slot? die.val n.val = none → exec (.collDeadline die n) s = .next s) ∧
    (∀ z, s.slot? die.val n.val = some z → exec (.collDeadline die n) s = .next
      (if z.deadline < s.timeAt die.val then s.setSlot die.val n.val { z with timedOut := true } else s)) ∧
    (s.slotWork die.val n.val = none → exec (.hubCombine die n) s = .next s ∧ exec (.slotWriteFault die n) s = .next s) ∧
    (∀ z, s.slot? die.val n.val = some z → z.stop = none → z.retries = none → z.standing = none →
      z.complete = true ∨ (z.timedOut = true ∧ s.putWaits die.val n.val z = false) →
      exec (.hubCombine die n) s = .next (s.slotCombine die.val n.val z).1) ∧
    (∀ u, s.slotWork die.val n.val = some (u, none) → exec (.slotWriteFault die n) s = .next s) ∧
    (∀ u t, s.slotWork die.val n.val = some (u, some t) → s.srcRoomFor die.val .collective 2 = true → s.policy = none →
      ∃ v z, exec (.slotWriteFault die n) s = .next v ∧ v.slot? die.val n.val = some z ∧ z.stop.map (·.cause) = some t.cause)) ∧
  (∀ (op : CollOp) (n : Nat) (a b : List W32), op = .sumF32 ∨ op = .sumBf16 → combineRows op n [a, b] = (a.zip b).map fun e =>
    BitVec.ofNat 32 (Machine.round FP32 .rne ((f32 e.1.toNat).add false (f32 e.2.toNat)))) ∧
  (∀ (s : State) (die n : Nat) (z : Slot) (u : State), die < 4 → (s.slot? die n).isSome = true → s.slotOwes die n = false →
    s.slotStore die n z false (BitVec.ofNat 56 z.status) (z.record n (if z.complete then 0 else 1) (s.timeAt die)) = .ok u →
    (s.slotStatus die n z).2 = none ∧ (s.slotStatus die n z).1.slot? die n = none)

/-! ### Special registers and supervisor mode -/

/-- SRD reads every special register that R256 lists, and traps with ILLEGAL at any other index and with PERMISSION at a supervisor register
outside supervisor mode; SWR writes `sr.sticky`, and in supervisor mode `sr.epc`, and nothing else (R29, R86, R254 to R256). -/
def Obligations.SpecialRegisters : Prop :=
  (∀ (s : State) (w : SrdW) (x : Ex), issuing s (.srd w) = some x →
    (SReg.ofIdx w.idx.toNat = none → exec (.srd w) s = .next (traps x s (trapE .illegal (BitVec.ofNat 128 (wordLow (.srd w)))))) ∧
    (∀ r, SReg.ofIdx w.idx.toNat = some r →
      (r.sup = true → x.c.g.priv = false → exec (.srd w) s = .next (traps x s (trapPriv (wordLow (.srd w)) 2))) ∧
      (r.sup = false ∨ x.c.g.priv = true →
        (∀ k, w.d = .s k → exec (.srd w) s = .next (retires x s [.s k.val (x.sreg (start x s) (lowLane x.c.g.exec) r)])) ∧
        ((∀ k, w.d ≠ .s k) → exec (.srd w) s = .next (retires x s (laneWrs w.d (if srWide w.idx then 2 else 1)
          (x.lanes.map fun i => (i, (x.sreg (start x s) i r).toNat)))))))) ∧
  (∀ (x : Ex) (s : State) (i : Nat),
    x.sreg s i .lane = BitVec.ofNat 64 i ∧ x.sreg s i .group = BitVec.ofNat 64 x.c.g.idx ∧
    x.sreg s i .team = BitVec.ofNat 64 x.c.t.ref.idx ∧ x.sreg s i .coordX = BitVec.ofNat 64 x.c.t.x ∧
    x.sreg s i .coordY = BitVec.ofNat 64 x.c.t.y ∧ x.sreg s i .coordZ = BitVec.ofNat 64 x.c.t.z ∧
    x.sreg s i .role = x.c.g.role.zeroExtend 64 ∧ x.sreg s i .sticky = x.c.g.sticky.zeroExtend 64 ∧
    x.sreg s i .width = BitVec.ofNat 64 x.c.g.width ∧ x.sreg s i .epc = x.c.g.epc ∧ x.sreg s i .ecode = x.c.g.ecode.zeroExtend 64 ∧
    x.sreg s i .svbase = BitVec.ofNat 64 x.c.l.pkt.svb ∧ x.sreg s i .ctx = BitVec.ofNat 64 x.c.l.pkt.ctx ∧
    x.sreg s i .core = BitVec.ofNat 64 x.c.core ∧ x.sreg s i .launch = BitVec.ofNat 64 x.c.l.num ∧
    x.sreg s i .evq = BitVec.ofNat 64 (256 - (s.core x.c.core).evq.length)) ∧
  (∀ n, 0x00C ≤ n → n < 0x100 ∨ 0x107 ≤ n → SReg.ofIdx n = none) ∧
  (∀ (s : State) (w : SwrW) (x : Ex), issuing s (.swr w) = some x →
    let v := x.uval w.a 64 false 0
    let ill := exec (.swr w) s = .next (traps x s (trapE .illegal (BitVec.ofNat 128 (wordLow (.swr w)))))
    (SReg.ofIdx w.idx.toNat = none → ill) ∧
    (∀ r, SReg.ofIdx w.idx.toNat = some r →
      (r.sup = true → x.c.g.priv = false → exec (.swr w) s = .next (traps x s (trapPriv (wordLow (.swr w)) 2))) ∧
      (r.sup = false ∨ x.c.g.priv = true → r ≠ .sticky → r ≠ .epc → ill) ∧
      (r = .sticky → exec (.swr w) s = .next (retiresIn x s ((start x s).modGroup x.c.ref fun g =>
        { g with sticky := BitVec.ofNat 16 (v % 32) }) [])) ∧
      (r = .epc → x.c.g.priv = true → exec (.swr w) s = .next (retiresIn x s ((start x s).modGroup x.c.ref fun g =>
        { g with epc := BitVec.ofNat 64 v }) []))))

/-- SVC enters supervisor mode at the service entry of its code: `sr.epc` takes the next word's address and `sr.ecode` the code,
`PRIV` becomes 1, and the group goes on at SVBASE plus 64 times the code; in supervisor mode it is ILLEGAL, without an entry
PERMISSION, and it waits for the group's long-latency words. RFE returns to `sr.epc` with `PRIV` 0, traps with PERMISSION outside
supervisor mode, and with BAD-ADDRESS where `sr.epc` is no slot's address. TLBI removes translations and waits for the accesses made
with them, and the L1s write their dirty words home; EVT raises a record, waiting for room; HALT releases, raises its record and halts its launch (R86, R257 to R261). -/
def Obligations.SupervisorWords : Prop :=
  (∀ (s : State) (w : SvcW) (x : Ex), issuing s (.svc w) = some x →
    let idle : Bool := x.c.g.la.all fun e => e.done
    let a : Addr := BitVec.ofNat 56 (x.c.l.pkt.svb + 64 * w.code.toNat)
    (x.c.g.priv = true → exec (.svc w) s = .next (traps x s (trapE .illegal (BitVec.ofNat 128 (wordLow (.svc w)))))) ∧
    (x.c.g.priv = false → x.c.l.pkt.svb = 0 → exec (.svc w) s = .next (traps x s (trapPriv (wordLow (.svc w)) 3))) ∧
    (x.c.g.priv = false → x.c.l.pkt.svb ≠ 0 → idle = false → exec (.svc w) s = .next (waits x s .engine)) ∧
    (x.c.g.priv = false → x.c.l.pkt.svb ≠ 0 → idle = true → exec (.svc w) s = .next (branches x s (fun g =>
      { g with epc := (nextPc x.pc).zeroExtend 64, ecode := w.code, priv := true, pc := a }) a))) ∧
  (∀ (s : State) (w : Ctl0) (x : Ex), issuing s (.rfe w) = some x →
    let back : Addr := x.c.g.epc.truncate 56
    (x.c.g.priv = false → exec (.rfe w) s = .next (traps x s (trapPriv (wordLow (.rfe w)) 1))) ∧
    (x.c.g.priv = true → back.toNat % 64 ∉ [0, 12, 24, 36, 48] → exec (.rfe w) s = .next (traps x s (trapA .badAddress back .fetch))) ∧
    (x.c.g.priv = true → back.toNat % 64 ∈ [0, 12, 24, 36, 48] →
      exec (.rfe w) s = .next (branches x s (fun g => { g with pc := g.epc.truncate 56, priv := false }) back))) ∧
  (∀ (s : State) (i : Instr) (x : Ex), issuing s i = some x → x.c.g.priv = false →
    (∃ w, i = .tlbiVa w) ∨ (∃ w, i = .tlbiCtx w) ∨ (∃ w, i = .tlbiAll w) ∨ (∃ w, i = .halt w) →
    exec i s = .next (traps x s (trapPriv (wordLow i) 1))) ∧
  (∀ (s : State) (w : BaseOffW) (x : Ex), issuing s (.tlbiVa w) = some x → x.c.g.priv = true → (∀ n, x.c.g.wait ≠ .tlbi n) →
    let a := x.baseOff w.a w.off
    let u := (start x s).tlbDrop (tlbOfVa x.c.l.pkt.ctx a)
    let busy := u.inFlight fun ctx p at_ => decide (at_ ≤ (start x s).clock) && (ctx == x.c.l.pkt.ctx && p.covers a)
    exec (.tlbiVa w) s = .next (if busy then waitsIn x s u (.tlbi (start x s).clock) else retiresIn x s u.l1CleanAll [])) ∧
  (∀ (s : State) (w : CtlA) (x : Ex), issuing s (.tlbiCtx w) = some x → x.c.g.priv = true → (∀ n, x.c.g.wait ≠ .tlbi n) →
    let n := x.uval w.a 16 false 0
    let u := (start x s).tlbDrop fun e => e.ctx == n
    let busy := u.inFlight fun ctx _ at_ => decide (at_ ≤ (start x s).clock) && ctx == n
    exec (.tlbiCtx w) s = .next (if busy then waitsIn x s u (.tlbi (start x s).clock) else retiresIn x s u.l1CleanAll [])) ∧
  (∀ (s : State) (w : Ctl0) (x : Ex), issuing s (.tlbiAll w) = some x → x.c.g.priv = true → (∀ n, x.c.g.wait ≠ .tlbi n) →
    let u := (start x s).tlbDrop fun _ => true
    let busy := u.inFlight fun _ _ at_ => decide (at_ ≤ (start x s).clock) && true
    exec (.tlbiAll w) s = .next (if busy then waitsIn x s u (.tlbi (start x s).clock) else retiresIn x s u.l1CleanAll [])) ∧
  (∀ (s : State) (k : Nat), k < 128 → ∀ x ∈ (s.l1CleanAll.core k).l1, x.dirty = 0) ∧
  (∀ (s : State) (sel : TlbEnt → Bool) (n : Nat), n < 128 →
    ((s.tlbDrop sel).core n).tlb = ((s.core n).tlb.filter fun e => !sel e) ∧ (s.tlbDrop sel).mem = s.mem) ∧
  (∀ (s : State) (w : EvtW) (x : Ex), issuing s (.evt w) = some x →
    let v := x.uval w.a 64 false 0
    let s0 := start x s
    let u := s0.addItem x.c.ref.t 4 (bytesOf 2 w.code.toNat ++ bytesOf 8 v)
    (x.c.t.ref.shadow = true → exec (.evt w) s = .next (retiresIn x s u [])) ∧
    (x.c.t.ref.shadow = false → 256 ≤ (s0.core x.c.core).evq.length → exec (.evt w) s = .next (waits x s .evt)) ∧
    (x.c.t.ref.shadow = false → (s0.core x.c.core).evq.length < 256 →
      exec (.evt w) s = .next (retiresIn x s (u.raise x.c.unit false .event (info2 w.code.toNat v)) []))) ∧
  (∀ (s : State) (w : CodeW) (x : Ex), issuing s (.halt w) = some x → x.c.g.priv = true →
    (x.c.quiet = false → exec (.halt w) s = .next (waits x s .engine)) ∧
    (x.c.quiet = true → x.c.t.ref.shadow = false → s.policy = none →
      exec (.halt w) s = .next (retiresIn x s
        (((((start x s).addItem x.c.ref.t 5 (bytesOf 2 w.code.toNat)).releaseDev x.c.core).raise { x.c.unit with kind := 0 } false .halt
          (w.code.zeroExtend 128)).modLaunch x.c.l.num fun l => { l with halted := true }) [])))

/-! ### Versions, segments, pages -/

/-- A versioned write that has waited 2^20 clocks for a version line fails with VERSION-FULL; the commit of a version that holds one word
as a value writes it, and then the version is gone; a shadowed team and its shadow whose segment has come to the same end go on with the
primary's version where the sums agree, and stop with SHADOW-MISMATCH where they do not or a trap has stopped the shadow; and a move of
a page without TWIN carries its bytes to the new frame, writes the leaf, gives the old frame back to its die's list and removes the
translations, in the order in which the moves of a page stand (R292, R293, R355, R356, R370 to R372). That no page moves while one waits
to be looked at for want of room for its record is how the model keeps R384 (log 31). -/
def Obligations.VersionsAndPages : Prop :=
  (∀ (s : State) (r : GRef) (c : Ctx), s.ctx? r = some c →
    let posted := c.g.posted.zipIdx.findSome? fun e => (s.fullPiece e.1.vers e.1.since e.1.piece.toList).map fun y => (e.2, e.1, y)
    let entry := c.g.la.zipIdx.findSome? fun e => (s.fullPiece e.1.vers e.1.since e.1.versPieces).map fun y => (e.2, e.1, y)
    let failure (y : Piece) : LateFail := ⟨.versionFull, y.va, BitVec.ofNat 128 (sliceNo y.pa), none⟩
    (posted = none → entry = none → exec (.versionFull r) s = .next s) ∧
    (∀ i p y, posted = some (i, p, y) → exec (.versionFull r) s = .next (s.failPosted c i p (failure y))) ∧
    (∀ i e y, posted = none → entry = some (i, e, y) → exec (.versionFull r) s =
      .next (s.failEntry c i [] (maskOf (e.got.map (·.1))) (failure y) (byLane e.got)))) ∧
  (∀ (s : State) (v : Option Nat) (since : Nat) (ps : List Piece) (y : Piece), s.fullPiece v since ps = some y →
    since + 2 ^ 20 ≤ s.clock ∧ y ∈ ps ∧ ∃ n, v = some n ∧ s.linesFull n ((ps.filter fun x => !pteSystem x.pte).map (·.pa)) = true) ∧
  (∀ (s : State) (n pa : Nat) (v : Version), s.version? n = some v →
    (s.linesFull n [pa] = true ↔ lineOf pa ∉ v.lineList ∧
      8192 ≤ ((s.versions.map (·.lineList)).flatten.filter fun k => sliceOf k == sliceOf (lineOf pa)).length)) ∧
  (∀ (s : State) (n pa : Nat) (w : W32) (v : Version), s.version? n = some v → v.lines = [] → v.words = [(pa, some (.value w))] →
    ∃ u, s.commitVersion n = .done u none ∧ u.version? n = none ∧ u.mem.num pa 4 = w.toNat ∧
      ∀ a, a < pa ∨ pa + 4 ≤ a → u.mem.byte a = s.mem.byte a) ∧
  (∀ (s : State) (n : Nat) (v : Version), s.version? n = some v → v.lines = [] →
    (s.discardVersion n).mem = s.mem ∧ (s.discardVersion n).version? n = none) ∧
  (∀ (s : State) (r : TeamRef) (t u : Team) (l : Launch) (p q : Segment), r.shadow = false →
    s.team? r = some t → s.team? { r with shadow := true } = some u → s.launch? r.launch = some l → t.seg = some p → u.seg = some q →
    let ready : Prop := p.failed = none ∧ t.segEnd = true ∧ ((u.segEnd = true ∧ t.sameEnd u = true) ∨ u.segDead = true) ∧ t.save = none ∧
      s.discardRoom l.num 2 = true
    (¬ ready → exec (.segmentResolve r) s = .next s) ∧
    (ready → s.sideSum p = s.sideSum q → u.segDead = false → exec (.segmentResolve r) s = .next (s.segCommit l r p q)) ∧
    (ready → s.sideSum p ≠ s.sideSum q ∨ u.segDead = true →
      exec (.segmentResolve r) s = .next (s.mismatch l r (s.sideSum p) (s.sideSum q) p))) ∧
  (∀ (s u : State) (l : Launch) (r : TeamRef) (p q : Segment), s.commitVersion p.vers = .done u none →
    s.segCommit l r p q = ((u.discardVersion q.vers).sendCommitted r).segNext r) ∧
  (∀ (s : State) (die : Fin 4), let v := s.fathomScan die.val
    ((v.die die.val).starting ≠ [] ∨ v.firstMove die.val = none →
      exec (.pageMove die) s = .next v ∧ exec (.victimRetry die) s = .next v) ∧
    (∀ i u, (v.die die.val).starting = [] → v.firstMove die.val = some (i, u) →
      let z := u.modDie die.val fun d => { d with moves := d.moves.eraseIdx i }
      exec (.pageMove die) s = .next z ∧ exec (.victimRetry die) s = .next z)) ∧
  (∀ (s : State) (die i : Nat) (u : State), s.firstMove die = some (i, u) → ∃ m, (s.die die).moves[i]? = some m ∧
    s.attemptMove m = some u ∧ ∀ k ∈ (s.die die).moves.take i, s.samePage m k = false) ∧
  (∀ (s : State) (m : Move) (ea f : Nat) (p : BitVec 256), s.leaf m.ctx m.va = some (ea, p) → ptePin p = false →
    (pteTier p = 0 ↔ m.toNear = false) → pteTwin p = false →
    (s.die (pteFrame p / 2 ^ 46)).frame (1 - pteTier p) (sizeCode p) = some f →
    s.attemptMove m = some (s.movePage m.ctx m.va ea p f 0)) ∧
  (∀ (s : State) (ctx va ea f : Nat) (p : BitVec 256), pteTwin p = false →
    let n := 2 ^ ptePage p
    let old := pteFrame p
    let clean := (List.range 128).foldl (fun (s : State) c => s.l1Drop c fun y => y.page == old) s
    let u := s.movePage ctx va ea p f 0
    clean.mem.wf = true → old + n ≤ f ∨ f + n ≤ old → ea + 32 ≤ f ∨ f + n ≤ ea → ea + 32 ≤ old ∨ old + n ≤ ea →
    (∀ k, k < n → u.mem.byte (f + k) = clean.mem.byte (old + k)) ∧
    (∀ a, a < f ∨ f + n ≤ a → a < ea ∨ ea + 32 ≤ a → u.mem.byte a = clean.mem.byte a) ∧
    u.pteAt ea = movedPte p f (1 - pteTier p) 0 ∧
    (old / 2 ^ 46 < 4 → (u.die (old / 2 ^ 46)).frames =
      ((clean.die (old / 2 ^ 46)).frames.filter fun e => e != (1 - pteTier p, sizeCode p, f)) ++ [(pteTier p, sizeCode p, old)]) ∧
    ∀ c, c < 128 → (u.core c).tlb = ((clean.core c).tlb.filter fun e => !tlbOfVa ctx (BitVec.ofNat 56 va) e))

/-! ### Launches and teams -/

/-- A launch becomes eligible once its predecessors are reported complete; the launch of highest priority, first in queue order,
places its next team, one in a clock, to cores that have taken no other in it, and yields them to an offer of higher priority of the same
clock; a new team's groups start at the entry with every
lane, `s0` the argument and every other register 0; a launch that has finished is reported and gone; a pre-empted team saves once it
stands at its yield points, or at its deadline, and is settled; and replies that come later go to its area (R32, R319, R336, R337,
R340, R391 to R396, R424). -/
def Obligations.LaunchesAndTeams : Prop :=
  (∀ (s : State) (n : Nat), s.launch? n = none → exec (.launchEligible n) s = .next s) ∧
  (∀ (s : State) (n : Nat) (l : Launch), s.launch? n = some l →
    let ready : Prop := l.eligible = false ∧ l.discarded = false ∧ ∀ k ∈ l.pkt.preds, k = 0 ∨ (k, false) ∈ s.past
    (¬ ready → exec (.launchEligible n) s = .next s) ∧
    (ready → l.tt = none → exec (.launchEligible n) s = .next (s.setLaunch { l with
      eligible := true
      eligibleAt := s.clock
      tasks := l.initial.zipIdx.map fun e =>
        ⟨BitVec.ofNat 56 (l.pkt.trec + 64 * e.2), e.1, taskPrio e.1, none, s.clock, false⟩ }))) ∧
  (∀ (s : State) (die : Fin 4), let u := s.sweep
    let made (v : State) : State := v.modDie die.val fun d => { d with offered := true }
    ((u.die die.val).offered = true → exec (.teamPlace die) s = .next u) ∧
    ((u.die die.val).offered = false →
      (u.offered die.val = none → exec (.teamPlace die) s = .next u) ∧
      (∀ l, u.offered die.val = some l → u.beaten l die.val = true → exec (.teamPlace die) s = .next (made u)) ∧
      (∀ l, u.offered die.val = some l → u.beaten l die.val = false → l.restores die.val = true →
        exec (.teamPlace die) s = .next (made ((u.restoreNext l).getD u))) ∧
      (∀ l, u.offered die.val = some l → u.beaten l die.val = false → l.restores die.val = false →
        (u.placeTeam l l.nextTeam = none → exec (.teamPlace die) s = .next (made u)) ∧
        (∀ v, u.placeTeam l l.nextTeam = some v →
          exec (.teamPlace die) s = .next (made (v.modLaunch l.num fun l => { l with nextTeam := l.nextTeam + 1 })))))) ∧
  (∀ (s : State) (die : Nat) (l : Launch), s.offered die = some l →
    let here (k : Launch) : Prop := k.offers die s.clock = true ∨ k.restores die = true
    here l ∧ (∀ k ∈ s.launches, here k → k.pkt.prio ≤ l.pkt.prio) ∧
    ∃ a b, s.launches = a ++ l :: b ∧ ∀ k ∈ a, here k → k.pkt.prio < l.pkt.prio) ∧
  (∀ (s : State) (l : Launch) (die : Nat), s.beaten l die = true ↔ ∃ e k c, e < 4 ∧ e ≠ die ∧ (s.die e).offered = false ∧
    s.offered e = some k ∧ (l.pkt.prio < k.pkt.prio ∨ (k.pkt.prio = l.pkt.prio ∧ e < die)) ∧
    c ∈ s.offerCores k e ∧ c ∈ s.offerCores l die) ∧
  (∀ (l : Launch) (die clock : Nat), l.offers die clock = true → l.eligibleAt < clock) ∧
  (∀ (s : State) (p : Packet) (d n : Nat) (avoid : List Nat) (q : Spot), s.offerSpot p d n avoid = some q →
    ∀ c ∈ q.cores p.pair, (s.core c).took = []) ∧
  (∀ (s : State) (l : Launch) (i : Nat) (q : Spot), l.shadowed i = false → l.dead l.pkt.scope = none →
    let t := newTeam l i false ⟨0, 0, 0, 0⟩ s.clock
    s.offerSpot l.pkt (l.prefer i t.x t.y t.z).1 (l.prefer i t.x t.y t.z).2 [] = some q →
    s.placeTeam l i = some (s.addTeam l.pkt (newTeam l i false q s.clock))) ∧
  (∀ (l : Launch) (i g clock : Nat) (shadow : Bool) (q : Spot), g < l.pkt.groups → ∃ h, (newTeam l i shadow q clock).grp? g = some h ∧
    h.pc = BitVec.ofNat 56 l.pkt.entry ∧ h.exec = laneMask l.pkt.width ∧ h.sreg 0 = l.pkt.arg ∧
    (∀ n, 0 < n → n < 64 → h.sreg n = 0) ∧ (∀ r j, h.vreg r j = 0) ∧ (∀ n, n < 7 → h.pred n = 0) ∧ h.chunks.length = l.pkt.regs ∧
    h.role = 0 ∧ h.priv = false ∧ h.sticky = 0 ∧ h.st = .run ∧ (∀ k, k < 8 → (h.tok k).mem = 0) ∧ h.pend = [] ∧
    (∀ k, k < 3 → h.latch k = none) ∧ h.seed = 0 ∧ h.ctr = 0 ∧ h.arv = 0) ∧
  (∀ (s : State) (n : Nat), let u := s.sweep
    (u.launch? n = none → exec (.launchCompletion n) s = .next u) ∧
    (∀ l, u.launch? n = some l → exec (.launchCompletion n) s = .next (if u.finished l then u.complete l else u))) ∧
  (∀ (s : State) (l : Launch), let u := s.complete l
    u.launches = s.launches.filter (fun k => k.num != l.num) ∧ u.past = s.past ++ [(l.num, l.discarded)] ∧
    u.toHost = s.toHost ++ [⟨0x80, l.tag, l.die, true, false, 0, completeBody l, s.host.getD 0, s.seqNext, 0⟩]) ∧
  (∀ (s : State) (r : TeamRef) (t : Team), s.team? r = some t →
    (t.save = none → exec (.preemptDeadline r) s = .next (s.setTeam t) ∧ exec (.teamSave r) s = .next s) ∧
    (∀ p, t.save = some p →
      (p.started = true ∨ s.clock < p.deadline → exec (.preemptDeadline r) s = .next (s.setTeam t)) ∧
      (p.started = false → p.deadline ≤ s.clock → exec (.preemptDeadline r) s = .next
        (s.setTeam { t with save := some { p with started := true, forced := !t.allYield } })) ∧
      (p.started = false → exec (.teamSave r) s = .next
        (if t.allYield then s.setTeam { t with save := some { p with started := true } } else s)) ∧
      (p.started = true → exec (.teamSave r) s = .next (if t.settledForSave then (s.saveTeam t p.area).getD s else s)))) ∧
  (∀ (s : State) (r : GRef) (n i area : Nat) (l : Launch) (g : Group) (e : LaEnt), r.who = .grp n → s.launch? r.t.launch = some l →
    (s.team? r.t = none ∧ (s.saved? r.t).map (·.area) = some area) ∨ (∃ t, s.team? r.t = some t ∧ t.owedArea = some area) →
    s.party? r = some g → g.la[i]? = some e →
    (e.code < 3 → exec (.owedReply r i) s = .next s) ∧
    (3 ≤ e.code → e.owedSlots = [] → exec (.owedReply r i) s = .next
      ((s.areaWrite l.pkt.ctx area (0x10000 + 4096 * n + 0x109 + 16 * i) [BitVec.ofNat 8 e.code]).getD s)) ∧
    (∀ a b u, 3 ≤ e.code → e.owedSlots = [(a, b)] →
      s.areaWrite l.pkt.ctx area (0x50000 + 8192 * n + 512 * i + 8 * a) b = some u → exec (.owedReply r i) s = .next
        ((u.areaWrite l.pkt.ctx area (0x10000 + 4096 * n + 0x109 + 16 * i) [BitVec.ofNat 8 e.code]).getD s)))

/-! ### Peers, errors and the host -/

/-- A peer's request is answered once and its reply kept: one that no entry accepts, one outside the regions a peer reaches or on a SYSTEM
page, is refused with PERMISSION and recorded; one that must wait at its home is held, a consuming read of an OWED line until its blocking
time is over; a store changes its bytes alone; a load returns memory's bytes. A reply reaches the request it answers; a request or a reply
without acknowledgement is sent again eight times from its port, each time with a CORRECTED record, and then the request fails; discarded
packets, replays and corrected errors raise their records, and after 1,024 replays a boundary holds its traffic; an uncorrectable error
loses its line, unless a version holds it, and is reported; and the supervisor core moves records from the heads of its cores' queues and
of its die's sources into the ring, as far as there is room (R6, R8, R295, R375, R384, R406 to R415). That arrivals come through port 0 and
replies leave from die 0, that a boundary is reported by its lower die, that a request for a home beyond a held boundary stays at its port,
and how a location is named, are the model's choices (log 28). -/
def Obligations.PeersAndErrors : Prop :=
  (∀ (s : State) (m : PeerReq),
    let seen := s.kept.find? fun k => k.src == m.src && k.seq == m.seq
    let va : Addr := BitVec.ofNat 56 m.va
    let refused (c : Cause) (u : State) : State :=
      (u.portRecord 0 .remoteFail (u.senderInfo m.src m.va c.code)).replyPeer m.src m.seq m.va c.code []
    let out : Prop := regionOf va = 2 ∨ regionOf va = 3 ∨ (regionOf va = 1 ∧ isTwinReq m.kind = false)
    (∀ k, seen = some k → exec (.peerRequest m) s = .next { s with repPeers := s.repPeers ++ [(k.port, m.src, k.rep)] }) ∧
    (seen = none → s.srcRoom 0 (.port 0) = false → exec (.peerRequest m) s = .next s) ∧
    (seen = none → s.srcRoom 0 (.port 0) = true → s.acceptedBy m = none → exec (.peerRequest m) s = .next (refused .permission s)) ∧
    (∀ ctx, seen = none → s.srcRoom 0 (.port 0) = true → s.acceptedBy m = some ctx → (∀ p, m.kind ≠ .put p) →
      (out → exec (.peerRequest m) s = .next (refused .permission s)) ∧
      (∀ t, ¬ out → s.xlat none ctx (primary va) (peerWant m.kind) = .error t → exec (.peerRequest m) s = .next (refused t.cause s)) ∧
      (∀ p, ¬ out → s.xlat none ctx (primary va) (peerWant m.kind) = .ok p →
        (pteSystem p = true → exec (.peerRequest m) s = .next (refused .permission s)) ∧
        (pteSystem p = false → s.far 0 (paOf p (primary va)) = true → exec (.peerRequest m) s = .next s) ∧
        (pteSystem p = false → s.far 0 (paOf p (primary va)) = false →
          (∀ u d, s.peerPerform va p m.kind = .ok u d →
            exec (.peerRequest m) s = .next ((u.unhold m).replyPeer m.src m.seq m.va 0 d)) ∧
          (∀ u c, s.peerPerform va p m.kind = .fail u c → exec (.peerRequest m) s = .next (refused c (u.unhold m))) ∧
          (∀ owed, s.peerPerform va p m.kind = .held owed →
            (owed = false ∨ s.holdOver m = false → exec (.peerRequest m) s = .next (s.hold m)) ∧
            (owed = true → s.holdOver m = true → exec (.peerRequest m) s = .next (refused .twinEarly (s.unhold m)))))))) ∧
  (∀ (s : State) (va : Addr) (p : BitVec 256) (o : Nat) (b : Byte), s.isLost (paOf p va) = false → ∃ u,
    s.peerPerform va p (.store [(o, b)]) = .ok u [] ∧ u.mem.byte (paOf p va + o) = b ∧
    ∀ a, a ≠ paOf p va + o → u.mem.byte a = s.mem.byte a) ∧
  (∀ (s : State) (va : Addr) (p : BitVec 256) (off n c : Nat), let a := paOf p (va + BitVec.ofNat 56 off)
    pteHomed p = none → s.isLost a = false → s.peerPerform va p (.load off n false c) = .ok s ((s.mem.read a n).map (·.toNat))) ∧
  (∀ (s : State) (m : PeerRep),
    let asked := s.requests.find? fun q => q.seq == m.seq && peerEpa (s.peerEntry q.peer) == m.src
    (asked = none → exec (.peerReply m) s = .next s) ∧
    (∀ q, asked = some q → exec (.peerReply m) s = .next
      (if s.portRoom q.port && s.srcRoom (dieOf q.core) .collective then s.answer q (some m.status) m.data else s))) ∧
  (∀ (s : State) (q : Request) (n : Nat) (c : Cause) (i : W128), q.port = 4 * dieOf q.core + q.req.va / 128 % 4 ∧
    s.portRoom n = s.srcRoom (n / 4) (.port (n % 4)) ∧ s.portRecord n c i = s.raiseDie (n / 4) (.port (n % 4)) c i 0 0 0) ∧
  (∀ (s : State) (ep : W128) (seq va status : Nat) (data : List Nat), ∃ r, let u := s.replyPeer ep seq va status data
    u.kept = s.kept ++ [⟨ep, seq, r, va / 128 % 4, s.seqNext, 0⟩] ∧ u.repPeers = s.repPeers ++ [(va / 128 % 4, ep, r)] ∧
    u.seqNext = s.seqNext + 1 ∧ u.mem = s.mem) ∧
  (∀ (s : State) (n : Nat),
    (s.requests.find? (fun q => q.seq == n) = none → s.kept.find? (fun k => k.pkt == n) = none →
      s.toHost.find? (fun h => h.seq == n) = none → exec (.retransmit n) s = .next s) ∧
    (∀ k, s.requests.find? (fun q => q.seq == n) = none → s.kept.find? (fun k => k.pkt == n) = some k →
      (8 ≤ k.tries ∨ s.portRoom k.port = false → exec (.retransmit n) s = .next s) ∧
      (k.tries < 8 → s.portRoom k.port = true → exec (.retransmit n) s = .next
        { s.portRecord k.port .corrected (retransmitInfo k.src n) with
          repPeers := s.repPeers ++ [(k.port, k.src, k.rep)]
          kept := s.kept.map fun y => if y.pkt = n then { y with tries := y.tries + 1 } else y })) ∧
    (∀ q, s.requests.find? (fun q => q.seq == n) = some q →
      (q.acked = true ∨ s.portRoom q.port = false ∨ s.srcRoom (dieOf q.core) .collective = false → exec (.retransmit n) s = .next s) ∧
      (q.acked = false → s.portRoom q.port = true → s.srcRoom (dieOf q.core) .collective = true →
        (q.tries < 8 → exec (.retransmit n) s = .next
          { s.portRecord q.port .corrected (retransmitInfo (peerEpa (s.peerEntry q.peer)) n) with
            toPeers := s.toPeers ++ [(q.port, q.req)]
            requests := s.requests.map fun y => if y.seq = n then { y with tries := y.tries + 1 } else y }) ∧
        (8 ≤ q.tries → exec (.retransmit n) s = .next (s.answer q none []))))) ∧
  (∀ (s : State) (src : W128), exec (.packetDiscard src) s = .next
    (if s.srcRoom 0 (.port 0) then s.raiseDie 0 (.port 0) .remoteFail (s.senderInfo src 0 0) 0 0 0 else s)) ∧
  (∀ (s : State) (b : Fin 4), let d : Nat := if b = 1 then 2 else if b = 3 then 1 else 0
    let n := s.replays.getD b.val 0 + 1
    let u := { s with replays := s.replays.setIfInBounds b.val n }
    let told : Prop := n ≤ 1024 ∨ n % 1024 = 0
    (¬ told → exec (.flitReplay b) s = .next u) ∧
    (told → exec (.flitReplay b) s = .next
      (if s.srcRoom d (.port 0) then u.raiseDie d (.port 0) .corrected (BitVec.ofNat 128 b.val) 0 0 0 else s)) ∧
    (s.held b.val = true ↔ 1024 ≤ s.replays.getD b.val 0)) ∧
  (∀ (a b : Nat), a < 4 → b < 4 → route a b =
    (if a % 2 = b % 2 then [] else if a < 2 then [0] else [1]) ++ (if a / 2 = b / 2 then [] else if b % 2 = 0 then [2] else [3])) ∧
  (∀ (s : State) (pa : Nat), let k : DieSource := .slice (sliceOf pa).2
    exec (.eccCorrected (.line pa)) s = .next (if s.srcRoom (sliceOf pa).1 k then
      s.raiseDie (sliceOf pa).1 k .corrected (BitVec.ofNat 128 (pa % 2 ^ 48)) 0 0 0 else s) ∧
    (s.srcRoom (sliceOf pa).1 k = false → exec (.eccUncorrectable (.line pa)) s = .next s) ∧
    (s.srcRoom (sliceOf pa).1 k = true →
      (∀ v, s.versions.find? (fun v => v.errorLines.contains (lineOf pa)) = some v →
        exec (.eccUncorrectable (.line pa)) s = .next (s.loseVersion v (lineOf pa))) ∧
      ((∀ v ∈ s.versions, v.errorLines.contains (lineOf pa) = false) → ∃ u : State, exec (.eccUncorrectable (.line pa)) s = .next
          (u.raiseDie (sliceOf pa).1 k .dataLost (BitVec.ofNat 128 (lineOf pa)) 0 0 0) ∧
        u.isLost pa = true ∧ u.mem = s.mem ∧ ∀ a, lineOf a ≠ lineOf pa → u.isLost a = s.isLost a))) ∧
  (∀ (s : State) (c : Fin 128) (n : Fin 20480),
    let report (u : State) (x : Cause) : State := u.raiseDie (dieOf c.val) .supervisor x (info2 (128 * n.val) c.val) 0 0 0
    (s.srcRoom (dieOf c.val) .supervisor = false →
      exec (.eccCorrected (.span c n)) s = .next s ∧ exec (.eccUncorrectable (.span c n)) s = .next s) ∧
    (s.srcRoom (dieOf c.val) .supervisor = true →
      exec (.eccCorrected (.span c n)) s = .next (report s .corrected) ∧
      exec (.eccUncorrectable (.span c n)) s = .next (report (s.spanError c.val n.val) .dataLost))) ∧
  (∀ (s : State) (die : Fin 4), ∃ (u : State) (n m : Nat → Nat), exec (.eventRingTake die) s = .next u ∧
    let queue (v : State) (c : Nat) := (v.core (32 * die.val + c)).evq
    let buffer (v : State) (i : Nat) := ((v.die die.val).srcs.getD i ⟨[], 0⟩).buf
    (u.die die.val).ring = (s.die die.val).ring ++ ((List.range 32).flatMap fun c => (queue s c).take (n c)) ++
      ((List.range 40).flatMap fun i => (buffer s i).take (m i)) ∧
    (∀ c, c < 32 → queue u c = (queue s c).drop (n c)) ∧ (∀ i, i < 40 → buffer u i = (buffer s i).drop (m i)) ∧
    ((s.die die.val).ring.length ≤ 4096 → (u.die die.val).ring.length ≤ 4096) ∧
    ((u.die die.val).ring.length < 4096 → ∀ c, c < 32 → queue u c = []) ∧
    (∀ c, c < 128 → c / 32 ≠ die.val → (u.core c).evq = (s.core c).evq) ∧
    (∀ d, d < 4 → d ≠ die.val → u.die d = s.die d) ∧ u.mem = s.mem ∧ u.teams = s.teams)

/-- Each command of the host reaches its command processor, which performs it, or turns it away with status 2, 3 or 4, and replies; and what
each does once it is accepted; one that is turned away waits for room for its record; EVENTS is served, or turned away, when it arrives
(R384, R386, R388 to R390, R392, R412, R417 to R427, R429). The check numbers of refusals are the model's choice (log 28), and so are the
reply to PREEMPT at its acceptance and the launches that DISCARD takes (log 39), and what a MAP of a root leaves in the TLBs (log 40). -/
def Obligations.HostCommands : Prop :=
  (∀ (s : State) (m : HostMsg),
    Performs s (.provision m) 0x01 m (fun s => s.provision m.body) (exec (.provision m) s) ∧
    Performs s (.attest m) 0x02 m (fun s => s.attest m.body) (exec (.attest m) s) ∧
    Performs s (.policy m) 0x03 m (fun s => s.installPolicy m.body) (exec (.policy m) s) ∧
    Performs s (.peers m) 0x04 m (fun s => s.installPeers m.body) (exec (.peers m) s) ∧
    Performs s (.write m) 0x10 m (fun s => s.writeCmd m.body) (exec (.write m) s) ∧
    Performs s (.read m) 0x11 m (fun s => s.readCmd m.body) (exec (.read m) s) ∧
    Performs s (.map m) 0x20 m (fun s => s.mapCmd m.body) (exec (.map m) s) ∧
    Performs s (.unmap m) 0x21 m (fun s => s.unmapCmd m.body) (exec (.unmap m) s) ∧
    Performs s (.frames m) 0x22 m (fun s => s.framesCmd m.body) (exec (.frames m) s) ∧
    Performs s (.launch m) 0x30 m (fun s => s.launchCmd m) (exec (.launch m) s) ∧
    Performs s (.timetable m) 0x31 m (fun s => s.timetableCmd m.body) (exec (.timetable m) s) ∧
    Performs s (.preempt m) 0x32 m (fun s => s.preemptCmd m.body) (exec (.preempt m) s) ∧
    Performs s (.resume m) 0x33 m (fun s => s.unitCmd false m.body) (exec (.resume m) s) ∧
    Performs s (.discard m) 0x34 m (fun s => s.unitCmd true m.body) (exec (.discard m) s) ∧
    (s.cmdStatus 0x40 m = none → ∀ stat body u, s.eventsCmd m = .reply stat body u →
      exec (.events m) s = .next (u.replyHost 0x40 m stat body)) ∧
    (s.cmdStatus 0x40 m = some 2 → exec (.events m) s = .next (s.replyHost 0x40 m 2 [])) ∧
    (∀ stat, s.cmdStatus 0x40 m = some stat → stat ≠ 2 → exec (.events m) s = .next (if s.srcRoom 0 (.port 0) then
      (s.portRecord 0 .remoteFail (s.senderInfo m.src 0 0)).replyHost 0x40 m stat []
      else { s with turned := s.turned ++ [(0x40, stat, m)] }))) ∧
  (∀ (s : State) (opc : Nat) (m : HostMsg), s.cmdStatus opc m = none ↔
    (∀ h, s.host = some h → h = m.src) ∧ (s.host = none → opc = 0x01 ∨ opc = 0x02) ∧ headBad m = false ∧ bodyBad opc m.body = false) ∧
  (∀ (s : State) (b : List Byte), s.host = none → s.straps.tmode = false → s.imageCheck (b.drop 16) = none →
    s.provision b = .reply 0 (bytesOf 4 0) { s with
      host := some (BitVec.ofNat 128 (numAt b 0 16))
      measurement := digestBytes ((b.drop 16).drop 4096)
      fuseMin := max s.fuseMin (numAt (b.drop 16) 40 4) }) ∧
  (∀ (s : State), let u := s.unprovision
    u.host = none ∧ u.policy = none ∧ u.peers = [] ∧ u.launches = [] ∧ u.teams = [] ∧ u.versions = [] ∧ u.clock = 0 ∧ u.seqNext = 0 ∧
    u.replays = Vector.replicate 4 0 ∧ u.straps = s.straps ∧ u.serial = s.serial ∧ u.fuseMin = s.fuseMin) ∧
  (∀ (s : State) (nonce : List Byte), ∃ r, s.attest nonce = .reply 0 (s.attestBody nonce ++ r) s) ∧
  (∀ (s : State) (b : List Byte), policyCheck ((List.range 2048).map fun i => numAt b (8 * i) 8) = none →
    ∃ t, s.installPolicy b = .reply 0 [] { s with policy := some t } ∧
      ∀ i, i < 2048 → Store.get 0 t i = BitVec.ofNat 64 (numAt b (8 * i) 8)) ∧
  (∀ (s : State) (b : List Byte) (e : BitVec 256), numAt b 4 4 = 1 → numAt b 0 4 < 256 → e = BitVec.ofNat 256 (numAt b 8 32) →
    bits (numAt b 8 32) 95 81 = 0 → bits (numAt b 8 32) 63 1 = 0 →
    s.installPeers b = .reply 0 [] { s with peers := Store.set 0 s.peers (numAt b 0 4) e }) ∧
  (∀ (s : State) (b : List Byte), let a := numAt b 8 8
    let d := b.drop 64
    numAt b 0 1 = 0 → d ≠ [] → a % 128 + d.length ≤ 128 → inTier a d.length = true → s.isLost a = false →
    ∃ u, s.writeCmd b = .reply 0 [] u ∧ (∀ i, i < d.length → u.mem.byte (a + i) = d.getD i 0) ∧
      ∀ c, c < a ∨ a + d.length ≤ c → u.mem.byte c = s.mem.byte c) ∧
  (∀ (s : State) (b : List Byte), let a := numAt b 8 8
    let n := numAt b 16 4
    numAt b 0 1 = 0 → 0 < n → a % 128 + n ≤ 128 → inTier a n = true → s.isLost a = false →
    s.readCmd b = .reply 0 (s.mem.read a n) s) ∧
  (∀ (s : State) (b : List Byte) (ea : Nat), let ctx := numAt b 0 2
    let lvl := numAt b 2 1
    let va := numAt b 8 8
    let p := BitVec.ofNat 256 (numAt b 16 32)
    let u := (s.setEntry ctx va ea p).resetBacking p lvl
    lvl ≤ 3 → (s.die 0).busy = false → s.lostWalk ctx va lvl = false → s.entryAt ctx va lvl = some ea →
    (u.oldAccess ctx va p = false → s.mapCmd b = .reply 0 []
      (if pteBits p 65 64 = 1 ∨ pteBits p 65 64 = 2 then u.wakeParked ctx va lvl else u)) ∧
    (s.setEntry ctx va ea p).pteAt ea = p) ∧
  (∀ (s : State) (b : List Byte), numAt b 2 1 = 0xFF → numAt b 3 1 = 0 → numAt b 8 8 % 2 ^ 20 = 0 → inTier (numAt b 8 8) (2 ^ 20) = true →
    s.mapCmd b = .reply 0 [] { s with rootU := Store.set 0 s.rootU (numAt b 0 2) (numAt b 8 8) }) ∧
  (∀ (s : State) (b : List Byte) (ea : Nat), let ctx := numAt b 0 2
    let va := numAt b 2 8
    let u := s.setEntry ctx va ea (invalidPte (s.pteAt ea))
    (s.die 0).busy = false → s.lostWalk ctx va 3 = false → s.leafAt ctx va = some ea → u.oldAccess ctx va 0 = false →
    s.unmapCmd b = .reply 0 [] u ∧ pteBits (u.pteAt ea) 65 64 = 0) ∧
  (∀ (s : State) (b : List Byte), let die := numAt b 0 1
    let tier := numAt b 1 1
    let size := numAt b 2 1
    let a := numAt b 8 8
    die ≤ 3 → tier ≤ 1 → size ≤ 2 → numAt b 4 4 = 1 → frameOk die tier size a = true → (tier, size, a) ∉ (s.die die).frames →
    ∃ body, s.framesCmd b = .reply 0 body (s.modDie die fun d => { d with frames := d.frames ++ [(tier, size, a)] })) ∧
  (∀ (s : State) (m : HostMsg), s.srcRoomFor m.die.val .cmdProc 5 = true →
    (∀ n u, s.acceptLaunch m.die.val m.tag m.body = (.ok n, u) → s.launchCmd m = .reply 0 (bytesOf 4 n) u) ∧
    (∀ k u, s.acceptLaunch m.die.val m.tag m.body = (.error k, u) → s.launchCmd m = .reply 1 (bytesOf 4 k) u)) ∧
  (∀ (s : State) (die : Nat) (tag : W32) (b : List Byte) (a : Accepted), s.launchChecks b (parsePacket b) = .ok a →
    (∀ k ∈ (parsePacket b).preds, k = 0) → s.acceptLaunch die tag b = (.ok (4 * s.launchNext + die), { s with
      launchNext := s.launchNext + 1
      launches := s.launches ++ [newLaunch (4 * s.launchNext + die) die tag (parsePacket b) a] })) ∧
  (∀ (s : State) (b : List Byte) (l : Launch), let u := s.sweep
    u.launch? (numAt b 0 4) = some l → l.preempted = false → l.discarded = false → u.finished l = false → l.saved = [] →
    (∀ t ∈ u.teams, t.ref.launch = l.num → t.save = none) →
    let ts := u.areaOrder l.num
    numAt b 4 8 % 2 ^ 23 = 0 → u.bufferOk l.pkt.ctx (numAt b 4 8) (2 ^ 23 * ts.length) = true →
    s.preemptCmd b = .reply 0 (bytesOf 4 ts.length) (u.startPreempt l (numAt b 4 8) ts)) ∧
  (∀ (s : State) (b : List Byte) (l : Launch) (discard : Bool), s.discardRoom (numAt b 0 4) 0 = true → s.launch? (numAt b 0 4) = some l →
    numAt b 4 1 ≤ 6 → numAt b 11 1 = 0 →
    (s.unitOf l discard false (numAt b 4 1) (numAt b 5 4) (numAt b 9 2) = none → s.unitCmd discard b = .reply 1 (bytesOf 4 3) s) ∧
    (∀ u, s.unitOf l discard false (numAt b 4 1) (numAt b 5 4) (numAt b 9 2) = some u → s.unitCmd discard b = .reply 0 [] u)) ∧
  (∀ (s : State) (l : Launch) (buffer : Bool) (team idx : Nat), let rests : Prop := l.discarded = false ∧ (l.halted = true ∨
      l.eligible = false ∨ (l.preempted = true ∧ ∀ t ∈ s.teams, t.ref.launch ≠ l.num))
    (rests → s.unitOf l true buffer 0 team idx = some (s.discardLaunch l.num)) ∧ (¬ rests → s.unitOf l true buffer 0 team idx = none)) ∧
  (∀ (s : State) (m : HostMsg), let n := numAt m.body 0 4
    let r := (s.die m.die.val).ring.take n
    n ≤ 1024 → s.eventsCmd m = .reply 0 (bytesOf 4 r.length ++ (r.map Rec.bytes).flatten)
      (s.modDie m.die.val fun d => { d with ring := d.ring.drop n })) ∧
  (∀ (s : State) (q : Straps), exec (.reset q) s = .next { State.reset with
    agenda := s.agenda, rr := s.rr, fresh := s.fresh, fuseMin := s.fuseMin, serial := s.serial, straps := q })

/-- TIMETABLE replaces the timetable of a launch that has not yet become eligible: it reads and checks the new one when the command is
performed, and of an ordered launch each count must be ALL (R365). Once the launch is eligible it is refused, and the old timetable
stays (R423). -/
def Obligations.TimetableIsReplaced : Prop :=
  ∀ (s : State) (m : HostMsg) (l : Launch), s.launch? (numAt m.body 0 4) = some l → l.discarded = false →
    Performs s (.timetable m) 0x31 m (fun s => s.timetableCmd m.body) (exec (.timetable m) s) ∧
    (l.eligible = true → ∃ body, s.timetableCmd m.body = .reply 1 body s) ∧
    (l.eligible = false → l.pkt.ord = true → numAt m.body 8 8 ≠ 0 → s.countsBad l.pkt (numAt m.body 8 8) = true →
      ∃ body, s.timetableCmd m.body = .reply 1 body s) ∧
    (l.eligible = false → numAt m.body 8 8 ≠ 0 → l.pkt.ord = false ∨ s.countsBad l.pkt (numAt m.body 8 8) = false →
      (∀ t, s.cpTimetable l.pkt (numAt m.body 8 8) = some t → s.timetableCmd m.body = .reply 0 [] (s.setLaunch { l with tt := some t })) ∧
      (s.cpTimetable l.pkt (numAt m.body 8 8) = none → ∃ body, s.timetableCmd m.body = .reply 1 body s))

/-- The machine after reset: the device is unprovisioned, no policy, peer, launch or team is there, every collective slot is FREE,
every root, ring, queue and list is empty, the first launch of die d will get number 4 + d (R335), no boundary holds its traffic, and the
clock is 0 (R429). No party executes and memory is in its form. The first launch number, the record numbers of 0 and the measurement of
zeros are the model's choice (log 14). -/
def Obligations.AfterReset : Prop :=
  let s := State.reset
  s.host = none ∧ s.policy = none ∧ s.peers = [] ∧ s.launches = [] ∧ s.teams = [] ∧ s.versions = [] ∧ s.rootU = [] ∧ s.rootS = [] ∧
  (∀ d, d < 4 → (s.die d).slots = [] ∧ (s.die d).frames = [] ∧ (s.die d).ring = [] ∧ (s.die d).moves = []) ∧
  (∀ c, c < 128 → (s.core c).evq = [] ∧ (s.core c).tlb = [] ∧ (s.core c).l1 = [] ∧ (s.core c).copies = [] ∧ (s.core c).seq = 0) ∧
  s.measurement = List.replicate 32 0 ∧ s.launchNext = 1 ∧ (∀ b, s.held b = false) ∧ s.clock = 0 ∧ IdleInv s ∧ MemInv s
end

