-- ==== Sys2Proof/Laws/Issue.lean ====
section
/-! SUPPORT. What executing a group word does, said once: the state a word that goes on to its own effect is left in, and what a word
that is skipped or inactive leaves. -/
namespace Sys2Proof.Spec

open Sys2Proof.Machine

theorem party_some {s : State} {i : Instr} {c : Ctx} {v : View} (h : party s i = some (c, v)) :
    ∃ r, s.cur = .grp r ∧ s.ctx? r = some c ∧ i.view c.g.width = some v := by
  unfold party at h
  split at h <;> try (cases h)
  rename_i r hr
  split at h <;> try (cases h)
  rename_i c' hc
  split at h <;> try (cases h)
  rename_i v' hv
  exact ⟨r, hr, hc, hv⟩

theorem ctx?_ref {s : State} {r : GRef} {c : Ctx} (h : s.ctx? r = some c) : c.ref = r := by
  simp only [State.ctx?, Option.bind_eq_bind, Option.bind_eq_some_iff] at h
  obtain ⟨t, -, l, -, g, -, h⟩ := h
  cases h
  rfl

/-- Executing a word of a party is issuing it. -/
theorem runWord_party {s : State} {i : Instr} {c : Ctx} {v : View} (h : party s i = some (c, v))
    (body : Ex → State → Eff) : runWord i body s = .next (c.issue i v body s) := by
  obtain ⟨r, hr, hc, hv⟩ := party_some h
  simp [runWord, hr, hc, hv]

/-- A word that goes on to its own effect. -/
theorem runWord_go {s : State} {i : Instr} {x : Ex} (h : issuing s i = some x) (body : Ex → State → Eff) :
    runWord i body s = .next (x.finish (start x s) (body x (start x s))) := by
  unfold issuing at h
  split at h <;> try (cases h)
  rename_i c v hp
  rw [runWord_party hp]
  simp only [issues] at h
  split at h
  · cases h
  rename_i hn
  simp only [Bool.or_eq_true, not_or, Bool.not_eq_true, bne_eq_false_iff_eq] at hn
  obtain ⟨⟨⟨⟨⟨h1, h0⟩, h3⟩, h4⟩, h5⟩, h6⟩ := hn
  have h2 : inactive c v = false := by simp only [inactive, h0, Bool.false_and]
  split at h <;> try (cases h)
  rename_i pops hpops
  split at h <;> try (cases h)
  rename_i hr
  simp only [Bool.or_eq_true, not_or, Bool.not_eq_true] at hr
  obtain ⟨h7, h8⟩ := hr
  have e4 : c.wordTrap i v = none := by simpa using h4
  have e7 : c.noRoom v (lanes (activeOf c v) c.g.width).length pops = none := by simpa using h7.1
  have e9 : (⟨c, i, v, activeOf c v, c.g.issuePc, pops, c.g.replay.isSome⟩ : Ex).lostReg = none := by simpa using h7.2
  congr 1
  have key : ∀ (rp ia sk : Bool) (act : Mask) (x : Ex), rp = c.g.replay.isSome → ia = false → sk = false → act = activeOf c v →
      x = ⟨c, i, v, activeOf c v, c.g.issuePc, [], c.g.replay.isSome⟩ →
      Ctx.issue.issueLive c i v body s c.g rp ia sk act x =
        ({ x with popped := pops } : Ex).finish (start { x with c := c, v := v, popped := pops } s)
          (body { x with popped := pops } (start { x with c := c, v := v, popped := pops } s)) := by
    intro rp ia sk act x e1 e2 e3 ea ex
    subst e1 e2 e3 ea ex
    have e5 : (if c.g.replay.isSome = true then (if (c.g.la.any fun e => !e.done) = true then Look.wait else Look.go)
        else lookCheck c.g.la v.touches false) = Look.go := by
      have := h5
      simp only [lookOf, h2] at this
      exact this
    simp only [Ctx.issue.issueLive, e4, e5, hpops, e7, e9, h6, h8, start, Bool.false_eq_true, if_false]
  have ha : activeOf c v = (if v.kind = Kind.vector then c.g.guard v.h.gp.val v.h.gn &&& laneMask c.g.width else c.g.exec) := rfl
  unfold Ctx.issue
  simp only
  split
  · rename_i k hk
    have : (killPoint i && !k.atRestore && !(v.kind == .uniform && !(c.g.guard v.h.gp.val v.h.gn &&& laneMask c.g.width).getLsbD (lowLane c.g.exec))) = false := by
      have := h1
      simp only [killedAt, hk, skipped, guarded] at this
      exact this
    rw [if_neg (by rw [this]; exact Bool.false_ne_true)]
    exact key _ _ _ _ _ rfl h2 h3 ha.symm (by rw [ha])
  · exact key _ _ _ _ _ rfl h2 h3 ha.symm (by rw [ha])

end Sys2Proof.Spec
end

