-- ==== Sys2Proof/Laws/State.lean ====
section
/-! SUPPORT. What each named update of the state, of a team and of a group leaves of every field: one lemma per field. -/
namespace Sys2Proof.Machine

/-! ### State.setTeam -/

@[simp] theorem State.setTeam_clock (x : State) (t : Team) : (x.setTeam t).clock = x.clock := rfl
@[simp] theorem State.setTeam_agenda (x : State) (t : Team) : (x.setTeam t).agenda = x.agenda := rfl
@[simp] theorem State.setTeam_rr (x : State) (t : Team) : (x.setTeam t).rr = x.rr := rfl
@[simp] theorem State.setTeam_rank (x : State) (t : Team) : (x.setTeam t).rank = x.rank := rfl
@[simp] theorem State.setTeam_cur (x : State) (t : Team) : (x.setTeam t).cur = x.cur := rfl
@[simp] theorem State.setTeam_fresh (x : State) (t : Team) : (x.setTeam t).fresh = x.fresh := rfl
@[simp] theorem State.setTeam_mem (x : State) (t : Team) : (x.setTeam t).mem = x.mem := rfl
@[simp] theorem State.setTeam_lost (x : State) (t : Team) : (x.setTeam t).lost = x.lost := rfl
@[simp] theorem State.setTeam_rootU (x : State) (t : Team) : (x.setTeam t).rootU = x.rootU := rfl
@[simp] theorem State.setTeam_rootS (x : State) (t : Team) : (x.setTeam t).rootS = x.rootS := rfl
@[simp] theorem State.setTeam_cores (x : State) (t : Team) : (x.setTeam t).cores = x.cores := rfl
@[simp] theorem State.setTeam_dies (x : State) (t : Team) : (x.setTeam t).dies = x.dies := rfl
@[simp] theorem State.setTeam_launches (x : State) (t : Team) : (x.setTeam t).launches = x.launches := rfl
@[simp] theorem State.setTeam_past (x : State) (t : Team) : (x.setTeam t).past = x.past := rfl
@[simp] theorem State.setTeam_launchNext (x : State) (t : Team) : (x.setTeam t).launchNext = x.launchNext := rfl
@[simp] theorem State.setTeam_versions (x : State) (t : Team) : (x.setTeam t).versions = x.versions := rfl
@[simp] theorem State.setTeam_versNext (x : State) (t : Team) : (x.setTeam t).versNext = x.versNext := rfl
@[simp] theorem State.setTeam_policy (x : State) (t : Team) : (x.setTeam t).policy = x.policy := rfl
@[simp] theorem State.setTeam_peers (x : State) (t : Team) : (x.setTeam t).peers = x.peers := rfl
@[simp] theorem State.setTeam_flying (x : State) (t : Team) : (x.setTeam t).flying = x.flying := rfl
@[simp] theorem State.setTeam_requests (x : State) (t : Team) : (x.setTeam t).requests = x.requests := rfl
@[simp] theorem State.setTeam_seqNext (x : State) (t : Team) : (x.setTeam t).seqNext = x.seqNext := rfl
@[simp] theorem State.setTeam_kept (x : State) (t : Team) : (x.setTeam t).kept = x.kept := rfl
@[simp] theorem State.setTeam_heldReqs (x : State) (t : Team) : (x.setTeam t).heldReqs = x.heldReqs := rfl
@[simp] theorem State.setTeam_toPeers (x : State) (t : Team) : (x.setTeam t).toPeers = x.toPeers := rfl
@[simp] theorem State.setTeam_repPeers (x : State) (t : Team) : (x.setTeam t).repPeers = x.repPeers := rfl
@[simp] theorem State.setTeam_toHost (x : State) (t : Team) : (x.setTeam t).toHost = x.toHost := rfl
@[simp] theorem State.setTeam_turned (x : State) (t : Team) : (x.setTeam t).turned = x.turned := rfl
@[simp] theorem State.setTeam_host (x : State) (t : Team) : (x.setTeam t).host = x.host := rfl
@[simp] theorem State.setTeam_measurement (x : State) (t : Team) : (x.setTeam t).measurement = x.measurement := rfl
@[simp] theorem State.setTeam_fuseMin (x : State) (t : Team) : (x.setTeam t).fuseMin = x.fuseMin := rfl
@[simp] theorem State.setTeam_serial (x : State) (t : Team) : (x.setTeam t).serial = x.serial := rfl
@[simp] theorem State.setTeam_straps (x : State) (t : Team) : (x.setTeam t).straps = x.straps := rfl
@[simp] theorem State.setTeam_replays (x : State) (t : Team) : (x.setTeam t).replays = x.replays := rfl

/-! ### State.setLaunch -/

@[simp] theorem State.setLaunch_clock (x : State) (l : Launch) : (x.setLaunch l).clock = x.clock := rfl
@[simp] theorem State.setLaunch_agenda (x : State) (l : Launch) : (x.setLaunch l).agenda = x.agenda := rfl
@[simp] theorem State.setLaunch_rr (x : State) (l : Launch) : (x.setLaunch l).rr = x.rr := rfl
@[simp] theorem State.setLaunch_rank (x : State) (l : Launch) : (x.setLaunch l).rank = x.rank := rfl
@[simp] theorem State.setLaunch_cur (x : State) (l : Launch) : (x.setLaunch l).cur = x.cur := rfl
@[simp] theorem State.setLaunch_fresh (x : State) (l : Launch) : (x.setLaunch l).fresh = x.fresh := rfl
@[simp] theorem State.setLaunch_mem (x : State) (l : Launch) : (x.setLaunch l).mem = x.mem := rfl
@[simp] theorem State.setLaunch_lost (x : State) (l : Launch) : (x.setLaunch l).lost = x.lost := rfl
@[simp] theorem State.setLaunch_rootU (x : State) (l : Launch) : (x.setLaunch l).rootU = x.rootU := rfl
@[simp] theorem State.setLaunch_rootS (x : State) (l : Launch) : (x.setLaunch l).rootS = x.rootS := rfl
@[simp] theorem State.setLaunch_cores (x : State) (l : Launch) : (x.setLaunch l).cores = x.cores := rfl
@[simp] theorem State.setLaunch_dies (x : State) (l : Launch) : (x.setLaunch l).dies = x.dies := rfl
@[simp] theorem State.setLaunch_past (x : State) (l : Launch) : (x.setLaunch l).past = x.past := rfl
@[simp] theorem State.setLaunch_launchNext (x : State) (l : Launch) : (x.setLaunch l).launchNext = x.launchNext := rfl
@[simp] theorem State.setLaunch_teams (x : State) (l : Launch) : (x.setLaunch l).teams = x.teams := rfl
@[simp] theorem State.setLaunch_versions (x : State) (l : Launch) : (x.setLaunch l).versions = x.versions := rfl
@[simp] theorem State.setLaunch_versNext (x : State) (l : Launch) : (x.setLaunch l).versNext = x.versNext := rfl
@[simp] theorem State.setLaunch_policy (x : State) (l : Launch) : (x.setLaunch l).policy = x.policy := rfl
@[simp] theorem State.setLaunch_peers (x : State) (l : Launch) : (x.setLaunch l).peers = x.peers := rfl
@[simp] theorem State.setLaunch_flying (x : State) (l : Launch) : (x.setLaunch l).flying = x.flying := rfl
@[simp] theorem State.setLaunch_requests (x : State) (l : Launch) : (x.setLaunch l).requests = x.requests := rfl
@[simp] theorem State.setLaunch_seqNext (x : State) (l : Launch) : (x.setLaunch l).seqNext = x.seqNext := rfl
@[simp] theorem State.setLaunch_kept (x : State) (l : Launch) : (x.setLaunch l).kept = x.kept := rfl
@[simp] theorem State.setLaunch_heldReqs (x : State) (l : Launch) : (x.setLaunch l).heldReqs = x.heldReqs := rfl
@[simp] theorem State.setLaunch_toPeers (x : State) (l : Launch) : (x.setLaunch l).toPeers = x.toPeers := rfl
@[simp] theorem State.setLaunch_repPeers (x : State) (l : Launch) : (x.setLaunch l).repPeers = x.repPeers := rfl
@[simp] theorem State.setLaunch_toHost (x : State) (l : Launch) : (x.setLaunch l).toHost = x.toHost := rfl
@[simp] theorem State.setLaunch_turned (x : State) (l : Launch) : (x.setLaunch l).turned = x.turned := rfl
@[simp] theorem State.setLaunch_host (x : State) (l : Launch) : (x.setLaunch l).host = x.host := rfl
@[simp] theorem State.setLaunch_measurement (x : State) (l : Launch) : (x.setLaunch l).measurement = x.measurement := rfl
@[simp] theorem State.setLaunch_fuseMin (x : State) (l : Launch) : (x.setLaunch l).fuseMin = x.fuseMin := rfl
@[simp] theorem State.setLaunch_serial (x : State) (l : Launch) : (x.setLaunch l).serial = x.serial := rfl
@[simp] theorem State.setLaunch_straps (x : State) (l : Launch) : (x.setLaunch l).straps = x.straps := rfl
@[simp] theorem State.setLaunch_replays (x : State) (l : Launch) : (x.setLaunch l).replays = x.replays := rfl

/-! ### State.modCore -/

@[simp] theorem State.modCore_clock (x : State) (c : Nat) (f : CoreSt → CoreSt) : (x.modCore c f).clock = x.clock := rfl
@[simp] theorem State.modCore_agenda (x : State) (c : Nat) (f : CoreSt → CoreSt) : (x.modCore c f).agenda = x.agenda := rfl
@[simp] theorem State.modCore_rr (x : State) (c : Nat) (f : CoreSt → CoreSt) : (x.modCore c f).rr = x.rr := rfl
@[simp] theorem State.modCore_rank (x : State) (c : Nat) (f : CoreSt → CoreSt) : (x.modCore c f).rank = x.rank := rfl
@[simp] theorem State.modCore_cur (x : State) (c : Nat) (f : CoreSt → CoreSt) : (x.modCore c f).cur = x.cur := rfl
@[simp] theorem State.modCore_fresh (x : State) (c : Nat) (f : CoreSt → CoreSt) : (x.modCore c f).fresh = x.fresh := rfl
@[simp] theorem State.modCore_mem (x : State) (c : Nat) (f : CoreSt → CoreSt) : (x.modCore c f).mem = x.mem := rfl
@[simp] theorem State.modCore_lost (x : State) (c : Nat) (f : CoreSt → CoreSt) : (x.modCore c f).lost = x.lost := rfl
@[simp] theorem State.modCore_rootU (x : State) (c : Nat) (f : CoreSt → CoreSt) : (x.modCore c f).rootU = x.rootU := rfl
@[simp] theorem State.modCore_rootS (x : State) (c : Nat) (f : CoreSt → CoreSt) : (x.modCore c f).rootS = x.rootS := rfl
@[simp] theorem State.modCore_dies (x : State) (c : Nat) (f : CoreSt → CoreSt) : (x.modCore c f).dies = x.dies := rfl
@[simp] theorem State.modCore_launches (x : State) (c : Nat) (f : CoreSt → CoreSt) : (x.modCore c f).launches = x.launches := rfl
@[simp] theorem State.modCore_past (x : State) (c : Nat) (f : CoreSt → CoreSt) : (x.modCore c f).past = x.past := rfl
@[simp] theorem State.modCore_launchNext (x : State) (c : Nat) (f : CoreSt → CoreSt) : (x.modCore c f).launchNext = x.launchNext := rfl
@[simp] theorem State.modCore_teams (x : State) (c : Nat) (f : CoreSt → CoreSt) : (x.modCore c f).teams = x.teams := rfl
@[simp] theorem State.modCore_versions (x : State) (c : Nat) (f : CoreSt → CoreSt) : (x.modCore c f).versions = x.versions := rfl
@[simp] theorem State.modCore_versNext (x : State) (c : Nat) (f : CoreSt → CoreSt) : (x.modCore c f).versNext = x.versNext := rfl
@[simp] theorem State.modCore_policy (x : State) (c : Nat) (f : CoreSt → CoreSt) : (x.modCore c f).policy = x.policy := rfl
@[simp] theorem State.modCore_peers (x : State) (c : Nat) (f : CoreSt → CoreSt) : (x.modCore c f).peers = x.peers := rfl
@[simp] theorem State.modCore_flying (x : State) (c : Nat) (f : CoreSt → CoreSt) : (x.modCore c f).flying = x.flying := rfl
@[simp] theorem State.modCore_requests (x : State) (c : Nat) (f : CoreSt → CoreSt) : (x.modCore c f).requests = x.requests := rfl
@[simp] theorem State.modCore_seqNext (x : State) (c : Nat) (f : CoreSt → CoreSt) : (x.modCore c f).seqNext = x.seqNext := rfl
@[simp] theorem State.modCore_kept (x : State) (c : Nat) (f : CoreSt → CoreSt) : (x.modCore c f).kept = x.kept := rfl
@[simp] theorem State.modCore_heldReqs (x : State) (c : Nat) (f : CoreSt → CoreSt) : (x.modCore c f).heldReqs = x.heldReqs := rfl
@[simp] theorem State.modCore_toPeers (x : State) (c : Nat) (f : CoreSt → CoreSt) : (x.modCore c f).toPeers = x.toPeers := rfl
@[simp] theorem State.modCore_repPeers (x : State) (c : Nat) (f : CoreSt → CoreSt) : (x.modCore c f).repPeers = x.repPeers := rfl
@[simp] theorem State.modCore_toHost (x : State) (c : Nat) (f : CoreSt → CoreSt) : (x.modCore c f).toHost = x.toHost := rfl
@[simp] theorem State.modCore_turned (x : State) (c : Nat) (f : CoreSt → CoreSt) : (x.modCore c f).turned = x.turned := rfl
@[simp] theorem State.modCore_host (x : State) (c : Nat) (f : CoreSt → CoreSt) : (x.modCore c f).host = x.host := rfl
@[simp] theorem State.modCore_measurement (x : State) (c : Nat) (f : CoreSt → CoreSt) : (x.modCore c f).measurement = x.measurement := rfl
@[simp] theorem State.modCore_fuseMin (x : State) (c : Nat) (f : CoreSt → CoreSt) : (x.modCore c f).fuseMin = x.fuseMin := rfl
@[simp] theorem State.modCore_serial (x : State) (c : Nat) (f : CoreSt → CoreSt) : (x.modCore c f).serial = x.serial := rfl
@[simp] theorem State.modCore_straps (x : State) (c : Nat) (f : CoreSt → CoreSt) : (x.modCore c f).straps = x.straps := rfl
@[simp] theorem State.modCore_replays (x : State) (c : Nat) (f : CoreSt → CoreSt) : (x.modCore c f).replays = x.replays := rfl

/-! ### State.modDie -/

@[simp] theorem State.modDie_clock (x : State) (d : Nat) (f : DieSt → DieSt) : (x.modDie d f).clock = x.clock := rfl
@[simp] theorem State.modDie_agenda (x : State) (d : Nat) (f : DieSt → DieSt) : (x.modDie d f).agenda = x.agenda := rfl
@[simp] theorem State.modDie_rr (x : State) (d : Nat) (f : DieSt → DieSt) : (x.modDie d f).rr = x.rr := rfl
@[simp] theorem State.modDie_rank (x : State) (d : Nat) (f : DieSt → DieSt) : (x.modDie d f).rank = x.rank := rfl
@[simp] theorem State.modDie_cur (x : State) (d : Nat) (f : DieSt → DieSt) : (x.modDie d f).cur = x.cur := rfl
@[simp] theorem State.modDie_fresh (x : State) (d : Nat) (f : DieSt → DieSt) : (x.modDie d f).fresh = x.fresh := rfl
@[simp] theorem State.modDie_mem (x : State) (d : Nat) (f : DieSt → DieSt) : (x.modDie d f).mem = x.mem := rfl
@[simp] theorem State.modDie_lost (x : State) (d : Nat) (f : DieSt → DieSt) : (x.modDie d f).lost = x.lost := rfl
@[simp] theorem State.modDie_rootU (x : State) (d : Nat) (f : DieSt → DieSt) : (x.modDie d f).rootU = x.rootU := rfl
@[simp] theorem State.modDie_rootS (x : State) (d : Nat) (f : DieSt → DieSt) : (x.modDie d f).rootS = x.rootS := rfl
@[simp] theorem State.modDie_cores (x : State) (d : Nat) (f : DieSt → DieSt) : (x.modDie d f).cores = x.cores := rfl
@[simp] theorem State.modDie_launches (x : State) (d : Nat) (f : DieSt → DieSt) : (x.modDie d f).launches = x.launches := rfl
@[simp] theorem State.modDie_past (x : State) (d : Nat) (f : DieSt → DieSt) : (x.modDie d f).past = x.past := rfl
@[simp] theorem State.modDie_launchNext (x : State) (d : Nat) (f : DieSt → DieSt) : (x.modDie d f).launchNext = x.launchNext := rfl
@[simp] theorem State.modDie_teams (x : State) (d : Nat) (f : DieSt → DieSt) : (x.modDie d f).teams = x.teams := rfl
@[simp] theorem State.modDie_versions (x : State) (d : Nat) (f : DieSt → DieSt) : (x.modDie d f).versions = x.versions := rfl
@[simp] theorem State.modDie_versNext (x : State) (d : Nat) (f : DieSt → DieSt) : (x.modDie d f).versNext = x.versNext := rfl
@[simp] theorem State.modDie_policy (x : State) (d : Nat) (f : DieSt → DieSt) : (x.modDie d f).policy = x.policy := rfl
@[simp] theorem State.modDie_peers (x : State) (d : Nat) (f : DieSt → DieSt) : (x.modDie d f).peers = x.peers := rfl
@[simp] theorem State.modDie_flying (x : State) (d : Nat) (f : DieSt → DieSt) : (x.modDie d f).flying = x.flying := rfl
@[simp] theorem State.modDie_requests (x : State) (d : Nat) (f : DieSt → DieSt) : (x.modDie d f).requests = x.requests := rfl
@[simp] theorem State.modDie_seqNext (x : State) (d : Nat) (f : DieSt → DieSt) : (x.modDie d f).seqNext = x.seqNext := rfl
@[simp] theorem State.modDie_kept (x : State) (d : Nat) (f : DieSt → DieSt) : (x.modDie d f).kept = x.kept := rfl
@[simp] theorem State.modDie_heldReqs (x : State) (d : Nat) (f : DieSt → DieSt) : (x.modDie d f).heldReqs = x.heldReqs := rfl
@[simp] theorem State.modDie_toPeers (x : State) (d : Nat) (f : DieSt → DieSt) : (x.modDie d f).toPeers = x.toPeers := rfl
@[simp] theorem State.modDie_repPeers (x : State) (d : Nat) (f : DieSt → DieSt) : (x.modDie d f).repPeers = x.repPeers := rfl
@[simp] theorem State.modDie_toHost (x : State) (d : Nat) (f : DieSt → DieSt) : (x.modDie d f).toHost = x.toHost := rfl
@[simp] theorem State.modDie_turned (x : State) (d : Nat) (f : DieSt → DieSt) : (x.modDie d f).turned = x.turned := rfl
@[simp] theorem State.modDie_host (x : State) (d : Nat) (f : DieSt → DieSt) : (x.modDie d f).host = x.host := rfl
@[simp] theorem State.modDie_measurement (x : State) (d : Nat) (f : DieSt → DieSt) : (x.modDie d f).measurement = x.measurement := rfl
@[simp] theorem State.modDie_fuseMin (x : State) (d : Nat) (f : DieSt → DieSt) : (x.modDie d f).fuseMin = x.fuseMin := rfl
@[simp] theorem State.modDie_serial (x : State) (d : Nat) (f : DieSt → DieSt) : (x.modDie d f).serial = x.serial := rfl
@[simp] theorem State.modDie_straps (x : State) (d : Nat) (f : DieSt → DieSt) : (x.modDie d f).straps = x.straps := rfl
@[simp] theorem State.modDie_replays (x : State) (d : Nat) (f : DieSt → DieSt) : (x.modDie d f).replays = x.replays := rfl

/-! ### State.modTeam -/

@[simp] theorem State.modTeam_clock (x : State) (r : TeamRef) (f : Team → Team) : (x.modTeam r f).clock = x.clock := by unfold State.modTeam; split <;> rfl
@[simp] theorem State.modTeam_agenda (x : State) (r : TeamRef) (f : Team → Team) : (x.modTeam r f).agenda = x.agenda := by unfold State.modTeam; split <;> rfl
@[simp] theorem State.modTeam_rr (x : State) (r : TeamRef) (f : Team → Team) : (x.modTeam r f).rr = x.rr := by unfold State.modTeam; split <;> rfl
@[simp] theorem State.modTeam_rank (x : State) (r : TeamRef) (f : Team → Team) : (x.modTeam r f).rank = x.rank := by unfold State.modTeam; split <;> rfl
@[simp] theorem State.modTeam_cur (x : State) (r : TeamRef) (f : Team → Team) : (x.modTeam r f).cur = x.cur := by unfold State.modTeam; split <;> rfl
@[simp] theorem State.modTeam_fresh (x : State) (r : TeamRef) (f : Team → Team) : (x.modTeam r f).fresh = x.fresh := by unfold State.modTeam; split <;> rfl
@[simp] theorem State.modTeam_mem (x : State) (r : TeamRef) (f : Team → Team) : (x.modTeam r f).mem = x.mem := by unfold State.modTeam; split <;> rfl
@[simp] theorem State.modTeam_lost (x : State) (r : TeamRef) (f : Team → Team) : (x.modTeam r f).lost = x.lost := by unfold State.modTeam; split <;> rfl
@[simp] theorem State.modTeam_rootU (x : State) (r : TeamRef) (f : Team → Team) : (x.modTeam r f).rootU = x.rootU := by unfold State.modTeam; split <;> rfl
@[simp] theorem State.modTeam_rootS (x : State) (r : TeamRef) (f : Team → Team) : (x.modTeam r f).rootS = x.rootS := by unfold State.modTeam; split <;> rfl
@[simp] theorem State.modTeam_cores (x : State) (r : TeamRef) (f : Team → Team) : (x.modTeam r f).cores = x.cores := by unfold State.modTeam; split <;> rfl
@[simp] theorem State.modTeam_dies (x : State) (r : TeamRef) (f : Team → Team) : (x.modTeam r f).dies = x.dies := by unfold State.modTeam; split <;> rfl
@[simp] theorem State.modTeam_launches (x : State) (r : TeamRef) (f : Team → Team) : (x.modTeam r f).launches = x.launches := by unfold State.modTeam; split <;> rfl
@[simp] theorem State.modTeam_past (x : State) (r : TeamRef) (f : Team → Team) : (x.modTeam r f).past = x.past := by unfold State.modTeam; split <;> rfl
@[simp] theorem State.modTeam_launchNext (x : State) (r : TeamRef) (f : Team → Team) : (x.modTeam r f).launchNext = x.launchNext := by unfold State.modTeam; split <;> rfl
@[simp] theorem State.modTeam_versions (x : State) (r : TeamRef) (f : Team → Team) : (x.modTeam r f).versions = x.versions := by unfold State.modTeam; split <;> rfl
@[simp] theorem State.modTeam_versNext (x : State) (r : TeamRef) (f : Team → Team) : (x.modTeam r f).versNext = x.versNext := by unfold State.modTeam; split <;> rfl
@[simp] theorem State.modTeam_policy (x : State) (r : TeamRef) (f : Team → Team) : (x.modTeam r f).policy = x.policy := by unfold State.modTeam; split <;> rfl
@[simp] theorem State.modTeam_peers (x : State) (r : TeamRef) (f : Team → Team) : (x.modTeam r f).peers = x.peers := by unfold State.modTeam; split <;> rfl
@[simp] theorem State.modTeam_flying (x : State) (r : TeamRef) (f : Team → Team) : (x.modTeam r f).flying = x.flying := by unfold State.modTeam; split <;> rfl
@[simp] theorem State.modTeam_requests (x : State) (r : TeamRef) (f : Team → Team) : (x.modTeam r f).requests = x.requests := by unfold State.modTeam; split <;> rfl
@[simp] theorem State.modTeam_seqNext (x : State) (r : TeamRef) (f : Team → Team) : (x.modTeam r f).seqNext = x.seqNext := by unfold State.modTeam; split <;> rfl
@[simp] theorem State.modTeam_kept (x : State) (r : TeamRef) (f : Team → Team) : (x.modTeam r f).kept = x.kept := by unfold State.modTeam; split <;> rfl
@[simp] theorem State.modTeam_heldReqs (x : State) (r : TeamRef) (f : Team → Team) : (x.modTeam r f).heldReqs = x.heldReqs := by unfold State.modTeam; split <;> rfl
@[simp] theorem State.modTeam_toPeers (x : State) (r : TeamRef) (f : Team → Team) : (x.modTeam r f).toPeers = x.toPeers := by unfold State.modTeam; split <;> rfl
@[simp] theorem State.modTeam_repPeers (x : State) (r : TeamRef) (f : Team → Team) : (x.modTeam r f).repPeers = x.repPeers := by unfold State.modTeam; split <;> rfl
@[simp] theorem State.modTeam_toHost (x : State) (r : TeamRef) (f : Team → Team) : (x.modTeam r f).toHost = x.toHost := by unfold State.modTeam; split <;> rfl
@[simp] theorem State.modTeam_turned (x : State) (r : TeamRef) (f : Team → Team) : (x.modTeam r f).turned = x.turned := by unfold State.modTeam; split <;> rfl
@[simp] theorem State.modTeam_host (x : State) (r : TeamRef) (f : Team → Team) : (x.modTeam r f).host = x.host := by unfold State.modTeam; split <;> rfl
@[simp] theorem State.modTeam_measurement (x : State) (r : TeamRef) (f : Team → Team) : (x.modTeam r f).measurement = x.measurement := by unfold State.modTeam; split <;> rfl
@[simp] theorem State.modTeam_fuseMin (x : State) (r : TeamRef) (f : Team → Team) : (x.modTeam r f).fuseMin = x.fuseMin := by unfold State.modTeam; split <;> rfl
@[simp] theorem State.modTeam_serial (x : State) (r : TeamRef) (f : Team → Team) : (x.modTeam r f).serial = x.serial := by unfold State.modTeam; split <;> rfl
@[simp] theorem State.modTeam_straps (x : State) (r : TeamRef) (f : Team → Team) : (x.modTeam r f).straps = x.straps := by unfold State.modTeam; split <;> rfl
@[simp] theorem State.modTeam_replays (x : State) (r : TeamRef) (f : Team → Team) : (x.modTeam r f).replays = x.replays := by unfold State.modTeam; split <;> rfl

/-! ### State.modLaunch -/

@[simp] theorem State.modLaunch_clock (x : State) (n : Nat) (f : Launch → Launch) : (x.modLaunch n f).clock = x.clock := by unfold State.modLaunch; split <;> rfl
@[simp] theorem State.modLaunch_agenda (x : State) (n : Nat) (f : Launch → Launch) : (x.modLaunch n f).agenda = x.agenda := by unfold State.modLaunch; split <;> rfl
@[simp] theorem State.modLaunch_rr (x : State) (n : Nat) (f : Launch → Launch) : (x.modLaunch n f).rr = x.rr := by unfold State.modLaunch; split <;> rfl
@[simp] theorem State.modLaunch_rank (x : State) (n : Nat) (f : Launch → Launch) : (x.modLaunch n f).rank = x.rank := by unfold State.modLaunch; split <;> rfl
@[simp] theorem State.modLaunch_cur (x : State) (n : Nat) (f : Launch → Launch) : (x.modLaunch n f).cur = x.cur := by unfold State.modLaunch; split <;> rfl
@[simp] theorem State.modLaunch_fresh (x : State) (n : Nat) (f : Launch → Launch) : (x.modLaunch n f).fresh = x.fresh := by unfold State.modLaunch; split <;> rfl
@[simp] theorem State.modLaunch_mem (x : State) (n : Nat) (f : Launch → Launch) : (x.modLaunch n f).mem = x.mem := by unfold State.modLaunch; split <;> rfl
@[simp] theorem State.modLaunch_lost (x : State) (n : Nat) (f : Launch → Launch) : (x.modLaunch n f).lost = x.lost := by unfold State.modLaunch; split <;> rfl
@[simp] theorem State.modLaunch_rootU (x : State) (n : Nat) (f : Launch → Launch) : (x.modLaunch n f).rootU = x.rootU := by unfold State.modLaunch; split <;> rfl
@[simp] theorem State.modLaunch_rootS (x : State) (n : Nat) (f : Launch → Launch) : (x.modLaunch n f).rootS = x.rootS := by unfold State.modLaunch; split <;> rfl
@[simp] theorem State.modLaunch_cores (x : State) (n : Nat) (f : Launch → Launch) : (x.modLaunch n f).cores = x.cores := by unfold State.modLaunch; split <;> rfl
@[simp] theorem State.modLaunch_dies (x : State) (n : Nat) (f : Launch → Launch) : (x.modLaunch n f).dies = x.dies := by unfold State.modLaunch; split <;> rfl
@[simp] theorem State.modLaunch_past (x : State) (n : Nat) (f : Launch → Launch) : (x.modLaunch n f).past = x.past := by unfold State.modLaunch; split <;> rfl
@[simp] theorem State.modLaunch_launchNext (x : State) (n : Nat) (f : Launch → Launch) : (x.modLaunch n f).launchNext = x.launchNext := by unfold State.modLaunch; split <;> rfl
@[simp] theorem State.modLaunch_teams (x : State) (n : Nat) (f : Launch → Launch) : (x.modLaunch n f).teams = x.teams := by unfold State.modLaunch; split <;> rfl
@[simp] theorem State.modLaunch_versions (x : State) (n : Nat) (f : Launch → Launch) : (x.modLaunch n f).versions = x.versions := by unfold State.modLaunch; split <;> rfl
@[simp] theorem State.modLaunch_versNext (x : State) (n : Nat) (f : Launch → Launch) : (x.modLaunch n f).versNext = x.versNext := by unfold State.modLaunch; split <;> rfl
@[simp] theorem State.modLaunch_policy (x : State) (n : Nat) (f : Launch → Launch) : (x.modLaunch n f).policy = x.policy := by unfold State.modLaunch; split <;> rfl
@[simp] theorem State.modLaunch_peers (x : State) (n : Nat) (f : Launch → Launch) : (x.modLaunch n f).peers = x.peers := by unfold State.modLaunch; split <;> rfl
@[simp] theorem State.modLaunch_flying (x : State) (n : Nat) (f : Launch → Launch) : (x.modLaunch n f).flying = x.flying := by unfold State.modLaunch; split <;> rfl
@[simp] theorem State.modLaunch_requests (x : State) (n : Nat) (f : Launch → Launch) : (x.modLaunch n f).requests = x.requests := by unfold State.modLaunch; split <;> rfl
@[simp] theorem State.modLaunch_seqNext (x : State) (n : Nat) (f : Launch → Launch) : (x.modLaunch n f).seqNext = x.seqNext := by unfold State.modLaunch; split <;> rfl
@[simp] theorem State.modLaunch_kept (x : State) (n : Nat) (f : Launch → Launch) : (x.modLaunch n f).kept = x.kept := by unfold State.modLaunch; split <;> rfl
@[simp] theorem State.modLaunch_heldReqs (x : State) (n : Nat) (f : Launch → Launch) : (x.modLaunch n f).heldReqs = x.heldReqs := by unfold State.modLaunch; split <;> rfl
@[simp] theorem State.modLaunch_toPeers (x : State) (n : Nat) (f : Launch → Launch) : (x.modLaunch n f).toPeers = x.toPeers := by unfold State.modLaunch; split <;> rfl
@[simp] theorem State.modLaunch_repPeers (x : State) (n : Nat) (f : Launch → Launch) : (x.modLaunch n f).repPeers = x.repPeers := by unfold State.modLaunch; split <;> rfl
@[simp] theorem State.modLaunch_toHost (x : State) (n : Nat) (f : Launch → Launch) : (x.modLaunch n f).toHost = x.toHost := by unfold State.modLaunch; split <;> rfl
@[simp] theorem State.modLaunch_turned (x : State) (n : Nat) (f : Launch → Launch) : (x.modLaunch n f).turned = x.turned := by unfold State.modLaunch; split <;> rfl
@[simp] theorem State.modLaunch_host (x : State) (n : Nat) (f : Launch → Launch) : (x.modLaunch n f).host = x.host := by unfold State.modLaunch; split <;> rfl
@[simp] theorem State.modLaunch_measurement (x : State) (n : Nat) (f : Launch → Launch) : (x.modLaunch n f).measurement = x.measurement := by unfold State.modLaunch; split <;> rfl
@[simp] theorem State.modLaunch_fuseMin (x : State) (n : Nat) (f : Launch → Launch) : (x.modLaunch n f).fuseMin = x.fuseMin := by unfold State.modLaunch; split <;> rfl
@[simp] theorem State.modLaunch_serial (x : State) (n : Nat) (f : Launch → Launch) : (x.modLaunch n f).serial = x.serial := by unfold State.modLaunch; split <;> rfl
@[simp] theorem State.modLaunch_straps (x : State) (n : Nat) (f : Launch → Launch) : (x.modLaunch n f).straps = x.straps := by unfold State.modLaunch; split <;> rfl
@[simp] theorem State.modLaunch_replays (x : State) (n : Nat) (f : Launch → Launch) : (x.modLaunch n f).replays = x.replays := by unfold State.modLaunch; split <;> rfl

/-! ### State.setGroup -/

@[simp] theorem State.setGroup_clock (x : State) (r : GRef) (g : Group) : (x.setGroup r g).clock = x.clock := by unfold State.setGroup; split <;> rfl
@[simp] theorem State.setGroup_agenda (x : State) (r : GRef) (g : Group) : (x.setGroup r g).agenda = x.agenda := by unfold State.setGroup; split <;> rfl
@[simp] theorem State.setGroup_rr (x : State) (r : GRef) (g : Group) : (x.setGroup r g).rr = x.rr := by unfold State.setGroup; split <;> rfl
@[simp] theorem State.setGroup_rank (x : State) (r : GRef) (g : Group) : (x.setGroup r g).rank = x.rank := by unfold State.setGroup; split <;> rfl
@[simp] theorem State.setGroup_cur (x : State) (r : GRef) (g : Group) : (x.setGroup r g).cur = x.cur := by unfold State.setGroup; split <;> rfl
@[simp] theorem State.setGroup_fresh (x : State) (r : GRef) (g : Group) : (x.setGroup r g).fresh = x.fresh := by unfold State.setGroup; split <;> rfl
@[simp] theorem State.setGroup_mem (x : State) (r : GRef) (g : Group) : (x.setGroup r g).mem = x.mem := by unfold State.setGroup; split <;> rfl
@[simp] theorem State.setGroup_lost (x : State) (r : GRef) (g : Group) : (x.setGroup r g).lost = x.lost := by unfold State.setGroup; split <;> rfl
@[simp] theorem State.setGroup_rootU (x : State) (r : GRef) (g : Group) : (x.setGroup r g).rootU = x.rootU := by unfold State.setGroup; split <;> rfl
@[simp] theorem State.setGroup_rootS (x : State) (r : GRef) (g : Group) : (x.setGroup r g).rootS = x.rootS := by unfold State.setGroup; split <;> rfl
@[simp] theorem State.setGroup_cores (x : State) (r : GRef) (g : Group) : (x.setGroup r g).cores = x.cores := by unfold State.setGroup; split <;> rfl
@[simp] theorem State.setGroup_dies (x : State) (r : GRef) (g : Group) : (x.setGroup r g).dies = x.dies := by unfold State.setGroup; split <;> rfl
@[simp] theorem State.setGroup_launches (x : State) (r : GRef) (g : Group) : (x.setGroup r g).launches = x.launches := by unfold State.setGroup; split <;> rfl
@[simp] theorem State.setGroup_past (x : State) (r : GRef) (g : Group) : (x.setGroup r g).past = x.past := by unfold State.setGroup; split <;> rfl
@[simp] theorem State.setGroup_launchNext (x : State) (r : GRef) (g : Group) : (x.setGroup r g).launchNext = x.launchNext := by unfold State.setGroup; split <;> rfl
@[simp] theorem State.setGroup_versions (x : State) (r : GRef) (g : Group) : (x.setGroup r g).versions = x.versions := by unfold State.setGroup; split <;> rfl
@[simp] theorem State.setGroup_versNext (x : State) (r : GRef) (g : Group) : (x.setGroup r g).versNext = x.versNext := by unfold State.setGroup; split <;> rfl
@[simp] theorem State.setGroup_policy (x : State) (r : GRef) (g : Group) : (x.setGroup r g).policy = x.policy := by unfold State.setGroup; split <;> rfl
@[simp] theorem State.setGroup_peers (x : State) (r : GRef) (g : Group) : (x.setGroup r g).peers = x.peers := by unfold State.setGroup; split <;> rfl
@[simp] theorem State.setGroup_flying (x : State) (r : GRef) (g : Group) : (x.setGroup r g).flying = x.flying := by unfold State.setGroup; split <;> rfl
@[simp] theorem State.setGroup_requests (x : State) (r : GRef) (g : Group) : (x.setGroup r g).requests = x.requests := by unfold State.setGroup; split <;> rfl
@[simp] theorem State.setGroup_seqNext (x : State) (r : GRef) (g : Group) : (x.setGroup r g).seqNext = x.seqNext := by unfold State.setGroup; split <;> rfl
@[simp] theorem State.setGroup_kept (x : State) (r : GRef) (g : Group) : (x.setGroup r g).kept = x.kept := by unfold State.setGroup; split <;> rfl
@[simp] theorem State.setGroup_heldReqs (x : State) (r : GRef) (g : Group) : (x.setGroup r g).heldReqs = x.heldReqs := by unfold State.setGroup; split <;> rfl
@[simp] theorem State.setGroup_toPeers (x : State) (r : GRef) (g : Group) : (x.setGroup r g).toPeers = x.toPeers := by unfold State.setGroup; split <;> rfl
@[simp] theorem State.setGroup_repPeers (x : State) (r : GRef) (g : Group) : (x.setGroup r g).repPeers = x.repPeers := by unfold State.setGroup; split <;> rfl
@[simp] theorem State.setGroup_toHost (x : State) (r : GRef) (g : Group) : (x.setGroup r g).toHost = x.toHost := by unfold State.setGroup; split <;> rfl
@[simp] theorem State.setGroup_turned (x : State) (r : GRef) (g : Group) : (x.setGroup r g).turned = x.turned := by unfold State.setGroup; split <;> rfl
@[simp] theorem State.setGroup_host (x : State) (r : GRef) (g : Group) : (x.setGroup r g).host = x.host := by unfold State.setGroup; split <;> rfl
@[simp] theorem State.setGroup_measurement (x : State) (r : GRef) (g : Group) : (x.setGroup r g).measurement = x.measurement := by unfold State.setGroup; split <;> rfl
@[simp] theorem State.setGroup_fuseMin (x : State) (r : GRef) (g : Group) : (x.setGroup r g).fuseMin = x.fuseMin := by unfold State.setGroup; split <;> rfl
@[simp] theorem State.setGroup_serial (x : State) (r : GRef) (g : Group) : (x.setGroup r g).serial = x.serial := by unfold State.setGroup; split <;> rfl
@[simp] theorem State.setGroup_straps (x : State) (r : GRef) (g : Group) : (x.setGroup r g).straps = x.straps := by unfold State.setGroup; split <;> rfl
@[simp] theorem State.setGroup_replays (x : State) (r : GRef) (g : Group) : (x.setGroup r g).replays = x.replays := by unfold State.setGroup; split <;> rfl

/-! ### State.modGroup -/

@[simp] theorem State.modGroup_clock (x : State) (r : GRef) (f : Group → Group) : (x.modGroup r f).clock = x.clock := by unfold State.modGroup; split <;> (try split) <;> rfl
@[simp] theorem State.modGroup_agenda (x : State) (r : GRef) (f : Group → Group) : (x.modGroup r f).agenda = x.agenda := by unfold State.modGroup; split <;> (try split) <;> rfl
@[simp] theorem State.modGroup_rr (x : State) (r : GRef) (f : Group → Group) : (x.modGroup r f).rr = x.rr := by unfold State.modGroup; split <;> (try split) <;> rfl
@[simp] theorem State.modGroup_rank (x : State) (r : GRef) (f : Group → Group) : (x.modGroup r f).rank = x.rank := by unfold State.modGroup; split <;> (try split) <;> rfl
@[simp] theorem State.modGroup_cur (x : State) (r : GRef) (f : Group → Group) : (x.modGroup r f).cur = x.cur := by unfold State.modGroup; split <;> (try split) <;> rfl
@[simp] theorem State.modGroup_fresh (x : State) (r : GRef) (f : Group → Group) : (x.modGroup r f).fresh = x.fresh := by unfold State.modGroup; split <;> (try split) <;> rfl
@[simp] theorem State.modGroup_mem (x : State) (r : GRef) (f : Group → Group) : (x.modGroup r f).mem = x.mem := by unfold State.modGroup; split <;> (try split) <;> rfl
@[simp] theorem State.modGroup_lost (x : State) (r : GRef) (f : Group → Group) : (x.modGroup r f).lost = x.lost := by unfold State.modGroup; split <;> (try split) <;> rfl
@[simp] theorem State.modGroup_rootU (x : State) (r : GRef) (f : Group → Group) : (x.modGroup r f).rootU = x.rootU := by unfold State.modGroup; split <;> (try split) <;> rfl
@[simp] theorem State.modGroup_rootS (x : State) (r : GRef) (f : Group → Group) : (x.modGroup r f).rootS = x.rootS := by unfold State.modGroup; split <;> (try split) <;> rfl
@[simp] theorem State.modGroup_cores (x : State) (r : GRef) (f : Group → Group) : (x.modGroup r f).cores = x.cores := by unfold State.modGroup; split <;> (try split) <;> rfl
@[simp] theorem State.modGroup_dies (x : State) (r : GRef) (f : Group → Group) : (x.modGroup r f).dies = x.dies := by unfold State.modGroup; split <;> (try split) <;> rfl
@[simp] theorem State.modGroup_launches (x : State) (r : GRef) (f : Group → Group) : (x.modGroup r f).launches = x.launches := by unfold State.modGroup; split <;> (try split) <;> rfl
@[simp] theorem State.modGroup_past (x : State) (r : GRef) (f : Group → Group) : (x.modGroup r f).past = x.past := by unfold State.modGroup; split <;> (try split) <;> rfl
@[simp] theorem State.modGroup_launchNext (x : State) (r : GRef) (f : Group → Group) : (x.modGroup r f).launchNext = x.launchNext := by unfold State.modGroup; split <;> (try split) <;> rfl
@[simp] theorem State.modGroup_versions (x : State) (r : GRef) (f : Group → Group) : (x.modGroup r f).versions = x.versions := by unfold State.modGroup; split <;> (try split) <;> rfl
@[simp] theorem State.modGroup_versNext (x : State) (r : GRef) (f : Group → Group) : (x.modGroup r f).versNext = x.versNext := by unfold State.modGroup; split <;> (try split) <;> rfl
@[simp] theorem State.modGroup_policy (x : State) (r : GRef) (f : Group → Group) : (x.modGroup r f).policy = x.policy := by unfold State.modGroup; split <;> (try split) <;> rfl
@[simp] theorem State.modGroup_peers (x : State) (r : GRef) (f : Group → Group) : (x.modGroup r f).peers = x.peers := by unfold State.modGroup; split <;> (try split) <;> rfl
@[simp] theorem State.modGroup_flying (x : State) (r : GRef) (f : Group → Group) : (x.modGroup r f).flying = x.flying := by unfold State.modGroup; split <;> (try split) <;> rfl
@[simp] theorem State.modGroup_requests (x : State) (r : GRef) (f : Group → Group) : (x.modGroup r f).requests = x.requests := by unfold State.modGroup; split <;> (try split) <;> rfl
@[simp] theorem State.modGroup_seqNext (x : State) (r : GRef) (f : Group → Group) : (x.modGroup r f).seqNext = x.seqNext := by unfold State.modGroup; split <;> (try split) <;> rfl
@[simp] theorem State.modGroup_kept (x : State) (r : GRef) (f : Group → Group) : (x.modGroup r f).kept = x.kept := by unfold State.modGroup; split <;> (try split) <;> rfl
@[simp] theorem State.modGroup_heldReqs (x : State) (r : GRef) (f : Group → Group) : (x.modGroup r f).heldReqs = x.heldReqs := by unfold State.modGroup; split <;> (try split) <;> rfl
@[simp] theorem State.modGroup_toPeers (x : State) (r : GRef) (f : Group → Group) : (x.modGroup r f).toPeers = x.toPeers := by unfold State.modGroup; split <;> (try split) <;> rfl
@[simp] theorem State.modGroup_repPeers (x : State) (r : GRef) (f : Group → Group) : (x.modGroup r f).repPeers = x.repPeers := by unfold State.modGroup; split <;> (try split) <;> rfl
@[simp] theorem State.modGroup_toHost (x : State) (r : GRef) (f : Group → Group) : (x.modGroup r f).toHost = x.toHost := by unfold State.modGroup; split <;> (try split) <;> rfl
@[simp] theorem State.modGroup_turned (x : State) (r : GRef) (f : Group → Group) : (x.modGroup r f).turned = x.turned := by unfold State.modGroup; split <;> (try split) <;> rfl
@[simp] theorem State.modGroup_host (x : State) (r : GRef) (f : Group → Group) : (x.modGroup r f).host = x.host := by unfold State.modGroup; split <;> (try split) <;> rfl
@[simp] theorem State.modGroup_measurement (x : State) (r : GRef) (f : Group → Group) : (x.modGroup r f).measurement = x.measurement := by unfold State.modGroup; split <;> (try split) <;> rfl
@[simp] theorem State.modGroup_fuseMin (x : State) (r : GRef) (f : Group → Group) : (x.modGroup r f).fuseMin = x.fuseMin := by unfold State.modGroup; split <;> (try split) <;> rfl
@[simp] theorem State.modGroup_serial (x : State) (r : GRef) (f : Group → Group) : (x.modGroup r f).serial = x.serial := by unfold State.modGroup; split <;> (try split) <;> rfl
@[simp] theorem State.modGroup_straps (x : State) (r : GRef) (f : Group → Group) : (x.modGroup r f).straps = x.straps := by unfold State.modGroup; split <;> (try split) <;> rfl
@[simp] theorem State.modGroup_replays (x : State) (r : GRef) (f : Group → Group) : (x.modGroup r f).replays = x.replays := by unfold State.modGroup; split <;> (try split) <;> rfl

/-! ### Team.setGrp -/

@[simp] theorem Team.setGrp_ref (x : Team) (g : Group) : (x.setGrp g).ref = x.ref := rfl
@[simp] theorem Team.setGrp_core (x : Team) (g : Group) : (x.setGrp g).core = x.core := rfl
@[simp] theorem Team.setGrp_pair (x : Team) (g : Group) : (x.setGrp g).pair = x.pair := rfl
@[simp] theorem Team.setGrp_x (x : Team) (g : Group) : (x.setGrp g).x = x.x := rfl
@[simp] theorem Team.setGrp_y (x : Team) (g : Group) : (x.setGrp g).y = x.y := rfl
@[simp] theorem Team.setGrp_z (x : Team) (g : Group) : (x.setGrp g).z = x.z := rfl
@[simp] theorem Team.setGrp_width (x : Team) (g : Group) : (x.setGrp g).width = x.width := rfl
@[simp] theorem Team.setGrp_conts (x : Team) (g : Group) : (x.setGrp g).conts = x.conts := rfl
@[simp] theorem Team.setGrp_contNext (x : Team) (g : Group) : (x.setGrp g).contNext = x.contNext := rfl
@[simp] theorem Team.setGrp_queues (x : Team) (g : Group) : (x.setGrp g).queues = x.queues := rfl
@[simp] theorem Team.setGrp_ctrs (x : Team) (g : Group) : (x.setGrp g).ctrs = x.ctrs := rfl
@[simp] theorem Team.setGrp_nb (x : Team) (g : Group) : (x.setGrp g).nb = x.nb := rfl
@[simp] theorem Team.setGrp_pool (x : Team) (g : Group) : (x.setGrp g).pool = x.pool := rfl
@[simp] theorem Team.setGrp_poolOdd (x : Team) (g : Group) : (x.setGrp g).poolOdd = x.poolOdd := rfl
@[simp] theorem Team.setGrp_claims (x : Team) (g : Group) : (x.setGrp g).claims = x.claims := rfl
@[simp] theorem Team.setGrp_spans (x : Team) (g : Group) : (x.setGrp g).spans = x.spans := rfl
@[simp] theorem Team.setGrp_spanBase (x : Team) (g : Group) : (x.setGrp g).spanBase = x.spanBase := rfl
@[simp] theorem Team.setGrp_spad (x : Team) (g : Group) : (x.setGrp g).spad = x.spad := rfl
@[simp] theorem Team.setGrp_full (x : Team) (g : Group) : (x.setGrp g).full = x.full := rfl
@[simp] theorem Team.setGrp_fullVc (x : Team) (g : Group) : (x.setGrp g).fullVc = x.fullVc := rfl
@[simp] theorem Team.setGrp_newFull (x : Team) (g : Group) : (x.setGrp g).newFull = x.newFull := rfl
@[simp] theorem Team.setGrp_spLost (x : Team) (g : Group) : (x.setGrp g).spLost = x.spLost := rfl
@[simp] theorem Team.setGrp_rLost (x : Team) (g : Group) : (x.setGrp g).rLost = x.rLost := rfl
@[simp] theorem Team.setGrp_filled (x : Team) (g : Group) : (x.setGrp g).filled = x.filled := rfl
@[simp] theorem Team.setGrp_wins (x : Team) (g : Group) : (x.setGrp g).wins = x.wins := rfl
@[simp] theorem Team.setGrp_code (x : Team) (g : Group) : (x.setGrp g).code = x.code := rfl
@[simp] theorem Team.setGrp_loaded (x : Team) (g : Group) : (x.setGrp g).loaded = x.loaded := rfl
@[simp] theorem Team.setGrp_acc (x : Team) (g : Group) : (x.setGrp g).acc = x.acc := rfl
@[simp] theorem Team.setGrp_owner (x : Team) (g : Group) : (x.setGrp g).owner = x.owner := rfl
@[simp] theorem Team.setGrp_tileVc (x : Team) (g : Group) : (x.setGrp g).tileVc = x.tileVc := rfl
@[simp] theorem Team.setGrp_dwin (x : Team) (g : Group) : (x.setGrp g).dwin = x.dwin := rfl
@[simp] theorem Team.setGrp_sets (x : Team) (g : Group) : (x.setGrp g).sets = x.sets := rfl
@[simp] theorem Team.setGrp_sq (x : Team) (g : Group) : (x.setGrp g).sq = x.sq := rfl
@[simp] theorem Team.setGrp_mq (x : Team) (g : Group) : (x.setGrp g).mq = x.mq := rfl
@[simp] theorem Team.setGrp_scope (x : Team) (g : Group) : (x.setGrp g).scope = x.scope := rfl
@[simp] theorem Team.setGrp_gov (x : Team) (g : Group) : (x.setGrp g).gov = x.gov := rfl
@[simp] theorem Team.setGrp_prq (x : Team) (g : Group) : (x.setGrp g).prq = x.prq := rfl
@[simp] theorem Team.setGrp_save (x : Team) (g : Group) : (x.setGrp g).save = x.save := rfl
@[simp] theorem Team.setGrp_seg (x : Team) (g : Group) : (x.setGrp g).seg = x.seg := rfl
@[simp] theorem Team.setGrp_cancelled (x : Team) (g : Group) : (x.setGrp g).cancelled = x.cancelled := rfl
@[simp] theorem Team.setGrp_late (x : Team) (g : Group) : (x.setGrp g).late = x.late := rfl
@[simp] theorem Team.setGrp_owedArea (x : Team) (g : Group) : (x.setGrp g).owedArea = x.owedArea := rfl

/-! ### Team.setWin -/

@[simp] theorem Team.setWin_ref (x : Team) (k : Nat) (w : Window) : (x.setWin k w).ref = x.ref := rfl
@[simp] theorem Team.setWin_core (x : Team) (k : Nat) (w : Window) : (x.setWin k w).core = x.core := rfl
@[simp] theorem Team.setWin_pair (x : Team) (k : Nat) (w : Window) : (x.setWin k w).pair = x.pair := rfl
@[simp] theorem Team.setWin_x (x : Team) (k : Nat) (w : Window) : (x.setWin k w).x = x.x := rfl
@[simp] theorem Team.setWin_y (x : Team) (k : Nat) (w : Window) : (x.setWin k w).y = x.y := rfl
@[simp] theorem Team.setWin_z (x : Team) (k : Nat) (w : Window) : (x.setWin k w).z = x.z := rfl
@[simp] theorem Team.setWin_width (x : Team) (k : Nat) (w : Window) : (x.setWin k w).width = x.width := rfl
@[simp] theorem Team.setWin_groups (x : Team) (k : Nat) (w : Window) : (x.setWin k w).groups = x.groups := rfl
@[simp] theorem Team.setWin_conts (x : Team) (k : Nat) (w : Window) : (x.setWin k w).conts = x.conts := rfl
@[simp] theorem Team.setWin_contNext (x : Team) (k : Nat) (w : Window) : (x.setWin k w).contNext = x.contNext := rfl
@[simp] theorem Team.setWin_queues (x : Team) (k : Nat) (w : Window) : (x.setWin k w).queues = x.queues := rfl
@[simp] theorem Team.setWin_ctrs (x : Team) (k : Nat) (w : Window) : (x.setWin k w).ctrs = x.ctrs := rfl
@[simp] theorem Team.setWin_nb (x : Team) (k : Nat) (w : Window) : (x.setWin k w).nb = x.nb := rfl
@[simp] theorem Team.setWin_pool (x : Team) (k : Nat) (w : Window) : (x.setWin k w).pool = x.pool := rfl
@[simp] theorem Team.setWin_poolOdd (x : Team) (k : Nat) (w : Window) : (x.setWin k w).poolOdd = x.poolOdd := rfl
@[simp] theorem Team.setWin_claims (x : Team) (k : Nat) (w : Window) : (x.setWin k w).claims = x.claims := rfl
@[simp] theorem Team.setWin_spans (x : Team) (k : Nat) (w : Window) : (x.setWin k w).spans = x.spans := rfl
@[simp] theorem Team.setWin_spanBase (x : Team) (k : Nat) (w : Window) : (x.setWin k w).spanBase = x.spanBase := rfl
@[simp] theorem Team.setWin_spad (x : Team) (k : Nat) (w : Window) : (x.setWin k w).spad = x.spad := rfl
@[simp] theorem Team.setWin_full (x : Team) (k : Nat) (w : Window) : (x.setWin k w).full = x.full := rfl
@[simp] theorem Team.setWin_fullVc (x : Team) (k : Nat) (w : Window) : (x.setWin k w).fullVc = x.fullVc := rfl
@[simp] theorem Team.setWin_newFull (x : Team) (k : Nat) (w : Window) : (x.setWin k w).newFull = x.newFull := rfl
@[simp] theorem Team.setWin_spLost (x : Team) (k : Nat) (w : Window) : (x.setWin k w).spLost = x.spLost := rfl
@[simp] theorem Team.setWin_rLost (x : Team) (k : Nat) (w : Window) : (x.setWin k w).rLost = x.rLost := rfl
@[simp] theorem Team.setWin_filled (x : Team) (k : Nat) (w : Window) : (x.setWin k w).filled = x.filled := rfl
@[simp] theorem Team.setWin_code (x : Team) (k : Nat) (w : Window) : (x.setWin k w).code = x.code := rfl
@[simp] theorem Team.setWin_loaded (x : Team) (k : Nat) (w : Window) : (x.setWin k w).loaded = x.loaded := rfl
@[simp] theorem Team.setWin_acc (x : Team) (k : Nat) (w : Window) : (x.setWin k w).acc = x.acc := rfl
@[simp] theorem Team.setWin_owner (x : Team) (k : Nat) (w : Window) : (x.setWin k w).owner = x.owner := rfl
@[simp] theorem Team.setWin_tileVc (x : Team) (k : Nat) (w : Window) : (x.setWin k w).tileVc = x.tileVc := rfl
@[simp] theorem Team.setWin_dwin (x : Team) (k : Nat) (w : Window) : (x.setWin k w).dwin = x.dwin := rfl
@[simp] theorem Team.setWin_sets (x : Team) (k : Nat) (w : Window) : (x.setWin k w).sets = x.sets := rfl
@[simp] theorem Team.setWin_sq (x : Team) (k : Nat) (w : Window) : (x.setWin k w).sq = x.sq := rfl
@[simp] theorem Team.setWin_mq (x : Team) (k : Nat) (w : Window) : (x.setWin k w).mq = x.mq := rfl
@[simp] theorem Team.setWin_scope (x : Team) (k : Nat) (w : Window) : (x.setWin k w).scope = x.scope := rfl
@[simp] theorem Team.setWin_gov (x : Team) (k : Nat) (w : Window) : (x.setWin k w).gov = x.gov := rfl
@[simp] theorem Team.setWin_prq (x : Team) (k : Nat) (w : Window) : (x.setWin k w).prq = x.prq := rfl
@[simp] theorem Team.setWin_save (x : Team) (k : Nat) (w : Window) : (x.setWin k w).save = x.save := rfl
@[simp] theorem Team.setWin_seg (x : Team) (k : Nat) (w : Window) : (x.setWin k w).seg = x.seg := rfl
@[simp] theorem Team.setWin_cancelled (x : Team) (k : Nat) (w : Window) : (x.setWin k w).cancelled = x.cancelled := rfl
@[simp] theorem Team.setWin_late (x : Team) (k : Nat) (w : Window) : (x.setWin k w).late = x.late := rfl
@[simp] theorem Team.setWin_owedArea (x : Team) (k : Nat) (w : Window) : (x.setWin k w).owedArea = x.owedArea := rfl

/-! ### Team.setBar -/

@[simp] theorem Team.setBar_ref (x : Team) (k : Nat) (b : NBar) : (x.setBar k b).ref = x.ref := rfl
@[simp] theorem Team.setBar_core (x : Team) (k : Nat) (b : NBar) : (x.setBar k b).core = x.core := rfl
@[simp] theorem Team.setBar_pair (x : Team) (k : Nat) (b : NBar) : (x.setBar k b).pair = x.pair := rfl
@[simp] theorem Team.setBar_x (x : Team) (k : Nat) (b : NBar) : (x.setBar k b).x = x.x := rfl
@[simp] theorem Team.setBar_y (x : Team) (k : Nat) (b : NBar) : (x.setBar k b).y = x.y := rfl
@[simp] theorem Team.setBar_z (x : Team) (k : Nat) (b : NBar) : (x.setBar k b).z = x.z := rfl
@[simp] theorem Team.setBar_width (x : Team) (k : Nat) (b : NBar) : (x.setBar k b).width = x.width := rfl
@[simp] theorem Team.setBar_groups (x : Team) (k : Nat) (b : NBar) : (x.setBar k b).groups = x.groups := rfl
@[simp] theorem Team.setBar_conts (x : Team) (k : Nat) (b : NBar) : (x.setBar k b).conts = x.conts := rfl
@[simp] theorem Team.setBar_contNext (x : Team) (k : Nat) (b : NBar) : (x.setBar k b).contNext = x.contNext := rfl
@[simp] theorem Team.setBar_queues (x : Team) (k : Nat) (b : NBar) : (x.setBar k b).queues = x.queues := rfl
@[simp] theorem Team.setBar_ctrs (x : Team) (k : Nat) (b : NBar) : (x.setBar k b).ctrs = x.ctrs := rfl
@[simp] theorem Team.setBar_pool (x : Team) (k : Nat) (b : NBar) : (x.setBar k b).pool = x.pool := rfl
@[simp] theorem Team.setBar_poolOdd (x : Team) (k : Nat) (b : NBar) : (x.setBar k b).poolOdd = x.poolOdd := rfl
@[simp] theorem Team.setBar_claims (x : Team) (k : Nat) (b : NBar) : (x.setBar k b).claims = x.claims := rfl
@[simp] theorem Team.setBar_spans (x : Team) (k : Nat) (b : NBar) : (x.setBar k b).spans = x.spans := rfl
@[simp] theorem Team.setBar_spanBase (x : Team) (k : Nat) (b : NBar) : (x.setBar k b).spanBase = x.spanBase := rfl
@[simp] theorem Team.setBar_spad (x : Team) (k : Nat) (b : NBar) : (x.setBar k b).spad = x.spad := rfl
@[simp] theorem Team.setBar_full (x : Team) (k : Nat) (b : NBar) : (x.setBar k b).full = x.full := rfl
@[simp] theorem Team.setBar_fullVc (x : Team) (k : Nat) (b : NBar) : (x.setBar k b).fullVc = x.fullVc := rfl
@[simp] theorem Team.setBar_newFull (x : Team) (k : Nat) (b : NBar) : (x.setBar k b).newFull = x.newFull := rfl
@[simp] theorem Team.setBar_spLost (x : Team) (k : Nat) (b : NBar) : (x.setBar k b).spLost = x.spLost := rfl
@[simp] theorem Team.setBar_rLost (x : Team) (k : Nat) (b : NBar) : (x.setBar k b).rLost = x.rLost := rfl
@[simp] theorem Team.setBar_filled (x : Team) (k : Nat) (b : NBar) : (x.setBar k b).filled = x.filled := rfl
@[simp] theorem Team.setBar_wins (x : Team) (k : Nat) (b : NBar) : (x.setBar k b).wins = x.wins := rfl
@[simp] theorem Team.setBar_code (x : Team) (k : Nat) (b : NBar) : (x.setBar k b).code = x.code := rfl
@[simp] theorem Team.setBar_loaded (x : Team) (k : Nat) (b : NBar) : (x.setBar k b).loaded = x.loaded := rfl
@[simp] theorem Team.setBar_acc (x : Team) (k : Nat) (b : NBar) : (x.setBar k b).acc = x.acc := rfl
@[simp] theorem Team.setBar_owner (x : Team) (k : Nat) (b : NBar) : (x.setBar k b).owner = x.owner := rfl
@[simp] theorem Team.setBar_tileVc (x : Team) (k : Nat) (b : NBar) : (x.setBar k b).tileVc = x.tileVc := rfl
@[simp] theorem Team.setBar_dwin (x : Team) (k : Nat) (b : NBar) : (x.setBar k b).dwin = x.dwin := rfl
@[simp] theorem Team.setBar_sets (x : Team) (k : Nat) (b : NBar) : (x.setBar k b).sets = x.sets := rfl
@[simp] theorem Team.setBar_sq (x : Team) (k : Nat) (b : NBar) : (x.setBar k b).sq = x.sq := rfl
@[simp] theorem Team.setBar_mq (x : Team) (k : Nat) (b : NBar) : (x.setBar k b).mq = x.mq := rfl
@[simp] theorem Team.setBar_scope (x : Team) (k : Nat) (b : NBar) : (x.setBar k b).scope = x.scope := rfl
@[simp] theorem Team.setBar_gov (x : Team) (k : Nat) (b : NBar) : (x.setBar k b).gov = x.gov := rfl
@[simp] theorem Team.setBar_prq (x : Team) (k : Nat) (b : NBar) : (x.setBar k b).prq = x.prq := rfl
@[simp] theorem Team.setBar_save (x : Team) (k : Nat) (b : NBar) : (x.setBar k b).save = x.save := rfl
@[simp] theorem Team.setBar_seg (x : Team) (k : Nat) (b : NBar) : (x.setBar k b).seg = x.seg := rfl
@[simp] theorem Team.setBar_cancelled (x : Team) (k : Nat) (b : NBar) : (x.setBar k b).cancelled = x.cancelled := rfl
@[simp] theorem Team.setBar_late (x : Team) (k : Nat) (b : NBar) : (x.setBar k b).late = x.late := rfl
@[simp] theorem Team.setBar_owedArea (x : Team) (k : Nat) (b : NBar) : (x.setBar k b).owedArea = x.owedArea := rfl

/-! ### Team.setCtr -/

@[simp] theorem Team.setCtr_ref (x : Team) (k : Nat) (c : SlotCtr) : (x.setCtr k c).ref = x.ref := rfl
@[simp] theorem Team.setCtr_core (x : Team) (k : Nat) (c : SlotCtr) : (x.setCtr k c).core = x.core := rfl
@[simp] theorem Team.setCtr_pair (x : Team) (k : Nat) (c : SlotCtr) : (x.setCtr k c).pair = x.pair := rfl
@[simp] theorem Team.setCtr_x (x : Team) (k : Nat) (c : SlotCtr) : (x.setCtr k c).x = x.x := rfl
@[simp] theorem Team.setCtr_y (x : Team) (k : Nat) (c : SlotCtr) : (x.setCtr k c).y = x.y := rfl
@[simp] theorem Team.setCtr_z (x : Team) (k : Nat) (c : SlotCtr) : (x.setCtr k c).z = x.z := rfl
@[simp] theorem Team.setCtr_width (x : Team) (k : Nat) (c : SlotCtr) : (x.setCtr k c).width = x.width := rfl
@[simp] theorem Team.setCtr_groups (x : Team) (k : Nat) (c : SlotCtr) : (x.setCtr k c).groups = x.groups := rfl
@[simp] theorem Team.setCtr_conts (x : Team) (k : Nat) (c : SlotCtr) : (x.setCtr k c).conts = x.conts := rfl
@[simp] theorem Team.setCtr_contNext (x : Team) (k : Nat) (c : SlotCtr) : (x.setCtr k c).contNext = x.contNext := rfl
@[simp] theorem Team.setCtr_queues (x : Team) (k : Nat) (c : SlotCtr) : (x.setCtr k c).queues = x.queues := rfl
@[simp] theorem Team.setCtr_nb (x : Team) (k : Nat) (c : SlotCtr) : (x.setCtr k c).nb = x.nb := rfl
@[simp] theorem Team.setCtr_pool (x : Team) (k : Nat) (c : SlotCtr) : (x.setCtr k c).pool = x.pool := rfl
@[simp] theorem Team.setCtr_poolOdd (x : Team) (k : Nat) (c : SlotCtr) : (x.setCtr k c).poolOdd = x.poolOdd := rfl
@[simp] theorem Team.setCtr_claims (x : Team) (k : Nat) (c : SlotCtr) : (x.setCtr k c).claims = x.claims := rfl
@[simp] theorem Team.setCtr_spans (x : Team) (k : Nat) (c : SlotCtr) : (x.setCtr k c).spans = x.spans := rfl
@[simp] theorem Team.setCtr_spanBase (x : Team) (k : Nat) (c : SlotCtr) : (x.setCtr k c).spanBase = x.spanBase := rfl
@[simp] theorem Team.setCtr_spad (x : Team) (k : Nat) (c : SlotCtr) : (x.setCtr k c).spad = x.spad := rfl
@[simp] theorem Team.setCtr_full (x : Team) (k : Nat) (c : SlotCtr) : (x.setCtr k c).full = x.full := rfl
@[simp] theorem Team.setCtr_fullVc (x : Team) (k : Nat) (c : SlotCtr) : (x.setCtr k c).fullVc = x.fullVc := rfl
@[simp] theorem Team.setCtr_newFull (x : Team) (k : Nat) (c : SlotCtr) : (x.setCtr k c).newFull = x.newFull := rfl
@[simp] theorem Team.setCtr_spLost (x : Team) (k : Nat) (c : SlotCtr) : (x.setCtr k c).spLost = x.spLost := rfl
@[simp] theorem Team.setCtr_rLost (x : Team) (k : Nat) (c : SlotCtr) : (x.setCtr k c).rLost = x.rLost := rfl
@[simp] theorem Team.setCtr_filled (x : Team) (k : Nat) (c : SlotCtr) : (x.setCtr k c).filled = x.filled := rfl
@[simp] theorem Team.setCtr_wins (x : Team) (k : Nat) (c : SlotCtr) : (x.setCtr k c).wins = x.wins := rfl
@[simp] theorem Team.setCtr_code (x : Team) (k : Nat) (c : SlotCtr) : (x.setCtr k c).code = x.code := rfl
@[simp] theorem Team.setCtr_loaded (x : Team) (k : Nat) (c : SlotCtr) : (x.setCtr k c).loaded = x.loaded := rfl
@[simp] theorem Team.setCtr_acc (x : Team) (k : Nat) (c : SlotCtr) : (x.setCtr k c).acc = x.acc := rfl
@[simp] theorem Team.setCtr_owner (x : Team) (k : Nat) (c : SlotCtr) : (x.setCtr k c).owner = x.owner := rfl
@[simp] theorem Team.setCtr_tileVc (x : Team) (k : Nat) (c : SlotCtr) : (x.setCtr k c).tileVc = x.tileVc := rfl
@[simp] theorem Team.setCtr_dwin (x : Team) (k : Nat) (c : SlotCtr) : (x.setCtr k c).dwin = x.dwin := rfl
@[simp] theorem Team.setCtr_sets (x : Team) (k : Nat) (c : SlotCtr) : (x.setCtr k c).sets = x.sets := rfl
@[simp] theorem Team.setCtr_sq (x : Team) (k : Nat) (c : SlotCtr) : (x.setCtr k c).sq = x.sq := rfl
@[simp] theorem Team.setCtr_mq (x : Team) (k : Nat) (c : SlotCtr) : (x.setCtr k c).mq = x.mq := rfl
@[simp] theorem Team.setCtr_scope (x : Team) (k : Nat) (c : SlotCtr) : (x.setCtr k c).scope = x.scope := rfl
@[simp] theorem Team.setCtr_gov (x : Team) (k : Nat) (c : SlotCtr) : (x.setCtr k c).gov = x.gov := rfl
@[simp] theorem Team.setCtr_prq (x : Team) (k : Nat) (c : SlotCtr) : (x.setCtr k c).prq = x.prq := rfl
@[simp] theorem Team.setCtr_save (x : Team) (k : Nat) (c : SlotCtr) : (x.setCtr k c).save = x.save := rfl
@[simp] theorem Team.setCtr_seg (x : Team) (k : Nat) (c : SlotCtr) : (x.setCtr k c).seg = x.seg := rfl
@[simp] theorem Team.setCtr_cancelled (x : Team) (k : Nat) (c : SlotCtr) : (x.setCtr k c).cancelled = x.cancelled := rfl
@[simp] theorem Team.setCtr_late (x : Team) (k : Nat) (c : SlotCtr) : (x.setCtr k c).late = x.late := rfl
@[simp] theorem Team.setCtr_owedArea (x : Team) (k : Nat) (c : SlotCtr) : (x.setCtr k c).owedArea = x.owedArea := rfl

/-! ### Team.setCont -/

@[simp] theorem Team.setCont_ref (x : Team) (c : Cont) : (x.setCont c).ref = x.ref := rfl
@[simp] theorem Team.setCont_core (x : Team) (c : Cont) : (x.setCont c).core = x.core := rfl
@[simp] theorem Team.setCont_pair (x : Team) (c : Cont) : (x.setCont c).pair = x.pair := rfl
@[simp] theorem Team.setCont_x (x : Team) (c : Cont) : (x.setCont c).x = x.x := rfl
@[simp] theorem Team.setCont_y (x : Team) (c : Cont) : (x.setCont c).y = x.y := rfl
@[simp] theorem Team.setCont_z (x : Team) (c : Cont) : (x.setCont c).z = x.z := rfl
@[simp] theorem Team.setCont_width (x : Team) (c : Cont) : (x.setCont c).width = x.width := rfl
@[simp] theorem Team.setCont_groups (x : Team) (c : Cont) : (x.setCont c).groups = x.groups := rfl
@[simp] theorem Team.setCont_contNext (x : Team) (c : Cont) : (x.setCont c).contNext = x.contNext := rfl
@[simp] theorem Team.setCont_queues (x : Team) (c : Cont) : (x.setCont c).queues = x.queues := rfl
@[simp] theorem Team.setCont_ctrs (x : Team) (c : Cont) : (x.setCont c).ctrs = x.ctrs := rfl
@[simp] theorem Team.setCont_nb (x : Team) (c : Cont) : (x.setCont c).nb = x.nb := rfl
@[simp] theorem Team.setCont_pool (x : Team) (c : Cont) : (x.setCont c).pool = x.pool := rfl
@[simp] theorem Team.setCont_poolOdd (x : Team) (c : Cont) : (x.setCont c).poolOdd = x.poolOdd := rfl
@[simp] theorem Team.setCont_claims (x : Team) (c : Cont) : (x.setCont c).claims = x.claims := rfl
@[simp] theorem Team.setCont_spans (x : Team) (c : Cont) : (x.setCont c).spans = x.spans := rfl
@[simp] theorem Team.setCont_spanBase (x : Team) (c : Cont) : (x.setCont c).spanBase = x.spanBase := rfl
@[simp] theorem Team.setCont_spad (x : Team) (c : Cont) : (x.setCont c).spad = x.spad := rfl
@[simp] theorem Team.setCont_full (x : Team) (c : Cont) : (x.setCont c).full = x.full := rfl
@[simp] theorem Team.setCont_fullVc (x : Team) (c : Cont) : (x.setCont c).fullVc = x.fullVc := rfl
@[simp] theorem Team.setCont_newFull (x : Team) (c : Cont) : (x.setCont c).newFull = x.newFull := rfl
@[simp] theorem Team.setCont_spLost (x : Team) (c : Cont) : (x.setCont c).spLost = x.spLost := rfl
@[simp] theorem Team.setCont_rLost (x : Team) (c : Cont) : (x.setCont c).rLost = x.rLost := rfl
@[simp] theorem Team.setCont_filled (x : Team) (c : Cont) : (x.setCont c).filled = x.filled := rfl
@[simp] theorem Team.setCont_wins (x : Team) (c : Cont) : (x.setCont c).wins = x.wins := rfl
@[simp] theorem Team.setCont_code (x : Team) (c : Cont) : (x.setCont c).code = x.code := rfl
@[simp] theorem Team.setCont_loaded (x : Team) (c : Cont) : (x.setCont c).loaded = x.loaded := rfl
@[simp] theorem Team.setCont_acc (x : Team) (c : Cont) : (x.setCont c).acc = x.acc := rfl
@[simp] theorem Team.setCont_owner (x : Team) (c : Cont) : (x.setCont c).owner = x.owner := rfl
@[simp] theorem Team.setCont_tileVc (x : Team) (c : Cont) : (x.setCont c).tileVc = x.tileVc := rfl
@[simp] theorem Team.setCont_dwin (x : Team) (c : Cont) : (x.setCont c).dwin = x.dwin := rfl
@[simp] theorem Team.setCont_sets (x : Team) (c : Cont) : (x.setCont c).sets = x.sets := rfl
@[simp] theorem Team.setCont_sq (x : Team) (c : Cont) : (x.setCont c).sq = x.sq := rfl
@[simp] theorem Team.setCont_mq (x : Team) (c : Cont) : (x.setCont c).mq = x.mq := rfl
@[simp] theorem Team.setCont_scope (x : Team) (c : Cont) : (x.setCont c).scope = x.scope := rfl
@[simp] theorem Team.setCont_gov (x : Team) (c : Cont) : (x.setCont c).gov = x.gov := rfl
@[simp] theorem Team.setCont_prq (x : Team) (c : Cont) : (x.setCont c).prq = x.prq := rfl
@[simp] theorem Team.setCont_save (x : Team) (c : Cont) : (x.setCont c).save = x.save := rfl
@[simp] theorem Team.setCont_seg (x : Team) (c : Cont) : (x.setCont c).seg = x.seg := rfl
@[simp] theorem Team.setCont_cancelled (x : Team) (c : Cont) : (x.setCont c).cancelled = x.cancelled := rfl
@[simp] theorem Team.setCont_late (x : Team) (c : Cont) : (x.setCont c).late = x.late := rfl
@[simp] theorem Team.setCont_owedArea (x : Team) (c : Cont) : (x.setCont c).owedArea = x.owedArea := rfl

/-! ### Team.setWho -/

@[simp] theorem Team.setWho_ref (x : Team) (w : Who) (g : Group) : (x.setWho w g).ref = x.ref := by unfold Team.setWho; split <;> (try split) <;> rfl
@[simp] theorem Team.setWho_core (x : Team) (w : Who) (g : Group) : (x.setWho w g).core = x.core := by unfold Team.setWho; split <;> (try split) <;> rfl
@[simp] theorem Team.setWho_pair (x : Team) (w : Who) (g : Group) : (x.setWho w g).pair = x.pair := by unfold Team.setWho; split <;> (try split) <;> rfl
@[simp] theorem Team.setWho_x (x : Team) (w : Who) (g : Group) : (x.setWho w g).x = x.x := by unfold Team.setWho; split <;> (try split) <;> rfl
@[simp] theorem Team.setWho_y (x : Team) (w : Who) (g : Group) : (x.setWho w g).y = x.y := by unfold Team.setWho; split <;> (try split) <;> rfl
@[simp] theorem Team.setWho_z (x : Team) (w : Who) (g : Group) : (x.setWho w g).z = x.z := by unfold Team.setWho; split <;> (try split) <;> rfl
@[simp] theorem Team.setWho_width (x : Team) (w : Who) (g : Group) : (x.setWho w g).width = x.width := by unfold Team.setWho; split <;> (try split) <;> rfl
@[simp] theorem Team.setWho_contNext (x : Team) (w : Who) (g : Group) : (x.setWho w g).contNext = x.contNext := by unfold Team.setWho; split <;> (try split) <;> rfl
@[simp] theorem Team.setWho_queues (x : Team) (w : Who) (g : Group) : (x.setWho w g).queues = x.queues := by unfold Team.setWho; split <;> (try split) <;> rfl
@[simp] theorem Team.setWho_ctrs (x : Team) (w : Who) (g : Group) : (x.setWho w g).ctrs = x.ctrs := by unfold Team.setWho; split <;> (try split) <;> rfl
@[simp] theorem Team.setWho_nb (x : Team) (w : Who) (g : Group) : (x.setWho w g).nb = x.nb := by unfold Team.setWho; split <;> (try split) <;> rfl
@[simp] theorem Team.setWho_pool (x : Team) (w : Who) (g : Group) : (x.setWho w g).pool = x.pool := by unfold Team.setWho; split <;> (try split) <;> rfl
@[simp] theorem Team.setWho_poolOdd (x : Team) (w : Who) (g : Group) : (x.setWho w g).poolOdd = x.poolOdd := by unfold Team.setWho; split <;> (try split) <;> rfl
@[simp] theorem Team.setWho_claims (x : Team) (w : Who) (g : Group) : (x.setWho w g).claims = x.claims := by unfold Team.setWho; split <;> (try split) <;> rfl
@[simp] theorem Team.setWho_spans (x : Team) (w : Who) (g : Group) : (x.setWho w g).spans = x.spans := by unfold Team.setWho; split <;> (try split) <;> rfl
@[simp] theorem Team.setWho_spanBase (x : Team) (w : Who) (g : Group) : (x.setWho w g).spanBase = x.spanBase := by unfold Team.setWho; split <;> (try split) <;> rfl
@[simp] theorem Team.setWho_spad (x : Team) (w : Who) (g : Group) : (x.setWho w g).spad = x.spad := by unfold Team.setWho; split <;> (try split) <;> rfl
@[simp] theorem Team.setWho_full (x : Team) (w : Who) (g : Group) : (x.setWho w g).full = x.full := by unfold Team.setWho; split <;> (try split) <;> rfl
@[simp] theorem Team.setWho_fullVc (x : Team) (w : Who) (g : Group) : (x.setWho w g).fullVc = x.fullVc := by unfold Team.setWho; split <;> (try split) <;> rfl
@[simp] theorem Team.setWho_newFull (x : Team) (w : Who) (g : Group) : (x.setWho w g).newFull = x.newFull := by unfold Team.setWho; split <;> (try split) <;> rfl
@[simp] theorem Team.setWho_spLost (x : Team) (w : Who) (g : Group) : (x.setWho w g).spLost = x.spLost := by unfold Team.setWho; split <;> (try split) <;> rfl
@[simp] theorem Team.setWho_rLost (x : Team) (w : Who) (g : Group) : (x.setWho w g).rLost = x.rLost := by unfold Team.setWho; split <;> (try split) <;> rfl
@[simp] theorem Team.setWho_filled (x : Team) (w : Who) (g : Group) : (x.setWho w g).filled = x.filled := by unfold Team.setWho; split <;> (try split) <;> rfl
@[simp] theorem Team.setWho_wins (x : Team) (w : Who) (g : Group) : (x.setWho w g).wins = x.wins := by unfold Team.setWho; split <;> (try split) <;> rfl
@[simp] theorem Team.setWho_code (x : Team) (w : Who) (g : Group) : (x.setWho w g).code = x.code := by unfold Team.setWho; split <;> (try split) <;> rfl
@[simp] theorem Team.setWho_loaded (x : Team) (w : Who) (g : Group) : (x.setWho w g).loaded = x.loaded := by unfold Team.setWho; split <;> (try split) <;> rfl
@[simp] theorem Team.setWho_acc (x : Team) (w : Who) (g : Group) : (x.setWho w g).acc = x.acc := by unfold Team.setWho; split <;> (try split) <;> rfl
@[simp] theorem Team.setWho_owner (x : Team) (w : Who) (g : Group) : (x.setWho w g).owner = x.owner := by unfold Team.setWho; split <;> (try split) <;> rfl
@[simp] theorem Team.setWho_tileVc (x : Team) (w : Who) (g : Group) : (x.setWho w g).tileVc = x.tileVc := by unfold Team.setWho; split <;> (try split) <;> rfl
@[simp] theorem Team.setWho_dwin (x : Team) (w : Who) (g : Group) : (x.setWho w g).dwin = x.dwin := by unfold Team.setWho; split <;> (try split) <;> rfl
@[simp] theorem Team.setWho_sets (x : Team) (w : Who) (g : Group) : (x.setWho w g).sets = x.sets := by unfold Team.setWho; split <;> (try split) <;> rfl
@[simp] theorem Team.setWho_sq (x : Team) (w : Who) (g : Group) : (x.setWho w g).sq = x.sq := by unfold Team.setWho; split <;> (try split) <;> rfl
@[simp] theorem Team.setWho_mq (x : Team) (w : Who) (g : Group) : (x.setWho w g).mq = x.mq := by unfold Team.setWho; split <;> (try split) <;> rfl
@[simp] theorem Team.setWho_scope (x : Team) (w : Who) (g : Group) : (x.setWho w g).scope = x.scope := by unfold Team.setWho; split <;> (try split) <;> rfl
@[simp] theorem Team.setWho_gov (x : Team) (w : Who) (g : Group) : (x.setWho w g).gov = x.gov := by unfold Team.setWho; split <;> (try split) <;> rfl
@[simp] theorem Team.setWho_prq (x : Team) (w : Who) (g : Group) : (x.setWho w g).prq = x.prq := by unfold Team.setWho; split <;> (try split) <;> rfl
@[simp] theorem Team.setWho_save (x : Team) (w : Who) (g : Group) : (x.setWho w g).save = x.save := by unfold Team.setWho; split <;> (try split) <;> rfl
@[simp] theorem Team.setWho_seg (x : Team) (w : Who) (g : Group) : (x.setWho w g).seg = x.seg := by unfold Team.setWho; split <;> (try split) <;> rfl
@[simp] theorem Team.setWho_cancelled (x : Team) (w : Who) (g : Group) : (x.setWho w g).cancelled = x.cancelled := by unfold Team.setWho; split <;> (try split) <;> rfl
@[simp] theorem Team.setWho_late (x : Team) (w : Who) (g : Group) : (x.setWho w g).late = x.late := by unfold Team.setWho; split <;> (try split) <;> rfl
@[simp] theorem Team.setWho_owedArea (x : Team) (w : Who) (g : Group) : (x.setWho w g).owedArea = x.owedArea := by unfold Team.setWho; split <;> (try split) <;> rfl

/-! ### Group.setV -/

@[simp] theorem Group.setV_idx (x : Group) (r i : Nat) (y : W32) : (x.setV r i y).idx = x.idx := rfl
@[simp] theorem Group.setV_width (x : Group) (r i : Nat) (y : W32) : (x.setV r i y).width = x.width := rfl
@[simp] theorem Group.setV_pc (x : Group) (r i : Nat) (y : W32) : (x.setV r i y).pc = x.pc := rfl
@[simp] theorem Group.setV_exec (x : Group) (r i : Nat) (y : W32) : (x.setV r i y).exec = x.exec := rfl
@[simp] theorem Group.setV_pcm (x : Group) (r i : Nat) (y : W32) : (x.setV r i y).pcm = x.pcm := rfl
@[simp] theorem Group.setV_role (x : Group) (r i : Nat) (y : W32) : (x.setV r i y).role = x.role := rfl
@[simp] theorem Group.setV_st (x : Group) (r i : Nat) (y : W32) : (x.setV r i y).st = x.st := rfl
@[simp] theorem Group.setV_priv (x : Group) (r i : Nat) (y : W32) : (x.setV r i y).priv = x.priv := rfl
@[simp] theorem Group.setV_sticky (x : Group) (r i : Nat) (y : W32) : (x.setV r i y).sticky = x.sticky := rfl
@[simp] theorem Group.setV_chunks (x : Group) (r i : Nat) (y : W32) : (x.setV r i y).chunks = x.chunks := rfl
@[simp] theorem Group.setV_s (x : Group) (r i : Nat) (y : W32) : (x.setV r i y).s = x.s := rfl
@[simp] theorem Group.setV_p (x : Group) (r i : Nat) (y : W32) : (x.setV r i y).p = x.p := rfl
@[simp] theorem Group.setV_l (x : Group) (r i : Nat) (y : W32) : (x.setV r i y).l = x.l := rfl
@[simp] theorem Group.setV_j (x : Group) (r i : Nat) (y : W32) : (x.setV r i y).j = x.j := rfl
@[simp] theorem Group.setV_pend (x : Group) (r i : Nat) (y : W32) : (x.setV r i y).pend = x.pend := rfl
@[simp] theorem Group.setV_arv (x : Group) (r i : Nat) (y : W32) : (x.setV r i y).arv = x.arv := rfl
@[simp] theorem Group.setV_aph (x : Group) (r i : Nat) (y : W32) : (x.setV r i y).aph = x.aph := rfl
@[simp] theorem Group.setV_seed (x : Group) (r i : Nat) (y : W32) : (x.setV r i y).seed = x.seed := rfl
@[simp] theorem Group.setV_ctr (x : Group) (r i : Nat) (y : W32) : (x.setV r i y).ctr = x.ctr := rfl
@[simp] theorem Group.setV_la (x : Group) (r i : Nat) (y : W32) : (x.setV r i y).la = x.la := rfl
@[simp] theorem Group.setV_replay (x : Group) (r i : Nat) (y : W32) : (x.setV r i y).replay = x.replay := rfl
@[simp] theorem Group.setV_epc (x : Group) (r i : Nat) (y : W32) : (x.setV r i y).epc = x.epc := rfl
@[simp] theorem Group.setV_ecode (x : Group) (r i : Nat) (y : W32) : (x.setV r i y).ecode = x.ecode := rfl
@[simp] theorem Group.setV_epoch (x : Group) (r i : Nat) (y : W32) : (x.setV r i y).epoch = x.epoch := rfl
@[simp] theorem Group.setV_lastMark (x : Group) (r i : Nat) (y : W32) : (x.setV r i y).lastMark = x.lastMark := rfl
@[simp] theorem Group.setV_task (x : Group) (r i : Nat) (y : W32) : (x.setV r i y).task = x.task := rfl
@[simp] theorem Group.setV_posted (x : Group) (r i : Nat) (y : W32) : (x.setV r i y).posted = x.posted := rfl
@[simp] theorem Group.setV_wait (x : Group) (r i : Nat) (y : W32) : (x.setV r i y).wait = x.wait := rfl
@[simp] theorem Group.setV_entry (x : Group) (r i : Nat) (y : W32) : (x.setV r i y).entry = x.entry := rfl
@[simp] theorem Group.setV_retries (x : Group) (r i : Nat) (y : W32) : (x.setV r i y).retries = x.retries := rfl
@[simp] theorem Group.setV_stop (x : Group) (r i : Nat) (y : W32) : (x.setV r i y).stop = x.stop := rfl
@[simp] theorem Group.setV_kill (x : Group) (r i : Nat) (y : W32) : (x.setV r i y).kill = x.kill := rfl
@[simp] theorem Group.setV_arms (x : Group) (r i : Nat) (y : W32) : (x.setV r i y).arms = x.arms := rfl
@[simp] theorem Group.setV_arrSeq (x : Group) (r i : Nat) (y : W32) : (x.setV r i y).arrSeq = x.arrSeq := rfl
@[simp] theorem Group.setV_last (x : Group) (r i : Nat) (y : W32) : (x.setV r i y).last = x.last := rfl
@[simp] theorem Group.setV_vc (x : Group) (r i : Nat) (y : W32) : (x.setV r i y).vc = x.vc := rfl
@[simp] theorem Group.setV_puts (x : Group) (r i : Nat) (y : W32) : (x.setV r i y).puts = x.puts := rfl
@[simp] theorem Group.setV_owedHold (x : Group) (r i : Nat) (y : W32) : (x.setV r i y).owedHold = x.owedHold := rfl
@[simp] theorem Group.setV_tokVc (x : Group) (r i : Nat) (y : W32) : (x.setV r i y).tokVc = x.tokVc := rfl
@[simp] theorem Group.setV_owing (x : Group) (r i : Nat) (y : W32) : (x.setV r i y).owing = x.owing := rfl
@[simp] theorem Group.setV_readyAt (x : Group) (r i : Nat) (y : W32) : (x.setV r i y).readyAt = x.readyAt := rfl
@[simp] theorem Group.setV_parted (x : Group) (r i : Nat) (y : W32) : (x.setV r i y).parted = x.parted := rfl

/-! ### Group.setS -/

@[simp] theorem Group.setS_idx (x : Group) (n : Nat) (y : W64) : (x.setS n y).idx = x.idx := rfl
@[simp] theorem Group.setS_width (x : Group) (n : Nat) (y : W64) : (x.setS n y).width = x.width := rfl
@[simp] theorem Group.setS_pc (x : Group) (n : Nat) (y : W64) : (x.setS n y).pc = x.pc := rfl
@[simp] theorem Group.setS_exec (x : Group) (n : Nat) (y : W64) : (x.setS n y).exec = x.exec := rfl
@[simp] theorem Group.setS_pcm (x : Group) (n : Nat) (y : W64) : (x.setS n y).pcm = x.pcm := rfl
@[simp] theorem Group.setS_role (x : Group) (n : Nat) (y : W64) : (x.setS n y).role = x.role := rfl
@[simp] theorem Group.setS_st (x : Group) (n : Nat) (y : W64) : (x.setS n y).st = x.st := rfl
@[simp] theorem Group.setS_priv (x : Group) (n : Nat) (y : W64) : (x.setS n y).priv = x.priv := rfl
@[simp] theorem Group.setS_sticky (x : Group) (n : Nat) (y : W64) : (x.setS n y).sticky = x.sticky := rfl
@[simp] theorem Group.setS_v (x : Group) (n : Nat) (y : W64) : (x.setS n y).v = x.v := rfl
@[simp] theorem Group.setS_chunks (x : Group) (n : Nat) (y : W64) : (x.setS n y).chunks = x.chunks := rfl
@[simp] theorem Group.setS_p (x : Group) (n : Nat) (y : W64) : (x.setS n y).p = x.p := rfl
@[simp] theorem Group.setS_l (x : Group) (n : Nat) (y : W64) : (x.setS n y).l = x.l := rfl
@[simp] theorem Group.setS_j (x : Group) (n : Nat) (y : W64) : (x.setS n y).j = x.j := rfl
@[simp] theorem Group.setS_pend (x : Group) (n : Nat) (y : W64) : (x.setS n y).pend = x.pend := rfl
@[simp] theorem Group.setS_arv (x : Group) (n : Nat) (y : W64) : (x.setS n y).arv = x.arv := rfl
@[simp] theorem Group.setS_aph (x : Group) (n : Nat) (y : W64) : (x.setS n y).aph = x.aph := rfl
@[simp] theorem Group.setS_seed (x : Group) (n : Nat) (y : W64) : (x.setS n y).seed = x.seed := rfl
@[simp] theorem Group.setS_ctr (x : Group) (n : Nat) (y : W64) : (x.setS n y).ctr = x.ctr := rfl
@[simp] theorem Group.setS_la (x : Group) (n : Nat) (y : W64) : (x.setS n y).la = x.la := rfl
@[simp] theorem Group.setS_replay (x : Group) (n : Nat) (y : W64) : (x.setS n y).replay = x.replay := rfl
@[simp] theorem Group.setS_epc (x : Group) (n : Nat) (y : W64) : (x.setS n y).epc = x.epc := rfl
@[simp] theorem Group.setS_ecode (x : Group) (n : Nat) (y : W64) : (x.setS n y).ecode = x.ecode := rfl
@[simp] theorem Group.setS_epoch (x : Group) (n : Nat) (y : W64) : (x.setS n y).epoch = x.epoch := rfl
@[simp] theorem Group.setS_lastMark (x : Group) (n : Nat) (y : W64) : (x.setS n y).lastMark = x.lastMark := rfl
@[simp] theorem Group.setS_task (x : Group) (n : Nat) (y : W64) : (x.setS n y).task = x.task := rfl
@[simp] theorem Group.setS_posted (x : Group) (n : Nat) (y : W64) : (x.setS n y).posted = x.posted := rfl
@[simp] theorem Group.setS_wait (x : Group) (n : Nat) (y : W64) : (x.setS n y).wait = x.wait := rfl
@[simp] theorem Group.setS_entry (x : Group) (n : Nat) (y : W64) : (x.setS n y).entry = x.entry := rfl
@[simp] theorem Group.setS_retries (x : Group) (n : Nat) (y : W64) : (x.setS n y).retries = x.retries := rfl
@[simp] theorem Group.setS_stop (x : Group) (n : Nat) (y : W64) : (x.setS n y).stop = x.stop := rfl
@[simp] theorem Group.setS_kill (x : Group) (n : Nat) (y : W64) : (x.setS n y).kill = x.kill := rfl
@[simp] theorem Group.setS_arms (x : Group) (n : Nat) (y : W64) : (x.setS n y).arms = x.arms := rfl
@[simp] theorem Group.setS_arrSeq (x : Group) (n : Nat) (y : W64) : (x.setS n y).arrSeq = x.arrSeq := rfl
@[simp] theorem Group.setS_last (x : Group) (n : Nat) (y : W64) : (x.setS n y).last = x.last := rfl
@[simp] theorem Group.setS_vc (x : Group) (n : Nat) (y : W64) : (x.setS n y).vc = x.vc := rfl
@[simp] theorem Group.setS_puts (x : Group) (n : Nat) (y : W64) : (x.setS n y).puts = x.puts := rfl
@[simp] theorem Group.setS_owedHold (x : Group) (n : Nat) (y : W64) : (x.setS n y).owedHold = x.owedHold := rfl
@[simp] theorem Group.setS_tokVc (x : Group) (n : Nat) (y : W64) : (x.setS n y).tokVc = x.tokVc := rfl
@[simp] theorem Group.setS_owing (x : Group) (n : Nat) (y : W64) : (x.setS n y).owing = x.owing := rfl
@[simp] theorem Group.setS_readyAt (x : Group) (n : Nat) (y : W64) : (x.setS n y).readyAt = x.readyAt := rfl
@[simp] theorem Group.setS_parted (x : Group) (n : Nat) (y : W64) : (x.setS n y).parted = x.parted := rfl

/-! ### Group.setP -/

@[simp] theorem Group.setP_idx (x : Group) (n : Nat) (m y : Mask) : (x.setP n m y).idx = x.idx := rfl
@[simp] theorem Group.setP_width (x : Group) (n : Nat) (m y : Mask) : (x.setP n m y).width = x.width := rfl
@[simp] theorem Group.setP_pc (x : Group) (n : Nat) (m y : Mask) : (x.setP n m y).pc = x.pc := rfl
@[simp] theorem Group.setP_exec (x : Group) (n : Nat) (m y : Mask) : (x.setP n m y).exec = x.exec := rfl
@[simp] theorem Group.setP_pcm (x : Group) (n : Nat) (m y : Mask) : (x.setP n m y).pcm = x.pcm := rfl
@[simp] theorem Group.setP_role (x : Group) (n : Nat) (m y : Mask) : (x.setP n m y).role = x.role := rfl
@[simp] theorem Group.setP_st (x : Group) (n : Nat) (m y : Mask) : (x.setP n m y).st = x.st := rfl
@[simp] theorem Group.setP_priv (x : Group) (n : Nat) (m y : Mask) : (x.setP n m y).priv = x.priv := rfl
@[simp] theorem Group.setP_sticky (x : Group) (n : Nat) (m y : Mask) : (x.setP n m y).sticky = x.sticky := rfl
@[simp] theorem Group.setP_v (x : Group) (n : Nat) (m y : Mask) : (x.setP n m y).v = x.v := rfl
@[simp] theorem Group.setP_chunks (x : Group) (n : Nat) (m y : Mask) : (x.setP n m y).chunks = x.chunks := rfl
@[simp] theorem Group.setP_s (x : Group) (n : Nat) (m y : Mask) : (x.setP n m y).s = x.s := rfl
@[simp] theorem Group.setP_l (x : Group) (n : Nat) (m y : Mask) : (x.setP n m y).l = x.l := rfl
@[simp] theorem Group.setP_j (x : Group) (n : Nat) (m y : Mask) : (x.setP n m y).j = x.j := rfl
@[simp] theorem Group.setP_pend (x : Group) (n : Nat) (m y : Mask) : (x.setP n m y).pend = x.pend := rfl
@[simp] theorem Group.setP_arv (x : Group) (n : Nat) (m y : Mask) : (x.setP n m y).arv = x.arv := rfl
@[simp] theorem Group.setP_aph (x : Group) (n : Nat) (m y : Mask) : (x.setP n m y).aph = x.aph := rfl
@[simp] theorem Group.setP_seed (x : Group) (n : Nat) (m y : Mask) : (x.setP n m y).seed = x.seed := rfl
@[simp] theorem Group.setP_ctr (x : Group) (n : Nat) (m y : Mask) : (x.setP n m y).ctr = x.ctr := rfl
@[simp] theorem Group.setP_la (x : Group) (n : Nat) (m y : Mask) : (x.setP n m y).la = x.la := rfl
@[simp] theorem Group.setP_replay (x : Group) (n : Nat) (m y : Mask) : (x.setP n m y).replay = x.replay := rfl
@[simp] theorem Group.setP_epc (x : Group) (n : Nat) (m y : Mask) : (x.setP n m y).epc = x.epc := rfl
@[simp] theorem Group.setP_ecode (x : Group) (n : Nat) (m y : Mask) : (x.setP n m y).ecode = x.ecode := rfl
@[simp] theorem Group.setP_epoch (x : Group) (n : Nat) (m y : Mask) : (x.setP n m y).epoch = x.epoch := rfl
@[simp] theorem Group.setP_lastMark (x : Group) (n : Nat) (m y : Mask) : (x.setP n m y).lastMark = x.lastMark := rfl
@[simp] theorem Group.setP_task (x : Group) (n : Nat) (m y : Mask) : (x.setP n m y).task = x.task := rfl
@[simp] theorem Group.setP_posted (x : Group) (n : Nat) (m y : Mask) : (x.setP n m y).posted = x.posted := rfl
@[simp] theorem Group.setP_wait (x : Group) (n : Nat) (m y : Mask) : (x.setP n m y).wait = x.wait := rfl
@[simp] theorem Group.setP_entry (x : Group) (n : Nat) (m y : Mask) : (x.setP n m y).entry = x.entry := rfl
@[simp] theorem Group.setP_retries (x : Group) (n : Nat) (m y : Mask) : (x.setP n m y).retries = x.retries := rfl
@[simp] theorem Group.setP_stop (x : Group) (n : Nat) (m y : Mask) : (x.setP n m y).stop = x.stop := rfl
@[simp] theorem Group.setP_kill (x : Group) (n : Nat) (m y : Mask) : (x.setP n m y).kill = x.kill := rfl
@[simp] theorem Group.setP_arms (x : Group) (n : Nat) (m y : Mask) : (x.setP n m y).arms = x.arms := rfl
@[simp] theorem Group.setP_arrSeq (x : Group) (n : Nat) (m y : Mask) : (x.setP n m y).arrSeq = x.arrSeq := rfl
@[simp] theorem Group.setP_last (x : Group) (n : Nat) (m y : Mask) : (x.setP n m y).last = x.last := rfl
@[simp] theorem Group.setP_vc (x : Group) (n : Nat) (m y : Mask) : (x.setP n m y).vc = x.vc := rfl
@[simp] theorem Group.setP_puts (x : Group) (n : Nat) (m y : Mask) : (x.setP n m y).puts = x.puts := rfl
@[simp] theorem Group.setP_owedHold (x : Group) (n : Nat) (m y : Mask) : (x.setP n m y).owedHold = x.owedHold := rfl
@[simp] theorem Group.setP_tokVc (x : Group) (n : Nat) (m y : Mask) : (x.setP n m y).tokVc = x.tokVc := rfl
@[simp] theorem Group.setP_owing (x : Group) (n : Nat) (m y : Mask) : (x.setP n m y).owing = x.owing := rfl
@[simp] theorem Group.setP_readyAt (x : Group) (n : Nat) (m y : Mask) : (x.setP n m y).readyAt = x.readyAt := rfl
@[simp] theorem Group.setP_parted (x : Group) (n : Nat) (m y : Mask) : (x.setP n m y).parted = x.parted := rfl

/-! ### Group.setTok -/

@[simp] theorem Group.setTok_idx (x : Group) (k : Nat) (t : Token) : (x.setTok k t).idx = x.idx := rfl
@[simp] theorem Group.setTok_width (x : Group) (k : Nat) (t : Token) : (x.setTok k t).width = x.width := rfl
@[simp] theorem Group.setTok_pc (x : Group) (k : Nat) (t : Token) : (x.setTok k t).pc = x.pc := rfl
@[simp] theorem Group.setTok_exec (x : Group) (k : Nat) (t : Token) : (x.setTok k t).exec = x.exec := rfl
@[simp] theorem Group.setTok_pcm (x : Group) (k : Nat) (t : Token) : (x.setTok k t).pcm = x.pcm := rfl
@[simp] theorem Group.setTok_role (x : Group) (k : Nat) (t : Token) : (x.setTok k t).role = x.role := rfl
@[simp] theorem Group.setTok_st (x : Group) (k : Nat) (t : Token) : (x.setTok k t).st = x.st := rfl
@[simp] theorem Group.setTok_priv (x : Group) (k : Nat) (t : Token) : (x.setTok k t).priv = x.priv := rfl
@[simp] theorem Group.setTok_sticky (x : Group) (k : Nat) (t : Token) : (x.setTok k t).sticky = x.sticky := rfl
@[simp] theorem Group.setTok_v (x : Group) (k : Nat) (t : Token) : (x.setTok k t).v = x.v := rfl
@[simp] theorem Group.setTok_chunks (x : Group) (k : Nat) (t : Token) : (x.setTok k t).chunks = x.chunks := rfl
@[simp] theorem Group.setTok_s (x : Group) (k : Nat) (t : Token) : (x.setTok k t).s = x.s := rfl
@[simp] theorem Group.setTok_p (x : Group) (k : Nat) (t : Token) : (x.setTok k t).p = x.p := rfl
@[simp] theorem Group.setTok_l (x : Group) (k : Nat) (t : Token) : (x.setTok k t).l = x.l := rfl
@[simp] theorem Group.setTok_pend (x : Group) (k : Nat) (t : Token) : (x.setTok k t).pend = x.pend := rfl
@[simp] theorem Group.setTok_arv (x : Group) (k : Nat) (t : Token) : (x.setTok k t).arv = x.arv := rfl
@[simp] theorem Group.setTok_aph (x : Group) (k : Nat) (t : Token) : (x.setTok k t).aph = x.aph := rfl
@[simp] theorem Group.setTok_seed (x : Group) (k : Nat) (t : Token) : (x.setTok k t).seed = x.seed := rfl
@[simp] theorem Group.setTok_ctr (x : Group) (k : Nat) (t : Token) : (x.setTok k t).ctr = x.ctr := rfl
@[simp] theorem Group.setTok_la (x : Group) (k : Nat) (t : Token) : (x.setTok k t).la = x.la := rfl
@[simp] theorem Group.setTok_replay (x : Group) (k : Nat) (t : Token) : (x.setTok k t).replay = x.replay := rfl
@[simp] theorem Group.setTok_epc (x : Group) (k : Nat) (t : Token) : (x.setTok k t).epc = x.epc := rfl
@[simp] theorem Group.setTok_ecode (x : Group) (k : Nat) (t : Token) : (x.setTok k t).ecode = x.ecode := rfl
@[simp] theorem Group.setTok_epoch (x : Group) (k : Nat) (t : Token) : (x.setTok k t).epoch = x.epoch := rfl
@[simp] theorem Group.setTok_lastMark (x : Group) (k : Nat) (t : Token) : (x.setTok k t).lastMark = x.lastMark := rfl
@[simp] theorem Group.setTok_task (x : Group) (k : Nat) (t : Token) : (x.setTok k t).task = x.task := rfl
@[simp] theorem Group.setTok_posted (x : Group) (k : Nat) (t : Token) : (x.setTok k t).posted = x.posted := rfl
@[simp] theorem Group.setTok_wait (x : Group) (k : Nat) (t : Token) : (x.setTok k t).wait = x.wait := rfl
@[simp] theorem Group.setTok_entry (x : Group) (k : Nat) (t : Token) : (x.setTok k t).entry = x.entry := rfl
@[simp] theorem Group.setTok_retries (x : Group) (k : Nat) (t : Token) : (x.setTok k t).retries = x.retries := rfl
@[simp] theorem Group.setTok_stop (x : Group) (k : Nat) (t : Token) : (x.setTok k t).stop = x.stop := rfl
@[simp] theorem Group.setTok_kill (x : Group) (k : Nat) (t : Token) : (x.setTok k t).kill = x.kill := rfl
@[simp] theorem Group.setTok_arms (x : Group) (k : Nat) (t : Token) : (x.setTok k t).arms = x.arms := rfl
@[simp] theorem Group.setTok_arrSeq (x : Group) (k : Nat) (t : Token) : (x.setTok k t).arrSeq = x.arrSeq := rfl
@[simp] theorem Group.setTok_last (x : Group) (k : Nat) (t : Token) : (x.setTok k t).last = x.last := rfl
@[simp] theorem Group.setTok_vc (x : Group) (k : Nat) (t : Token) : (x.setTok k t).vc = x.vc := rfl
@[simp] theorem Group.setTok_puts (x : Group) (k : Nat) (t : Token) : (x.setTok k t).puts = x.puts := rfl
@[simp] theorem Group.setTok_owedHold (x : Group) (k : Nat) (t : Token) : (x.setTok k t).owedHold = x.owedHold := rfl
@[simp] theorem Group.setTok_tokVc (x : Group) (k : Nat) (t : Token) : (x.setTok k t).tokVc = x.tokVc := rfl
@[simp] theorem Group.setTok_owing (x : Group) (k : Nat) (t : Token) : (x.setTok k t).owing = x.owing := rfl
@[simp] theorem Group.setTok_readyAt (x : Group) (k : Nat) (t : Token) : (x.setTok k t).readyAt = x.readyAt := rfl
@[simp] theorem Group.setTok_parted (x : Group) (k : Nat) (t : Token) : (x.setTok k t).parted = x.parted := rfl

end Sys2Proof.Machine
end

