-- ==== Sys2Proof/Laws/Store.lean ====
section
/-! SUPPORT. Sparse arrays and memory: what a write leaves to read, and that every memory operation keeps the canonical form. -/
namespace Sys2Proof.Machine

/-! ### One key -/

theorem Store.above_mono {α : Type} [DecidableEq α] {d : α} {lo lo' : Nat} (h : lo' ≤ lo) :
    ∀ {m : Store α}, Store.above d lo m = true → Store.above d lo' m = true
  | [], _ => rfl
  | (k, x) :: r, hm => by
    simp only [Store.above, Bool.and_eq_true, decide_eq_true_eq] at hm ⊢
    exact ⟨⟨Nat.le_trans h hm.1.1, hm.1.2⟩, hm.2⟩

theorem Store.get_below {α : Type} [DecidableEq α] {d : α} {lo i : Nat} (hi : i < lo) :
    ∀ {m : Store α}, Store.above d lo m = true → Store.get d m i = d
  | [], _ => rfl
  | (k, x) :: r, hm => by
    simp only [Store.above, Bool.and_eq_true, decide_eq_true_eq] at hm
    have h1 : i ≠ k := by omega
    have h2 : i < k := by omega
    simp [Store.get, h1, h2]

theorem Store.filter_above {α : Type} [DecidableEq α] {d : α} (p : Nat × α → Bool) :
    ∀ {lo : Nat} {m : Store α}, Store.above d lo m = true → Store.above d lo (m.filter p) = true
  | _, [], _ => rfl
  | lo, (k, x) :: r, h => by
    simp only [Store.above, Bool.and_eq_true, decide_eq_true_eq] at h
    unfold List.filter
    split
    · simp only [Store.above, Bool.and_eq_true, decide_eq_true_eq]
      exact ⟨h.1, Store.filter_above p h.2⟩
    · exact Store.above_mono (by omega) (Store.filter_above p h.2)

theorem Store.set_above {α : Type} [DecidableEq α] {d : α} {i : Nat} {y : α} :
    ∀ {lo : Nat} {m : Store α}, lo ≤ i → Store.above d lo m = true → Store.above d lo (Store.set d m i y) = true
  | lo, [], hi, _ => by
    unfold Store.set
    split
    · rfl
    · simp_all [Store.above]
  | lo, (k, x) :: r, hi, hm => by
    simp only [Store.above, Bool.and_eq_true, decide_eq_true_eq] at hm
    unfold Store.set
    split
    · split
      · exact Store.above_mono (by omega) (Store.filter_above _ hm.2)
      · subst i; simp_all [Store.above]
    · split
      · split
        · simp [Store.above, hm]
        · rename_i h1 h2 h3
          simp only [Store.above, Bool.and_eq_true, decide_eq_true_eq]
          exact ⟨⟨hi, h3⟩, ⟨by omega, hm.1.2⟩, hm.2⟩
      · simp only [Store.above, Bool.and_eq_true, decide_eq_true_eq]
        exact ⟨hm.1, Store.set_above (by omega) hm.2⟩

theorem Store.get_filter_gt {α : Type} {d : α} (i j : Nat) :
    ∀ m : Store α, Store.get d (m.filter fun e => decide (i < e.1)) j = if j ≤ i then d else Store.get d m j
  | [] => by simp [Store.get]
  | (k, x) :: r => by
    have ih := Store.get_filter_gt (d := d) i j r
    by_cases hk : i < k
    · simp only [List.filter_cons, hk, decide_true, if_true, Store.get, ih]
      by_cases hj : j ≤ i
      · have h1 : j ≠ k := by omega
        have h2 : j < k := by omega
        simp [hj, h1, h2]
      · simp [hj]
    · simp only [List.filter_cons, hk, decide_false, Bool.false_eq_true, if_false, ih, Store.get]
      by_cases hj : j ≤ i
      · simp [hj]
      · have h1 : j ≠ k := by omega
        have h2 : ¬ j < k := by omega
        simp [hj, h1, h2]

/-- A read after a write: the value written at its key, what stood before at every other. -/
theorem Store.get_set {α : Type} [DecidableEq α] {d : α} {i j : Nat} {y : α} :
    ∀ m : Store α, Store.get d (Store.set d m i y) j = if j = i then y else Store.get d m j
  | [] => by
    by_cases hy : y = d
    · subst hy; simp [Store.set, Store.get]
    · simp only [Store.set, hy, if_false, Store.get]
      split
      · rfl
      · split <;> rfl
  | (k, x) :: r => by
    by_cases hik : i = k
    · subst hik
      by_cases hy : y = d
      · subst hy
        simp only [Store.set, if_true, Store.get_filter_gt, Store.get]
        by_cases hj : j = i
        · subst hj; simp
        · simp only [hj, if_false]
          by_cases hl : j < i
          · have : j ≤ i := by omega
            simp [hl, this]
          · have : ¬ j ≤ i := by omega
            simp [hl, this]
      · simp only [Store.set, if_true, hy, if_false, Store.get]
        by_cases hj : j = i <;> simp [hj]
    · by_cases hlt : i < k
      · by_cases hy : y = d
        · subst hy
          simp only [Store.set, hik, if_false, hlt, if_true]
          by_cases hj : j = i
          · subst hj; simp [Store.get, hik, hlt]
          · simp [hj]
        · simp only [Store.set, hik, if_false, hlt, if_true, hy, Store.get]
          by_cases hj : j = i
          · simp [hj]
          · simp only [hj, if_false]
            split
            · have h1 : j ≠ k := by omega
              have h2 : j < k := by omega
              simp [h1, h2]
            · rfl
      · simp only [Store.set, hik, if_false, hlt, Store.get]
        by_cases hjk : j = k
        · subst hjk; have : j ≠ i := fun h => hik h.symm; simp [this]
        · simp only [hjk, if_false]
          split
          · have : j ≠ i := by omega
            simp [this]
          · exact Store.get_set r

theorem Store.set_wf {α : Type} [DecidableEq α] {d : α} {m : Store α} {i : Nat} {y : α} (h : Store.wf d m = true) :
    Store.wf d (Store.set d m i y) = true :=
  Store.set_above (Nat.zero_le i) h

/-! ### Many keys -/

theorem Store.setMany_wf {α : Type} [DecidableEq α] {d : α} (xs : List α) :
    ∀ {m : Store α} {i : Nat}, Store.wf d m = true → Store.wf d (Store.setMany d m i xs) = true := by
  induction xs with
  | nil => exact fun h => h
  | cons x r ih => exact fun h => ih (Store.set_wf h)

theorem Store.get_setMany {α : Type} [DecidableEq α] {d : α} (xs : List α) :
    ∀ {m : Store α} {i j : Nat},
      Store.get d (Store.setMany d m i xs) j =
        if i ≤ j ∧ j < i + xs.length then xs.getD (j - i) d else Store.get d m j := by
  induction xs with
  | nil => intro m i j; have : ¬(i ≤ j ∧ j < i + 0) := by omega
           simp only [Store.setMany, List.length_nil, this, if_false]
  | cons x r ih =>
    intro m i j
    simp only [Store.setMany, ih, Store.get_set, List.length_cons]
    by_cases hj : j = i
    · subst hj
      have h1 : ¬(j + 1 ≤ j ∧ j < j + 1 + r.length) := by omega
      have h2 : j ≤ j ∧ j < j + (r.length + 1) := by omega
      simp [h1]
    · by_cases h1 : i + 1 ≤ j ∧ j < i + 1 + r.length
      · have h2 : i ≤ j ∧ j < i + (r.length + 1) := by omega
        have h3 : j - i = (j - (i + 1)) + 1 := by omega
        rw [if_pos h1, if_pos h2, h3, List.getD_cons_succ]
      · have h2 : ¬(i ≤ j ∧ j < i + (r.length + 1)) := by omega
        rw [if_neg h1, if_neg h2, if_neg hj]

theorem Store.clear_wf {α : Type} [DecidableEq α] {d : α} (n : Nat) :
    ∀ {m : Store α} {i : Nat}, Store.wf d m = true → Store.wf d (Store.clear d m i n) = true := by
  induction n with
  | zero => exact fun h => h
  | succ n ih => exact fun h => ih (Store.set_wf h)

theorem Store.filter_wf {α : Type} [DecidableEq α] {d : α} {m : Store α} (p : Nat × α → Bool) (h : Store.wf d m = true) :
    Store.wf d (m.filter p) = true := Store.filter_above p h

/-- The keys of two arrays, the second above the first, side by side. -/
theorem Store.append_above {α : Type} [DecidableEq α] {d : α} {hi : Nat} {b : Store α} (hb : Store.above d hi b = true) :
    ∀ {lo : Nat} {a : Store α}, lo ≤ hi → Store.above d lo a = true → (∀ e ∈ a, e.1 < hi) → Store.above d lo (a ++ b) = true
  | lo, [], hl, _, _ => Store.above_mono hl hb
  | lo, (k, x) :: r, _, ha, hk => by
    simp only [Store.above, Bool.and_eq_true, decide_eq_true_eq] at ha
    simp only [List.cons_append, Store.above, Bool.and_eq_true, decide_eq_true_eq]
    have hk1 : k < hi := hk (k, x) (by simp)
    exact ⟨ha.1, Store.append_above hb (by omega) ha.2 fun e he => hk e (by simp [he])⟩

/-- The entries of a run of values that are not the default. -/
theorem Store.run_above {α : Type} [DecidableEq α] {d : α} (i : Nat) :
    ∀ (xs : List α) (n : Nat),
      Store.above d (i + n) ((xs.zipIdx n).filterMap fun e => if e.1 = d then none else some (i + e.2, e.1)) = true
  | [], _ => rfl
  | x :: r, n => by
    have ih := Store.run_above (d := d) i r (n + 1)
    simp only [List.zipIdx_cons, List.filterMap_cons]
    by_cases hx : x = d
    · simp only [hx, if_true]
      exact Store.above_mono (by omega) ih
    · simp only [hx, if_false, Store.above, Bool.and_eq_true, decide_eq_true_eq]
      exact ⟨⟨Nat.le_refl _, hx⟩, by simpa [Nat.add_assoc] using ih⟩

theorem Store.filter_ge_above {α : Type} [DecidableEq α] {d : α} (c : Nat) :
    ∀ {lo : Nat} {m : Store α}, Store.above d lo m = true → Store.above d c (m.filter fun e => decide (c ≤ e.1)) = true
  | _, [], _ => rfl
  | lo, (k, x) :: r, h => by
    simp only [Store.above, Bool.and_eq_true, decide_eq_true_eq] at h
    unfold List.filter
    split
    · rename_i hc
      simp only [decide_eq_true_eq] at hc
      simp only [Store.above, Bool.and_eq_true, decide_eq_true_eq]
      exact ⟨⟨hc, h.1.2⟩, Store.filter_above _ h.2⟩
    · exact Store.filter_ge_above c h.2

theorem Store.setRange_wf {α : Type} [DecidableEq α] {d : α} {m : Store α} {i : Nat} {xs : List α} (h : Store.wf d m = true) :
    Store.wf d (Store.setRange d m i xs) = true := by
  unfold Store.setRange Store.wf
  have hr : Store.above d i (xs.zipIdx.filterMap fun e => if e.1 = d then none else some (i + e.2, e.1)) = true := by
    simpa using Store.run_above (d := d) i xs 0
  have hk : ∀ e ∈ (xs.zipIdx.filterMap fun e => if e.1 = d then none else some (i + e.2, e.1)), e.1 < i + xs.length := by
    intro e he
    simp only [List.mem_filterMap] at he
    obtain ⟨x, hx, hxe⟩ := he
    have := List.snd_lt_of_mem_zipIdx hx
    split at hxe
    · cases hxe
    · cases hxe; simp at this ⊢; omega
  rw [List.append_assoc]
  refine Store.append_above (hi := i) ?_ (Nat.zero_le i) (Store.filter_above _ h) (fun e he => by simpa using (List.mem_filter.mp he).2)
  exact Store.append_above (Store.filter_ge_above _ h) (Nat.le_add_right i xs.length) hr hk

theorem Store.foldl_set_wf {α β : Type} [DecidableEq α] {d : α} (f : β → Nat) (g : β → α) (l : List β) :
    ∀ {m : Store α}, Store.wf d m = true → Store.wf d (l.foldl (fun m e => Store.set d m (f e) (g e)) m) = true := by
  induction l with
  | nil => exact fun h => h
  | cons x r ih => exact fun h => ih (Store.set_wf h)

theorem Store.copyTo_wf {α : Type} [DecidableEq α] {d : α} {m : Store α} {a b n : Nat} (h : Store.wf d m = true) :
    Store.wf d (Store.copyTo d m a b n) = true :=
  Store.foldl_set_wf _ _ _ (Store.filter_wf _ h)

theorem Store.shift_wf {α : Type} [DecidableEq α] {d : α} {m : Store α} {a b n : Nat} (h : Store.wf d m = true) :
    Store.wf d (Store.shift d m a b n) = true :=
  Store.foldl_set_wf _ _ _ (Store.filter_wf _ h)

/-! ### Memory -/

theorem Memory.write_wf {m : Memory} {a : Nat} {b : List Byte} (h : m.wf = true) : (m.write a b).wf = true :=
  Store.setMany_wf b h

/-- A byte after a write: the byte written inside the range, what stood before outside it. -/
theorem Memory.byte_write {m : Memory} {a : Nat} {b : List Byte} (j : Nat) :
    (m.write a b).byte j = if a ≤ j ∧ j < a + b.length then b.getD (j - a) memDefault else m.byte j :=
  Store.get_setMany b

theorem Memory.read_length {m : Memory} (n : Nat) : ∀ {a : Nat}, (m.read a n).length = n := by
  induction n with
  | zero => intro a; rfl
  | succ n ih => intro a; simp [Memory.read, ih]

theorem Memory.setVer_wf {m : Memory} {k : Nat} {on : Bool} (h : m.wf = true) : (m.setVer k on).wf = true := Store.set_wf h

theorem Memory.setHdr_wf {m : Memory} {k : Nat} {x : THdr} (h : m.wf = true) : (m.setHdr k x).wf = true :=
  Memory.write_wf h

theorem Memory.setAcc_wf {m : Memory} {k : Nat} {x : Int} (h : m.wf = true) : (m.setAcc k x).wf = true :=
  Memory.write_wf h

theorem Memory.clearAccs_wf (n : Nat) : ∀ {m : Memory} {a : Nat}, m.wf = true → (m.clearAccs a n).wf = true := by
  induction n with
  | zero => exact fun h => h
  | succ n ih => exact fun h => ih (Memory.setAcc_wf h)

theorem Memory.zero_wf {m : Memory} {a n : Nat} (h : m.wf = true) : (m.zero a n).wf = true := Store.filter_wf _ h

theorem Memory.setRange_wf {m : Memory} {a : Nat} {b : List Byte} (h : m.wf = true) :
    Memory.wf (Store.setRange memDefault m a b) = true := Store.setRange_wf h

theorem Memory.copyTo_wf {m : Memory} {a b n : Nat} (h : m.wf = true) : Memory.wf (Store.copyTo memDefault m a b n) = true :=
  Store.copyTo_wf h

theorem L1Line.writeBack_wf {x : L1Line} {m : Memory} (h : m.wf = true) : (x.writeBack m).wf = true := by
  unfold L1Line.writeBack
  generalize List.range 32 = l
  induction l generalizing m with
  | nil => exact h
  | cons w r ih =>
    simp only [List.foldl_cons]
    split
    · exact ih (Memory.write_wf h)
    · exact ih h

theorem reset_mem_wf : State.reset.mem.wf = true := rfl

end Sys2Proof.Machine
end

