-- ==== Sys2Proof/Laws/Lookup.lean ====
section
/-! SUPPORT. What a lookup finds after an update: teams, groups, continuations, registers, and the writes of a word. -/
namespace Sys2Proof.Machine

/-! ### Lists -/

theorem find?_replaceFirst_self {α : Type} (p : α → Bool) (x : α) (h : p x = true) :
    ∀ l : List α, (l.find? p).isSome = true → (replaceFirst p x l).find? p = some x
  | [], e => by simp at e
  | y :: r, e => by
    by_cases hy : p y = true
    · simp [replaceFirst, hy, h]
    · rw [Bool.not_eq_true] at hy
      simp only [replaceFirst, hy, List.find?_cons, Bool.false_eq_true, if_false] at e ⊢
      exact find?_replaceFirst_self p x h r e

theorem find?_replaceFirst_ne {α : Type} (p q : α → Bool) (x : α) (hx : q x = false) (hy : ∀ y, p y = true → q y = false) :
    ∀ l : List α, (replaceFirst p x l).find? q = l.find? q
  | [] => rfl
  | y :: r => by
    by_cases hp : p y = true
    · simp [replaceFirst, hp, hx, hy y hp]
    · rw [Bool.not_eq_true] at hp
      simp only [replaceFirst, hp, Bool.false_eq_true, if_false, List.find?_cons]
      rw [find?_replaceFirst_ne p q x hx hy r]

/-! ### Teams -/

theorem State.team?_ref {s : State} {r : TeamRef} {t : Team} (h : s.team? r = some t) : t.ref = r := by
  have := List.find?_some h
  simpa using this

theorem State.team?_setTeam_self {s : State} {t u : Team} (h : s.team? t.ref = some u) : (s.setTeam t).team? t.ref = some t :=
  find?_replaceFirst_self _ _ (by simp) _ (by simp only [State.team?] at h; simp [h])

theorem State.team?_setTeam_ne {s : State} {t : Team} {r : TeamRef} (h : t.ref ≠ r) : (s.setTeam t).team? r = s.team? r :=
  find?_replaceFirst_ne _ _ _ (by simpa using h) (fun y hy => by simp_all) _

@[simp] theorem State.launch?_setTeam (s : State) (t : Team) (n : Nat) : (s.setTeam t).launch? n = s.launch? n := rfl

/-! ### Groups and continuations -/

theorem Team.grp?_idx {t : Team} {i : Nat} {g : Group} (h : t.grp? i = some g) : g.idx = i := by
  have := List.find?_some h
  simpa using this

theorem Team.cont?_id {t : Team} {n : Nat} {c : Cont} (h : t.cont? n = some c) : c.id = n := by
  have := List.find?_some h
  simpa using this

theorem Team.grp?_setGrp_self {t : Team} {g u : Group} (h : t.grp? g.idx = some u) : (t.setGrp g).grp? g.idx = some g :=
  find?_replaceFirst_self _ _ (by simp) _ (by simp only [Team.grp?] at h; simp [h])

theorem Team.grp?_setGrp_ne {t : Team} {g : Group} {i : Nat} (h : g.idx ≠ i) : (t.setGrp g).grp? i = t.grp? i :=
  find?_replaceFirst_ne _ _ _ (by simpa using h) (fun y hy => by simp_all) _

theorem Team.cont?_setCont_self {t : Team} {c u : Cont} (h : t.cont? c.id = some u) : (t.setCont c).cont? c.id = some c :=
  find?_replaceFirst_self _ _ (by simp) _ (by simp only [Team.cont?] at h; simp [h])

theorem Team.cont?_setCont_ne {t : Team} {c : Cont} {n : Nat} (h : c.id ≠ n) : (t.setCont c).cont? n = t.cont? n :=
  find?_replaceFirst_ne _ _ _ (by simpa using h) (fun y hy => by simp_all) _

@[simp] theorem Team.cont?_setGrp (t : Team) (g : Group) (n : Nat) : (t.setGrp g).cont? n = t.cont? n := rfl
@[simp] theorem Team.grp?_setCont (t : Team) (c : Cont) (i : Nat) : (t.setCont c).grp? i = t.grp? i := rfl

/-- A party's group is what was put there, if its number is kept. -/
theorem Team.who?_setWho_self {t : Team} {w : Who} {g u : Group} (h : t.who? w = some u) (hi : g.idx = u.idx) :
    (t.setWho w g).who? w = some g := by
  cases w with
  | grp i =>
    have e := Team.grp?_idx h
    have : (t.setGrp g).grp? g.idx = some g := Team.grp?_setGrp_self (u := u) (by rw [hi, e]; exact h)
    simpa [Team.setWho, Team.who?, ← e, ← hi] using this
  | cont n =>
    simp only [Team.who?, Option.map_eq_some_iff] at h
    obtain ⟨c, hc, hg⟩ := h
    have e := Team.cont?_id hc
    have : (t.setCont { c with g := g }).cont? c.id = some { c with g := g } :=
      Team.cont?_setCont_self (c := { c with g := g }) (u := c) (by simpa [e] using hc)
    rw [e] at this
    simp only [Team.setWho, Team.who?, hc, e]
    exact (congrArg (Option.map (·.g)) this)

theorem Team.who?_setWho_ne {t : Team} {w w' : Who} {g u : Group} (h : t.who? w = some u) (hi : g.idx = u.idx) (hw : w' ≠ w) :
    (t.setWho w g).who? w' = t.who? w' := by
  cases w with
  | grp i =>
    have e := Team.grp?_idx h
    cases w' with
    | grp j => exact Team.grp?_setGrp_ne (by rw [hi, e]; intro hj; exact hw (by rw [hj]))
    | cont n => rfl
  | cont n =>
    simp only [Team.who?, Option.map_eq_some_iff] at h
    obtain ⟨c, hc, hg⟩ := h
    have e := Team.cont?_id hc
    cases w' with
    | grp j => simp [Team.setWho, hc, Team.who?]
    | cont m =>
      simp only [Team.setWho, hc, Team.who?]
      rw [Team.cont?_setCont_ne]
      intro hm
      exact hw (by rw [← hm, ← e])

/-! ### Parties -/

theorem State.ctx?_eq {s : State} {r : GRef} {c : Ctx} :
    s.ctx? r = some c ↔ s.team? r.t = some c.t ∧ s.launch? r.t.launch = some c.l ∧ c.t.who? r.who = some c.g ∧ c.ref = r := by
  simp only [State.ctx?, Option.bind_eq_bind, Option.bind_eq_some_iff, Option.some.injEq]
  constructor
  · rintro ⟨t, ht, l, hl, g, hg, rfl⟩
    exact ⟨ht, hl, hg, rfl⟩
  · rintro ⟨ht, hl, hg, rfl⟩
    exact ⟨c.t, ht, c.l, hl, c.g, hg, rfl⟩

/-- A party's group after it has been changed, if its number is kept. -/
theorem State.ctx?_modGroup_self {s : State} {r : GRef} {c : Ctx} (h : s.ctx? r = some c) (f : Group → Group)
    (hi : (f c.g).idx = c.g.idx) :
    (s.modGroup r f).ctx? r = some { c with t := c.t.setWho r.who (f c.g), g := f c.g } := by
  obtain ⟨ht, hl, hg, hr⟩ := State.ctx?_eq.1 h
  have e := State.team?_ref ht
  rw [State.ctx?_eq]
  refine ⟨?_, ?_, Team.who?_setWho_self hg hi, hr⟩
  · simp only [State.modGroup, ht, hg]
    have : (s.setTeam (c.t.setWho r.who (f c.g))).team? (c.t.setWho r.who (f c.g)).ref = some (c.t.setWho r.who (f c.g)) :=
      State.team?_setTeam_self (u := c.t) (by rw [Team.setWho_ref, e]; exact ht)
    rwa [Team.setWho_ref, e] at this
  · simp only [State.modGroup, ht, hg, State.launch?_setTeam]
    exact hl

/-- Another party's group stays as it was. -/
theorem State.grp?_modGroup_ne {s : State} {r r' : GRef} (f : Group → Group) (hf : ∀ g, (f g).idx = g.idx) (hr : r' ≠ r) :
    Spec.grp? (s.modGroup r f) r' = Spec.grp? s r' := by
  unfold State.modGroup
  split
  · rfl
  rename_i t ht
  split
  · rfl
  rename_i g hg
  have e := State.team?_ref ht
  simp only [Spec.grp?, State.ctx?, State.launch?_setTeam]
  by_cases hrt : r'.t = r.t
  · have hw : r'.who ≠ r.who := fun h => hr (by cases r; cases r'; simp_all)
    have : (s.setTeam (t.setWho r.who (f g))).team? r'.t = some (t.setWho r.who (f g)) := by
      have := State.team?_setTeam_self (s := s) (t := t.setWho r.who (f g)) (u := t) (by rw [Team.setWho_ref, e]; exact ht)
      rwa [Team.setWho_ref, e, ← hrt] at this
    rw [this, hrt, ht]
    simp only [Option.bind_eq_bind, Option.bind_some, Team.who?_setWho_ne hg (hf g) hw]
    cases s.launch? r.t.launch with
    | none => rfl
    | some l => cases t.who? r'.who <;> rfl
  · rw [State.team?_setTeam_ne (by rw [Team.setWho_ref, e]; exact fun h => hrt h.symm)]

/-! ### Registers -/

theorem Group.vreg_setV (g : Group) (r i : Nat) (y : W32) (q j : Nat) (hi : i < 64) (hj : j < 64) :
    (g.setV r i y).vreg q j = if r = q ∧ i = j then y else g.vreg q j := by
  simp only [Group.vreg, Group.setV, Store.get_set, vKey]
  have e : (64 * q + j = 64 * r + i) ↔ (r = q ∧ i = j) := by omega
  simp only [e]

theorem Group.sreg_setS (g : Group) (n m : Nat) (y : W64) (h : m < 64) :
    (g.setS n y).sreg m = if n = m then y else g.sreg m := by
  simp only [Group.sreg, Group.setS]
  by_cases e : n = m
  · subst e
    simp [Vector.getD, h]
  · simp [Vector.getD, h, e]

theorem Group.pred_setP (g : Group) (n m : Nat) (k y : Mask) (h : m < 7) :
    (g.setP n k y).pred m = if n = m then (g.pred m &&& ~~~k) ||| (y &&& k) else g.pred m := by
  have h7 : m ≠ 7 := by omega
  simp only [Group.pred, Group.setP, h7, if_false]
  by_cases e : n = m
  · subst e
    simp [Vector.getD, h]
  · simp [Vector.getD, h, e]

end Sys2Proof.Machine
end

