-- ==== Sys2Proof/Laws/PerInstr.lean ====
section
/-! SUPPORT. A fact about every instruction as syntax, one lemma per constructor: the opcode of an instruction that has a word is one that the
opcode map lists (R85), and it lies in the range of the matrix stream exactly where the instruction is a stream word. -/
namespace Sys2Proof.Laws

/-- The opcode of the word of `i` is listed, in the range D0 to DF exactly for the stream's words. -/
def OpcodeMap.Statement (i : Instr) : Prop :=
  ∀ f, i.toFields = some f → opListed f.op.toNat = true ∧ decide (0xD0 ≤ f.op.toNat ∧ f.op.toNat ≤ 0xDF) = i.isStream

/-- The two opcodes of an integer form are listed and no stream opcodes where its vector opcode is at most 0x16. -/
theorem OpcodeMap.uniform (op : BitVec 8) (u : Bool) (h : 1 ≤ op.toNat ∧ op.toNat ≤ 0x16) :
    opListed (uniOp op u).toNat = true ∧ decide (0xD0 ≤ (uniOp op u).toNat ∧ (uniOp op u).toNat ≤ 0xDF) = false := by
  revert op u; decide

theorem OpcodeMap.iadd (x : Int2) : OpcodeMap.Statement (.iadd x) := fun _ h => by cases h; exact OpcodeMap.uniform _ _ (by decide)
theorem OpcodeMap.isub (x : Int2) : OpcodeMap.Statement (.isub x) := fun _ h => by cases h; exact OpcodeMap.uniform _ _ (by decide)
theorem OpcodeMap.imul (x : Int2) : OpcodeMap.Statement (.imul x) := fun _ h => by cases h; exact OpcodeMap.uniform _ _ (by decide)
theorem OpcodeMap.imulh (x : Int2) : OpcodeMap.Statement (.imulh x) := fun _ h => by cases h; exact OpcodeMap.uniform _ _ (by decide)
theorem OpcodeMap.imad (x : Int3) : OpcodeMap.Statement (.imad x) := fun _ h => by cases h; exact OpcodeMap.uniform _ _ (by decide)
theorem OpcodeMap.imin (x : Int2) : OpcodeMap.Statement (.imin x) := fun _ h => by cases h; exact OpcodeMap.uniform _ _ (by decide)
theorem OpcodeMap.imax (x : Int2) : OpcodeMap.Statement (.imax x) := fun _ h => by cases h; exact OpcodeMap.uniform _ _ (by decide)
theorem OpcodeMap.iabs (x : Int1) : OpcodeMap.Statement (.iabs x) := fun _ h => by cases h; exact OpcodeMap.uniform _ _ (by decide)
theorem OpcodeMap.and (x : Int2) : OpcodeMap.Statement (.and x) := fun _ h => by cases h; exact OpcodeMap.uniform _ _ (by decide)
theorem OpcodeMap.or (x : Int2) : OpcodeMap.Statement (.or x) := fun _ h => by cases h; exact OpcodeMap.uniform _ _ (by decide)
theorem OpcodeMap.xor (x : Int2) : OpcodeMap.Statement (.xor x) := fun _ h => by cases h; exact OpcodeMap.uniform _ _ (by decide)
theorem OpcodeMap.shl (x : Int2) : OpcodeMap.Statement (.shl x) := fun _ h => by cases h; exact OpcodeMap.uniform _ _ (by decide)
theorem OpcodeMap.shr (x : Int2) : OpcodeMap.Statement (.shr x) := fun _ h => by cases h; exact OpcodeMap.uniform _ _ (by decide)
theorem OpcodeMap.sar (x : Int2) : OpcodeMap.Statement (.sar x) := fun _ h => by cases h; exact OpcodeMap.uniform _ _ (by decide)
theorem OpcodeMap.bfx (x : Int2) : OpcodeMap.Statement (.bfx x) := fun _ h => by cases h; exact OpcodeMap.uniform _ _ (by decide)
theorem OpcodeMap.bfi (x : Int3) : OpcodeMap.Statement (.bfi x) := fun _ h => by cases h; exact OpcodeMap.uniform _ _ (by decide)
theorem OpcodeMap.popc (x : Int1) : OpcodeMap.Statement (.popc x) := fun _ h => by cases h; exact OpcodeMap.uniform _ _ (by decide)
theorem OpcodeMap.clz (x : Int1) : OpcodeMap.Statement (.clz x) := fun _ h => by cases h; exact OpcodeMap.uniform _ _ (by decide)
theorem OpcodeMap.icmp (x : IcmpW) : OpcodeMap.Statement (.icmp x) := fun _ h => by cases h; exact OpcodeMap.uniform _ _ (by decide)
theorem OpcodeMap.sel (x : Int3) : OpcodeMap.Statement (.sel x) := fun _ h => by cases h; exact OpcodeMap.uniform _ _ (by decide)
theorem OpcodeMap.mov (x : Int1) : OpcodeMap.Statement (.mov x) := fun _ h => by cases h; exact OpcodeMap.uniform _ _ (by decide)
theorem OpcodeMap.movi (x : MoviW) : OpcodeMap.Statement (.movi x) := fun _ h => by cases h; exact OpcodeMap.uniform _ _ (by decide)
theorem OpcodeMap.moviHi (x : MoviHiW) : OpcodeMap.Statement (.moviHi x) := fun _ h => by cases h; exact ⟨rfl, rfl⟩
theorem OpcodeMap.fadd (x : Fp2) : OpcodeMap.Statement (.fadd x) := fun _ h => by cases h; exact ⟨rfl, rfl⟩
theorem OpcodeMap.fmul (x : Fp2) : OpcodeMap.Statement (.fmul x) := fun _ h => by cases h; exact ⟨rfl, rfl⟩
theorem OpcodeMap.ffma (x : Fp3) : OpcodeMap.Statement (.ffma x) := fun _ h => by cases h; exact ⟨rfl, rfl⟩
theorem OpcodeMap.fmin (x : Fp2) : OpcodeMap.Statement (.fmin x) := fun _ h => by cases h; exact ⟨rfl, rfl⟩
theorem OpcodeMap.fmax (x : Fp2) : OpcodeMap.Statement (.fmax x) := fun _ h => by cases h; exact ⟨rfl, rfl⟩
theorem OpcodeMap.fcmp (x : FcmpW) : OpcodeMap.Statement (.fcmp x) := fun _ h => by cases h; exact ⟨rfl, rfl⟩
theorem OpcodeMap.frcp (x : Fp1) : OpcodeMap.Statement (.frcp x) := fun _ h => by cases h; exact ⟨rfl, rfl⟩
theorem OpcodeMap.frsq (x : Fp1) : OpcodeMap.Statement (.frsq x) := fun _ h => by cases h; exact ⟨rfl, rfl⟩
theorem OpcodeMap.fsqrt (x : Fp1) : OpcodeMap.Statement (.fsqrt x) := fun _ h => by cases h; exact ⟨rfl, rfl⟩
theorem OpcodeMap.fexp2 (x : Fp1) : OpcodeMap.Statement (.fexp2 x) := fun _ h => by cases h; exact ⟨rfl, rfl⟩
theorem OpcodeMap.flog2 (x : Fp1) : OpcodeMap.Statement (.flog2 x) := fun _ h => by cases h; exact ⟨rfl, rfl⟩
theorem OpcodeMap.cvt (x : CvtW) : OpcodeMap.Statement (.cvt x) := fun _ h => by cases h; exact ⟨rfl, rfl⟩
theorem OpcodeMap.qnt (x : Fp2) : OpcodeMap.Statement (.qnt x) := fun _ h => by cases h; exact ⟨rfl, rfl⟩
theorem OpcodeMap.qntt (x : QnttW) : OpcodeMap.Statement (.qntt x) := fun _ h => by cases h; exact ⟨rfl, rfl⟩
theorem OpcodeMap.dqnt (x : Fp2) : OpcodeMap.Statement (.dqnt x) := fun _ h => by cases h; exact ⟨rfl, rfl⟩
theorem OpcodeMap.vact (x : VactW) : OpcodeMap.Statement (.vact x) := fun _ h => by cases h; exact ⟨rfl, rfl⟩
theorem OpcodeMap.vdact (x : VdactW) : OpcodeMap.Statement (.vdact x) := fun _ h => by cases h; exact ⟨rfl, rfl⟩
theorem OpcodeMap.ctld (x : MemW) : OpcodeMap.Statement (.ctld x) := fun _ h => by cases h; exact ⟨rfl, rfl⟩
theorem OpcodeMap.ctdec (x : Fp2) : OpcodeMap.Statement (.ctdec x) := fun _ h => by cases h; exact ⟨rfl, rfl⟩
theorem OpcodeMap.ctenc (x : Fp2) : OpcodeMap.Statement (.ctenc x) := fun _ h => by cases h; exact ⟨rfl, rfl⟩
theorem OpcodeMap.maxkey (x : Fp2) : OpcodeMap.Statement (.maxkey x) := fun _ h => by cases h; exact ⟨rfl, rfl⟩
theorem OpcodeMap.srseed (x : SrseedW) : OpcodeMap.Statement (.srseed x) := fun _ h => by cases h; exact ⟨rfl, rfl⟩
theorem OpcodeMap.shfl (x : ShflW) : OpcodeMap.Statement (.shfl x) := fun _ h => by cases h; exact ⟨rfl, rfl⟩
theorem OpcodeMap.vote (x : VoteW) : OpcodeMap.Statement (.vote x) := fun _ h => by cases h; exact ⟨rfl, rfl⟩
theorem OpcodeMap.gred (x : GredW) : OpcodeMap.Statement (.gred x) := fun _ h => by cases h; exact ⟨rfl, rfl⟩
theorem OpcodeMap.prmt (x : PrmtW) : OpcodeMap.Statement (.prmt x) := fun _ h => by cases h; exact ⟨rfl, rfl⟩
theorem OpcodeMap.bra (x : CtlDisp) : OpcodeMap.Statement (.bra x) := fun _ h => by cases h; exact ⟨rfl, rfl⟩
theorem OpcodeMap.brD (x : CtlTokDisp) : OpcodeMap.Statement (.brD x) := fun _ h => by cases h; exact ⟨rfl, rfl⟩
theorem OpcodeMap.brx (x : CtlA) : OpcodeMap.Statement (.brx x) := fun _ h => by cases h; exact ⟨rfl, rfl⟩
theorem OpcodeMap.call (x : CallW) : OpcodeMap.Statement (.call x) := fun _ h => by cases h; exact ⟨rfl, rfl⟩
theorem OpcodeMap.ret (x : CtlA) : OpcodeMap.Statement (.ret x) := fun _ h => by cases h; exact ⟨rfl, rfl⟩
theorem OpcodeMap.jopen (x : CtlTokDisp) : OpcodeMap.Statement (.jopen x) := fun _ h => by cases h; exact ⟨rfl, rfl⟩
theorem OpcodeMap.join (x : CtlTok) : OpcodeMap.Statement (.join x) := fun _ h => by cases h; exact ⟨rfl, rfl⟩
theorem OpcodeMap.brk (x : CtlTok) : OpcodeMap.Statement (.brk x) := fun _ h => by cases h; exact ⟨rfl, rfl⟩
theorem OpcodeMap.exit (x : Ctl0) : OpcodeMap.Statement (.exit x) := fun _ h => by cases h; exact ⟨rfl, rfl⟩
theorem OpcodeMap.eject (x : EjectW) : OpcodeMap.Statement (.eject x) := fun _ h => by cases h; exact ⟨rfl, rfl⟩
theorem OpcodeMap.rejoin (x : CtlTok) : OpcodeMap.Statement (.rejoin x) := fun _ h => by cases h; exact ⟨rfl, rfl⟩
theorem OpcodeMap.yield (x : Ctl0) : OpcodeMap.Statement (.yield x) := fun _ h => by cases h; exact ⟨rfl, rfl⟩
theorem OpcodeMap.nop (x : Ctl0) : OpcodeMap.Statement (.nop x) := fun _ h => by cases h; exact ⟨rfl, rfl⟩
theorem OpcodeMap.trap (x : CodeW) : OpcodeMap.Statement (.trap x) := fun _ h => by cases h; exact ⟨rfl, rfl⟩
theorem OpcodeMap.nbarArr (x : NbarW) : OpcodeMap.Statement (.nbarArr x) := fun _ h => by cases h; exact ⟨rfl, rfl⟩
theorem OpcodeMap.nbarWait (x : NbarWaitW) : OpcodeMap.Statement (.nbarWait x) := fun _ h => by cases h; exact ⟨rfl, rfl⟩
theorem OpcodeMap.nbarSync (x : NbarW) : OpcodeMap.Statement (.nbarSync x) := fun _ h => by cases h; exact ⟨rfl, rfl⟩
theorem OpcodeMap.barrierRelease (t : TeamRef) (k : Fin 16) : OpcodeMap.Statement (.barrierRelease t k) := fun _ h => by cases h
theorem OpcodeMap.ctake (x : CtrW) : OpcodeMap.Statement (.ctake x) := fun _ h => by cases h; exact ⟨rfl, rfl⟩
theorem OpcodeMap.cgive (x : CtrW) : OpcodeMap.Statement (.cgive x) := fun _ h => by cases h; exact ⟨rfl, rfl⟩
theorem OpcodeMap.cwait (x : CtrW) : OpcodeMap.Statement (.cwait x) := fun _ h => by cases h; exact ⟨rfl, rfl⟩
theorem OpcodeMap.takeQueueServe (t : TeamRef) (k : Fin 32) : OpcodeMap.Statement (.takeQueueServe t k) := fun _ h => by cases h
theorem OpcodeMap.waitf (x : WaitfW) : OpcodeMap.Statement (.waitf x) := fun _ h => by cases h; exact ⟨rfl, rfl⟩
theorem OpcodeMap.waitTimeout (g : GRef) : OpcodeMap.Statement (.waitTimeout g) := fun _ h => by cases h
theorem OpcodeMap.rgive (x : NumW) : OpcodeMap.Statement (.rgive x) := fun _ h => by cases h; exact ⟨rfl, rfl⟩
theorem OpcodeMap.chunkReturn (t : TeamRef) : OpcodeMap.Statement (.chunkReturn t) := fun _ h => by cases h
theorem OpcodeMap.rclaim (x : NumW) : OpcodeMap.Statement (.rclaim x) := fun _ h => by cases h; exact ⟨rfl, rfl⟩
theorem OpcodeMap.claimQueueServe (t : TeamRef) (odd : Bool) : OpcodeMap.Statement (.claimQueueServe t odd) := fun _ h => by cases h
theorem OpcodeMap.teamStall (t : TeamRef) : OpcodeMap.Statement (.teamStall t) := fun _ h => by cases h
theorem OpcodeMap.rswitch (x : RswitchW) : OpcodeMap.Statement (.rswitch x) := fun _ h => by cases h; exact ⟨rfl, rfl⟩
theorem OpcodeMap.rpoint (x : Ctl0) : OpcodeMap.Statement (.rpoint x) := fun _ h => by cases h; exact ⟨rfl, rfl⟩
theorem OpcodeMap.governorArm (t : TeamRef) : OpcodeMap.Statement (.governorArm t) := fun _ h => by cases h
theorem OpcodeMap.mark (x : CodeW) : OpcodeMap.Statement (.mark x) := fun _ h => by cases h; exact ⟨rfl, rfl⟩
theorem OpcodeMap.scheduleMissTimeout (g : GRef) : OpcodeMap.Statement (.scheduleMissTimeout g) := fun _ h => by cases h
theorem OpcodeMap.markTimeout (g : GRef) : OpcodeMap.Statement (.markTimeout g) := fun _ h => by cases h
theorem OpcodeMap.tnext (x : TnextW) : OpcodeMap.Statement (.tnext x) := fun _ h => by cases h; exact ⟨rfl, rfl⟩
theorem OpcodeMap.tdone (x : Ctl0) : OpcodeMap.Statement (.tdone x) := fun _ h => by cases h; exact ⟨rfl, rfl⟩
theorem OpcodeMap.tspawn (x : CtlA) : OpcodeMap.Statement (.tspawn x) := fun _ h => by cases h; exact ⟨rfl, rfl⟩
theorem OpcodeMap.tscope (x : TscopeW) : OpcodeMap.Statement (.tscope x) := fun _ h => by cases h; exact ⟨rfl, rfl⟩
theorem OpcodeMap.cancel (x : NumW) : OpcodeMap.Statement (.cancel x) := fun _ h => by cases h; exact ⟨rfl, rfl⟩
theorem OpcodeMap.groupKill (g : GRef) : OpcodeMap.Statement (.groupKill g) := fun _ h => by cases h
theorem OpcodeMap.cancelAck (launch : Nat) (scope : Nat) : OpcodeMap.Statement (.cancelAck launch scope) := fun _ h => by cases h
theorem OpcodeMap.ld (x : LdW) : OpcodeMap.Statement (.ld x) := fun _ h => by cases h; exact ⟨rfl, rfl⟩
theorem OpcodeMap.st (x : StW) : OpcodeMap.Statement (.st x) := fun _ h => by cases h; exact ⟨rfl, rfl⟩
theorem OpcodeMap.lds (x : SpW) : OpcodeMap.Statement (.lds x) := fun _ h => by cases h; exact ⟨rfl, rfl⟩
theorem OpcodeMap.sts (x : SpW) : OpcodeMap.Statement (.sts x) := fun _ h => by cases h; exact ⟨rfl, rfl⟩
theorem OpcodeMap.atom (x : AtomW) : OpcodeMap.Statement (.atom x) := fun _ h => by cases h; exact ⟨rfl, rfl⟩
theorem OpcodeMap.atoms (x : AtomsW) : OpcodeMap.Statement (.atoms x) := fun _ h => by cases h; exact ⟨rfl, rfl⟩
theorem OpcodeMap.longLatencyDelivery (g : GRef) (i : Nat) : OpcodeMap.Statement (.longLatencyDelivery g i) := fun _ h => by cases h
theorem OpcodeMap.lateFailure (g : GRef) (i : Nat) : OpcodeMap.Statement (.lateFailure g i) := fun _ h => by cases h
theorem OpcodeMap.fence (x : MemW) : OpcodeMap.Statement (.fence x) := fun _ h => by cases h; exact ⟨rfl, rfl⟩
theorem OpcodeMap.pref (x : PrefW) : OpcodeMap.Statement (.pref x) := fun _ h => by cases h; exact ⟨rfl, rfl⟩
theorem OpcodeMap.cflush (x : MemW) : OpcodeMap.Statement (.cflush x) := fun _ h => by cases h; exact ⟨rfl, rfl⟩
theorem OpcodeMap.cinv (x : MemW) : OpcodeMap.Statement (.cinv x) := fun _ h => by cases h; exact ⟨rfl, rfl⟩
theorem OpcodeMap.spempty (x : RegMemW) : OpcodeMap.Statement (.spempty x) := fun _ h => by cases h; exact ⟨rfl, rfl⟩
theorem OpcodeMap.spstate (x : RegMemW) : OpcodeMap.Statement (.spstate x) := fun _ h => by cases h; exact ⟨rfl, rfl⟩
theorem OpcodeMap.wbind (x : WinW) : OpcodeMap.Statement (.wbind x) := fun _ h => by cases h; exact ⟨rfl, rfl⟩
theorem OpcodeMap.warm (x : WinW) : OpcodeMap.Statement (.warm x) := fun _ h => by cases h; exact ⟨rfl, rfl⟩
theorem OpcodeMap.wput (x : WputW) : OpcodeMap.Statement (.wput x) := fun _ h => by cases h; exact ⟨rfl, rfl⟩
theorem OpcodeMap.wstate (x : WstateW) : OpcodeMap.Statement (.wstate x) := fun _ h => by cases h; exact ⟨rfl, rfl⟩
theorem OpcodeMap.copyLine (t : TeamRef) (w : Fin 32) : OpcodeMap.Statement (.copyLine t w) := fun _ h => by cases h
theorem OpcodeMap.copyFault (t : TeamRef) (w : Fin 32) : OpcodeMap.Statement (.copyFault t w) := fun _ h => by cases h
theorem OpcodeMap.tacc (x : TaccW) : OpcodeMap.Statement (.tacc x) := fun _ h => by cases h; exact ⟨rfl, rfl⟩
theorem OpcodeMap.tcons (x : TconsW) : OpcodeMap.Statement (.tcons x) := fun _ h => by cases h; exact ⟨rfl, rfl⟩
theorem OpcodeMap.twinEarlyTimeout (g : GRef) (i : Nat) : OpcodeMap.Statement (.twinEarlyTimeout g i) := fun _ h => by cases h
theorem OpcodeMap.tcnt (x : RegMemW) : OpcodeMap.Statement (.tcnt x) := fun _ h => by cases h; exact ⟨rfl, rfl⟩
theorem OpcodeMap.treset (x : RegMemW) : OpcodeMap.Statement (.treset x) := fun _ h => by cases h; exact ⟨rfl, rfl⟩
theorem OpcodeMap.atake (x : AtakeW) : OpcodeMap.Statement (.atake x) := fun _ h => by cases h; exact ⟨rfl, rfl⟩
theorem OpcodeMap.agive (x : AgiveW) : OpcodeMap.Statement (.agive x) := fun _ h => by cases h; exact ⟨rfl, rfl⟩
theorem OpcodeMap.ald (x : AldW) : OpcodeMap.Statement (.ald x) := fun _ h => by cases h; exact ⟨rfl, rfl⟩
theorem OpcodeMap.ast (x : AstW) : OpcodeMap.Statement (.ast x) := fun _ h => by cases h; exact ⟨rfl, rfl⟩
theorem OpcodeMap.awin (x : AwinW) : OpcodeMap.Statement (.awin x) := fun _ h => by cases h; exact ⟨rfl, rfl⟩
theorem OpcodeMap.awinUnp (x : AwinUnpW) : OpcodeMap.Statement (.awinUnp x) := fun _ h => by cases h; exact ⟨rfl, rfl⟩
theorem OpcodeMap.mlatch (x : MlatchW) : OpcodeMap.Statement (.mlatch x) := fun _ h => by cases h; exact ⟨rfl, rfl⟩
theorem OpcodeMap.mstreamF (x : MstreamW) : OpcodeMap.Statement (.mstreamF x) := fun _ h => by cases h; exact ⟨rfl, rfl⟩
theorem OpcodeMap.mstreamB (x : MstreamW) : OpcodeMap.Statement (.mstreamB x) := fun _ h => by cases h; exact ⟨rfl, rfl⟩
theorem OpcodeMap.mzero (x : MzeroW) : OpcodeMap.Statement (.mzero x) := fun _ h => by cases h; exact ⟨rfl, rfl⟩
theorem OpcodeMap.mscale (x : MscaleW) : OpcodeMap.Statement (.mscale x) := fun _ h => by cases h; exact ⟨rfl, rfl⟩
theorem OpcodeMap.mdrain (x : MdrainW) : OpcodeMap.Statement (.mdrain x) := fun _ h => by cases h; exact ⟨rfl, rfl⟩
theorem OpcodeMap.mdrainT (x : MdrainTW) : OpcodeMap.Statement (.mdrainT x) := fun _ h => by cases h; exact ⟨rfl, rfl⟩
theorem OpcodeMap.meshWordFinish (t : TeamRef) : OpcodeMap.Statement (.meshWordFinish t) := fun _ h => by cases h
theorem OpcodeMap.mtake (x : MtakeW) : OpcodeMap.Statement (.mtake x) := fun _ h => by cases h; exact ⟨rfl, rfl⟩
theorem OpcodeMap.mgive (x : MgiveW) : OpcodeMap.Statement (.mgive x) := fun _ h => by cases h; exact ⟨rfl, rfl⟩
theorem OpcodeMap.mwin (x : MwinW) : OpcodeMap.Statement (.mwin x) := fun _ h => by cases h; exact ⟨rfl, rfl⟩
theorem OpcodeMap.mbarArr (x : MbarW) : OpcodeMap.Statement (.mbarArr x) := fun _ h => by cases h; exact ⟨rfl, rfl⟩
theorem OpcodeMap.mbarSync (x : MbarW) : OpcodeMap.Statement (.mbarSync x) := fun _ h => by cases h; exact ⟨rfl, rfl⟩
theorem OpcodeMap.mbarWait (x : MbarWaitW) : OpcodeMap.Statement (.mbarWait x) := fun _ h => by cases h; exact ⟨rfl, rfl⟩
theorem OpcodeMap.mset (x : MsetW) : OpcodeMap.Statement (.mset x) := fun _ h => by cases h; exact ⟨rfl, rfl⟩
theorem OpcodeMap.madd (x : MaddW) : OpcodeMap.Statement (.madd x) := fun _ h => by cases h; exact ⟨rfl, rfl⟩
theorem OpcodeMap.mloop (x : MloopW) : OpcodeMap.Statement (.mloop x) := fun _ h => by cases h; exact ⟨rfl, rfl⟩
theorem OpcodeMap.mjmp (x : MjmpW) : OpcodeMap.Statement (.mjmp x) := fun _ h => by cases h; exact ⟨rfl, rfl⟩
theorem OpcodeMap.mend : OpcodeMap.Statement .mend := fun _ h => by cases h; exact ⟨rfl, rfl⟩
theorem OpcodeMap.collArm (x : CollArmW) : OpcodeMap.Statement (.collArm x) := fun _ h => by cases h; exact ⟨rfl, rfl⟩
theorem OpcodeMap.collPut (x : BaseOffW) : OpcodeMap.Statement (.collPut x) := fun _ h => by cases h; exact ⟨rfl, rfl⟩
theorem OpcodeMap.putArrival (n : Nat) : OpcodeMap.Statement (.putArrival n) := fun _ h => by cases h
theorem OpcodeMap.collDeadline (die : Fin 4) (slot : Fin 256) : OpcodeMap.Statement (.collDeadline die slot) := fun _ h => by cases h
theorem OpcodeMap.hubCombine (die : Fin 4) (slot : Fin 256) : OpcodeMap.Statement (.hubCombine die slot) := fun _ h => by cases h
theorem OpcodeMap.slotWriteFault (die : Fin 4) (slot : Fin 256) : OpcodeMap.Statement (.slotWriteFault die slot) := fun _ h => by cases h
theorem OpcodeMap.srd (x : SrdW) : OpcodeMap.Statement (.srd x) := fun _ h => by cases h; exact ⟨rfl, rfl⟩
theorem OpcodeMap.swr (x : SwrW) : OpcodeMap.Statement (.swr x) := fun _ h => by cases h; exact ⟨rfl, rfl⟩
theorem OpcodeMap.svc (x : SvcW) : OpcodeMap.Statement (.svc x) := fun _ h => by cases h; exact ⟨rfl, rfl⟩
theorem OpcodeMap.rfe (x : Ctl0) : OpcodeMap.Statement (.rfe x) := fun _ h => by cases h; exact ⟨rfl, rfl⟩
theorem OpcodeMap.tlbiVa (x : BaseOffW) : OpcodeMap.Statement (.tlbiVa x) := fun _ h => by cases h; exact ⟨rfl, rfl⟩
theorem OpcodeMap.tlbiCtx (x : CtlA) : OpcodeMap.Statement (.tlbiCtx x) := fun _ h => by cases h; exact ⟨rfl, rfl⟩
theorem OpcodeMap.tlbiAll (x : Ctl0) : OpcodeMap.Statement (.tlbiAll x) := fun _ h => by cases h; exact ⟨rfl, rfl⟩
theorem OpcodeMap.evt (x : EvtW) : OpcodeMap.Statement (.evt x) := fun _ h => by cases h; exact ⟨rfl, rfl⟩
theorem OpcodeMap.halt (x : CodeW) : OpcodeMap.Statement (.halt x) := fun _ h => by cases h; exact ⟨rfl, rfl⟩
theorem OpcodeMap.versionFull (g : GRef) : OpcodeMap.Statement (.versionFull g) := fun _ h => by cases h
theorem OpcodeMap.segmentResolve (t : TeamRef) : OpcodeMap.Statement (.segmentResolve t) := fun _ h => by cases h
theorem OpcodeMap.launchEligible (n : Nat) : OpcodeMap.Statement (.launchEligible n) := fun _ h => by cases h
theorem OpcodeMap.teamPlace (die : Fin 4) : OpcodeMap.Statement (.teamPlace die) := fun _ h => by cases h
theorem OpcodeMap.launchCompletion (n : Nat) : OpcodeMap.Statement (.launchCompletion n) := fun _ h => by cases h
theorem OpcodeMap.pageMove (die : Fin 4) : OpcodeMap.Statement (.pageMove die) := fun _ h => by cases h
theorem OpcodeMap.victimRetry (die : Fin 4) : OpcodeMap.Statement (.victimRetry die) := fun _ h => by cases h
theorem OpcodeMap.preemptDeadline (t : TeamRef) : OpcodeMap.Statement (.preemptDeadline t) := fun _ h => by cases h
theorem OpcodeMap.teamSave (t : TeamRef) : OpcodeMap.Statement (.teamSave t) := fun _ h => by cases h
theorem OpcodeMap.owedReply (g : GRef) (i : Nat) : OpcodeMap.Statement (.owedReply g i) := fun _ h => by cases h
theorem OpcodeMap.peerRequest (m : PeerReq) : OpcodeMap.Statement (.peerRequest m) := fun _ h => by cases h
theorem OpcodeMap.peerReply (m : PeerRep) : OpcodeMap.Statement (.peerReply m) := fun _ h => by cases h
theorem OpcodeMap.retransmit (seq : Nat) : OpcodeMap.Statement (.retransmit seq) := fun _ h => by cases h
theorem OpcodeMap.packetDiscard (src : W128) : OpcodeMap.Statement (.packetDiscard src) := fun _ h => by cases h
theorem OpcodeMap.flitReplay (boundary : Fin 4) : OpcodeMap.Statement (.flitReplay boundary) := fun _ h => by cases h
theorem OpcodeMap.eccCorrected (loc : EccLoc) : OpcodeMap.Statement (.eccCorrected loc) := fun _ h => by cases h
theorem OpcodeMap.eccUncorrectable (loc : EccLoc) : OpcodeMap.Statement (.eccUncorrectable loc) := fun _ h => by cases h
theorem OpcodeMap.eventRingTake (die : Fin 4) : OpcodeMap.Statement (.eventRingTake die) := fun _ h => by cases h
theorem OpcodeMap.provision (m : HostMsg) : OpcodeMap.Statement (.provision m) := fun _ h => by cases h
theorem OpcodeMap.attest (m : HostMsg) : OpcodeMap.Statement (.attest m) := fun _ h => by cases h
theorem OpcodeMap.policy (m : HostMsg) : OpcodeMap.Statement (.policy m) := fun _ h => by cases h
theorem OpcodeMap.peers (m : HostMsg) : OpcodeMap.Statement (.peers m) := fun _ h => by cases h
theorem OpcodeMap.write (m : HostMsg) : OpcodeMap.Statement (.write m) := fun _ h => by cases h
theorem OpcodeMap.read (m : HostMsg) : OpcodeMap.Statement (.read m) := fun _ h => by cases h
theorem OpcodeMap.map (m : HostMsg) : OpcodeMap.Statement (.map m) := fun _ h => by cases h
theorem OpcodeMap.unmap (m : HostMsg) : OpcodeMap.Statement (.unmap m) := fun _ h => by cases h
theorem OpcodeMap.frames (m : HostMsg) : OpcodeMap.Statement (.frames m) := fun _ h => by cases h
theorem OpcodeMap.launch (m : HostMsg) : OpcodeMap.Statement (.launch m) := fun _ h => by cases h
theorem OpcodeMap.timetable (m : HostMsg) : OpcodeMap.Statement (.timetable m) := fun _ h => by cases h
theorem OpcodeMap.preempt (m : HostMsg) : OpcodeMap.Statement (.preempt m) := fun _ h => by cases h
theorem OpcodeMap.resume (m : HostMsg) : OpcodeMap.Statement (.resume m) := fun _ h => by cases h
theorem OpcodeMap.discard (m : HostMsg) : OpcodeMap.Statement (.discard m) := fun _ h => by cases h
theorem OpcodeMap.events (m : HostMsg) : OpcodeMap.Statement (.events m) := fun _ h => by cases h
theorem OpcodeMap.reset (straps : Straps) : OpcodeMap.Statement (.reset straps) := fun _ h => by cases h
theorem OpcodeMap.affinityWaitExpiry (launch : Nat) : OpcodeMap.Statement (.affinityWaitExpiry launch) := fun _ h => by cases h
theorem OpcodeMap.storeAcknowledged (g : GRef) (i : Nat) : OpcodeMap.Statement (.storeAcknowledged g i) := fun _ h => by cases h

end Sys2Proof.Laws
end

