-- ==== Sys2Proof/Laws/Retire.lean ====
section
/-! SUPPORT. What the writes of a word leave in its group, and the state of a word that has retired. -/
namespace Sys2Proof.Machine

/-- A write as the group sees it; a push is its team's. -/
def Group.put (g : Group) : Wr → Group
  | .v r i y => g.setV r i y
  | .s n y => g.setS n y
  | .p n m y => g.setP n m y
  | .push _ _ => g

@[simp] theorem Group.put_idx (g : Group) (w : Wr) : (g.put w).idx = g.idx := by cases w <;> rfl

theorem Group.puts_idx (ws : List Wr) : ∀ g : Group, (ws.foldl Group.put g).idx = g.idx := by
  induction ws with
  | nil => exact fun _ => rfl
  | cons w r ih => exact fun g => by rw [List.foldl_cons, ih, Group.put_idx]

@[simp] theorem Team.wr_ref (t : Team) (r : Who) (vc : VClock) (w : Wr) : (t.wr r vc w).ref = t.ref := by
  cases w <;> simp only [Team.wr] <;> first | rfl | (split <;> simp)

theorem Team.who?_wr_self {t : Team} {r : Who} {g : Group} (h : t.who? r = some g) (vc : VClock) (w : Wr) :
    (t.wr r vc w).who? r = some (g.put w) := by
  cases w with
  | v reg i y => simp only [Team.wr, h]; exact Team.who?_setWho_self h rfl
  | s n y => simp only [Team.wr, h]; exact Team.who?_setWho_self h rfl
  | p n m y => simp only [Team.wr, h]; exact Team.who?_setWho_self h rfl
  | push q xs => exact h

theorem Team.who?_wr_ne {t : Team} {r r' : Who} {g : Group} (h : t.who? r = some g) (hr : r' ≠ r) (vc : VClock) (w : Wr) :
    (t.wr r vc w).who? r' = t.who? r' := by
  cases w with
  | v reg i y => simp only [Team.wr, h]; exact Team.who?_setWho_ne h rfl hr
  | s n y => simp only [Team.wr, h]; exact Team.who?_setWho_ne h rfl hr
  | p n m y => simp only [Team.wr, h]; exact Team.who?_setWho_ne h rfl hr
  | push q xs => rfl

theorem Team.wrs_all {r : Who} (vc : VClock) (ws : List Wr) :
    ∀ {t : Team} {g : Group}, t.who? r = some g →
      (ws.foldl (fun t w => t.wr r vc w) t).ref = t.ref ∧
      (ws.foldl (fun t w => t.wr r vc w) t).who? r = some (ws.foldl Group.put g) ∧
      ∀ r', r' ≠ r → (ws.foldl (fun t w => t.wr r vc w) t).who? r' = t.who? r' := by
  induction ws with
  | nil => exact fun h => ⟨rfl, h, fun _ _ => rfl⟩
  | cons w ws ih =>
    intro t g h
    obtain ⟨h1, h2, h3⟩ := ih (Team.who?_wr_self h vc w)
    refine ⟨by rw [List.foldl_cons, h1, Team.wr_ref], h2, fun r' hr => ?_⟩
    rw [List.foldl_cons, h3 r' hr, Team.who?_wr_ne h hr]

/-- A party's group after the writes of its word. -/
theorem State.ctx?_wrs_self {s : State} {r : GRef} {c : Ctx} (h : s.ctx? r = some c) (ws : List Wr) :
    ∃ t, (s.wrs r ws).ctx? r = some { c with t := t, g := ws.foldl Group.put c.g } := by
  obtain ⟨ht, hl, hg, hr⟩ := State.ctx?_eq.1 h
  obtain ⟨h1, h2, -⟩ := Team.wrs_all (c.g.vc) ws hg
  refine ⟨ws.foldl (fun t w => t.wr r.who c.g.vc w) c.t, ?_⟩
  rw [State.ctx?_eq]
  refine ⟨?_, ?_, h2, hr⟩
  · simp only [State.wrs, ht, hg]
    have := State.team?_setTeam_self (s := s) (t := ws.foldl (fun t w => t.wr r.who c.g.vc w) c.t) (u := c.t)
      (by rw [h1, State.team?_ref ht]; exact ht)
    rwa [h1, State.team?_ref ht] at this
  · simp only [State.wrs, ht, State.launch?_setTeam]
    exact hl

theorem State.grp?_wrs_ne {s : State} {r r' : GRef} {c : Ctx} (h : s.ctx? r = some c) (ws : List Wr) (hr : r' ≠ r) :
    Spec.grp? (s.wrs r ws) r' = Spec.grp? s r' := by
  obtain ⟨ht, hl, hg, -⟩ := State.ctx?_eq.1 h
  obtain ⟨h1, -, h3⟩ := Team.wrs_all (c.g.vc) ws hg
  have e := State.team?_ref ht
  simp only [State.wrs, ht, hg, Spec.grp?, State.ctx?, State.launch?_setTeam]
  by_cases hrt : r'.t = r.t
  · have hw : r'.who ≠ r.who := fun h => hr (by cases r; cases r'; simp_all)
    have := State.team?_setTeam_self (s := s) (t := ws.foldl (fun t w => t.wr r.who c.g.vc w) c.t) (u := c.t)
      (by rw [h1, e]; exact ht)
    rw [h1, e, ← hrt] at this
    rw [this, hrt, ht]
    simp only [Option.bind_eq_bind, Option.bind_some, h3 _ hw]
    cases s.launch? r.t.launch with
    | none => rfl
    | some l => cases c.t.who? r'.who <;> rfl
  · rw [State.team?_setTeam_ne (by rw [h1, e]; exact fun h => hrt h.symm)]

/-! ### Registers after writes -/

theorem Group.vreg_puts {q j : Nat} (hj : j < 64) (ws : List Wr) :
    ∀ g : Group, (∀ r i y, Wr.v r i y ∈ ws → i < 64) → (ws.foldl Group.put g).vreg q j = Spec.lastV q j (g.vreg q j) ws := by
  induction ws with
  | nil => exact fun _ _ => rfl
  | cons w ws ih =>
    intro g h
    have h' : ∀ r i y, Wr.v r i y ∈ ws → i < 64 := fun r i y hm => h r i y (by simp [hm])
    rw [List.foldl_cons, ih _ h']
    cases w with
    | v r i y =>
      simp only [Spec.lastV, List.foldl_cons, Group.put, Group.vreg_setV g r i y q j (h r i y (by simp)) hj]
    | _ => rfl

theorem Group.sreg_puts {n : Nat} (hn : n < 64) (ws : List Wr) :
    ∀ g : Group, (ws.foldl Group.put g).sreg n = Spec.lastS n (g.sreg n) ws := by
  induction ws with
  | nil => exact fun _ => rfl
  | cons w ws ih =>
    intro g
    rw [List.foldl_cons, ih]
    cases w with
    | s m y => simp only [Spec.lastS, List.foldl_cons, Group.put, Group.sreg_setS g m n y hn]
    | _ => rfl

theorem Group.pred_puts {n : Nat} (hn : n < 7) (ws : List Wr) :
    ∀ g : Group, (ws.foldl Group.put g).pred n = Spec.lastP n (g.pred n) ws := by
  induction ws with
  | nil => exact fun _ => rfl
  | cons w ws ih =>
    intro g
    rw [List.foldl_cons, ih]
    cases w with
    | p m k y => simp only [Spec.lastP, List.foldl_cons, Group.put, Group.pred_setP g m n k y hn]
    | _ => rfl

/-- What writes leave of the rest of a group. -/
theorem Group.puts_rest (ws : List Wr) : ∀ g : Group,
    ws.foldl Group.put g = { g with v := (ws.foldl Group.put g).v, s := (ws.foldl Group.put g).s, p := (ws.foldl Group.put g).p } := by
  induction ws with
  | nil => exact fun _ => rfl
  | cons w ws ih =>
    intro g
    rw [List.foldl_cons]
    generalize hp : g.put w = g1
    have e := ih g1
    generalize ws.foldl Group.put g1 = g2 at e ⊢
    rw [e]
    subst hp
    cases w <;> rfl

/-! ### Retiring -/

/-- What the whole writes of a word leave of its team: only marks of lost register lines change. -/
theorem Team.regsWhole_eq (t : Team) (g : Group) (ks : List Nat) : t.regsWhole g ks = { t with rLost := (t.regsWhole g ks).rLost } := by
  unfold Team.regsWhole; split <;> rfl

theorem Ex.retired_idx (x : Ex) (b : Bool) (pc : Addr) (g : Group) : (x.retired b pc g).idx = g.idx := rfl

/-- A word on registers alone, of no long latency, that does not branch: the state it has retired in. -/
theorem retires_plain {s : State} {x : Ex} {ws : List Wr} (hp : Spec.plain x = true) (hl : x.v.isLong = false) :
    Spec.retires x s ws = ((s.wrs x.c.ref ws).modGroup x.c.ref fun g => x.retired false (nextPc x.pc) g).regsWhole x.c.ref
      (wholeRegs x.w x.act x.v.dests) := by
  simp only [Spec.plain, Bool.and_eq_true, Bool.not_eq_true'] at hp
  have hs : Spec.start x s = s := by simp [Spec.start, hp.1, hp.2]
  have hq : x.popped = [] := by simpa using hp.1
  simp only [Spec.retires, hs, Ex.finish, hl, Bool.false_eq_true, if_false, Ex.popAll, hq, List.foldl_nil, Bool.and_false]
  cases x.c.g.kill <;> rfl

end Sys2Proof.Machine
end

