-- ==== Sys2Proof/Tests/Slice0.lean ====
section
/-! SUPPORT. Tests: words written out from the spec's encodings, ill-formed terms that the checks refuse, one step of each word
from a small state, results worked out by hand from the spec, and for every statement states that meet its hypotheses. -/
open Sys2Proof Sys2Proof.Machine Sys2Proof.Spec
set_option Elab.async false
namespace Sys2Proof.Tests

/-! ### Words -/

/-- A header with `GP` = 7, without lookahead or hold. -/
def h7 : Hdr := ⟨0, 7, false, .none⟩
/-- A word from its fields at the places of R77, with `GP` = 7 and no other header field. -/
def word (op sub d a b c md imm : Nat) : W96 :=
  BitVec.ofNat 96 (op + sub * 2 ^ 8 + 7 * 2 ^ 16 + d * 2 ^ 22 + a * 2 ^ 31 + b * 2 ^ 40 + c * 2 ^ 49 + md * 2 ^ 58 + imm * 2 ^ 64)
/-- The word decodes to the instruction, and the instruction is encoded as the word. -/
def reads (w : W96) (i : Instr) : Bool :=
  decide (encode i = some w) && (match decodeWord w with | .ok j => decide (j = i) | .error _ => false)
/-- A list without the elements at some places. -/
def without {α : Type} (ns : List Nat) (l : List α) : List α := (l.zipIdx.filter fun e => !ns.contains e.2).map (·.1)

/-! Words of the integer family (R133 to R141), each written out from its encoding. -/

/-- Words of the integer family (R133 to R141) with the instructions they stand for. -/
def integerWords1 : List (W96 × Instr) := [
  (word 0x01 0 3 1 2 0 0x17 0, .iadd ⟨h7, false, .i32, true, .v 3, .v 1, .v 2, 0⟩),
  (word 0x21 0 259 257 511 0 8 5, .iadd ⟨h7, true, .i64, false, .s 3, .s 1, .imm, 5⟩),
  (word 0x02 0 3 1 2 0 7 0, .isub ⟨h7, false, .i32, false, .v 3, .v 1, .v 2, 0⟩),
  (word 0x03 0 3 1 2 0 0xB 0, .imul ⟨h7, false, .n32, false, .v 3, .v 1, .v 2, 0⟩),
  (word 0x04 0 3 1 2 0 7 0, .imulh ⟨h7, false, .i32, false, .v 3, .v 1, .v 2, 0⟩),
  (word 0x05 0 3 1 2 4 7 0, .imad ⟨h7, false, .i32, false, .v 3, .v 1, .v 2, .v 4, 0⟩),
  (word 0x06 0 3 1 2 0 0xB 0, .imin ⟨h7, false, .n32, false, .v 3, .v 1, .v 2, 0⟩),
  (word 0x07 0 3 1 2 0 5 0, .imax ⟨h7, false, .i8, false, .v 3, .v 1, .v 2, 0⟩),
  (word 0x08 0 3 1 0 0 7 0, .iabs ⟨h7, false, .i32, false, .v 3, .v 1, 0⟩),
  (word 0x09 0 3 1 2 0 2 0, .and ⟨h7, false, .b32, false, .v 3, .v 1, .v 2, 0⟩),
  (word 0x0A 0 3 1 2 0 2 0, .or ⟨h7, false, .b32, false, .v 3, .v 1, .v 2, 0⟩),
  (word 0x0B 0 3 1 2 0 2 0, .xor ⟨h7, false, .b32, false, .v 3, .v 1, .v 2, 0⟩)]
theorem test_integer_words_1 : (integerWords1.all fun e => reads e.1 e.2) = true := by decide +kernel

/-- Words of the integer family (R133 to R141) with the instructions they stand for. -/
def integerWords2 : List (W96 × Instr) := [
  (word 0x0C 0 3 1 511 0 2 4, .shl ⟨h7, false, .b32, false, .v 3, .v 1, .imm, 4⟩),
  (word 0x0D 0 3 1 2 0 1 0, .shr ⟨h7, false, .b16, false, .v 3, .v 1, .v 2, 0⟩),
  (word 0x2E 0 259 257 258 0 3 0, .sar ⟨h7, true, .b64, false, .s 3, .s 1, .s 2, 0⟩),
  (word 0x0F 0 3 1 511 0 7 0x804, .bfx ⟨h7, false, .i32, false, .v 3, .v 1, .imm, 0x804⟩),
  (word 0x10 0 3 1 2 511 2 0x804, .bfi ⟨h7, false, .b32, false, .v 3, .v 1, .v 2, .imm, 0x804⟩),
  (word 0x11 0 3 1 0 0 2 0, .popc ⟨h7, false, .b32, false, .v 3, .v 1, 0⟩),
  (word 0x12 0 3 1 0 0 2 0, .clz ⟨h7, false, .b32, false, .v 3, .v 1, 0⟩),
  (word 0x13 4 324 1 2 0 7 0, .icmp ⟨h7, false, .gt, .i32, .p 1, .v 1, .v 2, 0⟩),
  (word 0x14 0 3 1 2 324 2 0, .sel ⟨h7, false, .b32, false, .v 3, .v 1, .v 2, .p 1, 0⟩),
  (word 0x15 0 3 334 0 0 2 0, .mov ⟨h7, false, .b32, false, .v 3, .q 2, 0⟩),
  (word 0x36 0 259 0 0 0 8 7, .movi ⟨h7, true, .i64, .s 3, 7⟩),
  (word 0x36 1 259 0 0 0 3 9, .moviHi ⟨h7, .s 3, 9⟩)]
theorem test_integer_words_2 : (integerWords2.all fun e => reads e.1 e.2) = true := by decide +kernel

/-! Words of the floating-point, training and lane families (R142 to R157), each written out from its encoding. -/

/-- Words of the floating-point, training and lane families (R142 to R157) with the instructions they stand for. -/
def floatWords1 : List (W96 × Instr) := [
  (word 0x41 0 3 1 2 0 0x18 0, .fadd ⟨h7, .rdn, .f32, .v 3, .v 1, .v 2, 0⟩),
  (word 0x42 0 3 1 2 0 0x23 0, .fmul ⟨h7, .rs, .f16x2, .v 3, .v 1, .v 2, 0⟩),
  (word 0x43 0 3 1 2 4 0x28 0, .ffma ⟨h7, .rto, .f32, .v 3, .v 1, .v 2, .v 4, 0⟩),
  (word 0x44 0 3 1 2 0 4 0, .fmin ⟨h7, .rne, .bf16x2, .v 3, .v 1, .v 2, 0⟩),
  (word 0x45 0 3 1 2 0 0 0, .fmax ⟨h7, .rne, .f32, .v 3, .v 1, .v 2, 0⟩),
  (word 0x46 7 324 1 2 0 0 0, .fcmp ⟨h7, .nan, .f32, .p 1, .v 1, .v 2, 0⟩),
  (word 0x47 0 3 1 0 0 0 0, .frcp ⟨h7, .rne, .f32, .v 3, .v 1, 0⟩),
  (word 0x48 0 3 1 0 0 0 0, .frsq ⟨h7, .rne, .f32, .v 3, .v 1, 0⟩),
  (word 0x49 0 3 1 0 0 8 0, .fsqrt ⟨h7, .rtz, .f32, .v 3, .v 1, 0⟩),
  (word 0x4A 0 3 1 0 0 0 0, .fexp2 ⟨h7, .rne, .f32, .v 3, .v 1, 0⟩),
  (word 0x4B 0 3 1 0 0 0 0, .flog2 ⟨h7, .rne, .f32, .v 3, .v 1, 0⟩),
  (word 0x4C 0 3 1 2 0 4 0, .cvt ⟨h7, .fp .f32, .rne, .bf16x2, .v 3, .v 1, some (.v 2), 0⟩)]
theorem test_float_words_1 : (floatWords1.all fun e => reads e.1 e.2) = true := by decide +kernel

/-- Words of the floating-point, training and lane families (R142 to R157) with the instructions they stand for. -/
def floatWords2 : List (W96 × Instr) := [
  (word 0x4C 7 3 1 0 0 8 0, .cvt ⟨h7, .toI32, .rtz, .f32, .v 3, .v 1, none, 0⟩),
  (word 0x51 0 4 8 258 0 5 0, .qnt ⟨h7, .rne, .e4m3, .v 4, .v 8, .s 2, 0⟩),
  (word 0x52 1 261 257 258 259 0x25 0, .qntt ⟨h7, true, .rs, .s 5, .s 1, .s 2, .s 3, 0⟩),
  (word 0x53 0 4 8 9 0 0 0, .dqnt ⟨h7, .rne, .f32, .v 4, .v 8, .v 9, 0⟩),
  (word 0x54 1 3 1 0 0 0 0, .vact ⟨h7, .tanh, .rne, .f32, .v 3, .v 1, 0⟩),
  (word 0x55 2 3 1 2 0 0 0, .vdact ⟨h7, .exp, .rne, .f32, .v 3, .v 1, .v 2, 0⟩),
  (word 0x56 0 331 257 331 0 0 0x80, .ctld ⟨h7, ⟨.s 1, .zero, .x1, 128⟩⟩),
  (word 0x57 0 4 8 9 0 0 0, .ctdec ⟨h7, .rne, .f32, .v 4, .v 8, .v 9, 0⟩),
  (word 0x58 0 4 8 9 0 6 0, .ctenc ⟨h7, .rne, .ct8, .v 4, .v 8, .v 9, 0⟩),
  (word 0x59 0 3 1 2 0 2 0, .maxkey ⟨h7, .rne, .bf16, .v 3, .v 1, .v 2, 0⟩),
  (word 0x5A 0 331 257 511 0 0 6, .srseed ⟨h7, .s 1, .imm, 6⟩),
  (word 0x61 3 3 1 511 511 2 8, .shfl ⟨h7, .xor, false, .v 3, .v 1, .imm, .imm, 8⟩)]
theorem test_float_words_2 : (floatWords2.all fun e => reads e.1 e.2) = true := by decide +kernel

/-- Words of the floating-point, training and lane families (R142 to R157) with the instructions they stand for. -/
def floatWords3 : List (W96 × Instr) := [
  (word 0x62 3 257 325 0 0 0 0, .vote ⟨h7, .ballot, .s 1, .p 2⟩),
  (word 0x63 6 257 2 0 0 8 0, .gred ⟨h7, .fadd .rtz, .s 1, .v 2⟩),
  (word 0x64 0 3 1 2 4 2 0, .prmt ⟨h7, .v 3, .v 1, .v 2, .v 4, 0⟩)]
theorem test_float_words_3 : (floatWords3.all fun e => reads e.1 e.2) = true := by decide +kernel

/-! Words of the control family (R159 to R188), each written out from its encoding. -/

/-- Words of the control family (R159 to R188) with the instructions they stand for. -/
def controlWords1 : List (W96 × Instr) := [
  (word 0x71 0 0 0 0 0 0 0xFFFFFFC0, .bra ⟨h7, 0xFFFFFFC0⟩),
  (word 0x72 0 0 0 0 3 0 0x40, .brD ⟨h7, 3, 64⟩),
  (word 0x73 0 0 265 0 0 0 0, .brx ⟨h7, .s 9⟩),
  (word 0x74 0 265 0 0 0 0 0x80, .call ⟨h7, .s 9, 128⟩),
  (word 0x75 0 0 265 0 0 0 0, .ret ⟨h7, .s 9⟩),
  (word 0x76 0 0 0 0 7 0 0x40, .jopen ⟨h7, 7, 64⟩),
  (word 0x77 0 0 0 0 7 0 0, .join ⟨h7, 7⟩),
  (word 0x78 0 0 0 0 2 0 0, .brk ⟨h7, 2⟩),
  (word 0x79 0 0 0 0 1 3 0x40, .eject ⟨h7, 1, 3, 64⟩),
  (word 0x7A 0 0 0 0 1 0 0, .rejoin ⟨h7, 1⟩),
  (word 0x7B 0 0 0 0 0 0 0, .yield ⟨h7⟩),
  (word 0x7C 0 0 0 0 0 0 0, .exit ⟨h7⟩)]
theorem test_control_words_1 : (controlWords1.all fun e => reads e.1 e.2) = true := by decide +kernel

/-- Words of the control family (R159 to R188) with the instructions they stand for. -/
def controlWords2 : List (W96 × Instr) := [
  (word 0x7D 0 0 0 0 0 0 0, .nop ⟨h7⟩),
  (word 0x7E 0 0 0 0 0 0 0xBEEF, .trap ⟨h7, 0xBEEF⟩),
  (word 0x81 0 325 0 0 15 0 0, .nbarArr ⟨h7, 15, .p 2⟩),
  (word 0x82 0 0 0 0 15 0 0, .nbarWait ⟨h7, 15⟩),
  (word 0x83 0 331 0 0 4 0 0, .nbarSync ⟨h7, 4, .zero⟩),
  (word 0x84 0 0 511 0 31 0 2, .ctake ⟨h7, 31, .imm, 2⟩),
  (word 0x85 0 0 257 0 0 0 0, .cgive ⟨h7, 0, .s 1, 0⟩),
  (word 0x86 0 0 511 0 9 0 3, .cwait ⟨h7, 9, .imm, 3⟩),
  (word 0x87 2 259 257 331 0 0 4, .waitf ⟨h7, .ge, .s 3, ⟨.s 1, .zero, .x1, 4⟩⟩),
  (word 0x88 0 0 511 0 0 0 2, .rgive ⟨h7, .imm, 2⟩),
  (word 0x89 0 0 257 0 0 0 0, .rclaim ⟨h7, .s 1, 0⟩),
  (word 0x8A 0 0 257 258 0 0 0x40, .rswitch ⟨h7, .s 1, .s 2, 64⟩)]
theorem test_control_words_2 : (controlWords2.all fun e => reads e.1 e.2) = true := by decide +kernel

/-- Words of the control family (R159 to R188) with the instructions they stand for. -/
def controlWords3 : List (W96 × Instr) := [
  (word 0x8B 0 0 0 0 0 0 0, .rpoint ⟨h7⟩),
  (word 0x8C 0 0 0 0 0 0 0x12C, .mark ⟨h7, 300⟩),
  (word 0x91 0 260 0 0 0 0 0, .tnext ⟨h7, .s 4⟩),
  (word 0x92 0 0 0 0 0 0 0, .tdone ⟨h7⟩),
  (word 0x93 0 0 260 0 0 0 0, .tspawn ⟨h7, .s 4⟩),
  (word 0x94 0 260 511 261 0 0 1, .tscope ⟨h7, .s 4, .imm, .s 5, 1⟩),
  (word 0x95 0 0 511 0 0 0 1, .cancel ⟨h7, .imm, 1⟩)]
theorem test_control_words_3 : (controlWords3.all fun e => reads e.1 e.2) = true := by decide +kernel

/-! Words of the memory family (R189 to R219), each written out from its encoding. -/

/-- Words of the memory family (R189 to R219) with the instructions they stand for. -/
def memoryWords1 : List (W96 × Instr) := [
  (word 0xA1 6 3 256 4 0 0x11 0x10, .ld ⟨h7, .i16, true, false, .v 3, ⟨.s 0, .v 4, .x4, 16⟩⟩),
  (word 0xA2 3 6 256 4 0 0x12 0x10, .st ⟨h7, .b64, true, .v 6, ⟨.s 0, .v 4, .x4, 16⟩⟩),
  (word 0xA3 2 3 256 4 0 0x14 0x10, .lds ⟨h7, .b32, true, .v 3, ⟨.s 0, .v 4, .x4, 16⟩⟩),
  (word 0xA4 0 3 256 4 0 0x10 0x10, .sts ⟨h7, .b8, false, .v 3, ⟨.s 0, .v 4, .x4, 16⟩⟩),
  (word 0xA5 10 6 256 4 8 0x17 0x10, .atom ⟨h7, .cas, true, true, true, .v 6, .v 8, ⟨.s 0, .v 4, .x4, 16⟩⟩),
  (word 0xA6 11 3 256 4 8 0x10 0x10, .atoms ⟨h7, .maxkey, false, .v 3, .v 8, ⟨.s 0, .v 4, .x4, 16⟩⟩),
  (word 0xA7 0 0 256 331 0 0 0x10, .fence ⟨h7, ⟨.s 0, .zero, .x1, 16⟩⟩),
  (word 0xA8 1 0 256 4 0 0x20 0x10, .pref ⟨h7, true, ⟨.s 0, .v 4, .x16, 16⟩⟩),
  (word 0xA9 0 0 256 331 0 0 0x10, .cflush ⟨h7, ⟨.s 0, .zero, .x1, 16⟩⟩),
  (word 0xAA 0 0 256 331 0 0 0x10, .cinv ⟨h7, ⟨.s 0, .zero, .x1, 16⟩⟩),
  (word 0xAB 0 259 256 331 0 0 0x10, .spempty ⟨h7, .s 3, ⟨.s 0, .zero, .x1, 16⟩⟩),
  (word 0xAC 0 326 256 4 0 0x10 0x10, .spstate ⟨h7, .p 3, ⟨.s 0, .v 4, .x4, 16⟩⟩)]
theorem test_memory_words_1 : (memoryWords1.all fun e => reads e.1 e.2) = true := by decide +kernel

/-- Words of the memory family (R189 to R219) with the instructions they stand for. -/
def memoryWords2 : List (W96 × Instr) := [
  (word 0xB1 0 0 256 0 31 1 0x40, .wbind ⟨h7, 31, true, .s 0, 64⟩),
  (word 0xB2 0 0 256 0 5 0 0x40, .warm ⟨h7, 5, false, .s 0, 64⟩),
  (word 0xB3 0 0 0 0 5 0 0, .wput ⟨h7, 5⟩),
  (word 0xB4 3 324 0 0 5 0 0, .wstate ⟨h7, 5, .absent, .p 1⟩),
  (word 0xB5 2 3 256 4 0 0x10 0x10, .tacc ⟨h7, .bf16, .v 3, ⟨.s 0, .v 4, .x4, 16⟩⟩),
  (word 0xB6 0 3 256 4 0 0x14 0x10, .tcons ⟨h7, true, .v 3, ⟨.s 0, .v 4, .x4, 16⟩⟩),
  (word 0xB7 0 3 256 4 0 0x10 0x10, .tcnt ⟨h7, .v 3, ⟨.s 0, .v 4, .x4, 16⟩⟩),
  (word 0xB8 0 259 256 331 0 0 0x10, .treset ⟨h7, .s 3, ⟨.s 0, .zero, .x1, 16⟩⟩)]
theorem test_memory_words_2 : (memoryWords2.all fun e => reads e.1 e.2) = true := by decide +kernel

/-! Words of the engine and system families (R243 to R261), each written out from its encoding. -/

/-- Words of the engine and system families (R243 to R261) with the instructions they stand for. -/
def engineWords1 : List (W96 × Instr) := [
  (word 0xC1 0 0 0 0 6 0 0, .atake ⟨h7, 6⟩),
  (word 0xC2 0 0 511 0 6 0 0x40, .agive ⟨h7, 6, .imm, 64⟩),
  (word 0xC3 0 4 8 0 1 9 3, .ald ⟨h7, .rtz, .f16, 1, .v 4, .v 8, 3⟩),
  (word 0xC4 0 4 8 0 1 6 3, .ast ⟨h7, .x48, 1, .v 4, .v 8, 3⟩),
  (word 0xC5 0 0 257 258 3 0 0x901, .awin ⟨h7, 1, 3, .s 1, .s 2, 9⟩),
  (word 0xC5 0 0 0 0 0 1 1, .awinUnp ⟨h7, 1⟩),
  (word 0xC9 0 260 257 0 0 0 0x40, .collArm ⟨h7, .s 4, .s 1, 64⟩),
  (word 0xCA 0 0 257 0 0 0 0x40, .collPut ⟨h7, .s 1, 64⟩),
  (word 0xE1 0 2 0 0 0 0 0xA, .srd ⟨h7, .v 2, 0x0A⟩),
  (word 0xE2 0 0 257 0 0 0 0xB, .swr ⟨h7, .s 1, 0x0B⟩),
  (word 0xE3 0 0 0 0 0 0 0xC8, .svc ⟨h7, 200⟩),
  (word 0xE4 0 0 0 0 0 0 0, .rfe ⟨h7⟩)]
theorem test_engine_words_1 : (engineWords1.all fun e => reads e.1 e.2) = true := by decide +kernel

/-- Words of the engine and system families (R243 to R261) with the instructions they stand for. -/
def engineWords2 : List (W96 × Instr) := [
  (word 0xE5 0 0 257 0 0 0 8, .tlbiVa ⟨h7, .s 1, 8⟩),
  (word 0xE5 1 0 257 0 0 0 0, .tlbiCtx ⟨h7, .s 1⟩),
  (word 0xE5 2 0 0 0 0 0 0, .tlbiAll ⟨h7⟩),
  (word 0xE6 0 0 257 0 0 0 0x4D, .evt ⟨h7, .s 1, 77⟩),
  (word 0xE7 0 0 0 0 0 0 5, .halt ⟨h7, 5⟩)]
theorem test_engine_words_2 : (engineWords2.all fun e => reads e.1 e.2) = true := by decide +kernel

/-! Words of the matrix stream (R226 to R241), each written out from its encoding. -/

/-- Words of the matrix stream (R226 to R241) with the instructions they stand for. -/
def streamWords1 : List (W96 × Instr) := [
  (word 0xD0 0 0 1 2 60 0x21 0, .mlatch ⟨.bf16, .dense, false, true, 1, true, 3, .m 0, .m 1, .m 2, 0⟩),
  (word 0xD0 0 0 1 2 48 0x14 0, .mlatch ⟨.e4m3, .sp16, true, false, 0, false, 3, .m 0, .m 1, .m 2, 0⟩),
  (word 0xD1 0 0 1 511 506 0xC 7, .mstreamF ⟨.e4m3, true, true, false, 1, 2, 31, .m 0, .m 1, .imm, 7⟩),
  (word 0xD2 0 0 1 2 2 0x11 0, .mstreamB ⟨.bf16, false, false, true, 0, 2, 0, .m 0, .m 1, .m 2, 0⟩),
  (word 0xD3 0 4 0 5 7 0 0, .mzero ⟨7, .m 4, .m 5, 0⟩),
  (word 0xD4 0 4 1 5 39 0x29 0, .mdrain ⟨.rto, .f16, 7, 2, .m 4, .m 1, .m 5, 0⟩),
  (word 0xD5 0 4 1 5 39 0 0, .mdrainT ⟨7, 2, .m 4, .m 1, .m 5, 0⟩),
  (word 0xD6 0 4 1 5 7 0 0, .mscale ⟨7, .m 4, .m 1, .m 5, 0⟩),
  (word 0xD7 0 0 0 0 5 0 0, .mtake ⟨5⟩),
  (word 0xD8 0 0 511 0 5 0 0xC, .mgive ⟨5, .imm, 12⟩),
  (word 0xD9 0 0 9 0 0 0 0, .mwin ⟨.m 9, 0⟩),
  (word 0xDA 0 0 0 0 0 1 0xF, .mbarArr ⟨true, 15⟩)]
theorem test_stream_words_1 : (streamWords1.all fun e => reads e.1 e.2) = true := by decide +kernel

/-- Words of the matrix stream (R226 to R241) with the instructions they stand for. -/
def streamWords2 : List (W96 × Instr) := [
  (word 0xDA 1 0 0 0 0 0 0xF, .mbarSync ⟨false, 15⟩),
  (word 0xDA 2 0 0 0 0 0 0xF, .mbarWait ⟨15⟩),
  (word 0xDB 0 9 511 0 0 0 0x64, .mset ⟨.m 9, .imm, 100⟩),
  (word 0xDC 0 9 8 511 0 0 1, .madd ⟨.m 9, .m 8, .imm, 1⟩),
  (word 0xDD 0 9 0 0 0 0 0xFFFFFFC0, .mloop ⟨.m 9, 0xFFFFFFC0⟩),
  (word 0xDE 0 0 0 0 0 0 0x40, .mjmp ⟨64⟩),
  (word 0xDF 0 0 0 0 0 0 0, .mend)]
theorem test_stream_words_2 : (streamWords2.all fun e => reads e.1 e.2) = true := by decide +kernel

/-! ### A group about to execute a word -/

def me : GRef := ⟨⟨1, 0, false⟩, .grp 0⟩
/-- A group of 32 lanes about to execute a word, changed by `f`: `s1` is an address in the readable and writable page, `s2` one of the
scratchpad, and lanes 0 to 7 of `p1` are 1. -/
def bench (f : Group → Group := id) : State :=
  let s := State.reset.placeWord 0
  { s with agenda := [], cur := .grp me }.modGroup me fun g =>
    f (((g.setS 1 0x10200).setS 2 (2 ^ 55)).setP 1 (laneMask 64) 0xFF)

/-- How a word left its party. -/
inductive Res
  | retired (pc : Nat) | stopped (c : Cause) | waiting (w : Wait) | blocked (w : Wait) | other (st : RunSt) | gone | fault
deriving DecidableEq, Repr
def ofGroup (g : Group) : Res :=
  match g.stop with
  | some st => .stopped st.cause
  | none => if g.st = .blocked then .blocked g.wait else if g.wait != .none then .waiting g.wait
    else if g.st != .run then .other g.st else .retired g.pc.toNat
/-- What a party has become after the executing word. -/
def after (s : State) (i : Instr) : Res :=
  match s.cur, exec i s with
  | .grp r, .next t => (match grp? t r with | some g => ofGroup g | none => .gone)
  | _, _ => .fault
/-- The word goes on to its own effect, and its group retires to an address, stops with a cause, or waits. -/
def goes (s : State) (pc : Nat) (i : Instr) : Bool := (issuing s i).isSome && decide (after s i = .retired pc)
def go (s : State) (i : Instr) : Bool := goes s 0x1000C i
def stops (s : State) (c : Cause) (i : Instr) : Bool := (issuing s i).isSome && decide (after s i = .stopped c)
def held (s : State) (w : Wait) (i : Instr) : Bool :=
  (issuing s i).isSome && (decide (after s i = .waiting w) || decide (after s i = .blocked w))
/-- The executing group after its word. -/
def grpAfter (s : State) (i : Instr) : Option Group :=
  match s.cur, exec i s with
  | .grp r, .next t => grp? t r
  | _, _ => none
/-- A v register's lane, an s register and a predicate after the word. -/
def vAfter (s : State) (i : Instr) (r lane : Nat) : Option Nat := (grpAfter s i).map fun g => (g.vreg r lane).toNat
def sAfter (s : State) (i : Instr) (n : Nat) : Option Nat := (grpAfter s i).map fun g => (g.sreg n).toNat
def pAfter (s : State) (i : Instr) (n : Nat) : Option Nat := (grpAfter s i).map fun g => (g.pred n).toNat
/-- The state after a word of the bench's group, which goes on executing. -/
def then_ (s : State) (i : Instr) : State := match exec i s with | .next t => { t with cur := .grp me } | _ => s
/-- What the tests look at to see whether an event did something. -/
structure Digest where
  mem : Memory
  counts : List Nat
  eligible : List Bool
  arrivals : List (Store Nat)
  groups : List (List Res)
  chunks : List (List (List Nat))
  done : List (List Bool)
  govs : List Gov
  pools : List PoolPart
  saves : List (Option Preempt)
  win : List WinSt
deriving DecidableEq
def digest (s : State) : Digest where
  mem := s.mem
  counts := [s.versions.length, s.requests.length, s.flying.length, s.toPeers.length, s.toHost.length, s.repPeers.length,
    (s.core 0).evq.length, (s.core 0).copies.length, (s.die 0).slots.length, (s.die 0).ring.length, (s.die 0).moves.length,
    s.lost.length, s.heldReqs.length, s.peers.length, (s.host.map (·.toNat)).getD 0, (s.policy.map (·.length)).getD 0,
    (s.die 0).frames.length, s.rootU.length, s.fuseMin, s.past.length] ++ (s.requests.map (·.tries)) ++
    ((s.die 0).srcs.toList.map fun q => q.buf.length) ++ ((s.die 0).slots.map fun e => e.2.arrived.toNat + (if e.2.timedOut then 2 ^ 64 else 0)) ++
    (s.launches.map fun l => (l.tasks.filter (·.anywhere)).length) ++ (s.launches.map fun l => (l.scopes.map (·.acking)).foldl (· + ·) 0) ++
    (s.teams.map fun t => (t.groups.map fun g => g.posted.length).foldl (· + ·) 0) ++
    (s.teams.map fun t => t.mq.length) ++ s.launches.map fun l => l.nextTeam
  eligible := s.launches.map (·.eligible)
  arrivals := s.launches.map (·.arrivals)
  groups := s.teams.map fun t => t.groups.map ofGroup
  chunks := s.teams.map fun t => t.groups.map (·.chunks)
  done := s.teams.map fun t => (t.groups.map fun g => g.la.map (·.done)).flatten ++ (t.groups.map fun g => g.posted.map fun _ => true).flatten
  govs := s.teams.map (·.gov)
  pools := s.teams.map (·.pool)
  saves := s.teams.map (·.save)
  win := s.teams.map fun t => (t.win 5).st
/-- An event changes some of it, or leaves it. -/
def acts (s : State) (i : Instr) : Bool := match exec i s with | .next t => decide (digest t ≠ digest s) | _ => false
def rests (s : State) (i : Instr) : Bool := match exec i s with | .next t => decide (digest t = digest s) | _ => false

/-! ### Benches -/

/-- Put bytes into memory. -/
def poke (s : State) (a : Nat) (b : List Byte) : State := { s with mem := s.mem.write a b }
/-- Change the bench's team, its launch, and the launch's packet. -/
def team (s : State) (f : Team → Team) : State := s.modTeam me.t f
def launch (s : State) (f : Launch → Launch) : State := s.modLaunch 1 f
def packet (s : State) (f : Packet → Packet) : State := launch s fun l => { l with pkt := f l.pkt }
/-- A group with token 7 open for its 32 lanes, as every group of a started kernel has none but the words of R163 open one. -/
def inToken : State := bench fun g => { g with j := g.j.set 7 ⟨laneMask 32, 0, 0x10000, 0⟩ }
/-- The group holds 30 of its chunks, and two of the pool are free. -/
def spare : State := team (bench fun g => { g with chunks := g.chunks.take 30 }) fun t => { t with pool := { t.pool with free := [30, 31] } }
/-- A supervisor. -/
def sup : State := bench fun g => { g with priv := true, epc := 0x10000 }
/-- A group of a task-service launch, with or without a current task. -/
def tasks (cur : Bool) : State := packet (bench fun g =>
  { g with task := if cur then some ⟨0x10200, List.replicate 64 0, none, none, 0⟩ else none }) fun p => { p with tasks := true }
/-- The first 1,024 lines of the scratchpad are full. -/
def filled : State := team bench fun t => { t with full := (List.range 8).map fun k => (k, true) }
/-- A page with `TWIN` at 0x20000, the address in `s1`. -/
def twinPte : BitVec 256 := BitVec.ofNat 256 (16 * 2 ^ 160 + 0x20000 / 1024 * 2 ^ 90 + 2 * 2 ^ 64 + 2 ^ 32 + 2 ^ 23 + 2 ^ 18 + 2 ^ 17)
def twin : State := (bench fun g => (g.setS 1 0x20000).setS 3 1).modCore 0 fun c => { c with tlb := ⟨0, false, 2, 16, twinPte⟩ :: c.tlb }
/-- A descriptor of a window of elements of `2 ^ ez` bytes at 0x10000, at offset 0 of the scratchpad, and a team with such windows. -/
def desc (ez rows cols pitch : Nat) : Nat :=
  0x10000 * 2 ^ 320 + pitch * 2 ^ 288 + rows * 2 ^ 240 + cols * 2 ^ 224 + pitch * 2 ^ 208 + ez * 2 ^ 174
def bind (s : State) (k n : Nat) : State := team s fun t => match winFields n with | some d => t.bindWin k d 0x10200 0 | none => t
def bound : State := bind bench 5 (desc 2 1 32 128)
/-- Descriptors of a collective arm and of a put. -/
def armDesc : Nat := 0x10800 * 2 ^ 192 + 0x10C00 * 2 ^ 128 + 1 * 2 ^ 64 + 1 * 2 ^ 25 + 1
def putDesc : Nat := 0x10300 * 2 ^ 384 + 2 ^ 55 + 1 * 2 ^ 17
/-- Tile 1 is group 0's. -/
def owner : State := team bench fun t => { t with owner := t.owner.set 1 0 }
def g1 : MemOp := ⟨.s 1, .zero, .x1, 0⟩
def l1 : MemOp := ⟨.s 2, .zero, .x1, 0⟩
def odd : MemOp := ⟨.s 1, .zero, .x1, 1⟩
def hp : Hdr := ⟨0, 1, false, .none⟩
/-- A group with a load outstanding, and one with a store. -/
def loading : State := then_ bench (.ld ⟨⟨7, 7, false, .none⟩, .b32, false, false, .v 9, g1⟩)
def storing : State := then_ bench (.st ⟨h7, .b32, false, .v 9, g1⟩)

/-! ### Completion: the words of the families that retire on the plain bench, and the others on a bench of their own -/

theorem test_integer_words_1_retire : ((integerWords1).all fun e => go bench e.2) = true := by decide +kernel
theorem test_integer_words_2_retire : ((without [9] integerWords2).all fun e => go bench e.2) = true := by decide +kernel
theorem test_float_words_1_retire : ((floatWords1).all fun e => go bench e.2) = true := by decide +kernel
theorem test_float_words_2_retire : ((without [1, 2, 6] floatWords2).all fun e => go bench e.2) = true := by decide +kernel
theorem test_float_words_3_retire : ((floatWords3).all fun e => go bench e.2) = true := by decide +kernel
theorem test_control_words_1_retire : ((without [0, 1, 2, 3, 4, 6, 7, 8, 9, 11] controlWords1).all fun e => go bench e.2) = true := by decide +kernel
theorem test_control_words_2_retire : ((without [1, 3, 5, 7, 10, 11] controlWords2).all fun e => go bench e.2) = true := by decide +kernel
theorem test_control_words_3_retire : ((without [2, 3, 4, 5, 6] controlWords3).all fun e => go bench e.2) = true := by decide +kernel
theorem test_memory_words_1_retire : ((without [0, 1, 2, 4, 5, 6, 8, 9] memoryWords1).all fun e => go bench e.2) = true := by decide +kernel
theorem test_memory_words_2_retire : ((without [0, 1, 2, 4, 5, 6] memoryWords2).all fun e => go bench e.2) = true := by decide +kernel
theorem test_engine_words_1_retire : ((without [0, 1, 2, 3, 4, 6, 7, 10, 11] engineWords1).all fun e => go bench e.2) = true := by decide +kernel
theorem test_engine_words_2_retire : ((without [0, 1, 2, 4] engineWords2).all fun e => go bench e.2) = true := by decide +kernel

theorem test_control_complete :
  goes bench 0x10000 (.bra ⟨h7, 0⟩) ∧
  goes (bench fun g => g.setS 9 0x10000) 0x10000 (.brx ⟨h7, .s 9⟩) ∧
  goes (bench fun g => g.setS 9 0x10000) 0x10000 (.ret ⟨h7, .s 9⟩) ∧
  goes bench 0x10000 (.call ⟨h7, .s 9, 0⟩) ∧
  goes inToken 0x10000 (.brD ⟨hp, 7, 0⟩) ∧
  goes inToken 0x10000 (.join ⟨h7, 7⟩) ∧
  go inToken (.brk ⟨hp, 7⟩) ∧
  go bench (.exit ⟨hp⟩) ∧
  go inToken (.eject ⟨hp, 7, 3, 0⟩) ∧
  go (bench fun g => { g with arv := 2, aph := 2 }) (.nbarWait ⟨h7, 1⟩) ∧
  go (team bench fun t => t.setCtr 31 ⟨5, [], []⟩) (.ctake ⟨h7, 31, .imm, 2⟩) ∧
  go (team bench fun t => t.setCtr 9 ⟨5, [], []⟩) (.cwait ⟨h7, 9, .imm, 2⟩) ∧
  go bench (.waitf ⟨h7, .eq, .s 7, g1⟩) ∧
  go spare (.rclaim ⟨h7, .imm, 2⟩) ∧
  goes bench 0x10000 (.rswitch ⟨h7, .s 6, .s 5, 0⟩) ∧
  go (tasks false) (.tnext ⟨h7, .s 4⟩) ∧
  go (tasks true) (.tdone ⟨h7⟩) ∧
  go (tasks false) (.tspawn ⟨h7, .s 1⟩) ∧
  go bench (.tscope ⟨h7, .s 4, .imm, .zero, 0⟩) ∧
  go bench (.cancel ⟨h7, .imm, 0⟩) := by decide +kernel

theorem test_memory_complete :
  go bench (.ld ⟨h7, .b32, false, false, .v 3, g1⟩) ∧
  go bench (.st ⟨h7, .b32, true, .v 3, g1⟩) ∧
  go filled (.lds ⟨h7, .b32, false, .v 3, l1⟩) ∧
  go filled (.sts ⟨h7, .b32, false, .v 3, l1⟩) ∧
  go bench (.atom ⟨h7, .cas, false, true, true, .v 6, .v 8, g1⟩) ∧
  go filled (.atoms ⟨h7, .add, false, .v 3, .v 8, l1⟩) ∧
  go bench (.fence ⟨h7, g1⟩) ∧
  go bench (.cflush ⟨h7, g1⟩) ∧
  go bench (.cinv ⟨h7, g1⟩) ∧
  go filled (.spempty ⟨h7, .zero, l1⟩) ∧
  go filled (.spstate ⟨h7, .p 1, l1⟩) ∧
  go (poke bench 0x10200 (bytesOf 64 (desc 2 1 32 128))) (.wbind ⟨h7, 31, true, .s 1, 0⟩) ∧
  go bound (.warm ⟨h7, 5, false, .s 0, 64⟩) ∧
  go bound (.wput ⟨h7, 5⟩) ∧
  go twin (.tacc ⟨h7, .f32, .v 3, g1⟩) ∧
  go twin (.tcons ⟨h7, true, .v 3, g1⟩) ∧
  go twin (.tcnt ⟨h7, .v 3, g1⟩) ∧
  go twin (.treset ⟨h7, .s 3, g1⟩) ∧
  go (bench fun g => g.setS 3 0x3F800000) (.qnt ⟨h7, .rne, .e4m3, .v 4, .v 8, .s 3, 0⟩) := by decide +kernel

theorem test_engine_complete :
  go owner (.atake ⟨h7, 1⟩) ∧
  go owner (.agive ⟨h7, 1, .imm, 64⟩) ∧
  go owner (.ald ⟨h7, .rtz, .f16, 1, .v 4, .v 8, 3⟩) ∧
  go owner (.ast ⟨h7, .x48, 1, .v 4, .v 8, 3⟩) ∧
  go (bench fun g => g.setS 6 10) (.awin ⟨h7, 1, 0, .s 5, .s 6, 0⟩) ∧
  go bench (.awinUnp ⟨h7, 1⟩) ∧
  go (poke bench 0x10200 (bytesOf 64 armDesc)) (.collArm ⟨h7, .s 4, .s 1, 0⟩) ∧
  go (poke bench 0x10200 (bytesOf 64 putDesc)) (.collPut ⟨h7, .s 1, 0⟩) ∧
  goes (packet bench fun p => { p with svb := 0x10000 }) 0x100C0 (.svc ⟨h7, 3⟩) ∧
  goes sup 0x10000 (.rfe ⟨h7⟩) ∧
  go sup (.tlbiVa ⟨h7, .s 1, 8⟩) ∧
  go sup (.tlbiCtx ⟨h7, .s 1⟩) ∧
  go sup (.tlbiAll ⟨h7⟩) ∧
  go sup (.halt ⟨h7, 5⟩) ∧
  stops bench .user (.trap ⟨h7, 0xBEEF⟩) := by decide +kernel

/-! ### Results worked out by hand from the spec's rules -/

/-- The bench with lane 0 of `v1`, `v2` and `v4`. -/
def v3 (a b c : W32) : State := bench fun g => ((g.setV 1 0 a).setV 2 0 b).setV 4 0 c
/-- R137, R138: saturation and wrapping, products, shifts by n and more, modulo 256. -/
theorem test_integer_results :
  vAfter (v3 0x7FFFFFFF 1 0) (.iadd ⟨h7, false, .i32, true, .v 3, .v 1, .v 2, 0⟩) 3 0 = some 0x7FFFFFFF ∧
  vAfter (v3 0x7FFFFFFF 1 0) (.iadd ⟨h7, false, .i32, false, .v 3, .v 1, .v 2, 0⟩) 3 0 = some 0x80000000 ∧
  vAfter (v3 1 2 0) (.isub ⟨h7, false, .n32, true, .v 3, .v 1, .v 2, 0⟩) 3 0 = some 0 ∧
  vAfter (v3 0x80000000 0x80000000 0) (.imulh ⟨h7, false, .i32, false, .v 3, .v 1, .v 2, 0⟩) 3 0 = some 0x40000000 ∧
  vAfter (v3 3 0xFFFFFFFE 7) (.imad ⟨h7, false, .i32, false, .v 3, .v 1, .v 2, .v 4, 0⟩) 3 0 = some 1 ∧
  vAfter (v3 0x80000000 0 0) (.iabs ⟨h7, false, .i32, true, .v 3, .v 1, 0⟩) 3 0 = some 0x7FFFFFFF ∧
  vAfter (v3 1 32 0) (.shl ⟨h7, false, .b32, false, .v 3, .v 1, .v 2, 0⟩) 3 0 = some 0 ∧
  vAfter (v3 5 256 0) (.shr ⟨h7, false, .b32, false, .v 3, .v 1, .v 2, 0⟩) 3 0 = some 5 ∧
  vAfter (v3 0x80000000 40 0) (.sar ⟨h7, false, .b32, false, .v 3, .v 1, .v 2, 0⟩) 3 0 = some 0xFFFFFFFF := by decide +kernel
/-- R139: the field of bits 11 to 4 of 0xF70, signed; a byte put there; counts. R141: MOVI.hi keeps the low half. -/
theorem test_field_results :
  vAfter (v3 0xF70 0 0) (.bfx ⟨h7, false, .i32, false, .v 3, .v 1, .imm, 0x804⟩) 3 0 = some 0xFFFFFFF7 ∧
  vAfter (v3 0x1AB 0xF000000F 0) (.bfi ⟨h7, false, .b32, false, .v 3, .v 1, .v 2, .imm, 0x804⟩) 3 0 = some 0xF0000ABF ∧
  vAfter (v3 0xF0 0 0) (.popc ⟨h7, false, .b32, false, .v 3, .v 1, 0⟩) 3 0 = some 4 ∧
  vAfter (v3 0 0 0) (.clz ⟨h7, false, .b32, false, .v 3, .v 1, 0⟩) 3 0 = some 32 ∧
  pAfter (v3 0xFFFFFFFF 0 0) (.icmp ⟨h7, false, .lt, .i32, .p 2, .v 1, .v 2, 0⟩) 2 = some 1 ∧
  pAfter (v3 0xFFFFFFFF 0 0) (.icmp ⟨h7, false, .lt, .n32, .p 2, .v 1, .v 2, 0⟩) 2 = some 0 ∧
  sAfter bench (.moviHi ⟨h7, .s 1, 9⟩) 1 = some 0x900010200 := by decide +kernel
/-- R112: x − x is −0 under RDN. R144: −0 lies below +0. R146: toward zero, and NaN. R149, R153: a code times its scale, a key. -/
theorem test_float_results :
  vAfter (v3 0x3F800000 0xBF800000 0) (.fadd ⟨h7, .rdn, .f32, .v 3, .v 1, .v 2, 0⟩) 3 0 = some 0x80000000 ∧
  vAfter (v3 0x3F800000 0xBF800000 0) (.fadd ⟨h7, .rne, .f32, .v 3, .v 1, .v 2, 0⟩) 3 0 = some 0 ∧
  vAfter (v3 0x3FC00000 0x40000000 0xC0400000) (.ffma ⟨h7, .rne, .f32, .v 3, .v 1, .v 2, .v 4, 0⟩) 3 0 = some 0 ∧
  vAfter (v3 0 0x80000000 0) (.fmin ⟨h7, .rne, .f32, .v 3, .v 1, .v 2, 0⟩) 3 0 = some 0x80000000 ∧
  pAfter (v3 0x7FC00000 0 0) (.fcmp ⟨h7, .nan, .f32, .p 2, .v 1, .v 2, 0⟩) 2 = some 1 ∧
  vAfter (v3 0x4039999A 0 0) (.cvt ⟨h7, .toI32, .rtz, .f32, .v 3, .v 1, none, 0⟩) 3 0 = some 2 ∧
  vAfter (v3 0x7FC00000 0 0) (.cvt ⟨h7, .toI32, .rtz, .f32, .v 3, .v 1, none, 0⟩) 3 0 = some 0 ∧
  vAfter (v3 0x38 0x40000000 0) (.dqnt ⟨h7, .rne, .f32, .v 8, .v 1, .v 2, 0⟩) 8 0 = some 0x40000000 ∧
  vAfter (v3 0x3C00 2 0) (.maxkey ⟨h7, .rne, .f16, .v 3, .v 1, .v 2, 0⟩) 3 0 = some 0xBC00FFFD := by decide +kernel
/-- R154, R155, R157: lane 0 takes lane 1 of its segment of 4; the ballot of lanes 0 to 7; bytes picked and replaced. -/
theorem test_lane_results :
  vAfter (bench fun g => g.setV 1 1 77) (.shfl ⟨h7, .idx, false, .v 3, .v 1, .imm, .imm, 5⟩) 3 0 = some 77 ∧
  sAfter bench (.vote ⟨h7, .ballot, .s 4, .p 1⟩) 4 = some 0xFF ∧
  sAfter (bench fun g => (g.setV 2 0 5).setV 2 31 0xFFFFFFFF) (.gred ⟨h7, .add .i32, .s 4, .v 2⟩) 4 = some 4 ∧
  vAfter (v3 0x44332211 0x887766F5 0x38C4) (.prmt ⟨h7, .v 3, .v 1, .v 2, .v 4, 0⟩) 3 0 = some 0x4400FFF5 := by decide +kernel

/-- What a delivery leaves. -/
def delivered (s : State) : State := then_ { s with cur := .idle } (.longLatencyDelivery me 0)
/-- R161, R257: CALL and SVC save the address of the next word; RFE returns. R195, R202: a load's bytes, an atomic's result and old
value. R201: a store to the scratchpad makes its line full. -/
theorem test_state_results :
  sAfter bench (.call ⟨h7, .s 9, 0⟩) 9 = some 0x1000C ∧
  ((grpAfter (packet bench fun p => { p with svb := 0x10000 }) (.svc ⟨h7, 3⟩)).map fun g => (g.priv, g.epc, g.ecode)) =
    some (true, 0x1000C, 3) ∧
  (grpAfter sup (.rfe ⟨h7⟩)).map (·.priv) = some false ∧
  (grp? (delivered (then_ (poke bench 0x10200 [0x11, 0x84]) (.ld ⟨h7, .i16, false, false, .s 9, g1⟩))) me).map (·.sreg 9) =
    some 0xFFFFFFFFFFFF8411 ∧
  (delivered (then_ (poke (bench fun g => { g with exec := 1, v := (g.setV 8 0 5).v }) 0x10200 [3])
    (.atom ⟨h7, .add, false, false, false, .v 6, .v 8, g1⟩))).mem.byte 0x10200 = 8 ∧
  (grp? (delivered (then_ (poke (bench fun g => { g with exec := 1, v := (g.setV 8 0 5).v }) 0x10200 [3])
    (.atom ⟨h7, .add, false, false, false, .v 6, .v 8, g1⟩))) me).map (·.vreg 6 0) = some 3 ∧
  (((then_ (bench fun g => g.setV 3 31 0x55) (.sts ⟨h7, .b8, false, .v 3, l1⟩)).team? me.t).map fun t => (t.spadByte 0, t.isFull 0)) =
    some (0x55, true) := by decide +kernel

/-! ### Ill-formed terms, one for each check -/

theorem test_ill_formed :
  (Instr.iadd ⟨h7, false, .i32, false, .p 1, .v 1, .v 2, 0⟩).legalErr = some .operandClass ∧
  (Instr.iadd ⟨h7, false, .i64, false, .v 3, .v 2, .v 4, 0⟩).legalErr = some .misaligned ∧
  (Instr.iadd ⟨⟨1, 7, false, .none⟩, false, .i32, false, .v 3, .v 1, .v 2, 0⟩).legalErr = some .lookahead ∧
  (Instr.iadd ⟨⟨0, 7, false, .c⟩, false, .i32, false, .v 3, .v 1, .v 2, 0⟩).legalErr = some .hold ∧
  (Instr.iadd ⟨h7, false, .i32, false, .v 3, .q 1, .q 1, 0⟩).legalErr = some .queueTwice ∧
  (Instr.iadd ⟨h7, false, .i32, false, .v 3, .v 1, .v 2, 9⟩).legalErr = some .unusedImm ∧
  (Instr.imulh ⟨h7, false, .b32, false, .v 3, .v 1, .v 2, 0⟩).legalErr = some .typ ∧
  (Instr.dqnt ⟨h7, .rs, .f32, .v 4, .v 8, .v 9, 0⟩).legalErr = some .rounding ∧
  (Instr.imin ⟨h7, false, .i32, true, .v 3, .v 1, .v 2, 0⟩).legalErr = some .saturate ∧
  (Instr.join ⟨⟨0, 1, false, .none⟩, 3⟩).legalErr = some .guard ∧
  (Instr.mstreamF ⟨.e4m3, false, true, false, 0, 7, 5, .zero, .zero, .imm, 1⟩).legalErr = some .streamMode ∧
  ¬ (Instr.iadd ⟨h7, false, .i32, false, .v 3, .v 1, .v 2, 9⟩).WellFormed := by decide +kernel

/-! ### For every statement, states that meet its hypotheses. A line names a state in which the word goes on to its own effect (`issuing`)
and how the word leaves its party there, one line for each clause. -/

/-- The next move of the bench after reset is the issue of the word placed: `NOP`, and a `MEND` of a sequencer. -/
def placed (w : W96) : State := State.reset.withFetchWord 96 w.toNat
def nop : W96 := word 0x7D 0 0 0 0 0 0 0
theorem witness_DecodeOfEncode : ∃ i w, i.WellFormed ∧ encode i = some w := ⟨.nop ⟨h7⟩, nop, by decide +kernel⟩
theorem witness_EncodeOfDecode :
  reads nop (.nop ⟨h7⟩) := by decide +kernel

/-- What StepRunsTheDecodedWord asks of an issue. -/
def stepsAs (s : State) (i : Instr) : Bool :=
  match s.agenda with
  | ⟨dt, .issue r⟩ :: q =>
    let u := { s with agenda := q }.pass dt
    (match u.ctx? r with
     | some c => (match slotOf c.g.pc, u.xlat (some c.core) c.l.pkt.ctx c.g.pc (wantFetch c.g.priv) with
       | some k, .ok p =>
         let l := u.mem.read (paOf p c.g.pc / 64 * 64) 64
         decide (r.who = .grp 0) && !(c.g.retries.isSome && u.heldRecord c.core) && s.replays.all (· == 0) &&
           (if c.l.pkt.ord then decide (u.running c.core 0 = some r) else u.mayIssue c) && !c.g.held && !c.t.saving && !c.g.lateReady && !c.g.owedHold && !c.haltsHere &&
           decide (c.g.kill = none) && decide (c.g.exec ≠ 0) && decide (c.g.replay = none) && !c.g.entry &&
           regionOf c.g.pc == 0 && !pteSystem p && !u.isLost (paOf p c.g.pc / 64 * 64) && lineWord l / 2 ^ 18 == 0 &&
           decide (pairFault l c.g.width k = none) && parity (lineSlot l k) == bitAt (lineWord l) k &&
           (match decodeWord (lineSlot l k) with | .ok j => decide (j = i) | .error _ => false)
       | _, _ => false)
     | none => false)
  | _ => false
/-- A step leads to a next state in which the bench's group has become `r`. -/
def stepTo (s : State) (r : Res) : Bool := match step s with | .next t => decide ((grp? t me).map ofGroup = some r) | _ => false
/-- The bench's sequencer comes to issue `i`. -/
def seqFetches (s : State) (i : Instr) : Bool := match s.fetchSeq me.t with | .word j _ => decide (j = i) | _ => false
/-- A move whose way between dies a held boundary cuts. -/
def cutMove : State := { placed nop with agenda := [⟨0, .evict 0 (2 ^ 46)⟩], replays := Vector.replicate 4 1024 }
/-- The bench's group at its first word, which is no entry any more. -/
def atWord (w : W96) : State := (placed w).modGroup me fun g => { g with entry := false }
theorem witness_StepRunsTheDecodedWord :
  stepsAs (atWord nop) (.nop ⟨h7⟩) ∧
  stepTo (placed nop) (.retired 0x1000C) ∧
  (placed (word 0xDF 0 0 0 0 0 0 0)).agenda = [⟨0, .sq me.t⟩] ∧
  seqFetches (placed (word 0xDF 0 0 0 0 0 0 0)) .mend ∧
  stepsAs (atWord (word 0x84 0 0 511 0 31 0 2)) (.ctake ⟨h7, 31, .imm, 2⟩) ∧
  stepTo (atWord (word 0x84 0 0 511 0 31 0 2)) (.blocked (.ctake 31 2)) ∧
  stepTo ((atWord nop).modCore 0 fun c => { c with slots := Vector.replicate 4 (0, 0, true) }) (.retired 0x10000) ∧
  stepsAs (packet (atWord nop) fun p => { p with ord := true }) (.nop ⟨h7⟩) ∧
  stepTo (packet (atWord nop) fun p => { p with ord := true }) (.retired 0x1000C) ∧
  ((atMove cutMove ⟨0, .evict 0 (2 ^ 46)⟩ []).way (.evict 0 (2 ^ 46))).any (fun w => (route w.1 w.2 ++ route w.2 w.1).any cutMove.held) := by decide +kernel

/-- The step from a state answers a next state. -/
def goesOn (s : State) : Bool := match step s with | .next _ => true | _ => false
theorem witness_MemoryKeepsItsForm :
  State.reset.mem.wf ∧ goesOn State.reset ∧ (placed nop).mem.wf ∧ goesOn (placed nop) := by decide +kernel

theorem witness_NoPartyExecutesBetweenSteps :
  State.reset.cur = .idle ∧
  State.reset.mem.wf ∧
  goesOn State.reset ∧
  goesOn (placed nop) := by decide +kernel

theorem witness_InactiveWordsAndFirstCauses :
  ((party bench (.iadd ⟨⟨0, 0, false, .none⟩, false, .i32, true, .v 3, .v 1, .v 2, 0⟩)).any fun e =>
    !killedAt e.1 (.nop ⟨h7⟩) e.2 && inactive e.1 e.2 && e.1.g.la.all fun e => e.window != 0 || e.done) ∧
  after bench (.iadd ⟨⟨0, 0, false, .none⟩, false, .i32, true, .v 3, .v 1, .v 2, 0⟩) = .retired 0x1000C ∧
  (party bench (.iadd ⟨h7, false, .i32, true, .v 3, .v 1, .v 2, 9⟩)).isSome ∧
  after bench (.iadd ⟨h7, false, .i32, true, .v 3, .v 1, .v 2, 9⟩) = .stopped .illegal ∧
  after (bench fun g => { g with chunks := [0] }) (.iadd ⟨h7, false, .i32, true, .v 3, .v 8, .v 2, 0⟩) = .stopped .regUnmapped ∧
  after bench (.iadd ⟨h7, false, .i32, true, .v 3, .l 0, .v 2, 0⟩) = .stopped .latchStale := by decide +kernel

theorem witness_TrapStopsTheParty :
  ((bench.ctx? me).any fun c => !c.g.versioned && decide (c.core < 128)) ∧ bench.policy = none ∧
  (trapE .user 5).isFault = false := by decide +kernel

/-- A continuation of lane 0 of the bench's group under token 7, executing. -/
def helping : State := { then_ inToken (.eject ⟨h7, 7, 3, 0⟩) with cur := .grp ⟨me.t, .cont 0⟩ }
theorem witness_WordRetires :
  ((issuing bench (.iadd ⟨h7, false, .i32, true, .v 3, .v 1, .v 2, 0⟩)).any fun x =>
    plain x && !x.v.isLong && !x.replay && decide (x.c.g.kill = none) && (bench.ctx? x.c.ref).isSome) ∧
  go bench (.ctenc ⟨h7, .rne, .ct8, .v 4, .v 8, .v 9, 0⟩) ∧
  ((issuing bench (.ctenc ⟨h7, .rne, .ct8, .v 4, .v 8, .v 9, 0⟩)).any fun x =>
    x.lanes.all fun i => let m := f32 (x.val (.v 9) 32 false 0 i % 2 ^ 32); m.isFin && !m.sign) ∧
  go inToken (.eject ⟨hp, 7, 3, 0⟩) ∧
  ((issuing inToken (.eject ⟨hp, 7, 3, 0⟩)).any fun x => decide ((x.c.g.tok 7).mem ≠ 0) && x.act &&& ~~~(x.c.g.tok 7).mem == 0 &&
    decide (3 < x.c.g.chunks.length) && x.c.t.rLost.isEmpty && decide (((start x inToken).core x.c.core).helper.length + x.lanes.length ≤ 64)) ∧
  ((issuing helping (.rejoin ⟨h7, 7⟩)).any fun x => x.c.g.la.all (·.done)) ∧
  after helping (.rejoin ⟨h7, 7⟩) = .gone := by decide +kernel

theorem witness_LongWordRetires :
  ((issuing bench (.frcp ⟨h7, .rne, .f32, .v 3, .v 1, 0⟩)).any fun x => plain x && x.v.isLong && !x.replay) ∧
  after bench (.frcp ⟨h7, .rne, .f32, .v 3, .v 1, 0⟩) = .retired 0x1000C := by decide +kernel

/-- Latch 0 holds 7 in every lane; queue 1 holds 32 entries, or 3. -/
def latched : State := bench fun g => { g with l := g.l.set 0 (some ⟨List.replicate 32 7, false, 4, 2⟩) }
def queued (n : Nat) : State := team bench fun t => { t with queues := t.queues.set 1 ((List.range n).map fun k => ⟨BitVec.ofNat 32 k, []⟩) }
/-- What a word that holds its operand `a` leaves in latch 0. -/
def holds (s : State) (i : Instr) : Option Latch :=
  (issuing s i).bind fun x => x.v.held.bind fun r => if x.v.h.hold = .a then x.heldLatch .a r false else none
def ha : Hdr := ⟨0, 7, false, .a⟩
theorem witness_OperandsAndResults :
  (([(0, 7), (3, 9)] : List (Nat × Nat)).map (·.1)).Pairwise (· < ·) ∧
  go latched (.iadd ⟨h7, false, .i32, false, .v 3, .l 0, .v 2, 0⟩) ∧
  ((issuing latched (.iadd ⟨h7, false, .i32, false, .v 3, .l 0, .v 2, 0⟩)).any fun x => (x.c.g.latch 0).isSome && decide (x.val (.l 0) 32 false 0 5 = 7)) ∧
  ((holds (v3 9 0 0) (.iadd ⟨ha, false, .i32, false, .v 3, .v 1, .v 2, 0⟩)).any fun l => l.vals.getD 0 0 == 9 && l.bytes == 4) ∧
  ((holds bench (.iadd ⟨ha, true, .i64, false, .s 3, .s 1, .s 2, 0⟩)).any fun l => l.vals.getD 0 0 == 0x10200 && l.bytes == 8 && l.uniform) ∧
  ((holds (queued 32) (.iadd ⟨ha, false, .i32, false, .v 3, .q 1, .v 2, 0⟩)).any fun l => l.vals.getD 5 0 == 5 && l.bytes == 4) ∧
  ((party bench (.iadd ⟨⟨0, 0, false, .a⟩, false, .i32, false, .v 3, .q 1, .v 2, 0⟩)).any fun e => e.2.held.isSome && inactive e.1 e.2) ∧
  ((issuing (queued 32) (.iadd ⟨h7, false, .i32, false, .v 3, .q 1, .v 2, 0⟩)).any fun x =>
    decide (x.v.pops = [1]) && decide (x.v.pops.Nodup) && decide (x.c.g.kill = none) && decide (x.val (.q 1) 32 false 0 31 = 31)) ∧
  go (queued 32) (.iadd ⟨h7, false, .i32, false, .v 3, .q 1, .v 2, 0⟩) ∧
  decide (after (queued 3) (.iadd ⟨h7, false, .i32, false, .v 3, .q 1, .v 2, 0⟩) = .blocked (.pop 1 32)) ∧
  ((party (queued 3) (.iadd ⟨h7, false, .i32, false, .v 3, .q 1, .v 2, 0⟩)).any fun e => !killedAt e.1 (.nop ⟨h7⟩) e.2 && !inactive e.1 e.2 &&
    !skipped e.1 e.2 && decide ((e.1.g.la.filter fun e => !e.free).length < 16) && decide (lookOf e.1 e.2 = .go)) := by decide +kernel

/-- IADD to CLZ go on to their results from the bench, vector and uniform; ICMP to MOVI.hi. -/
theorem witness_IntegerLogicAndFields :
  ((integerWords1 ++ integerWords2.take 7).all fun e => go bench e.2) = true := by decide +kernel
theorem witness_ComparesAndMoves :
  go bench (.icmp ⟨h7, false, .gt, .i32, .p 1, .v 1, .v 2, 0⟩) ∧
  go bench (.icmp ⟨h7, true, .le, .i64, .p 1, .s 1, .s 2, 0⟩) ∧
  go bench (.sel ⟨h7, false, .b32, false, .v 3, .v 1, .v 2, .p 1, 0⟩) ∧
  go bench (.mov ⟨h7, false, .b32, false, .v 3, .v 1, 0⟩) ∧
  go bench (.movi ⟨h7, true, .i64, .s 3, 7⟩) ∧
  go bench (.moviHi ⟨h7, .s 3, 9⟩) := by decide +kernel
/-- FADD, FMUL, FFMA and the five functions. -/
theorem witness_FloatArithmetic :
  ((without [3, 4, 5, 11] floatWords1).all fun e => go bench e.2) = true := by decide +kernel

/-- Words that always retire go on to their own effect from the bench: at least one of every mnemonic. -/
def simpleWords : List Instr :=
  ((integerWords1 ++ without [9] integerWords2 ++ floatWords1 ++ without [1, 2, 6, 8] floatWords2 ++ floatWords3).map (·.2)).filter alwaysRetires
theorem test_always_retires :
  decide (simpleWords.length = 46) && (simpleWords.all fun i => go bench i) = true := by decide +kernel

/-- Numbers meet the rules: 1/2 + 1/3, 1/2 · 1/3 and 1/2 : 1/3; and the neighbour of 1/3 among FP16's values. -/
theorem witness_ExactArithmetic :
  ExactNum.add false (.fin false 1 2) (.fin false 1 3) = .fin false 5 6 ∧
  ExactNum.mul (.fin false 1 2) (.fin true 1 3) = .fin true 1 6 ∧
  ExactNum.div (.fin false 1 2) (.fin false 1 3) = .fin false 3 2 := by decide +kernel
theorem witness_RoundingPicksANeighbour :
  value (.fin false 1 3) ≤ value (decodeNum FP16 FP16.maxCode) ∧
  Machine.round FP16 .rne (.fin false 1 3) = 0x3555 ∧
  Machine.round FP16 .rup (.fin false 1 3) = 0x3556 ∧
  Machine.round FP16 .rdn (.fin true 1 3) = 0xB556 ∧
  Machine.round FP16 .rtz (.fin true 1 3) = 0xB555 ∧
  Machine.round FP32 .rto (.fin false 1 3) = 0x3EAAAAAB := by decide +kernel

theorem witness_FloatSelectionAndConversion :
  go bench (.fmax ⟨h7, .rne, .f16, .v 3, .v 1, .imm, 0x3F800000⟩) ∧
  go bench (.cvt ⟨h7, .int .i32, .rne, .f16, .v 3, .v 1, none, 0⟩) ∧
  go bench (.cvt ⟨h7, .fp .f32, .rne, .bf16x2, .v 3, .v 1, some (.v 2), 0⟩) := by decide +kernel

theorem witness_QuantiseAcrossTheGroup :
  go (bench fun g => g.setS 3 0x3F800000) (.qnt ⟨h7, .rne, .e4m3, .v 4, .v 8, .s 3, 0⟩) ∧
  stops bench .badScale (.qnt ⟨h7, .rne, .e4m3, .v 4, .v 8, .s 3, 0⟩) ∧
  exceeds [f32 0x44000000] (f32 0x3F800000) e4m3Max ∧
  !exceeds [f32 0x44000000] ((ExactNum.fin false 2 1).mul (f32 0x3F800000)) e4m3Max := by decide +kernel

theorem witness_QuantisationIsIdempotent :
  ([0x3F800000, 0x44000000].zipIdx.all fun e => decodeNum E4M3 (Machine.round E4M3 .rne
    ((f32 e.1).div (stepScale ([0x3F800000, 0x44000000].map f32) (.fin false (2 ^ 0) (2 ^ 0)) e4m3Max).1)) != .nan) := by decide +kernel

/-- A QNTT from offset 0 to offset 0x10000 of a scratchpad whose first 640 lines are full. -/
def tile : Instr := .qntt ⟨h7, false, .rne, .s 5, .s 2, .s 3, .s 4, 0⟩
def tiles (f : Group → Group) : State :=
  team (bench fun g => f ((g.setS 3 (2 ^ 55 + 0x10000)).setS 4 0x3F800000)) fun t => { t with full := (List.range 640).map fun k => (k, true) }
theorem witness_QuantiseATile :
  stops (tiles fun g => g.setS 4 0) .badScale tile ∧
  stops (tiles fun g => g.setS 2 4) .badAddress tile ∧
  stops (tiles fun g => g.setS 3 64) .badAddress tile ∧
  stops (tiles fun g => g.setS 3 (2 ^ 55 + 128)) .badAddress tile ∧
  ((issuing (tiles id) tile).any fun x =>
    decide (qnttAddr x.c.t (BitVec.ofNat 56 (2 ^ 55)) 65536 = some 0) &&
    decide (qnttAddr x.c.t (BitVec.ofNat 56 (2 ^ 55 + 0x10000)) 16384 = some 0x10000) &&
    [0, 511, 512, 639].all (fun k => x.c.t.isFull (128 * k)) &&
    !x.c.t.storeWaits 0x10000 && !x.c.mustWait [(2 ^ 64 + 0, 65536), (2 ^ 64 + 0x10000, 16384)] true) ∧
  ((issuing (tiles id) (.qntt ⟨h7, true, .rne, .s 5, .s 2, .s 3, .s 4, 0⟩)).any fun x =>
    decide (qnttAddr x.c.t (BitVec.ofNat 56 (2 ^ 55)) 65536 = some 0) && !x.c.t.storeWaits 0x10000 &&
    !x.c.mustWait [(2 ^ 64 + 0, 65536), (2 ^ 64 + 0x10000, 16384)] true) := by decide +kernel

theorem witness_CodesTablesKeysAndSeeds :
  go bench (.ctdec ⟨h7, .rne, .f32, .v 4, .v 8, .v 9, 0⟩) ∧
  go (team bench fun t => { t with loaded := true }) (.ctdec ⟨h7, .rne, .f32, .v 4, .v 8, .s 9, 0⟩) ∧
  go (team bench fun t => { t with loaded := true }) (.ctenc ⟨h7, .rne, .ct8, .v 4, .v 8, .v 9, 0⟩) ∧
  go bench (.maxkey ⟨h7, .rne, .bf16, .v 3, .v 1, .v 2, 0⟩) ∧
  go bench (.maxkey ⟨h7, .rne, .f16, .v 3, .imm, .v 2, 0x3F800000⟩) ∧
  go bench (.srseed ⟨h7, .s 1, .imm, 6⟩) ∧
  (f32 0x40000000).isFin ∧
  go bench (.dqnt ⟨h7, .rne, .bf16x2, .v 4, .v 8, .v 9, 0⟩) ∧
  go bench (.ctenc ⟨h7, .rne, .ct8, .v 4, .v 8, .v 9, 0⟩) ∧
  stops (bench fun g => g.setV 9 3 0xBF800000) .badScale (.ctenc ⟨h7, .rne, .ct8, .v 4, .v 8, .v 9, 0⟩) ∧
  (bench.team? me.t).map (·.code) = some (Vector.replicate 256 0) := by decide +kernel

theorem witness_Activations :
  go bench (.vact ⟨h7, .gelu, .rne, .f16, .v 3, .v 1, 0⟩) ∧
  go bench (.vact ⟨h7, .relu, .rne, .f32, .v 3, .v 1, 0⟩) ∧
  go bench (.vdact ⟨h7, .tanh, .rne, .bf16x2, .v 3, .v 1, .v 2, 0⟩) ∧
  go bench (.vdact ⟨h7, .softplus, .rne, .f32, .v 3, .v 1, .v 2, 0⟩) ∧
  go bench (.vdact ⟨h7, .sig, .rne, .f32, .v 3, .v 1, .v 2, 0⟩) ∧
  go bench (.vdact ⟨h7, .exp, .rne, .f32, .v 3, .v 1, .v 2, 0⟩) ∧
  go bench (.vdact ⟨h7, .relu, .rne, .f32, .v 3, .v 1, .v 2, 0⟩) ∧
  ((party bench (.vdact ⟨h7, .gelu, .rne, .f32, .v 3, .v 1, .v 2, 0⟩)).any fun e => !killedAt e.1 (.nop ⟨h7⟩) e.2 && !inactive e.1 e.2) ∧
  after bench (.vdact ⟨h7, .gelu, .rne, .f32, .v 3, .v 1, .v 2, 0⟩) = .stopped .illegal ∧
  actSpecial .tanh (.inf false) = some (.fin false 1 1) ∧
  actSpecial .tanh (.fin false 1 2) = none ∧
  actSpecial .relu (.fin true 1 2) = none := by decide +kernel

theorem witness_PermutedBytes :
  (encode (.prmt ⟨h7, .v 3, .v 1, .v 2, .v 4, 0⟩)).isSome ∧
  go bench (.prmt ⟨h7, .v 3, .v 1, .v 2, .v 4, 0⟩) := by decide +kernel

/-- GRED with each of its operations, into an s register and into the lanes. -/
theorem witness_Reductions :
  go bench (.gred ⟨h7, .add .i32, .s 3, .v 2⟩) ∧
  go bench (.gred ⟨h7, .min .i32, .s 3, .v 2⟩) ∧
  go bench (.gred ⟨h7, .max .n32, .v 3, .v 2⟩) ∧
  go bench (.gred ⟨h7, .and .b32, .s 3, .v 2⟩) ∧
  go bench (.gred ⟨h7, .or .b32, .v 3, .v 2⟩) ∧
  go bench (.gred ⟨h7, .xor .b64, .v 4, .v 2⟩) ∧
  go bench (.gred ⟨h7, .fadd .rne, .s 3, .v 2⟩) ∧
  go bench (.gred ⟨h7, .fmin, .v 3, .v 2⟩) ∧
  go bench (.gred ⟨h7, .fmax, .s 3, .v 2⟩) := by decide +kernel

theorem witness_ShufflesAndVotes :
  go bench (.shfl ⟨h7, .idx, true, .v 4, .v 2, .imm, .imm, 8⟩) ∧
  go bench (.shfl ⟨h7, .up, false, .v 3, .v 1, .v 2, .s 7, 0⟩) ∧
  go bench (.vote ⟨h7, .all, .p 2, .p 1⟩) ∧
  go bench (.vote ⟨h7, .any, .p 2, .p 1⟩) ∧
  go bench (.shfl ⟨h7, .down, false, .v 3, .v 1, .v 2, .imm, 8⟩) ∧
  go bench (.shfl ⟨h7, .xor, false, .v 3, .v 1, .imm, .imm, 8⟩) ∧
  go bench (.vote ⟨h7, .uni, .p 2, .p 1⟩) ∧
  go bench (.vote ⟨h7, .ballot, .s 2, .p 1⟩) := by decide +kernel

/-- Two lanes of a token's members have left for the pending list. -/
def split : State := then_ inToken (.brD ⟨hp, 7, 0⟩)
theorem witness_BranchesCallsAndSimpleControl :
  stops bench .illegalTarget (.bra ⟨h7, 4⟩) ∧
  stops bench .translation (.brx ⟨h7, .s 9⟩) ∧
  stops bench .translation (.ret ⟨h7, .s 9⟩) ∧
  stops bench .illegalTarget (.call ⟨h7, .s 9, 4⟩) ∧
  go bench (.yield ⟨h7⟩) ∧
  held loading .engine (.yield ⟨h7⟩) ∧
  held (team bench fun t => { t with prq := true }) .yielded (.yield ⟨h7⟩) := by decide +kernel

theorem witness_JopenOpensAToken :
  go bench (.jopen ⟨h7, 7, 64⟩) ∧
  stops inToken .token (.jopen ⟨h7, 7, 64⟩) ∧
  stops inToken .token (.jopen ⟨h7, 0, 64⟩) := by decide +kernel

/-- A guard that no lane passes. -/
def h0 : Hdr := ⟨0, 0, false, .none⟩
theorem witness_DivergentBranch :
  ((party inToken (.brD ⟨h0, 7, 0⟩)).any fun e => guarded e.1 e.2 == 0 && !killedAt e.1 (.nop ⟨h7⟩) e.2 && e.1.g.la.isEmpty) ∧
  after inToken (.brD ⟨h0, 7, 0⟩) = .retired 0x1000C ∧
  stops bench .token (.brD ⟨hp, 7, 0⟩) ∧
  stops inToken .illegalTarget (.brD ⟨h7, 7, 4⟩) ∧
  goes inToken 0x10000 (.brD ⟨h7, 7, 0⟩) ∧
  goes inToken 0x10000 (.brD ⟨hp, 7, 0⟩) ∧
  stops inToken .illegalTarget (.brD ⟨hp, 7, 4⟩) ∧
  ((grpAfter inToken (.brD ⟨hp, 7, 0⟩)).any fun g => decide (g.pend = [⟨0x1000C, 0xFFFFFF00, 7⟩]) && g.exec == 0xFF) ∧
  goes (inToken.modGroup me fun g => { g with pend := [⟨0x1000C, 0, 7⟩] }) 0x10000 (.brD ⟨hp, 7, 0⟩) ∧
  stops (inToken.modGroup me fun g => { g with pend := List.replicate 16 ⟨0x10000, 1, 7⟩ }) .token (.brD ⟨hp, 7, 0⟩) := by decide +kernel

theorem witness_JoinBreakExit :
  stops bench .token (.join ⟨h7, 7⟩) ∧
  stops bench .token (.brk ⟨h7, 7⟩) ∧
  held loading .engine (.exit ⟨h7⟩) ∧
  after bench (.exit ⟨h7⟩) = .other .ended ∧
  goes inToken 0x10000 (.join ⟨h7, 7⟩) ∧
  held (bench fun g => { g with exec := 0xFF, j := g.j.set 7 ⟨laneMask 32, 0xFFFF00, 0x10000, 0xFF000000⟩ }) (.resume 7) (.join ⟨h7, 7⟩) ∧
  goes (bench fun g => { g with exec := 0xFF, pend := [⟨0x10000, 0xFF00, 7⟩], j := g.j.set 7 ⟨laneMask 32, 0, 0x10000, 0⟩ }) 0x10000
    (.join ⟨h7, 7⟩) ∧
  stops (bench fun g => { g with exec := 0xFF, j := g.j.set 7 ⟨laneMask 32, 0, 0x10000, 0⟩ }) .token (.join ⟨h7, 7⟩) := by decide +kernel

theorem witness_GroupEnds :
  ((bench.team? me.t).any fun t => (t.grp? 0).any fun g => decide (g.st ≠ .ended)) := by decide +kernel

theorem witness_EjectAndRejoin :
  go inToken (.eject ⟨hp, 7, 3, 0⟩) ∧
  ((party bench (.rejoin ⟨h7, 7⟩)).any fun e => !killedAt e.1 (.nop ⟨h7⟩) e.2 && !inactive e.1 e.2) ∧
  after bench (.rejoin ⟨h7, 7⟩) = .stopped .illegal ∧
  ((party helping (.eject ⟨h7, 7, 3, 0⟩)).any fun e => !killedAt e.1 (.nop ⟨h7⟩) e.2 && !inactive e.1 e.2) ∧
  after helping (.eject ⟨h7, 7, 3, 0⟩) = .stopped .illegal ∧
  ((helping.team? me.t).any fun t => (t.cont? 0).any fun c => (t.grp? c.origin).isSome && decide (c.lane < 64) && !c.g.outstanding) ∧
  stops bench .token (.eject ⟨h7, 7, 3, 0⟩) ∧
  stops (inToken.modGroup me fun g => { g with chunks := [0] }) .regUnmapped (.eject ⟨h7, 7, 3, 0⟩) ∧
  held (inToken.modCore 0 fun c => { c with helper := List.replicate 33 (me.t, 0) }) .engine (.eject ⟨h7, 7, 3, 0⟩) ∧
  (issuing helping (.rejoin ⟨h7, 7⟩)).isSome ∧
  after helping (.rejoin ⟨h7, 7⟩) = .gone ∧
  stops helping .token (.rejoin ⟨h7, 6⟩) ∧
  held (helping.modGroup ⟨me.t, .cont 0⟩ fun g => { g with la := match loading.ctx? me with | some c => c.g.la | none => [] }) .engine
    (.rejoin ⟨h7, 7⟩) ∧
  stops (team inToken fun t => match t.grp? 0 with | some g => { t with rLost := [(t.regKey g 0, true)] } | none => t) .dataLost (.eject ⟨h7, 7, 3, 0⟩) := by decide +kernel

/-- Two participants at barrier 1. -/
def pairBar (f : Group → Group := id) : State := team (bench f) fun t => { t with nb := t.nb.set 1 { t.bar 1 with parts := 2, arrived := 0, phase := false } }
theorem witness_Barriers :
  ((bench.team? me.t).any fun t => (t.grp? 0).any fun g => g.idx == 0 && (t.bar 1).parts == 1) ∧
  go bench (.nbarArr ⟨h7, 1, .zero⟩) ∧
  go bench (.nbarSync ⟨h7, 1, .p 2⟩) ∧
  go pairBar (.nbarArr ⟨h7, 1, .zero⟩) ∧
  held pairBar (.nbarSync 1 true) (.nbarSync ⟨h7, 1, .zero⟩) ∧
  held (then_ pairBar (.nbarSync ⟨h7, 1, .zero⟩)) (.nbarSync 1 true) (.nbarSync ⟨h7, 1, .zero⟩) ∧
  held (packet pairBar fun p => { p with ord := true }) (.nbarArr 1 true) (.nbarArr ⟨h7, 1, .p 2⟩) ∧
  go (then_ pairBar (.nbarSync ⟨h7, 1, .zero⟩) |> fun s => team s fun t => { t with nb := t.nb.set 1 { t.bar 1 with parts := 2, arrived := 0, phase := true } })
    (.nbarSync ⟨h7, 1, .zero⟩) ∧
  stops (team bench fun t => { t with nb := t.nb.set 1 { t.bar 1 with parts := 0, arrived := 0, phase := false } }) .barrier (.nbarArr ⟨h7, 1, .zero⟩) ∧
  held (pairBar fun g => { g with arv := 2 }) (.nbarArr 1 false) (.nbarArr ⟨h7, 1, .zero⟩) ∧
  held loading .engine (.nbarArr ⟨h7, 1, .zero⟩) ∧
  stops bench .barrier (.nbarWait ⟨h7, 1⟩) ∧
  held (pairBar fun g => { g with arv := 2 }) (.nbarWait 1) (.nbarWait ⟨h7, 1⟩) ∧
  go (bench fun g => { g with arv := 2, aph := 2 }) (.nbarWait ⟨h7, 1⟩) ∧
  go (bench fun g => { g with wait := .nbarArr 1 true, arv := 2, aph := 2 }) (.nbarArr ⟨h7, 1, .p 2⟩) ∧
  acts (team (then_ pairBar (.nbarSync ⟨h7, 1, .zero⟩)) fun t => { t with nb := t.nb.set 1 { t.bar 1 with parts := 2, arrived := 0, phase := true } })
    (.barrierRelease me.t 1) := by decide +kernel

/-- Counter 1 holds 5, with groups waiting to take. -/
def ctr (takes : List (Nat × Nat)) : State := team bench fun t => t.setCtr 1 ⟨5, takes, []⟩
theorem witness_SlotCounters :
  go bench (.cgive ⟨h7, 1, .imm, 3⟩) ∧
  stops (ctr []) .counter (.cgive ⟨h7, 1, .imm, 0xFFFFFFFF⟩) ∧
  held loading .engine (.cgive ⟨h7, 1, .imm, 3⟩) ∧
  go (ctr []) (.ctake ⟨h7, 1, .imm, 0⟩) ∧
  go (ctr []) (.ctake ⟨h7, 1, .imm, 5⟩) ∧
  held (ctr []) (.ctake 1 6) (.ctake ⟨h7, 1, .imm, 6⟩) ∧
  held (ctr [(1, 9)]) (.ctake 1 1) (.ctake ⟨h7, 1, .imm, 1⟩) ∧
  held (then_ (ctr []) (.ctake ⟨h7, 1, .imm, 6⟩)) (.ctake 1 6) (.ctake ⟨h7, 1, .imm, 6⟩) ∧
  go ((ctr []).modGroup me fun g => { g with wait := .ctake 1 6 }) (.ctake ⟨h7, 1, .imm, 6⟩) ∧
  go (ctr []) (.cwait ⟨h7, 1, .imm, 5⟩) ∧
  held (ctr []) (.cwait 1 6) (.cwait ⟨h7, 1, .imm, 6⟩) ∧
  acts ((ctr [(0, 5)]).modGroup me fun g => { g with st := .blocked, wait := .ctake 1 5 }) (.takeQueueServe me.t 1) ∧
  rests (ctr [(0, 6)]) (.takeQueueServe me.t 1) ∧
  rests (ctr []) (.takeQueueServe me.t 1) := by decide +kernel

/-- The bench's group waits at a WAITF whose time has run out. -/
def overdue : State := { (bench fun g => { g with wait := .waitf 0 7 .eq 9 0x10200, st := .run }) with clock := 7 }
/-- An ordered launch whose word at 0x10200 another group of the team wrote in this epoch. -/
def raced : State := launch (packet bench fun p => { p with ord := true }) fun l =>
  { l with track := [(0x10200 / 4, ⟨[⟨0, 9, 0x10040, 0, 5, 0⟩], []⟩)] }
theorem witness_WaitOnMemory :
  go bench (.waitf ⟨h7, .eq, .s 7, g1⟩) ∧
  held (bench fun g => g.setS 7 (2 ^ 32 * 5 + 9)) (.waitf 0 5 .eq 9 0x10200) (.waitf ⟨h7, .eq, .s 7, g1⟩) ∧
  stops (bench fun g => g.setS 7 9) .waitTimeout (.waitf ⟨h7, .eq, .s 7, g1⟩) ∧
  stops bench .badAddress (.waitf ⟨h7, .eq, .s 7, odd⟩) ∧
  held (then_ bench (.st ⟨h7, .b32, false, .v 9, g1⟩) |>.modGroup me fun g => g.setS 7 (2 ^ 32 * 5)) (.waitf 0 5 .eq 0 0x10200) (.waitf ⟨h7, .eq, .s 7, g1⟩) ∧
  stops { (then_ bench (.st ⟨h7, .b32, false, .v 9, g1⟩) |>.modGroup me fun g => { g.setS 7 (2 ^ 32 * 5) with wait := .waitf 0 5 .eq 0 0x10200 }) with clock := 5 }
    .waitTimeout (.waitf ⟨h7, .eq, .s 7, g1⟩) ∧
  stops (bench fun g => g.setS 1 (2 ^ 54)) .permission (.waitf ⟨h7, .eq, .s 7, g1⟩) ∧
  stops raced .orderRace (.waitf ⟨h7, .eq, .s 7, g1⟩) ∧
  ((issuing bench (.waitf ⟨h7, .eq, .s 7, g1⟩)).any fun x => (x.ownLook [(lowLane x.c.g.exec, x.uaddr g1)]).isNone) ∧
  ((overdue.ctx? me).any fun c => c.g.wait == .waitf 0 7 .eq 9 0x10200) ∧
  acts overdue (.waitTimeout me) ∧
  rests { overdue with clock := 6 } (.waitTimeout me) := by decide +kernel

theorem witness_RegisterPool :
  go bench (.rgive ⟨h7, .imm, 2⟩) ∧
  stops bench .pool (.rgive ⟨h7, .imm, 32⟩) ∧
  held (bench fun g => { g with la := match (then_ bench (.ld ⟨⟨7, 7, false, .none⟩, .b32, false, false, .v 255, g1⟩)).ctx? me with | some c => c.g.la | none => [] })
    .engine (.rgive ⟨h7, .imm, 2⟩) ∧
  go spare (.rclaim ⟨h7, .imm, 2⟩) ∧
  go spare (.rclaim ⟨h7, .imm, 0⟩) ∧
  stops spare .pool (.rclaim ⟨h7, .imm, 3⟩) ∧
  held (team spare fun t => { t with pool := { t.pool with free := [30] } }) (.rclaim 2) (.rclaim ⟨h7, .imm, 2⟩) ∧
  held (then_ (team spare fun t => { t with pool := { t.pool with free := [30] } }) (.rclaim ⟨h7, .imm, 2⟩)) (.rclaim 2)
    (.rclaim ⟨h7, .imm, 2⟩) ∧
  go (spare.modGroup me fun g => { g with wait := .rclaim 2 }) (.rclaim ⟨h7, .imm, 2⟩) ∧
  acts { (then_ bench (.rgive ⟨h7, .imm, 2⟩)) with clock := 4 } (.chunkReturn me.t) ∧
  acts (team (then_ (team spare fun t => { t with pool := { t.pool with free := [30] } }) (.rclaim ⟨h7, .imm, 2⟩)) fun t =>
    { t with pool := { t.pool with free := [30, 31] } }) (.claimQueueServe me.t false) ∧
  rests bench (.claimQueueServe me.t false) := by decide +kernel

/-- A governor of role 0 that has chosen the group of a bench, which is to hold `n` chunks, or keeps its own for 0. -/
def ruled (s : State) (n : Nat) : State := launch (team s fun t => { t with gov := ⟨9, true, 0⟩ }) fun l =>
  { l with gov := some ⟨true, 3, n, 2, 0, 0, 1, 5, 0x10000⟩ }
def governed : State := ruled bench 0
theorem witness_RolesAndGovernor :
  stops inToken .token (.rswitch ⟨h7, .s 6, .s 5, 0⟩) ∧
  stops (bench fun g => { g with pend := [⟨0x10000, 1, 7⟩] }) .token (.rswitch ⟨h7, .s 6, .s 5, 0⟩) ∧
  stops bench .illegalTarget (.rswitch ⟨h7, .s 6, .s 5, 4⟩) ∧
  held loading .engine (.rswitch ⟨h7, .s 6, .s 5, BitVec.ofInt 32 (-12)⟩) ∧
  goes bench 0x10000 (.rswitch ⟨h7, .s 6, .s 5, 0⟩) ∧
  goes (bench fun g => g.setS 5 2) 0x10000 (.rswitch ⟨h7, .s 6, .s 5, 0⟩) ∧
  goes (spare.modGroup me fun g => g.setS 5 32) 0x10000 (.rswitch ⟨h7, .s 6, .s 5, 0⟩) ∧
  stops (bench fun g => g.setS 5 33) .pool (.rswitch ⟨h7, .s 6, .s 5, 0⟩) ∧
  held ((team spare fun t => { t with pool := { t.pool with free := [30] } }).modGroup me fun g => g.setS 5 32) (.rclaim 2)
    (.rswitch ⟨h7, .s 6, .s 5, 0⟩) ∧
  go bench (.rpoint ⟨h7⟩) ∧
  goes governed 0x10000 (.rpoint ⟨h7⟩) ∧
  acts (team governed fun t => { t with gov := ⟨9, false, 0⟩ }) (.governorArm me.t) ∧
  rests (team governed fun t => { t with gov := ⟨4, false, 0⟩ }) (.governorArm me.t) ∧
  goes (ruled bench 32) 0x10000 (.rpoint ⟨h7⟩) ∧
  goes (ruled bench 2) 0x10000 (.rpoint ⟨h7⟩) ∧
  goes (ruled spare 32) 0x10000 (.rpoint ⟨h7⟩) ∧
  held (ruled (team spare fun t => { t with pool := { t.pool with free := [30] } }) 32) (.rclaim 2) (.rpoint ⟨h7⟩) ∧
  held (then_ (ruled (team spare fun t => { t with pool := { t.pool with free := [30] } }) 32) (.rpoint ⟨h7⟩)) (.rclaim 2) (.rpoint ⟨h7⟩) ∧
  goes ((ruled bench 32).modGroup me fun g => { g with wait := .rclaim 2 }) 0x10000 (.rpoint ⟨h7⟩) ∧
  held (ruled loading 0) .engine (.rpoint ⟨h7⟩) ∧
  stops (launch (ruled bench 0) fun l => { l with gov := l.gov.map fun r => { r with entry := 0x10004 } }) .illegalTarget (.rpoint ⟨h7⟩) := by decide +kernel

/-- The one group of the bench's team waits for a counter that never comes. -/
def stuck : State := then_ bench (.cwait ⟨h7, 9, .imm, 2⟩)
theorem witness_TeamStall :
  ((stuck.team? me.t).any fun t => (stuck.launch? 1).any fun l => t.stalled l) ∧
  acts stuck (.teamStall me.t) ∧
  rests bench (.teamStall me.t) ∧
  ((stuck.team? me.t).any fun t => !t.engineWork && (stuck.launch? 1).any fun l => t.liveGroups.all fun g => (g.blockedOn t).isSome && !g.released l t) ∧
  ((loading.team? me.t).any fun t => t.engineWork) ∧
  stuck.policy = none ∧
  ((stuck.team? me.t).any fun t => decide ((t.groups.map (·.idx)).Pairwise (· ≠ ·))) := by decide +kernel

/-- A timetable with one arrival at markers 1 and 2, and a range due at marker 2 whose page is not mapped. -/
def marks (trap : Bool) : Option Timetable := some ⟨[0, 1, 1], 0, trap, [⟨0x40000, 0x10000, 2, 0, true, .fetch, none, false, false, []⟩]⟩
def marked (trap : Bool) : State := launch bench fun l => { l with tt := marks trap }
/-- The same launch in ordered mode, its group about to mark. -/
def ordered : State := packet (marked false) fun p => { p with ord := true }
theorem witness_Markers :
  go bench (.mark ⟨h7, 1⟩) ∧
  go (marked false) (.mark ⟨h7, 1⟩) ∧
  held (marked false) (.check 2 0 false [(0, 0x40000)]) (.mark ⟨h7, 2⟩) ∧
  go (then_ (marked false) (.mark ⟨h7, 2⟩) |> fun s => s.modGroup me fun g => { g with wait := .check 2 0 false [] }) (.mark ⟨h7, 2⟩) ∧
  held (then_ (marked false) (.mark ⟨h7, 2⟩)) (.check 2 0 false [(0, 0x40000)]) (.mark ⟨h7, 2⟩) ∧
  stops { (then_ (marked false) (.mark ⟨h7, 2⟩)) with clock := 65536 } .scheduleMiss (.mark ⟨h7, 2⟩) ∧
  stops (marked true) .scheduleMiss (.mark ⟨h7, 2⟩) ∧
  rests { (then_ (marked false) (.mark ⟨h7, 2⟩)) with clock := 65535 } (.scheduleMissTimeout me) ∧
  acts { (then_ (marked false) (.mark ⟨h7, 2⟩)) with clock := 65536 } (.scheduleMissTimeout me) ∧
  go ordered (.mark ⟨h7, 1⟩) ∧
  ((issuing ordered (.mark ⟨h7, 1⟩)).any fun x => x.c.quiet && !x.c.copying && decide (x.c.t.seg = none) && decide (x.c.g.wait = .none) &&
    let here := ((start x ordered).releaseDev x.c.core).arriveOrd x.c.ref.t x.c.g.idx 1
    (here.launch? 1).any fun l =>
      !l.reached.contains 1 && l.allArrived 1 && decide (l.checker 1 = some (me.t, 0)) && (here.misses l 1).isEmpty) ∧
  held (launch (packet ordered fun p => { p with groups := 2 }) id |> fun s => team s fun t =>
    { t with groups := t.groups ++ t.groups.map fun g => { g with idx := 1 } }) (.mark 1 0) (.mark ⟨h7, 1⟩) ∧
  stops (ordered.modGroup me fun g => { g with lastMark := some 1 }) .illegal (.mark ⟨h7, 1⟩) ∧
  held (packet (launch loading fun l => { l with tt := marks false }) fun p => { p with ord := true }) .engine (.mark ⟨h7, 1⟩) ∧
  go (launch (ordered.modGroup me fun g => { g with wait := .mark 1 0 }) fun l => { l with reached := [1] }) (.mark ⟨h7, 1⟩) ∧
  acts { (ordered.modGroup me fun g => { g with wait := .mark 1 0 }) with clock := 2 ^ 26 } (.markTimeout me) ∧
  rests { (ordered.modGroup me fun g => { g with wait := .mark 1 0 }) with clock := 2 ^ 26 - 1 } (.markTimeout me) ∧
  ((raced.ctx? me).any fun c => (raced.launch? 1).any fun l => let p := c.pty 0x10000
    p.ord && decide (p.launch = 1) && (Store.get Track.none l.track (0x10200 / 4)).racer p true 0 != none &&
    (Store.get Track.none l.track (0x10208 / 4)).racer p true 0 == none) ∧
  rests { (ordered.modGroup me fun g => { g with wait := .mark 1 0, st := .stopped }) with clock := 2 ^ 26 } (.markTimeout me) ∧
  rests { (then_ (marked false) (.mark ⟨h7, 2⟩) |>.modGroup me fun g => { g with st := .stopped }) with clock := 65536 } (.scheduleMissTimeout me) := by decide +kernel

/-- A queued task without version. -/
def queue (s : State) : State := launch s fun l => { l with tasks := [⟨0x10200, List.replicate 64 0, 0, none, 0, false⟩] }
theorem witness_TakingAndEndingTasks :
  go (tasks false) (.tnext ⟨h7, .s 4⟩) ∧
  stops bench .task (.tnext ⟨h7, .s 4⟩) ∧
  stops (tasks true) .task (.tnext ⟨h7, .s 4⟩) ∧
  stops bench .task (.tdone ⟨h7⟩) ∧
  go (tasks true) (.tdone ⟨h7⟩) ∧
  (List.replicate 64 (0 : Byte)).length = 64 ∧
  taskSucc (List.replicate 64 0) = 0 ∧
  held (loading.modGroup me fun g => { g with task := some ⟨0x10200, List.replicate 64 0, none, none, 0⟩ }) .engine (.tdone ⟨h7⟩) ∧
  (((queue (tasks false)).ctx? me).any fun c => decide ((c.l.nextTask 0 0).map (·.1) = some 0) && !taskVers (List.replicate 64 0)) ∧
  (((tasks false).ctx? me).any fun c => c.l.tasks.isEmpty && !(tasks false).anyCurrent 1 && c.l.saved.isEmpty) ∧
  acts { queue bench with clock := 4096 } (.affinityWaitExpiry 1) ∧
  rests { queue bench with clock := 4095 } (.affinityWaitExpiry 1) := by decide +kernel

theorem witness_SpawningTasks :
  stops bench .task (.tspawn ⟨h7, .s 1⟩) ∧
  stops ((tasks false).modGroup me fun g => g.setS 1 0x10204) .badAddress (.tspawn ⟨h7, .s 1⟩) ∧
  held (packet loading fun p => { p with tasks := true }) .engine (.tspawn ⟨h7, .s 1⟩) ∧
  go (tasks false) (.tspawn ⟨h7, .s 1⟩) ∧
  stops (poke (tasks false) 0x10200 (List.replicate 64 0xFF)) .badRecord (.tspawn ⟨h7, .s 1⟩) ∧
  ((issuing (tasks false) (.tspawn ⟨h7, .s 1⟩)).any fun x => decide (x.c.l.dead (taskScope (List.replicate 64 0)) = none) &&
    x.c.l.freePlace.isSome && x.c.l.inScope x.c.spawnScope 0) ∧
  ((bench.launch? 1).any fun l => !l.inScope 0 7) ∧
  go { ((tasks false).modGroup me fun g => { g with task := some ⟨0x10200, List.replicate 64 0, none, some 1, 0⟩ }) with versions := [⟨1, 1, me.t, some 0, [], [], [], []⟩] }
    (.tspawn ⟨h7, .s 1⟩) ∧
  ((issuing { ((tasks false).modGroup me fun g => { g with task := some ⟨0x10200, List.replicate 64 0, none, some 1, 0⟩ }) with versions := [⟨1, 1, me.t, some 0, [], [], [], []⟩] }
    (.tspawn ⟨h7, .s 1⟩)).any fun x => decide (x.c.taskVersion = some 1) && x.c.l.freePlace.isSome) := by decide +kernel

/-- Scope 1 under scope 0, and it cancelled. -/
def opened : State := then_ bench (.tscope ⟨h7, .s 4, .imm, .zero, 0⟩)
def cancelled : State := then_ opened (.cancel ⟨h7, .imm, 1⟩)
theorem witness_ScopesAndCancellation :
  go bench (.tscope ⟨h7, .s 4, .imm, .zero, 0⟩) ∧
  stops bench .scope (.tscope ⟨h7, .s 4, .imm, .zero, 9⟩) ∧
  stops (bench fun g => g.setS 9 4) .badAddress (.tscope ⟨h7, .s 4, .imm, .s 9, 0⟩) ∧
  stops bench .scope (.cancel ⟨h7, .imm, 9⟩) ∧
  goes opened 0x10018 (.cancel ⟨h7, .imm, 1⟩) ∧
  ((cancelled.launch? 1).any fun l => (l.scopes.find? (fun z => z.num == 1)).any fun y => y.acking != 0 && cancelled.settled l 1) ∧
  cancelled.srcRoom 1 .cmdProc ∧
  rests bench (.groupKill me) ∧
  rests opened (.cancelAck 1 1) ∧
  acts cancelled (.cancelAck 1 1) ∧
  acts { (bench fun g => { g with kill := some ⟨0, 1, false⟩ }) with clock := 4096 } (.groupKill me) ∧
  rests { (bench fun g => { g with kill := some ⟨0, 1, false⟩ }) with clock := 4095 } (.groupKill me) ∧
  ((tasks true).launch? 1).any (fun l => ((tasks true).ctx? me).any fun c => l.kills 0 c.g && decide (c.g.kill = none)) ∧
  ((bench.launch? 1).any fun l => (bench.ctx? me).any fun c => !l.pkt.tasks && l.kills 0 c.g) ∧
  (opened.launch? 1).any (fun l => l.scopes.any fun y => y.num == 1 && !y.cancelled) := by decide +kernel

/-- Register v9 of the bench's own group through the aperture, which a load with window 7 has still to write; and that load delivered. -/
def own9 : MemOp := { l1 with off := 0x40000900 }
def loaded9 : State := loading.modGroup me fun g => { g with la := g.la.map fun e => { e with done := true } }
theorem witness_LoadsAndAtomics :
  held loading .engine (.ld ⟨h7, .b32, false, false, .v 3, own9⟩) ∧
  stops loaded9 .lookahead (.ld ⟨h7, .b32, false, false, .v 3, own9⟩) ∧
  stops bench .translation (.ld ⟨h7, .b32, false, false, .v 3, { g1 with off := 0x10000 }⟩) ∧
  held (then_ twin (.tcons ⟨⟨7, 7, false, .none⟩, true, .v 9, g1⟩)) .engine (.ld ⟨h7, .b32, false, true, .v 3, g1⟩) ∧
  stops bench .badAddress (.ld ⟨h7, .b32, false, false, .v 3, { l1 with off := 0x7FFFFF00 }⟩) ∧
  go bench (.ld ⟨h7, .b32, false, false, .v 3, g1⟩) ∧
  go bench (.ld ⟨h7, .b8, true, false, .v 3, g1⟩) ∧
  go filled (.ld ⟨h7, .b32, false, false, .v 3, l1⟩) ∧
  held (then_ bench (.st ⟨h7, .b32, false, .v 9, g1⟩)) .engine
    (.ld ⟨h7, .b32, false, false, .v 3, g1⟩) ∧
  held bench (.emptyLine 0) (.lds ⟨h7, .b32, false, .v 3, l1⟩) ∧
  stops filled .badAddress (.lds ⟨h7, .b32, false, .v 3, { l1 with off := 0x7FFFFF00 }⟩) ∧
  go filled (.lds ⟨h7, .b32, false, .v 3, l1⟩) ∧
  held (then_ filled (.atoms ⟨⟨7, 7, false, .none⟩, .add, false, .v 4, .v 8, l1⟩)) .engine (.lds ⟨h7, .b32, false, .v 3, l1⟩) ∧
  stops bench .badAddress (.atom ⟨h7, .add, false, false, false, .v 6, .v 8, odd⟩) ∧
  held loading .engine (.atom ⟨h7, .add, false, true, false, .v 6, .v 8, g1⟩) ∧
  go bench (.atom ⟨h7, .add, false, false, false, .v 6, .v 8, g1⟩) ∧
  go bench (.atom ⟨h7, .cas, true, true, true, .v 6, .v 8, g1⟩) ∧
  held bench (.emptyLine 0) (.atoms ⟨h7, .add, false, .v 3, .v 8, l1⟩) ∧
  go filled (.atoms ⟨h7, .add, false, .v 3, .v 8, l1⟩) ∧
  stops filled .badAddress (.atoms ⟨h7, .add, false, .v 3, .v 8, { l1 with off := 2 }⟩) ∧
  go bench (.ld ⟨h7, .b32, false, false, .zero, g1⟩) := by decide +kernel

theorem witness_Stores :
  held loading .engine (.st ⟨h7, .b32, false, .v 3, own9⟩) ∧
  go bench (.st ⟨h7, .b32, false, .v 3, own9⟩) ∧
  go (team bench fun t => { t with full := [(0, true)] }) (.st ⟨h7, .b32, false, .v 3, l1⟩) ∧
  held bound .engine (.sts ⟨h7, .b32, false, .v 3, l1⟩) ∧
  stops (team bench fun t => { t with spLost := [(0, true)], full := [(0, true)] }) .dataLost (.sts ⟨h7, .b32, false, .v 3, l1⟩) ∧
  ((bench.team? me.t).any fun t => t.storeLost [(⟨0, BitVec.ofNat 56 (2 ^ 55), []⟩, [0])] == none) ∧
  stops bench .badAddress (.st ⟨h7, .b32, true, .v 3, odd⟩) ∧
  held loading .engine (.st ⟨h7, .b32, true, .v 3, g1⟩) ∧
  go bench (.st ⟨h7, .b64, true, .v 4, g1⟩) ∧
  go bench (.st ⟨h7, .b8, false, .v 3, g1⟩) ∧
  go bench (.sts ⟨h7, .b32, false, .v 3, l1⟩) ∧
  stops filled .badAddress (.sts ⟨h7, .b32, false, .v 3, { l1 with off := 0x7FFFFF00 }⟩) ∧
  ((bench.team? me.t).any fun t => (match t.localCheck (BitVec.ofNat 56 (2 ^ 55 + 256)) 4 .store with | .ok (.spad o) => o == 256 | _ => false)) ∧
  ((grpAfter bench (.st ⟨h7, .b32, false, .v 3, g1⟩)).any fun g => g.posted.length == 1) ∧
  ((issuing bench (.st ⟨h7, .b32, false, .v 3, g1⟩)).any fun x => x.c.g.parted.isEmpty) := by decide +kernel

/-- The bench after an FRCP, its entry outstanding. -/
def dividing : State := { then_ bench (.frcp ⟨⟨7, 7, false, .none⟩, .rne, .f32, .v 3, .v 1, 0⟩) with cur := .idle }
/-- A uniform load of 4 bytes outstanding, and an atomic of one lane. -/
def uload : State := { then_ bench (.ld ⟨⟨7, 7, false, .none⟩, .b32, false, false, .s 9, g1⟩) with cur := .idle }
def atom1 : State := { then_ (bench fun g => { g with exec := 1 }) (.atom ⟨⟨7, 7, false, .none⟩, .add, false, false, false, .v 6, .v 8, g1⟩) with cur := .idle }
def entry (s : State) : Option (Ctx × LaEnt) := (s.ctx? me).bind fun c => (c.g.la[0]?).map fun e => (c, e)
/-- A reciprocal on its way into queue 1, behind a store; two loads of the same bytes; a load of a lost line; a load that failed. -/
def pushing (s : State) : State := { then_ s (.frcp ⟨⟨7, 7, false, .none⟩, .rne, .f32, .q 1, .v 1, 0⟩) with cur := .idle }
def twoLoads : State := { then_ (then_ bench (.ld ⟨⟨7, 7, false, .none⟩, .b32, false, false, .s 9, g1⟩))
  (.ld ⟨⟨7, 7, false, .none⟩, .b32, false, false, .s 10, g1⟩) with cur := .idle }
def lostLoad : State := uload.setLost 0x10200 true
def failedLoad : State := uload.modGroup me fun g => { g with la := g.la.map fun e => { e with fail := some ⟨.dataLost, 0x10200, 0, none⟩ } }
/-- A TNEXT while no task is queued and another group of the team has one. -/
def asking : State := { (team (then_ (tasks false) (.tnext ⟨⟨7, 7, false, .none⟩, .s 4⟩)) fun t => { t with
  groups := t.groups ++ t.groups.map fun g => { g with idx := 1, la := [], task := some ⟨0x10200, List.replicate 64 0, none, none, 0⟩ } }) with cur := .idle }
/-- A piece of one word of the bench's page. -/
def onePiece : Piece := ⟨0x10200, 0x10200, 4, benchPte⟩
theorem witness_LongLatencyResults :
  ((entry (pushing storing)).any fun e => isPush e.2 && e.1.pushHeld 0 e.2) ∧
  rests (pushing storing) (.longLatencyDelivery me 0) ∧
  ((entry (pushing bench)).any fun e => isPush e.2 && !e.1.pushHeld 0 e.2) ∧
  acts (pushing bench) (.longLatencyDelivery me 0) ∧
  ((twoLoads.ctx? me).any fun c => (c.g.la[1]?).any fun e => c.loadBehind 1 e) ∧
  rests twoLoads (.longLatencyDelivery me 1) ∧
  ((entry lostLoad).any fun e => match e.2.op with
    | .load [l] => (match ((lostLoad.joinFull e.1 (e.1.delivered e.2 [l])).loadLane e.1 (e.1.delivered e.2 [l]) e.2 l).1 with
      | .error _ => true | .ok _ => false)
    | _ => false) ∧
  ((entry asking).any fun e => decide (e.2.op = .tnext) && (asking.serveTnext e.1).isNone) ∧
  rests asking (.longLatencyDelivery me 0) ∧
  ((entry failedLoad).any fun e => e.2.fail.isSome && e.1.g.lateReady && !e.1.g.versioned) ∧
  acts failedLoad (.lateFailure me 0) ∧
  rests (failedLoad.modGroup me fun g => { g with st := .stopped }) (.lateFailure me 0) ∧
  ((bench.core 0).l1Find (lineOf 0x10200)).isNone ∧
  !bench.isLost 0x10200 ∧
  onePiece.cached ∧
  (bench.core 0).l1.length < bench.l1Room 0 ∧
  ((storing.ctx? me).any fun c => (c.g.posted[0]?).any fun p => !c.postBehind 0 p && p.sent.isNone && p.vers.isNone && !isRel p.word &&
    (storing.postWrite (c.postPty p) p.covers p.stores).1.isNone) ∧
  ((entry dividing).any fun e => !e.2.done && decide (dividing.asked e.1 0 e.2 = none) && (match e.2.op with | .write _ => true | _ => false)) ∧
  acts dividing (.longLatencyDelivery me 0) ∧
  rests { then_ dividing (.longLatencyDelivery me 0) with cur := .idle } (.longLatencyDelivery me 0) ∧
  ((entry uload).any fun e => (match e.2.op with | .load [_] => true | _ => false) && !isCounted e.2.word && !isAcq e.2.word && !isPush e.2) ∧
  acts uload (.longLatencyDelivery me 0) ∧
  ((entry atom1).any fun e => (match e.2.op with | .atomic [_] [_] [_] => true | _ => false) && !isAcq e.2.word && !isPush e.2) ∧
  acts atom1 (.longLatencyDelivery me 0) ∧
  acts { (queue (then_ (tasks false) (.tnext ⟨⟨7, 7, false, .none⟩, .s 4⟩))) with cur := .idle } (.longLatencyDelivery me 0) ∧
  acts { storing with cur := .idle } (.storeAcknowledged me 0) ∧
  rests bench (.lateFailure me 0) ∧
  wholeWords 0x10200 4 ∧
  (bench.l1Cores 0).all (fun k => ((bench.core k).l1Find (lineOf 0x10200)).isNone && decide ((bench.core k).l1.length < bench.l1Room k)) ∧
  bench.l1Core 0 (lineOf 0x10200) < 128 := by decide +kernel

/-- The L1 holds a table of 256 rising codes at 0x10400; `e` is the last of them. -/
def table (e : W32) : State := bench.modCore 0 fun c => { c with l1 := (List.range 8).map fun k =>
  ⟨0x10400 + 128 * k, BitVec.allOnes 32, 0, Vector.ofFn fun (j : Fin 32) =>
    if 32 * k + j.val = 255 then e else BitVec.ofNat 32 (0x3F800000 + 32 * k + j.val), none, 0x10000⟩ }
theorem witness_FencesCachesAndTables :
  held (then_ bench (.ld ⟨⟨7, 7, false, .none⟩, .b32, true, false, .v 9, g1⟩)) .engine (.pref ⟨h7, true, g1⟩) ∧
  go bench (.cflush ⟨h7, g1⟩) ∧
  go bench (.cinv ⟨h7, g1⟩) ∧
  go filled (.spstate ⟨h7, .p 1, l1⟩) ∧
  go filled (.spempty ⟨h7, .zero, l1⟩) ∧
  go (table 0x3F8000FF) (.ctld ⟨h7, { g1 with off := 0x200 }⟩) ∧
  stops (table 1) .badTable (.ctld ⟨h7, { g1 with off := 0x200 }⟩) ∧
  go bench (.fence ⟨h7, g1⟩) ∧
  go bench (.fence ⟨h7, l1⟩) ∧
  stops (bench fun g => g.setS 1 0) .translation (.fence ⟨h7, g1⟩) ∧
  held loading .engine (.fence ⟨h7, g1⟩) ∧
  go bench (.pref ⟨h7, true, g1⟩) ∧
  stops (bench fun g => g.setS 1 (2 ^ 54)) .permission (.pref ⟨h7, true, g1⟩) ∧
  go bench (.cinv ⟨h7, l1⟩) ∧
  held loading .engine (.cflush ⟨h7, g1⟩) ∧
  stops (bench fun g => g.setS 1 0) .translation (.cinv ⟨h7, g1⟩) ∧
  stops filled .badAddress (.spempty ⟨h7, .s 3, { l1 with off := 0x7FFFFF00 }⟩) ∧
  stops (filled.modGroup me fun g => g.setS 3 0x10000) .badAddress (.spempty ⟨h7, .s 3, l1⟩) ∧
  go (filled.modGroup me fun g => g.setS 3 2) (.spempty ⟨h7, .s 3, l1⟩) ∧
  held (then_ bound (.warm ⟨h7, 5, true, .zero, 0⟩) |>.modGroup me fun g => g.setS 3 1) .engine (.spempty ⟨h7, .s 3, l1⟩) ∧
  stops filled .badAddress (.spstate ⟨h7, .p 1, { l1 with off := 0x7FFFFF00 }⟩) ∧
  stops (bench fun g => g.setS 1 0x10204) .badAddress (.ctld ⟨h7, g1⟩) ∧
  bench.l1Cores 0 = [0] := by decide +kernel

/-- Two lines later, the same window again; and a window being filled. -/
def filling : State := then_ bound (.warm ⟨h7, 5, true, .zero, 0⟩)
/-- An acquire that has not read. -/
def acquiring (s : State) : State := then_ s (.ld ⟨⟨7, 7, false, .none⟩, .b32, true, false, .v 9, g1⟩)
theorem witness_WindowWords :
  held (acquiring bound) .engine (.wput ⟨h7, 5⟩) ∧
  held (acquiring bound) .engine (.warm ⟨h7, 5, true, .s 0, 64⟩) ∧
  held (acquiring (poke bench 0x10200 (bytesOf 64 (desc 2 1 32 128)))) .engine (.wbind ⟨h7, 5, true, .s 1, 0⟩) ∧
  go bound (.wput ⟨h7, 5⟩) ∧
  go (poke bench 0x10200 (bytesOf 64 (desc 2 1 32 128))) (.wbind ⟨h7, 5, true, .s 1, 0⟩) ∧
  stops (poke bench 0x10200 (bytesOf 64 (desc 2 1 32 128 - 128 * 2 ^ 288 + 16 * 2 ^ 448))) .badAddress (.wbind ⟨h7, 5, false, .s 1, 0⟩) ∧
  stops (poke bench 0x10200 (bytesOf 64 (desc 2 1 32 128 + 16 * 2 ^ 384))) .badAddress (.wbind ⟨h7, 5, false, .s 1, 0⟩) ∧
  stops (poke bench 0x10200 (bytesOf 64 (desc 2 1 64 128))) .badRecord (.wbind ⟨h7, 5, false, .s 1, 0⟩) ∧
  go bound (.wstate ⟨h7, 5, .full, .p 1⟩) ∧
  go bound (.wstate ⟨h7, 5, .absent, .p 1⟩) ∧
  go bench (.wbind ⟨h7, 5, false, .s 9, 0⟩) ∧
  goes filling 0x10018 (.wstate ⟨h7, 5, .idle, .p 1⟩) ∧
  held filling .engine (.wbind ⟨h7, 5, false, .s 1, 0⟩) ∧
  stops bench .badAddress (.wbind ⟨h7, 5, false, .s 1, 4⟩) ∧
  stops bench .badRecord (.wbind ⟨h7, 5, false, .s 1, 0⟩) ∧
  go (poke bench 0x10200 (bytesOf 64 (desc 2 1 32 128))) (.wbind ⟨h7, 5, false, .s 1, 0⟩) ∧
  stops (poke bound 0x10200 (bytesOf 64 (desc 2 1 32 128))) .badWindow (.wbind ⟨h7, 6, false, .s 1, 0⟩) ∧
  stops (poke bench 0x10200 (bytesOf 64 (desc 2 4096 32 16384))) .badAddress (.wbind ⟨h7, 5, false, .s 1, 0⟩) ∧
  stops bench .badWindow (.warm ⟨h7, 5, false, .s 0, 64⟩) ∧
  held filling .engine (.warm ⟨h7, 5, false, .s 0, 64⟩) ∧
  go bound (.warm ⟨h7, 5, true, .s 0, 64⟩) ∧
  stops bench .badWindow (.wput ⟨h7, 5⟩) ∧
  held filling .engine (.wput ⟨h7, 5⟩) ∧
  go bench (.wstate ⟨h7, 5, .bound, .p 1⟩) ∧
  held (then_ (bind filled 5 (desc 2 1 32 128)) (.atoms ⟨⟨7, 7, false, .none⟩, .add, false, .v 4, .v 8, l1⟩)) .engine (.wput ⟨h7, 5⟩) := by decide +kernel

/-- The write-back of the bound window, whose line is full; the fill of a window over an unmapped page. -/
def writing : State := { (then_ (bind filled 5 (desc 2 1 32 128) |> fun s => team s fun t => { t with full := [(0, true)] }) (.wput ⟨h7, 5⟩)) with cur := .idle }
def badFill : State := { (then_ (bind bench 5 (desc 2 1 32 128 + 0x60000 * 2 ^ 320)) (.warm ⟨h7, 5, true, .zero, 0⟩)) with cur := .idle }
/-- A copy step's result. -/
def stepOf (s : State) : Nat := match s.copyStep me.t 5 with | .moved _ => 0 | .fault _ _ => 1 | .waits => 2 | _ => 3
theorem witness_Copies :
  stepOf { filling with cur := .idle } = 0 ∧
  stepOf badFill = 1 ∧
  stepOf bench = 2 ∧
  acts badFill (.copyFault me.t 5) ∧
  rests badFill (.copyLine me.t 5) ∧
  stepOf (team writing fun t => { t with full := [] }) = 2 ∧
  ((writing.team? me.t).any fun t => writing.copyActive t 5 && decide ((t.win 5).st = .writing) && t.serves 0 && !t.spadLost 0 &&
    ((t.win 5).desc.any fun d => !d.orient && !d.rel && (d.rowAddr (t.win 5).ofs (t.win 5).next).isSome && !writing.isLost 0x10000 &&
      (match (writing.enginePieces t.core 0 (wantStore false .drainWrite) false (recParts 0x10000 128)).1 with | .ok [_] => true | _ => false))) ∧
  ((filling.team? me.t).any fun t => match (filling.enginePieces t.core 0 (wantLoad false .fillRead) false (recParts 0x10000 128)).1 with
    | .ok ps => ps.all fun p => !filling.isLost p.pa
    | _ => false) ∧
  acts { filling with cur := .idle } (.copyLine me.t 5) ∧
  rests { filling with cur := .idle } (.copyFault me.t 5) ∧
  rests { bound with cur := .idle } (.copyLine me.t 5) ∧
  ((filling.team? me.t).any fun t => filling.copyActive t 5 && decide ((t.win 5).st = .filling) && !(t.win 5).dying &&
    ((t.win 5).desc.any fun d => decide (d.tpr = none) && !d.cnt && !d.acq && !d.orient && (d.rowAddr (t.win 5).ofs (t.win 5).next).isSome)) ∧
  acts { (then_ (bind filled 5 (desc 2 1 32 128) |> fun s => team s fun t => { t with full := [(0, true)] }) (.wput ⟨h7, 5⟩)) with cur := .idle }
    (.copyLine me.t 5) ∧
  rests { (then_ bound (.wput ⟨h7, 5⟩)) with cur := .idle } (.copyLine me.t 5) ∧
  ((writing.team? me.t).any fun t => !writing.far t.core 0x10000 && (t.win 5).retries.isNone) ∧
  ((filling.team? me.t).any fun t => match (filling.enginePieces t.core 0 (wantLoad false .fillRead) false (recParts 0x10000 128)).1 with
    | .ok ps => ps.all fun p => !filling.far t.core p.pa
    | _ => false) := by decide +kernel

/-- A piece of the twin page: the first element of its line, and what its line owes. -/
def twinPiece : Piece := ⟨0x20000, 0x20000, 4, twinPte⟩
def owing (n : Nat) (s : State) : State := { s with mem := s.mem.setHdr twinPiece.hdr ⟨n, if n = 0 then 2 else 1, false, false⟩ }
theorem witness_Twins :
  go twin (.tcons ⟨h7, true, .v 3, g1⟩) ∧
  go twin (.tcnt ⟨h7, .v 3, g1⟩) ∧
  stops (twin.modGroup me fun g => g.setS 1 0x70000) .translation (.tcnt ⟨h7, .v 3, g1⟩) ∧
  stops ((owing 0 twin).setLost twinPiece.hdr true) .dataLost (.treset ⟨h7, .s 3, g1⟩) ∧
  held (then_ twin (.tacc ⟨h7, .f32, .v 3, g1⟩)) .engine (.treset ⟨h7, .s 3, g1⟩) ∧
  held (acquiring (twin.modGroup me fun g => g.setS 3 0)) .engine (.treset ⟨h7, .s 3, g1⟩) ∧
  (twin.twLost twinPiece).isNone ∧
  ((twin.setLost twinPiece.lineAcc true).twLost twinPiece).isSome ∧
  (match (owing 1 twin).twContribute none twinPiece [(twinPiece.acc, .fin false 1 2)] with | .applied _ sat nan => !sat && !nan | _ => false) = true ∧
  (match twin.twContribute none twinPiece [(twinPiece.acc, .fin false 1 2)] with | .underflow => true | _ => false) = true ∧
  go twin (.tacc ⟨h7, .f32, .v 3, g1⟩) ∧
  stops twin .badAddress (.tacc ⟨h7, .f32, .v 3, odd⟩) ∧
  stops bench .permission (.tacc ⟨h7, .f32, .v 3, g1⟩) ∧
  held (then_ twin (.tcons ⟨⟨7, 7, false, .none⟩, true, .v 9, g1⟩)) .engine (.tcnt ⟨h7, .v 3, g1⟩) ∧
  stops twin .badAddress (.treset ⟨h7, .s 3, odd⟩) ∧
  go twin (.treset ⟨h7, .s 9, g1⟩) ∧
  go twin (.treset ⟨h7, .s 3, g1⟩) ∧
  (twin.twCount none twinPiece 3).isSome ∧
  ((twin.twCount none twinPiece 65536) = none) ∧
  ((owing 1 twin).mem.hdr twinPiece.hdr).count = 1 ∧
  ((owing 0 twin).mem.hdr twinPiece.hdr).st = 2 ∧
  !twin.heldElsewhere none (lineOf twinPiece.pa) ∧
  !twin.isLost twinPiece.hdr ∧
  !twin.isLost twinPiece.lineAcc ∧
  contribution (.fin false 1 2) = some (2 ^ 79) ∧
  contribution .nan = none ∧
  rests { (then_ twin (.tcons ⟨h7, true, .v 9, g1⟩)) with cur := .idle } (.twinEarlyTimeout me 0) ∧
  acts { (then_ (owing 1 twin) (.tcons ⟨h7, false, .v 9, g1⟩)) with cur := .idle, clock := 2 ^ 50 } (.twinEarlyTimeout me 0) ∧
  (match (owing 0 twin).consumeLine none false ⟨0x20000, [(3, twinPiece)], twinPiece⟩ with | .vals v _ => decide (v = [(3, 0)]) | _ => false) = true ∧
  (match (owing 1 twin).consumeLine none true ⟨0x20000, [(3, twinPiece)], twinPiece⟩ with | .early => true | _ => false) = true := by decide +kernel

theorem witness_AccumulatorWords :
  go owner (.ald ⟨h7, .rtz, .f16, 1, .v 4, .v 8, 3⟩) ∧
  go owner (.ast ⟨h7, .x48, 1, .v 4, .v 8, 3⟩) ∧
  go owner (.agive ⟨h7, 1, .imm, 64⟩) ∧
  stops ((team bench fun t => { t with groups := t.groups.map fun g => { g with idx := 1 } }) |> fun s => { s with cur := .grp ⟨me.t, .grp 1⟩ })
    .permission (.awinUnp ⟨h7, 1⟩) ∧
  held (then_ (team owner fun t => { t with dwin := t.dwin.set 1 ⟨0, 9, 1, 0, true⟩ }) (.ald ⟨⟨7, 7, false, .none⟩, .rtz, .f16, 1, .v 4, .v 8, 3⟩)) .engine
    (.awinUnp ⟨h7, 1⟩) ∧
  held (team (bench fun g => g.setS 6 9) fun t => { t with mq := [⟨.mzero ⟨1, .m 0, .m 8, 0⟩, 0x10000, 0, 0, 1, 0, 0, [], false, [], none, none⟩] }) .engine
    (.awin ⟨h7, 1, 1, .s 5, .s 6, 0⟩) ∧
  stops owner .accOwner (.awin ⟨h7, 1, 1, .s 5, .s 6, 0⟩) ∧
  go owner (.atake ⟨h7, 1⟩) ∧
  held bench (.atake 1) (.atake ⟨h7, 1⟩) ∧
  go owner (.agive ⟨h7, 1, .imm, 0⟩) ∧
  stops owner .accOwner (.agive ⟨h7, 1, .imm, 65⟩) ∧
  stops owner .accOwner (.agive ⟨h7, 1, .imm, 9⟩) ∧
  stops bench .accOwner (.agive ⟨h7, 1, .imm, 64⟩) ∧
  held (then_ owner (.ald ⟨⟨7, 7, false, .none⟩, .rtz, .f16, 1, .v 4, .v 8, 3⟩)) .engine (.agive ⟨h7, 1, .imm, 64⟩) ∧
  stops bench .accOwner (.ald ⟨h7, .rtz, .f16, 1, .v 4, .v 8, 3⟩) ∧
  stops owner .badAddress (.ald ⟨h7, .rtz, .f16, 1, .v 4, .v 8, 16384⟩) ∧
  stops owner .badAddress (.ast ⟨h7, .x48, 1, .v 4, .v 8, 0xFFFFFFFF⟩) ∧
  go (bench fun g => g.setS 6 127) (.awin ⟨h7, 1, 0, .s 5, .s 6, 0⟩) ∧
  stops (bench fun g => g.setS 6 128) .accWindow (.awin ⟨h7, 1, 0, .s 5, .s 6, 0⟩) ∧
  stops owner .accOwner (.awin ⟨h7, 1, 0, .s 5, .s 6, 1⟩) ∧
  go bench (.awinUnp ⟨h7, 1⟩) := by decide +kernel

/-! ### The sequencer -/

def sqr : TeamRef := ⟨1, 0, false⟩
/-- A sequencer about to execute a word of a team with window 5 of 16 rows of 128 bytes, latch sets full of zeros, and `m9` = 2. -/
def seqBench (f : Team → Team := id) : State :=
  let s := State.reset.placeWord (BitVec.ofNat 96 0xDF)
  { s with agenda := [], cur := .sq sqr }.modTeam sqr fun t =>
    let t : Team := match winFields (desc 0 16 128 128) with | some d => t.bindWin 5 d 0x10200 0 | none => t
    f { t with
      full := (List.range 20).map (fun k => (k, true))
      sets := t.sets.map (fun (y : LatchSet) => { y with full := true, kv := 128, nv := 128 })
      sq := { t.sq with m := (t.sq.m.set 9 2).set 8 1 } }
inductive SRes | done (pc : Nat) | waits | issued | stopped (c : Cause) | ended | none
deriving DecidableEq
/-- What a stream word that goes on to its own effect (`sequencing`) leaves. -/
def seqOf (s : State) (i : Instr) : SRes :=
  match sequencing s i, exec i s with
  | some x, .next t =>
    (match t.team? sqr with
     | some u =>
       (match u.sq.stop with
        | some st => .stopped st.cause
        | .none =>
          if x.t.mq.length < u.mq.length then .issued
          else if u.sq.sst = .ended then .ended else if u.sq.sst = .wait then .waits else .done u.sq.spc.toNat)
     | .none => .none)
  | _, _ => .none
/-- A sequencer that waits for the mesh stays at its word. -/
def stays : SRes := .done 0x10000
def seqGo (s : State) (i : Instr) : Bool := decide (seqOf s i = .done 0x1000C)
def full8 (t : Team) : Team := { t with mq := List.replicate 8 ⟨.mzero ⟨0, .m 0, .m 8, 0⟩, 0x10000, 0, 0, 1, 0, 0, [], false, [], none, none⟩ }
def one (t : Team) : Team := { t with mq := (full8 t).mq.take 1 }
theorem witness_SequencerWords :
  seqGo seqBench (.mset ⟨.m 9, .imm, 100⟩) ∧
  seqGo seqBench (.madd ⟨.m 9, .m 8, .imm, 1⟩) ∧
  seqOf seqBench (.mloop ⟨.m 9, 0⟩) = .done 0x10000 ∧
  seqGo seqBench (.mloop ⟨.m 8, 0⟩) ∧
  seqOf seqBench (.mloop ⟨.m 9, 4⟩) = .stopped .illegalTarget ∧
  seqOf seqBench (.mjmp ⟨0⟩) = .done 0x10000 ∧
  seqOf seqBench (.mjmp ⟨4⟩) = .stopped .illegalTarget ∧
  seqOf seqBench .mend = .ended ∧
  seqOf (seqBench one) .mend = stays ∧
  seqGo seqBench (.mtake ⟨3⟩) ∧
  seqOf seqBench (.mtake ⟨5⟩) = .stopped .illegal ∧
  seqOf (seqBench fun t => { t with owner := t.owner.set 3 0 }) (.mtake ⟨3⟩) = .waits ∧
  seqGo seqBench (.mgive ⟨3, .imm, 0⟩) ∧
  seqOf seqBench (.mgive ⟨5, .imm, 0⟩) = .stopped .illegal ∧
  seqOf seqBench (.mgive ⟨3, .imm, 9⟩) = .stopped .accOwner ∧
  seqOf (seqBench fun t => { t with dwin := t.dwin.set 0 ⟨0, 9, 3, 0, true⟩ }) (.mgive ⟨3, .imm, 0⟩) = .stopped .accWindow ∧
  seqOf (seqBench one) (.mgive ⟨0, .imm, 0⟩) = stays ∧
  seqGo seqBench (.mwin ⟨.imm, 1⟩) ∧
  seqOf seqBench (.mwin ⟨.imm, 2⟩) = .stopped .badStream ∧
  seqOf (seqBench fun t => { t with dwin := t.dwin.set 1 ⟨0, 9, 3, 0, true⟩ }) (.mwin ⟨.imm, 1⟩) = .waits ∧
  seqGo seqBench (.mbarArr ⟨false, 3⟩) ∧
  seqOf (seqBench one) (.mbarArr ⟨false, 3⟩) = .waits ∧
  seqOf (seqBench fun t => { t with nb := t.nb.set 3 { t.bar 3 with parts := 0 } }) (.mbarArr ⟨false, 3⟩) = .stopped .barrier ∧
  seqOf seqBench (.mbarWait ⟨3⟩) = .stopped .barrier ∧
  seqGo (seqBench fun t => { t with sq := { t.sq with sarv := 8, saph := 8 } }) (.mbarWait ⟨3⟩) ∧
  seqOf (seqBench fun t => { t with sq := { t.sq with sbm := 8, sarv := 8 } }) (.mbarWait ⟨3⟩) = .waits ∧
  seqGo (seqBench fun t => { t with sq := { t.sq with sarv := 8, saph := 8, arrived := true } }) (.mbarSync ⟨false, 3⟩) ∧
  seqOf (seqBench fun t => { t with sq := { t.sq with sbm := 8 } }) (.mbarSync ⟨false, 3⟩) = .waits ∧
  after bench (.mset ⟨.m 9, .imm, 100⟩) = .stopped .illegal ∧
  (bench.ctx? me).isSome := by decide +kernel

/-- Twin memory at window 6's image, for MDRAIN.T; and the mesh queue of a resting machine, with full lines or with none. -/
def twinSeq : State := (seqBench fun t =>
  match winFields (0x20000 * 2 ^ 320 + 128 * 2 ^ 288 + 16 * 2 ^ 240 + 32 * 2 ^ 224 + 128 * 2 ^ 208 + 2 * 2 ^ 174) with
  | some d => t.bindWin 6 d 0x10200 0
  | none => t).modCore 0 fun c => { c with tlb := ⟨0, false, 2, 16, twinPte⟩ :: c.tlb }
/-- Window 7 of 128 rows of 128 bytes, every line full, with masks of zeros behind the rows of a sparse source. -/
def masked (f : Team → Team) : State := seqBench fun t =>
  match winFields (desc 0 128 128 128) with
  | some d => f { t.bindWin 7 d 0x10200 0 with full := (List.range 140).map fun k => (k, true) }
  | none => t
def meshed (q : List MeshWord) : State := { seqBench fun t => { t with mq := q } with cur := .idle }
def emptied (q : List MeshWord) : State := { seqBench fun t => { t with mq := q, full := [] } with cur := .idle }
def streamed : MeshWord := ⟨.mstreamF ⟨.e4m3, false, false, false, 0, 1, 5, .zero, .zero, .imm, 1⟩, 0x10000, 0, 0, 1, 0, 0, [], false, [], none, none⟩
def latching : MeshWord :=
  ⟨.mlatch ⟨.e4m3, .dense, false, false, 0, false, 5, .zero, .zero, .imm, 0x0808⟩, 0x10000, 0, 0x3F800000, 0x0808, 0, 0, [], false, [], none, none⟩
/-- The head of a mesh queue waits; an MLATCH of another set behind a stream word whose line is empty; a drain whose window is gone. -/
def waitsAt (s : State) (m : MeshWord) : Bool :=
  match s.team? sqr, s.launch? 1 with
  | some t, some l => (match s.doMesh t l m with | .waits _ => true | _ => false)
  | _, _ => false
def other : MeshWord :=
  ⟨.mlatch ⟨.e4m3, .dense, false, false, 1, false, 5, .zero, .zero, .imm, 0x0808⟩, 0x10000, 1, 0x3F800000, 0x0808, 0, 0, [], false, [], none, none⟩
def latchedBehind (q : List MeshWord) : State :=
  { seqBench fun t => { t with mq := q, full := (List.range 20).filterMap fun k => if k = 0 then none else some (k, true) } with cur := .idle }
def drained : MeshWord := ⟨.mdrain ⟨.rne, .e4m3, 3, 6, .zero, .zero, .imm, 1⟩, 0x10000, 0, 0, 1, 0, 0, [], false, [], none, none⟩
theorem witness_MeshWords :
  seqOf seqBench (.mlatch ⟨.e4m3, .dense, false, false, 0, false, 5, .zero, .zero, .imm, 0x0808⟩) = .issued ∧
  seqOf (seqBench full8) (.mlatch ⟨.e4m3, .dense, false, false, 0, false, 5, .zero, .zero, .imm, 0x0808⟩) = stays ∧
  seqOf seqBench (.mlatch ⟨.bf16, .dense, false, false, 0, false, 5, .zero, .zero, .imm, 0x0808⟩) = .stopped .badWindow ∧
  seqOf seqBench (.mstreamF ⟨.e4m3, false, false, false, 0, 1, 5, .zero, .zero, .imm, 1⟩) = .issued ∧
  seqOf (seqBench full8) (.mstreamF ⟨.e4m3, false, false, false, 0, 1, 5, .zero, .zero, .imm, 1⟩) = stays ∧
  seqOf seqBench (.mstreamF ⟨.e4m3, false, false, false, 0, 1, 6, .zero, .zero, .imm, 1⟩) = .stopped .badWindow ∧
  seqOf seqBench (.mstreamB ⟨.e4m3, false, false, false, 0, 1, 5, .zero, .zero, .imm, 1⟩) = .issued ∧
  seqOf seqBench (.mzero ⟨3, .zero, .imm, 1⟩) = .issued ∧
  seqOf seqBench (.mzero ⟨3, .zero, .imm, 0⟩) = .stopped .badStream ∧
  seqOf seqBench (.mscale ⟨3, .zero, .zero, .imm, 1⟩) = .issued ∧
  seqOf seqBench (.mdrain ⟨.rne, .e4m3, 3, 5, .zero, .zero, .imm, 1⟩) = .issued ∧
  seqOf seqBench (.mdrain ⟨.rne, .f16, 3, 5, .zero, .zero, .imm, 1⟩) = .stopped .badWindow ∧
  seqOf seqBench (.mdrainT ⟨3, 6, .zero, .zero, .imm, 1⟩) = .stopped .badWindow ∧
  seqOf twinSeq (.mdrainT ⟨3, 6, .zero, .zero, .imm, 1⟩) = .issued ∧
  seqOf (seqBench full8) (.mdrainT ⟨3, 6, .zero, .zero, .imm, 1⟩) = stays ∧
  seqOf (masked fun t => { t with spLost := [(64, true)] }) (.mlatch ⟨.e4m3, .sp16, false, false, 0, false, 7, .zero, .zero, .imm, 0x0808⟩) =
    .stopped .dataLost ∧
  seqOf (masked fun t => { t with full := [] }) (.mlatch ⟨.e4m3, .sp16, false, false, 0, false, 7, .zero, .zero, .imm, 0x0808⟩) = .waits ∧
  seqOf (masked id) (.mlatch ⟨.e4m3, .sp16, false, false, 0, false, 7, .zero, .zero, .imm, 0x0808⟩) = .stopped .badSparse ∧
  rests { seqBench with cur := .idle } (.meshWordFinish sqr) ∧
  acts { (seqBench one) with cur := .idle } (.meshWordFinish sqr) ∧
  rests { (seqBench fun t => { t with mq := (one t).mq.map fun m => { m with failed := true } }) with cur := .idle } (.meshWordFinish sqr) ∧
  acts (meshed [streamed, latching]) (.meshWordFinish sqr) ∧
  waitsAt (emptied [latching]) latching ∧
  waitsAt (emptied [streamed]) streamed ∧
  acts (latchedBehind [streamed, other]) (.meshWordFinish sqr) ∧
  (other.passes 0 = true) ∧
  acts ({ seqBench fun t => { t with mq := [drained] } with cur := .idle }) (.meshWordFinish sqr) ∧
  acts ((meshed [latching]).modTeam sqr fun t => { t with spLost := [(0, true)] }) (.meshWordFinish sqr) ∧
  (([2, 3, 5].map fun n => ((Team.accSet (benchTeam true) 1 3 4 7).accGet 1 3 n).toNat) = [0, 0, 0]) ∧
  latching.early = [] := by decide +kernel

/-- Page 0x10000 mapped by a table at 0x200000, its move to the far tier queued on die 0, with or without a free frame there. -/
def mapped (frame : Bool) : State :=
  let table (p : Nat) : List Byte := bytesOf 32 (p / 1024 * 2 ^ 90 + 2 ^ 64)
  let s := poke (poke (poke (poke bench 0x200000 (table 0x300000)) 0x300000 (table 0x310000)) 0x310000 (table 0x320000)) 0x320020 (bytesOf 32 benchPte.toNat)
  { s with cur := .idle, rootU := [(0, 0x200000)] }.modDie 0 fun d =>
    { d with frames := if frame then [(1, 0, 2 ^ 45 + 0x100000)] else [], moves := [⟨1, 0, 0, 0x10000, false⟩] }
/-- Slot 0 of die 0, armed with deadline 9; a put of rank 0 that fits it, on its way. -/
def armed : State := then_ (poke { mapped false with cur := .grp me } 0x10200 (bytesOf 64 armDesc)) (.collArm ⟨h7, .s 4, .s 1, 0⟩)
def put0 : State := { armed with cur := .idle, flying := [⟨⟨0, 0, 0, 0, .sumF32, 1, false, false, [⟨0, [5]⟩]⟩, none, some me, 1, 0, none⟩] }
/-- Rank 0's put has arrived; and the slot's page has become unmapped since. -/
def slotted : State := { then_ put0 (.putArrival 0) with cur := .idle }
def unmapped : State := { slotted.modCore 0 fun c => { c with tlb := [] } with rootU := [] }
/-- A put with residuals at 0x10400; and one that reaches a stopped slot. -/
def resDesc : Nat := putDesc + 0x10400 * 2 ^ 448 + 2 ^ 36
def halted : State := match put0.slot? 0 0 with
  | some z => put0.setSlot 0 0 { z with stop := some ⟨.translation, .stop, none, false, false, false⟩ }
  | none => put0
theorem witness_Collectives :
  stops bench .badAddress (.collArm ⟨h7, .s 4, .s 1, 4⟩) ∧
  stops bench .badRecord (.collArm ⟨h7, .s 4, .s 1, 0⟩) ∧
  stops (poke bench 0x10200 (bytesOf 64 (armDesc + 2 ^ 192 * 0x100000))) .translation (.collArm ⟨h7, .s 4, .s 1, 0⟩) ∧
  go (poke bench 0x10200 (bytesOf 64 armDesc)) (.collArm ⟨h7, .s 4, .s 1, 0⟩) ∧
  goes armed 0x10018 (.collArm ⟨h7, .s 4, .s 1, 0⟩) ∧
  (armed.slot? 0 0).isSome ∧
  stops bench .badAddress (.collPut ⟨h7, .s 1, 4⟩) ∧
  stops bench .badRecord (.collPut ⟨h7, .s 1, 0⟩) ∧
  ((parsePut (bytesOf 64 putDesc)).any fun p => p.res == 0 && !p.acq && !p.comp) ∧
  rests { bench with cur := .idle } (.collDeadline 0 0) ∧
  rests { armed with cur := .idle } (.hubCombine 0 0) ∧
  acts put0 (.putArrival 0) ∧
  refuseWhy (put0.slot? 0 0) ⟨0, 0, 0, 0, .sumF32, 1, false, false, [⟨0, [5]⟩]⟩ 0 = none ∧
  acts { put0 with flying := put0.flying.map fun f => { f with pkt := { f.pkt with tag := 9 } } } (.putArrival 0) ∧
  acts (then_ { put0 with cur := .idle } (.putArrival 0)) (.hubCombine 0 0) ∧
  ((slotted.slot? 0 0).any fun z => z.stop.isNone && z.standing.isNone && z.complete && !slotted.slotOwes 0 0) ∧
  ((slotted.slotWork 0 0).any fun e => e.2.isNone) ∧
  rests slotted (.slotWriteFault 0 0) ∧
  ((unmapped.slotWork 0 0).any fun e => e.2.isSome) ∧
  unmapped.srcRoomFor 0 .collective 2 ∧
  (unmapped.policy = none) ∧
  rests { armed with cur := .idle } (.slotWriteFault 0 0) ∧
  ((parsePut (bytesOf 64 resDesc)).any fun p => p.res != 0 && p.comp && !p.acq && decide (p.n = 1)) ∧
  go (poke bench 0x10200 (bytesOf 64 resDesc)) (.collPut ⟨h7, .s 1, 0⟩) ∧
  ((parsePut (bytesOf 64 resDesc)).any fun p => match (bench.enginePieces 0 0 (wantLoad false .fillRead) false (lineParts 2 (BitVec.ofNat 56 p.src) 4)).1,
    (bench.enginePieces 0 0 (wantAtomic false) false (lineParts 2 (BitVec.ofNat 56 p.res) 4)).1 with
    | .ok ps, .ok rs => (ps ++ rs).all (fun y => !bench.far 0 y.pa) && (bench.versionWaits none rs).isNone &&
      (match (bench.ctx? me) with
       | some c => (match bench.engineWrite (c.pty 0x10000) rs (bytesOf 4 5) with | .ok _ => true | .error _ => false)
       | none => false)
    | _, _ => false) ∧
  ((halted.slot? 0 0).any fun z => z.stop.isSome) ∧
  (match exec (.putArrival 0) halted with | .next t => decide (t.flying.map (·.stamp) = [some (halted.timeAt 0)]) | _ => false) = true ∧
  ((armed.slot? 0 0).any fun z => let z := { z with timedOut := true }
    let s := ({ armed with cur := .idle } : State).setSlot 0 0 z
    !s.putWaits 0 0 z && z.retries.isNone && z.stop.isNone && z.standing.isNone && acts s (.hubCombine 0 0)) := by decide +kernel

theorem witness_SpecialRegisters :
  go bench (.srd ⟨h7, .v 2, 0x00⟩) ∧
  go bench (.srd ⟨h7, .s 2, 0x0B⟩) ∧
  stops bench .illegal (.srd ⟨h7, .s 2, 0x0C⟩) ∧
  stops bench .permission (.srd ⟨h7, .s 2, 0x100⟩) ∧
  go sup (.srd ⟨h7, .s 2, 0x100⟩) ∧
  go bench (.swr ⟨h7, .s 1, 0x0B⟩) ∧
  stops bench .illegal (.swr ⟨h7, .s 1, 0x0C⟩) ∧
  stops bench .illegal (.swr ⟨h7, .s 1, 0x00⟩) ∧
  stops bench .permission (.swr ⟨h7, .s 1, 0x100⟩) ∧
  (SReg.ofIdx 0x00B = some .sticky) ∧
  ((List.range 7).any fun k => decide (SReg.ofIdx (0x100 + k) = some .epc)) ∧
  ((List.range 7).any fun k => go sup (.swr ⟨h7, .s 1, BitVec.ofNat 12 (0x100 + k)⟩)) := by decide +kernel

theorem witness_SupervisorWords :
  goes (packet bench fun p => { p with svb := 0x10000 }) 0x100C0 (.svc ⟨h7, 3⟩) ∧
  stops bench .permission (.svc ⟨h7, 3⟩) ∧
  stops sup .illegal (.svc ⟨h7, 3⟩) ∧
  held (packet loading fun p => { p with svb := 0x10000 }) .engine (.svc ⟨h7, 3⟩) ∧
  stops bench .permission (.rfe ⟨h7⟩) ∧
  stops (sup.modGroup me fun g => { g with epc := 0x10004 }) .badAddress (.rfe ⟨h7⟩) ∧
  goes sup 0x10000 (.rfe ⟨h7⟩) ∧
  stops bench .permission (.tlbiVa ⟨h7, .s 1, 8⟩) ∧
  stops bench .permission (.tlbiCtx ⟨h7, .s 1⟩) ∧
  stops bench .permission (.tlbiAll ⟨h7⟩) ∧
  stops bench .permission (.halt ⟨h7, 5⟩) ∧
  held (loading.modGroup me fun g => { g with priv := true }) (.tlbi 0) (.tlbiAll ⟨h7⟩) ∧
  go sup (.tlbiVa ⟨h7, .s 1, 8⟩) ∧
  go sup (.tlbiCtx ⟨h7, .s 1⟩) ∧
  go sup (.tlbiAll ⟨h7⟩) ∧
  held (loading.modGroup me fun g => { g with priv := true }) (.tlbi 0) (.tlbiVa ⟨h7, .s 1, 8⟩) ∧
  go bench (.evt ⟨h7, .s 1, 77⟩) ∧
  held (bench.modCore 0 fun c => { c with evq := (List.replicate 256 ((then_ bench (.evt ⟨h7, .s 1, 77⟩)).core 0).evq).flatten }) .evt (.evt ⟨h7, .s 1, 77⟩) ∧
  held (loading.modGroup me fun g => { g with priv := true }) .engine (.halt ⟨h7, 5⟩) ∧
  go sup (.halt ⟨h7, 5⟩) ∧
  (bench.core 0).l1.all fun x => x.dirty == 0 := by decide +kernel

/-- Version 1, with one word of a line held. -/
def version : State := { bench with cur := .idle, versions := [⟨1, 1, me.t, none, [(0x10200, some (.value 7))], [], [], []⟩] }
/-- A store of the versioned group waits for a line of its slice, all of whose version lines are taken, since clock 0. -/
def stuffed : State :=
  let s := then_ (bench fun g => { g with task := some ⟨0x10200, List.replicate 64 0, none, some 1, 0⟩ }) (.st ⟨h7, .b32, false, .v 9, g1⟩)
  { s with cur := .idle, clock := 2 ^ 20, versions := ⟨1, 1, me.t, some 0, [], [], [], []⟩ :: List.replicate 8192 ⟨2, 1, me.t, none, [(0x10200 + 0, some (.value 7))], [], [], []⟩ }
/-- The bench's team with its shadow; each group waits so, and the sums of their sides are `a` and `b`. -/
def sides (w : Wait) (a b : Nat) : State :=
  let s := team bench fun t => { t with seg := some ⟨0, 1, a, false, none⟩, groups := t.groups.map fun g => { g with wait := w } }
  { s with
    cur := .idle
    teams := s.teams ++ s.teams.map fun t => { t with ref := { t.ref with shadow := true }, seg := some ⟨0, 2, b, false, none⟩ }
    versions := [⟨1, 1, me.t, none, [], [], [], []⟩, ⟨2, 1, me.t, none, [], [], [], []⟩] }
theorem witness_VersionsAndPages :
  rests { bench with cur := .idle } (.versionFull me) ∧
  acts stuffed (.versionFull me) ∧
  ((version.version? 1).any fun v => v.lines.isEmpty && v.words == [(0x10200, some (.value 7))]) ∧
  rests (sides .none 0 0) (.segmentResolve me.t) ∧
  acts (sides (.segment 0 0) 0 0) (.segmentResolve me.t) ∧
  acts (sides (.segment 0 0) 0 5) (.segmentResolve me.t) ∧
  (version.firstMove 0).isNone ∧
  ((mapped true).firstMove 0).isSome ∧
  ((mapped true).leaf 0 0x10000 = some (0x320020, benchPte)) ∧
  (((mapped true).die 0).frame 1 (sizeCode benchPte) = some (2 ^ 45 + 0x100000)) ∧
  acts (mapped true) (.pageMove 0) ∧
  acts (mapped true) (.victimRetry 0) ∧
  rests (mapped false) (.pageMove 0) ∧
  version.mem.wf ∧
  (version.policy = none) ∧
  ((mapped true).die 0).starting = [] ∧
  stuffed.linesFull 1 [0x10200] ∧
  (stuffed.version? 1).any fun v => !v.lineList.contains (lineOf 0x10200) ∧
  rests ((mapped true).modDie 0 fun d => { d with starting := [(1, 0, 0x10000, none)] }) (.victimRetry 3) := by decide +kernel

/-- The bench's launch before it is eligible; one that has finished; a team that a pre-emption saves. -/
def waitingLaunch : State := { launch bench fun l => { l with eligible := false, pkt := { l.pkt with tasks := false } } with cur := .idle, teams := [] }
/-- A saved team to restore, from an area of zeros; and one whose load waits for a reply, its area at 0 of the mapped page. -/
def savedOnce : State :=
  let s := launch (mapped false) fun l =>
    { l with nextTeam := l.pkt.teams, saved := (bench.team? me.t).toList.map fun t => ⟨me.t, 0x800000, t, false⟩ }
  { s with clock := 1, teams := [] }
def owedBy (owed : List OwedReq) : State :=
  let e : LaEnt := ⟨0x10000, .nop ⟨h7⟩, 7, false, [], 0, 0, .tcnt [], owed, none, [], 0, none, 0, 0, [], false, [], []⟩
  let s := launch (mapped false) fun l => { l with saved := (bench.team? me.t).toList.map fun t =>
    ⟨me.t, 0, { t with groups := t.groups.map fun g => { g with la := [e] } }, false⟩ }
  { s with teams := [] }
def saving (started : Bool) : State := { (team bench fun t => { t with save := some ⟨9, 0x100000, started, false⟩ }) with cur := .idle, clock := 9 }
/-- An eligible launch that has placed no team. -/
def offering : State :=
  { waitingLaunch with clock := 1, launches := waitingLaunch.launches.map fun l => { l with eligible := true, nextTeam := 0 } }
/-- A second launch, on die 1, of higher priority. -/
def rivals : State := { offering with launches := offering.launches ++ offering.launches.map fun l =>
  { l with num := 5, die := 1, pkt := { l.pkt with prio := l.pkt.prio + 1 } } }
/-- A restored team that a reply is owed to, its slots at 0 of the mapped page. -/
def owedHere : State := match (owedBy [⟨0, [], 0, .replied [5]⟩]).launch? 1 with
  | some l => { mapped false with teams := l.saved.map fun y => { y.team with owedArea := some 0 } }
  | none => mapped false
theorem witness_LaunchesAndTeams :
  rests { bench with cur := .idle } (.launchEligible 9) ∧
  rests { bench with cur := .idle } (.launchEligible 1) ∧
  acts waitingLaunch (.launchEligible 1) ∧
  acts offering (.teamPlace 0) ∧
  rests { bench with cur := .idle } (.teamPlace 0) ∧
  acts { waitingLaunch with launches := waitingLaunch.launches.map fun l => { l with eligible := true } } (.launchCompletion 1) ∧
  rests { bench with cur := .idle } (.launchCompletion 1) ∧
  acts (saving false) (.preemptDeadline me.t) ∧
  rests { saving false with clock := 8 } (.preemptDeadline me.t) ∧
  rests (saving true) (.preemptDeadline me.t) ∧
  rests (saving false) (.teamSave me.t) ∧
  acts (team (saving false) fun t => { t with groups := t.groups.map fun g => { g with wait := .yielded } }) (.teamSave me.t) ∧
  rests (saving true) (.teamSave me.t) ∧
  rests (offering.modDie 0 fun d => { d with offered := true }) (.teamPlace 0) ∧
  (offering.offered 0).isSome ∧
  acts savedOnce (.teamPlace 0) ∧
  acts (owedBy [⟨0, [], 0, .replied [5]⟩]) (.owedReply me 0) ∧
  rests (owedBy []) (.owedReply me 0) ∧
  ((rivals.offered 0).any fun l => rivals.beaten l 0) ∧
  ((rivals.offered 1).any fun l => !rivals.beaten l 1) ∧
  rests rivals (.teamPlace 0) ∧
  acts rivals (.teamPlace 1) ∧
  (owedBy []).team? me.t = none ∧
  ((owedHere.team? me.t).any fun t => t.owedArea == some 0) ∧
  acts owedHere (.owedReply me 0) := by decide +kernel

def ask (k : PeerKind) : PeerReq := ⟨5, 7, 0, 0x10200, k⟩
/-- Endpoint 5 with job 7 may reach context 0. -/
def peered (s : State) : State := { s with cur := .idle, peers := [(0, BitVec.ofNat 256 (5 * 2 ^ 128 + 7 * 2 ^ 96 + 2 ^ 80 + 1))] }
/-- Die 0's record buffers are full. -/
def crowded (s : State) : State := s.modDie 0 fun d => { d with srcs := d.srcs.map fun q => { q with buf := (List.replicate 16 ((then_ bench (.evt ⟨h7, .s 1, 77⟩)).core 0).evq).flatten } }
def far (va : Nat) (k : PeerKind) : PeerReq := { ask k with va := va }
/-- A load sent to peer 0, sent again some times. -/
def sent (tries : Nat) : State :=
  { peered bench with requests := [⟨0, 0, ask (.load 0 4 false 0), none, none, 1, tries, 0, false⟩] }
/-- The mapped page, its frame on die 1, while every boundary holds its traffic. -/
def cutOff : State := { peered (poke (mapped false) 0x320020 (bytesOf 32 (benchPte.toNat + 2 ^ 36 * 2 ^ 90))) with replays := Vector.replicate 4 1024 }
/-- A reply kept for peer 5, sent again some times; replays that a boundary has counted after a replay. -/
def keeping (n : Nat) : State := { peered bench with kept := [⟨5, 0, ⟨5, 0, 0, []⟩, 2, 9, n⟩] }
def replayed (s : State) (b : Fin 4) : Option (Nat × Nat) := match exec (.flitReplay b) s with
  | .next t => some (t.replays.getD b.val 0, ((t.die 0).srcs.toList.map fun q => q.buf.length).foldl (· + ·) 0)
  | _ => none
theorem witness_PeersAndErrors :
  acts { bench with cur := .idle } (.peerRequest (ask (.store [(0, 1)]))) ∧
  (bench.acceptedBy (ask (.store [(0, 1)])) = none) ∧
  ((peered bench).acceptedBy (ask (.store [(0, 1)])) = some 0) ∧
  acts (peered (mapped false)) (.peerRequest (ask (.store [(0, 1)]))) ∧
  (match (peered (mapped false)).xlat none 0 0x10200 (peerWant (.store [(0, 1)])) with | .ok _ => true | .error _ => false) = true ∧
  (match (peered bench).xlat none 0 0x10200 (peerWant (.store [(0, 1)])) with | .ok _ => false | .error _ => true) = true ∧
  acts (peered bench) (.peerRequest (ask (.store [(0, 1)]))) ∧
  acts (peered bench) (.peerRequest (far (2 ^ 55) (.store [(0, 1)]))) ∧
  rests (crowded (peered bench)) (.peerRequest (ask (.store [(0, 1)]))) ∧
  acts { peered bench with kept := [⟨5, 0, ⟨5, 0, 0, []⟩, 0, 0, 0⟩] } (.peerRequest (ask (.store [(0, 1)]))) ∧
  bench.srcRoom 0 (.port 0) ∧
  !bench.isLost (paOf twinPte 0x20000) ∧
  rests { bench with cur := .idle } (.peerReply ⟨5, 0, 0, []⟩) ∧
  acts (sent 0) (.peerReply ⟨5, 0, 0, [1]⟩) ∧
  rests { bench with cur := .idle } (.retransmit 0) ∧
  acts (sent 0) (.retransmit 0) ∧
  acts (sent 8) (.retransmit 0) ∧
  rests (crowded (sent 0)) (.retransmit 0) ∧
  acts (peered bench) (.packetDiscard 5) ∧
  acts (peered bench) (.flitReplay 0) ∧
  acts (peered bench) (.eccCorrected (.line 0x10200)) ∧
  acts (peered bench) (.eccUncorrectable (.line 0x10200)) ∧
  acts version (.eccUncorrectable (.line 0x10200)) ∧
  (version.versions.any fun v => v.errorLines.contains 0x10200) ∧
  acts (peered bench) (.eccCorrected (.span 0 3)) ∧
  acts (peered bench) (.eccUncorrectable (.span 0 3)) ∧
  acts { then_ bench (.evt ⟨h7, .s 1, 77⟩) with cur := .idle } (.eventRingTake 0) ∧
  (bench.versions = []) ∧
  acts (peered bench) (.peerRequest (far (2 ^ 54) (.store [(0, 1)]))) ∧
  regionOf (BitVec.ofNat 56 (2 ^ 54)) = 1 ∧ isTwinReq (.store [(0, 1)]) = false ∧
  (match cutOff.xlat none 0 0x10200 (peerWant (.store [(0, 1)])) with | .ok p => !pteSystem p && cutOff.far 0 (paOf p 0x10200) | .error _ => false) = true ∧
  rests cutOff (.peerRequest (ask (.store [(0, 1)]))) ∧
  acts (keeping 0) (.retransmit 9) ∧
  rests (keeping 8) (.retransmit 9) ∧
  rests { sent 0 with requests := (sent 0).requests.map fun q => { q with acked := true } } (.retransmit 0) ∧
  replayed (peered bench) 0 = some (1, 1) ∧
  replayed { peered bench with replays := Vector.replicate 4 1024 } 0 = some (1025, 0) ∧
  (peered bench).portRoom 2 := by decide +kernel

def host : W128 := 5
def ready : State := { bench with cur := .idle, host := some host }
def msg (b : List Byte) : HostMsg := ⟨host, 1, 0, b.length, 0, false, false, false, b⟩
/-- Bodies of the host's commands. -/
def mapBody : List Byte := bytesOf 2 0 ++ bytesOf 1 3 ++ bytesOf 5 0 ++ bytesOf 8 0x10000 ++ bytesOf 32 benchPte.toNat
def rootBody : List Byte := bytesOf 2 0 ++ bytesOf 1 0xFF ++ bytesOf 5 0 ++ bytesOf 8 0x400000 ++ List.replicate 32 0
def hosted (s : State) : State := { s with cur := .idle, host := some host }
theorem witness_HostCommands :
  ready.cmdStatus 0x11 (msg (bytesOf 8 0 ++ bytesOf 8 0x10200 ++ bytesOf 4 8)) = none ∧
  State.reset.cmdStatus 0x11 (msg []) = some 2 ∧
  ready.cmdStatus 0x11 (msg []) = some 3 ∧
  ready.cmdStatus 0x11 { msg [] with src := 6 } = some 4 ∧
  acts ready (.read (msg (bytesOf 8 0 ++ bytesOf 8 0x10200 ++ bytesOf 4 8))) ∧
  acts ready (.read (msg [])) ∧
  acts { State.reset with host := none } (.read (msg [])) ∧
  acts State.reset (.attest (msg (List.replicate 32 0))) ∧
  acts ready (.peers (msg (bytesOf 4 0 ++ bytesOf 4 1 ++ bytesOf 32 (5 * 2 ^ 128 + 1)))) ∧
  acts ready (.write (msg (bytesOf 8 0 ++ bytesOf 8 0x10200 ++ List.replicate 48 0 ++ [7]))) ∧
  acts (hosted (mapped true)) (.map (msg mapBody)) ∧
  acts ready (.map (msg rootBody)) ∧
  ((hosted (mapped true)).entryAt 0 0x10000 3 = some 0x320020) ∧
  ((hosted (mapped true)).leafAt 0 0x10000 = some 0x320020) ∧
  acts (hosted (mapped true)) (.unmap (msg (bytesOf 2 0 ++ bytesOf 8 0x10000))) ∧
  acts ready (.frames (msg (bytesOf 4 0 ++ bytesOf 4 1 ++ bytesOf 8 0x100000))) ∧
  acts ready (.launch (msg (List.replicate 512 0))) ∧
  acts ready (.timetable (msg (bytesOf 8 1 ++ bytesOf 8 0x10200))) ∧
  acts ready (.preempt (msg (bytesOf 4 1 ++ bytesOf 8 0x800000))) ∧
  acts ready (.resume (msg (bytesOf 16 9))) ∧
  acts ready (.discard (msg (bytesOf 16 1))) ∧
  (((launch ready fun l => { l with halted := true }).launch? 1).bind fun l => ready.unitOf l true false 0 0 0).isSome ∧
  (((ready.launch? 1).bind fun l => ready.unitOf l true false 0 0 0) = none) ∧
  acts ready (.events (msg (bytesOf 4 0))) ∧
  inTier 0x10200 8 ∧
  frameOk 0 0 0 0x100000 ∧
  !ready.isLost 0x10200 ∧
  ready.discardRoom 1 0 ∧
  ready.srcRoom 0 .cmdProc ∧
  (policyCheck (List.replicate 2048 0)).isNone ∧
  ((ready.launch? 1).any fun l => !l.preempted && !l.discarded && !ready.finished l && l.saved.isEmpty) ∧
  State.reset.cmdStatus 0x40 (msg []) = some 2 ∧
  acts { State.reset with host := none } (.events (msg [])) ∧
  ready.cmdStatus 0x40 (msg []) = some 3 ∧
  acts ready (.events (msg [])) ∧
  (match exec (.events (msg [])) (crowded ready) with | .next t => decide (t.turned.length = 1) | _ => false) = true ∧
  (match exec (.read (msg [])) (crowded ready) with | .next t => decide (t.toHost = []) && decide ((t.die 0).cmds.length = 1) | _ => false) = true ∧
  !(hosted (mapped true)).lostWalk 0 0x10000 3 ∧
  ready.srcRoomFor 0 .cmdProc 5 := by decide +kernel

/-- An ordered launch that is not eligible yet, with a timetable of one marker at 0x10200 whose count, at 0x10240, is 5. -/
def counted : State := launch (packet (poke (poke (mapped false) 0x10200 (bytesOf 64 (0x10240 * 2 ^ 64 + 2 ^ 15))) 0x10240 (bytesOf 4 5)) fun p =>
  { p with ord := true }) fun l => { l with eligible := false }
theorem witness_TimetableIsReplaced :
  ((ready.launch? 1).any fun l => !l.discarded && l.eligible) ∧
  ((waitingLaunch.launch? 1).any fun l => !l.discarded && !l.eligible) ∧
  ready.cmdStatus 0x31 (msg (bytesOf 8 1 ++ bytesOf 8 0x10200)) = none ∧
  numAt (bytesOf 8 1 ++ bytesOf 8 0x10200) 0 4 = 1 ∧
  numAt (bytesOf 8 1 ++ bytesOf 8 0x10200) 8 8 ≠ 0 ∧
  ((counted.launch? 1).any fun l => l.pkt.ord && counted.countsBad l.pkt 0x10200) ∧
  ((waitingLaunch.launch? 1).any fun l => !l.pkt.ord && !waitingLaunch.countsBad l.pkt 0x10200) := by decide +kernel

end Sys2Proof.Tests
end

section
/-! PROOF of O19 (R124). Quantising gives E4M3 codes and a scale that is a power of two. A code's value times such a scale, divided by
it, is the same fraction with both parts shifted left; rounding does not see the shift, and it gives an exact value back in every
mode and with every draw. None of these values lies beyond 448, so no raise occurs. -/
namespace Sys2Proof.Machine

/-! ### Rounding and a shift of both parts of a fraction -/

theorem bitLen_mul_two_pow {n : Nat} (hn : n ≠ 0) (j : Nat) : bitLen (n * 2 ^ j) = bitLen n + j := by
  have hj : 0 < 2 ^ j := Nat.two_pow_pos j
  have hnj : n * 2 ^ j ≠ 0 := Nat.mul_ne_zero hn (Nat.ne_of_gt hj)
  have hlog : (n * 2 ^ j).log2 = n.log2 + j := by
    obtain ⟨hle, hlt⟩ := (Nat.log2_eq_iff hn).mp rfl
    refine (Nat.log2_eq_iff hnj).mpr ⟨?_, ?_⟩
    · rw [Nat.pow_add]
      exact Nat.mul_le_mul_right _ hle
    · rw [Nat.add_right_comm, Nat.pow_add]
      exact Nat.mul_lt_mul_of_pos_right hlt hj
  rw [bitLen, bitLen, if_neg hnj, if_neg hn, hlog, Nat.add_right_comm]

/-- The binade of a fraction does not change when both its parts are shifted. -/
theorem floorLog2_mul_two_pow {n d : Nat} (hn : n ≠ 0) (hd : d ≠ 0) (j : Nat) :
    floorLog2 (n * 2 ^ j) (d * 2 ^ j) = floorLog2 n d := by
  have hk : (bitLen (n * 2 ^ j) : Int) - (bitLen (d * 2 ^ j) : Int) = (bitLen n : Int) - (bitLen d : Int) := by
    rw [bitLen_mul_two_pow hn, bitLen_mul_two_pow hd]; omega
  have hj : 0 < 2 ^ j := Nat.two_pow_pos j
  have hup (e : Nat) : d * 2 ^ j * 2 ^ e ≤ n * 2 ^ j ↔ d * 2 ^ e ≤ n := by
    rw [Nat.mul_right_comm]; exact Nat.mul_le_mul_right_iff hj
  have hdown (e : Nat) : d * 2 ^ j ≤ n * 2 ^ j * 2 ^ e ↔ d ≤ n * 2 ^ e := by
    rw [Nat.mul_right_comm]; exact Nat.mul_le_mul_right_iff hj
  simp only [floorLog2, hk, hup, hdown]

/-- A shift of both parts of a fraction keeps its binade and its whole units, and shifts the remainder and its denominator. -/
theorem ulps_mul_two_pow (f : Fmt) {n d : Nat} (hn : n ≠ 0) (hd : d ≠ 0) (j : Nat) : ulps f (n * 2 ^ j) (d * 2 ^ j) =
    ((ulps f n d).1, (ulps f n d).2.1, (ulps f n d).2.2.1 * 2 ^ j, (ulps f n d).2.2.2 * 2 ^ j) := by
  simp only [ulps, floorLog2_mul_two_pow hn hd, Nat.mul_right_comm _ (2 ^ j), Nat.mul_div_mul_right _ _ (Nat.two_pow_pos j),
    Nat.mul_mod_mul_right]

/-- The neighbours of a fraction do not change when both its parts are shifted. -/
theorem neighbours_mul_two_pow (f : Fmt) (n : Nat) {d : Nat} (hd : d ≠ 0) (j : Nat) :
    neighbours f (n * 2 ^ j) (d * 2 ^ j) = neighbours f n d := by
  have hj : 2 ^ j ≠ 0 := Nat.ne_of_gt (Nat.two_pow_pos j)
  by_cases hn : n = 0
  · rw [hn, Nat.zero_mul, neighbours, if_pos rfl, neighbours, if_pos rfl]
  · simp only [neighbours, ulps_mul_two_pow f hn hd, Nat.mul_eq_zero, hn, hj, or_false, if_false]

/-- An exact magnitude of the format, not below the threshold of the underflow rule, is returned unchanged in every mode and with every
draw (R109, R115). -/
theorem roundMag_of_exact {f : Fmt} {n d c : Nat} (hx : neighbours f n d = (c, c)) (hc : c ≤ f.maxCode)
    (hu : n ≠ 0 → d ≤ n * 2 ^ f.minExp) (m : RMode) (neg : Bool) (w : Draw) : roundMag f m neg n d w = c := by
  by_cases hn : n = 0
  · rw [neighbours, if_pos hn] at hx
    rw [roundMag, if_pos hn]
    exact congrArg Prod.fst hx
  · rcases hul : ulps f n d with ⟨i, k, r, den⟩
    simp only [neighbours, if_neg hn, hul] at hx
    have hrc : r = 0 ∧ i * 2 ^ f.fb + k = c := by
      by_cases hr : r = 0
      · rw [if_pos hr] at hx
        exact ⟨hr, congrArg Prod.fst hx⟩
      · rw [if_neg hr, Prod.mk.injEq] at hx
        omega
    obtain ⟨rfl, rfl⟩ := hrc
    have hover : ¬(f.maxCode < i * 2 ^ f.fb + k ∨ i * 2 ^ f.fb + k = f.maxCode ∧ 0 ≠ 0) := by omega
    simp only [roundMag, if_neg hn, decide_eq_false (Nat.not_lt.mpr (hu hn)), Bool.and_false, Bool.false_eq_true, if_false, hul,
      if_neg hover, if_true]

/-! ### The codes of E4M3 -/

/-- `x` is the value of the code `q`: `q`'s sign, and a magnitude that the format holds exactly, at or above its least subnormal or zero. -/
def ExactNum.heldAs (f : Fmt) (q : Nat) : ExactNum → Bool
  | .fin s n d => d != 0 && neighbours f n d == (q % 2 ^ f.signBit, q % 2 ^ f.signBit) && decide (q % 2 ^ f.signBit ≤ f.maxCode) &&
    (n == 0 || decide (d ≤ n * 2 ^ f.minExp)) && q / 2 ^ f.signBit == bnat s
  | _ => false

theorem ExactNum.heldAs_iff {f : Fmt} {q : Nat} {x : ExactNum} : x.heldAs f q = true ↔ ∃ s n d, x = .fin s n d ∧ d ≠ 0 ∧
    neighbours f n d = (q % 2 ^ f.signBit, q % 2 ^ f.signBit) ∧ q % 2 ^ f.signBit ≤ f.maxCode ∧
    (n ≠ 0 → d ≤ n * 2 ^ f.minExp) ∧ q / 2 ^ f.signBit = bnat s := by
  cases x with
  | nan => exact ⟨fun h => Bool.noConfusion h, fun ⟨_, _, _, h, _⟩ => ExactNum.noConfusion h⟩
  | inf s => exact ⟨fun h => Bool.noConfusion h, fun ⟨_, _, _, h, _⟩ => ExactNum.noConfusion h⟩
  | fin s n d => simp [heldAs, and_assoc, Decidable.or_iff_not_imp_left]

/-- Each E4M3 code that is no NaN is held exactly, and its magnitude is at most 448 (R105). -/
theorem decodeNum_E4M3_heldAs : ∀ q < 256, decodeNum E4M3 q ≠ .nan →
    (decodeNum E4M3 q).heldAs E4M3 q = true ∧ e4m3Max.lt (decodeNum E4M3 q).abs = false := by decide +kernel

/-- A finite value rounds to a magnitude of at most the largest finite one: E4M3 has no infinity (R110). -/
theorem roundMag_E4M3_le (m : RMode) (neg : Bool) (n d : Nat) (w : Draw) : roundMag E4M3 m neg n d w ≤ E4M3.maxCode := by
  have hbit (b : Bool) : bnat b ≤ 1 := by cases b <;> decide
  have hmax : E4M3.maxCode = 126 := rfl
  have hover (near : Bool) : overCode E4M3 m neg near = E4M3.maxCode := rfl
  unfold roundMag
  dsimp only
  split
  case isTrue => exact Nat.zero_le _
  split
  case isTrue => exact Nat.le_trans (hbit _) (by decide)
  split
  case isTrue => exact Nat.le_of_eq (hover _)
  split
  case isTrue => omega
  split
  · omega
  · omega

/-- A rounded value is a code of 8 bits: a NaN gives 0x7F, and any other value a sign and a magnitude of at most 0x7E. -/
theorem round_E4M3_lt (m : RMode) (x : ExactNum) (w : Draw) : Machine.round E4M3 m x w < 256 := by
  have hsign (s : Bool) : bnat s * 2 ^ E4M3.signBit ≤ 128 := by cases s <;> decide
  have hmax : E4M3.maxCode = 126 := rfl
  cases x with
  | nan => exact (by decide : E4M3.nanCode < 256)
  | inf s =>
    have hs := hsign s
    rw [Machine.round, if_neg (by decide)]
    omega
  | fin s n d =>
    have hmag := roundMag_E4M3_le m s n d w
    have hs := hsign s
    rw [Machine.round]
    omega

/-! ### Scales that are powers of two -/

/-- A positive power of two, as R123's step rule forms it from one. -/
def ExactNum.IsPowTwo (s : ExactNum) : Prop := ∃ a b : Nat, s = .fin false (2 ^ a) (2 ^ b)

/-- Multiplying a finite value by a power of two and dividing it by the same shifts both parts of its fraction. -/
theorem ExactNum.IsPowTwo.mul_div {s : ExactNum} (hs : s.IsPowTwo) : ∃ j, ∀ neg n d,
    ((ExactNum.fin neg n d).mul s).div s = .fin neg (n * 2 ^ j) (d * 2 ^ j) := by
  obtain ⟨a, b, rfl⟩ := hs
  refine ⟨a + b, fun neg n d => ?_⟩
  have ha : 2 ^ a ≠ 0 := Nat.ne_of_gt (Nat.two_pow_pos a)
  have hn : n * 2 ^ a * 2 ^ b = n * 2 ^ (a + b) := by rw [Nat.mul_assoc, ← Nat.pow_add]
  have hd : d * 2 ^ b * 2 ^ a = d * 2 ^ (a + b) := by rw [Nat.mul_assoc, ← Nat.pow_add, Nat.add_comm b]
  have hneg : ((neg != false) != false) = neg := by cases neg <;> rfl
  simp only [mul, div, if_neg ha, hn, hd, hneg]

theorem raiseScale_isPowTwo (xs : List ExactNum) (bound : ExactNum) (k : Nat) :
    ∀ s : ExactNum, s.IsPowTwo → (raiseScale xs bound k s).IsPowTwo := by
  induction k with
  | zero => exact fun _ hs => hs
  | succ k ih =>
    intro s hs
    refine ih _ ?_
    split
    · obtain ⟨a, b, rfl⟩ := hs
      exact ⟨a + 1, b, by simp [ExactNum.mul, Nat.pow_succ, Nat.mul_comm]⟩
    · exact hs

theorem raiseScale_of_not_exceeds {xs : List ExactNum} {s bound : ExactNum} (h : exceeds xs s bound = false) (k : Nat) :
    raiseScale xs bound k s = s := by
  induction k with
  | zero => rfl
  | succ k ih => simp [raiseScale, h, ih]

theorem stepScale_of_not_exceeds {xs : List ExactNum} {s bound : ExactNum} (h : exceeds xs s bound = false) :
    stepScale xs s bound = (s, false) := by
  simp [stepScale, raiseScale_of_not_exceeds h, h]

/-- The order of two values whose signs are clear. -/
theorem ExactNum.lt_fin_false (m e n d : Nat) : (ExactNum.fin false m e).lt (.fin false n d) = decide (m * d < n * e) := by
  change (compareOfLessAndEq ((m * d : Nat) : Int) ((n * e : Nat) : Int) == .lt) = decide (m * d < n * e)
  unfold compareOfLessAndEq
  by_cases h : m * d < n * e
  · rw [if_pos (Int.ofNat_lt.mpr h), decide_eq_true h]
    rfl
  · rw [if_neg (mt Int.ofNat_lt.mp h), decide_eq_false h]
    split <;> rfl

/-- Whether a magnitude exceeds a bound does not change when both parts of the fraction are shifted. -/
theorem ExactNum.lt_abs_mul_two_pow (m e : Nat) (neg : Bool) (n d j : Nat) :
    (ExactNum.fin false m e).lt (ExactNum.fin neg (n * 2 ^ j) (d * 2 ^ j)).abs =
      (ExactNum.fin false m e).lt (ExactNum.fin neg n d).abs := by
  have hshift : m * (d * 2 ^ j) < n * 2 ^ j * e ↔ m * d < n * e := by
    rw [← Nat.mul_assoc, Nat.mul_right_comm n]
    exact Nat.mul_lt_mul_right (Nat.two_pow_pos j)
  rw [abs, abs, lt_fin_false, lt_fin_false, decide_eq_decide]
  exact hshift

/-- Scaling a code's value by a power of two and back: the code is given back in every mode and with every draw. -/
theorem ExactNum.IsPowTwo.round_mul_div {s x : ExactNum} (hs : s.IsPowTwo) {f : Fmt} {q : Nat} (hx : x.heldAs f q = true)
    (m : RMode) (w : Draw) : Machine.round f m ((x.mul s).div s) w = q := by
  obtain ⟨neg, n, d, rfl, hd, hnb, hmax, hu, hsign⟩ := heldAs_iff.mp hx
  obtain ⟨j, hj⟩ := hs.mul_div
  have hnb' := (neighbours_mul_two_pow f n hd j).trans hnb
  have hu' : n * 2 ^ j ≠ 0 → d * 2 ^ j ≤ n * 2 ^ j * 2 ^ f.minExp := fun h => by
    rw [Nat.mul_right_comm]
    exact Nat.mul_le_mul_right _ (hu (Nat.ne_zero_of_mul_ne_zero_left h))
  rw [hj, Machine.round, roundMag_of_exact hnb' hmax hu', ← hsign, Nat.mul_comm, Nat.mod_add_div]

/-- Scaling by a power of two and back takes a value that does not exceed a bound to one that does not. -/
theorem ExactNum.IsPowTwo.lt_abs_mul_div {s : ExactNum} (hs : s.IsPowTwo) (m e : Nat) (neg : Bool) (n d : Nat) :
    (ExactNum.fin false m e).lt (((ExactNum.fin neg n d).mul s).div s).abs = (ExactNum.fin false m e).lt (ExactNum.fin neg n d).abs := by
  obtain ⟨j, hj⟩ := hs.mul_div
  rw [hj, lt_abs_mul_two_pow]

/-- Settles O19 (R124): the returned scale is a power of two, so that each new element divided by it is its code's value with both parts
of the fraction shifted. That value lies within 448, so no raise occurs, and it is exact, so it rounds to its code. -/
theorem quantisationIsIdempotent : Obligations.QuantisationIsIdempotent := by
  unfold Obligations.QuantisationIsIdempotent
  intro xs a b m m' draw draw' s q hq ys
  have hs : s.IsPowTwo := raiseScale_isPowTwo _ _ 3 _ ⟨a, b, rfl⟩
  have hcode (e : Nat) (he : e < xs.length) := decodeNum_E4M3_heldAs (q e) (round_E4M3_lt ..) (hq e he)
  constructor
  · refine stepScale_of_not_exceeds (List.any_eq_false.mpr fun y hy => ?_)
    obtain ⟨e, he, rfl⟩ := List.mem_map.mp hy
    obtain ⟨hheld, hle⟩ := hcode e (List.mem_range.mp he)
    obtain ⟨neg, n, d, hx, -⟩ := ExactNum.heldAs_iff.mp hheld
    rw [hx] at hle ⊢
    have hback : e4m3Max.lt (((ExactNum.fin neg n d).mul s).div s).abs = false := (hs.lt_abs_mul_div 448 1 neg n d).trans hle
    simp [hback]
  · intro e he
    have hy : ys.getD e .nan = (decodeNum E4M3 (q e)).mul s := by simp [ys, he]
    rw [hy]
    exact hs.round_mul_div (hcode e he).1 m' (draw' e)

end Sys2Proof.Machine
end

section
/-! PROOF of O27 (R163). JOPEN's body is a case split on whether token k or one above it is open; what it answers in each case is
carried out by `runWord_go`. -/
namespace Sys2Proof.Machine

open Spec

theorem any_openFrom_eq_false_iff (g : Group) (k : Nat) :
    ((List.range 8).any fun j => k ≤ j && (g.tok j).mem != 0) = false ↔ noneOpenFrom g k := by
  simp only [List.any_eq_false, List.mem_range, Bool.and_eq_true, decide_eq_true_eq, bne_iff_ne, not_and, ne_eq, Decidable.not_not]
  exact ⟨fun h j hk hj => h j hj hk, fun h j hj hk => h j hk hj⟩

/-- Token `k` is in bounds, so that setting it in its group is setting its place in the list of tokens. -/
theorem Group.setTok_eq_set (g : Group) (k : Fin 8) (t : Token) : g.setTok k.val t = { g with j := g.j.set k t } := by
  have hset : g.j.setIfInBounds k.val t = g.j.set k t := by
    ext n
    simp [Vector.getElem_setIfInBounds, Vector.getElem_set]
  rw [Group.setTok, hset]

theorem jopenBody_of_open {w : CtlTokDisp} {x : Ex} (h : ¬ noneOpenFrom x.c.g w.k.val) (s : State) :
    jopenBody w x s = .trap (trapTok w.k.val) :=
  if_pos (Bool.of_not_eq_false (mt (any_openFrom_eq_false_iff _ _).mp h))

theorem jopenBody_of_noneOpenFrom {w : CtlTokDisp} {x : Ex} (h : noneOpenFrom x.c.g w.k.val) (s : State) :
    jopenBody w x s = .done (s.modGroup x.c.ref fun g =>
      { g with tokVc := Store.set [] g.tokVc w.k.val [], j := g.j.set w.k ⟨g.exec, 0, dispPc x.pc w.disp, 0⟩ }) [] none := by
  simp only [jopenBody, (any_openFrom_eq_false_iff _ _).mpr h, Bool.false_eq_true, if_false, Group.setTok_eq_set]

/-- Settles O27 (R163), by the two cases of JOPEN's body: a token from k on is open, or none is. -/
theorem jopenOpensAToken : Obligations.JopenOpensAToken := by
  unfold Obligations.JopenOpensAToken
  constructor
  · intro w n v hv
    obtain rfl : ctlView .uniform w.h none none none none = v := Option.some.inj hv
    rfl
  · intro s w x hx
    have hexec : exec (.jopen w) s = .next (x.finish (start x s) (jopenBody w x (start x s))) := runWord_go hx _
    refine ⟨fun hopen => ?_, fun hnone => ?_⟩
    · rw [hexec, jopenBody_of_open hopen]
      rfl
    · rw [hexec, jopenBody_of_noneOpenFrom hnone]
      rfl

end Sys2Proof.Machine
end

section
/-! REFUTATION of O28 (R164). Its first clause says that a BR.D which no lane takes retires as long as each entry of the group's
lookahead has a window that is open or has delivered. An entry of a replay word is waited for with its window open as well, since the
replay word is executed alone (R95): the BR.D behind one waits, and its program counter stays. A group of the machine comes to stand
so when a load with an open window fails after acceptance, and the group is resumed and executes the load again. -/
namespace Sys2Proof.Machine

open Spec

/-- A word behind a replay word that has not delivered its result waits, whatever the window of the replay word (R95). -/
theorem lookOf_eq_wait_of_again {c : Ctx} {v : View} {e : LaEnt} (hreplay : c.g.replay = none) (he : e ∈ c.g.la)
    (hagain : e.again = true) (hdone : e.done = false) : lookOf c v = .wait := by
  have hany : (c.g.la.any fun e => (e.window == 0 || e.again) && !e.done) = true :=
    List.any_eq_true.mpr ⟨e, he, by simp [hagain, hdone]⟩
  simp [lookOf, hreplay, lookCheck, hany]

/-- A party that no CANCEL ends at its word goes on to the word's issue. -/
theorem Ctx.issue_of_not_killedAt {c : Ctx} {i : Instr} {v : View} (hkill : killedAt c i v = false) (body : Ex → State → Eff)
    (s : State) : c.issue i v body s = Ctx.issue.issueLive c i v body s c.g c.g.replay.isSome (inactive c v) (skipped c v) (activeOf c v)
      ⟨c, i, v, activeOf c v, c.g.issuePc, [], c.g.replay.isSome⟩ := by
  unfold killedAt at hkill
  unfold Ctx.issue
  dsimp only
  split
  next k hk =>
    simp only [hk] at hkill
    exact if_neg (ne_true_of_eq_false hkill)
  next => rfl

/-- An inactive word raises no cause: where its lookahead check answers that it waits, its group waits at it (R94, R100). -/
theorem runWord_of_inactive_of_wait {s : State} {i : Instr} {c : Ctx} {v : View} (hp : party s i = some (c, v))
    (hkill : killedAt c i v = false) (hin : inactive c v = true) (hlook : lookOf c v = .wait) (body : Ex → State → Eff) :
    runWord i body s = .next (s.setWait c.ref .engine) := by
  rw [lookOf, hin] at hlook
  rw [runWord_party hp, Ctx.issue_of_not_killedAt hkill]
  simp only [Ctx.issue.issueLive, hin, if_true, hlook]

/-- A party that is set waiting keeps its program counter. -/
theorem grp?_setWait_pc {s : State} {r : GRef} {c : Ctx} (hc : s.ctx? r = some c) (w : Wait) :
    (grp? (s.setWait r w) r).map (·.pc) = some c.g.pc := by
  simp [State.setWait, grp?, State.ctx?_modGroup_self hc]

/-! ### A run that leaves a replay word outstanding with its window open -/

/-- The group of the run. -/
def replayer : GRef := ⟨⟨1, 0, false⟩, .grp 0⟩

/-- The state after `i`, a word of the group or an event that concerns it; an outcome that is no next state leaves the state as it is. -/
def State.replayerDoes (s : State) (i : Instr) : State :=
  match exec i { s with cur := .grp replayer } with
  | .next t => { t with cur := .grp replayer }
  | _ => s

/-- `LD.b32 v9, [s1] la 7` -/
def windowedLoad : Instr := .ld ⟨⟨7, 7, false, .none⟩, .b32, false, false, .v 9, ⟨.s 1, .zero, .x1, 0⟩⟩

/-- The group opens token 7 and loads from a line that is lost; the load fails when its result is due, and the group stops. -/
def loadFailed : State :=
  let s := (State.reset.placeWord 0).modGroup replayer fun g => g.setS 1 0x10200
  let s := (s.replayerDoes (.jopen ⟨⟨0, 7, false, .none⟩, 7, 64⟩)).replayerDoes windowedLoad
  ((s.setLost 0x10200 true).replayerDoes (.longLatencyDelivery replayer 0)).replayerDoes (.lateFailure replayer 0)

/-- The line has been mended, and the group has been resumed and has executed its replay word, the load. -/
def loadReplayed : State := ((loadFailed.resumeGroup replayer).setLost 0x10200 false).replayerDoes windowedLoad

/-- `(!p7) BR.D j7`, which no lane takes. -/
def untakenBrD : CtlTokDisp := ⟨⟨0, 7, true, .none⟩, 7, 64⟩

/-- The premises of O28's first clause hold, and an entry of a replay word has not delivered its result. -/
def behindReplay (c : Ctx) (i : Instr) (v : View) : Bool :=
  !killedAt c i v && guarded c v == 0 && c.g.replay.isNone && (c.g.la.all fun e => e.window != 0 || e.done) &&
    c.g.la.any fun e => e.again && !e.done

theorem behindReplay_iff {c : Ctx} {i : Instr} {v : View} : behindReplay c i v = true ↔
    killedAt c i v = false ∧ guarded c v = 0 ∧ c.g.replay = none ∧ (c.g.la.all fun e => e.window != 0 || e.done) = true ∧
      ∃ e ∈ c.g.la, e.again = true ∧ e.done = false := by
  simp [behindReplay, and_assoc]

/-- Behind a replay word a BR.D that no lane takes keeps its program counter. -/
theorem execBrD_pc_of_behindReplay {s : State} {w : CtlTokDisp} {c : Ctx} {v : View} (hp : party s (.brD w) = some (c, v))
    (hb : behindReplay c (.brD w) v = true) :
    ∃ t, exec (.brD w) s = .next t ∧ (grp? t c.ref).map (·.pc) = some c.g.pc := by
  obtain ⟨hkill, hguard, hreplay, -, e, he, hagain, hdone⟩ := behindReplay_iff.mp hb
  obtain ⟨r, -, hc, hv⟩ := party_some hp
  have hkind : v.kind = .vector := by
    obtain rfl : ctlView .vector w.h none none none none = v := Option.some.inj hv
    rfl
  have hin : inactive c v = true := by simp [inactive, hkind, hguard, hreplay]
  refine ⟨_, runWord_of_inactive_of_wait hp hkill hin (lookOf_eq_wait_of_again hreplay he hagain hdone) _, ?_⟩
  exact grp?_setWait_pc (ctx?_ref hc ▸ hc) _

theorem nextPc_ne_self (a : Addr) : nextPc a ≠ a := by
  unfold nextPc
  split <;> simp

theorem party_loadReplayed_behindReplay :
    (party loadReplayed (.brD untakenBrD)).any (fun e => behindReplay e.1 (.brD untakenBrD) e.2) = true := by
  decide +kernel

/-- Refutes O28 (R164): after the run of `loadReplayed` the BR.D meets every premise of the first clause, and does not retire but waits
for the replay word. -/
theorem not_divergentBranch : ¬ Obligations.DivergentBranch := by
  unfold Obligations.DivergentBranch
  rintro ⟨hretires, -⟩
  obtain ⟨⟨c, v⟩, hp, hb⟩ := (Option.any_eq_true _ _).mp party_loadReplayed_behindReplay
  obtain ⟨hkill, hguard, hreplay, hla, -⟩ := behindReplay_iff.mp hb
  obtain ⟨t, g, hexec, hg, -, -, -, hpc⟩ := hretires _ _ c v hp hkill hguard hreplay hla
  obtain ⟨u, hu, hstays⟩ := execBrD_pc_of_behindReplay hp hb
  obtain rfl : t = u := Host.Outcome.next.inj (hexec.symm.trans hu)
  have : g.pc = c.g.pc := by simpa [hg] using hstays
  exact nextPc_ne_self c.g.pc (hpc.symm.trans this)

end Sys2Proof.Machine
end
